-- ==== Sys2Proof/Word.lean ====
section
/-! DEFINITION. The words of the machine: bytes, CPU addresses, PPU addresses and loopy scroll values
(00_scope.md R7, R8; 10_state.md R20-R22, R40). Their arithmetic is that of `BitVec`: it wraps at the width,
as 00_scope.md R8 says of `+` and `-` on an N-bit value. -/

namespace Sys2Proof

/-- A byte: `DATA_WIDTH` is 8 (00_scope.md R7). -/
abbrev Byte := BitVec 8

/-- A CPU address: `CPU_ADDR_WIDTH` is 16 (00_scope.md R7). -/
abbrev Addr := BitVec 16

/-- A PPU address: `PPU_ADDR_WIDTH` is 14 (00_scope.md R7). -/
abbrev PAddr := BitVec 14

/-- A loopy scroll value, the type of `ppu.v` and `ppu.t` (10_state.md R40). -/
abbrev Loopy := BitVec 15

end Sys2Proof
end

