-- ==== Sys2Proof/Machine/Bits.lean ====
section
/-! DEFINITION. Bit fields, byte order and sign extension: the notation of 00_scope.md R8, and the fields of the loopy
scroll registers (10_state.md R40). -/

namespace Sys2Proof

/-- `h:l`, the 16-bit value of two bytes (00_scope.md R8). -/
def wordOf (h l : Byte) : Addr := h ++ l

/-- `a[15:8]` -/
def hiByte (a : Addr) : Byte := a.extractLsb' 8 8

/-- `a[7:0]` -/
def loByte (a : Addr) : Byte := a.setWidth 8

/-- `zext_16` of a byte -/
def zext16 (b : Byte) : Addr := b.setWidth 16

/-- `sext_16` of a byte -/
def sext16 (b : Byte) : Addr := b.signExtend 16

/-- A bit as a byte, `bool(c)` of 00_scope.md R8. -/
def bitByte (c : Bool) : Byte := if c then 1 else 0

/-- The stack address `$0100 | SP` (10_state.md R21). -/
def stackAddr (sp : Byte) : Addr := wordOf 0x01 sp

namespace Loopy

/-- fine Y, `u[14:12]` -/
def fy (u : Loopy) : BitVec 3 := u.extractLsb' 12 3
/-- nametable Y, `u[11]` -/
def ny (u : Loopy) : BitVec 1 := u.extractLsb' 11 1
/-- nametable X, `u[10]` -/
def nx (u : Loopy) : BitVec 1 := u.extractLsb' 10 1
/-- coarse Y, `u[9:5]` -/
def cy (u : Loopy) : BitVec 5 := u.extractLsb' 5 5
/-- coarse X, `u[4:0]` -/
def cx (u : Loopy) : BitVec 5 := u.extractLsb' 0 5

/-- The value of the five fields, most significant first (10_state.md R40). -/
def ofFields (fy : BitVec 3) (ny nx : BitVec 1) (cy cx : BitVec 5) : Loopy :=
  fy ++ ny ++ nx ++ cy ++ cx

def setFy (u : Loopy) (f : BitVec 3) : Loopy := ofFields f (ny u) (nx u) (cy u) (cx u)
def setNy (u : Loopy) (n : BitVec 1) : Loopy := ofFields (fy u) n (nx u) (cy u) (cx u)
def setNx (u : Loopy) (n : BitVec 1) : Loopy := ofFields (fy u) (ny u) n (cy u) (cx u)
def setCy (u : Loopy) (c : BitVec 5) : Loopy := ofFields (fy u) (ny u) (nx u) c (cx u)
def setCx (u : Loopy) (c : BitVec 5) : Loopy := ofFields (fy u) (ny u) (nx u) (cy u) c

/-- `u[11:10] <- n`: the two nametable bits. -/
def setNametable (u : Loopy) (n : BitVec 2) : Loopy :=
  ofFields (fy u) (n.extractLsb' 1 1) (n.extractLsb' 0 1) (cy u) (cx u)

/-- `u[13:8] <- hi; u[14] <- 0`: the first write of `$2006` (52_ppu_registers.md R379). -/
def setHigh (u : Loopy) (hi : BitVec 6) : Loopy := (0 : BitVec 1) ++ hi ++ (u.setWidth 8 : BitVec 8)

/-- `u[7:0] <- lo`: the second write of `$2006` (52_ppu_registers.md R379). -/
def setLow (u : Loopy) (lo : Byte) : Loopy := (u.extractLsb' 8 7 : BitVec 7) ++ lo

/-- The horizontal bits `u[10]` and `u[4:0]` of `from_` (10_state.md R40). -/
def copyHorizontal (u from_ : Loopy) : Loopy := ofFields (fy u) (ny u) (nx from_) (cy u) (cx from_)

/-- The PPU address `u & $3FFF` (52_ppu_registers.md R382). -/
def address (u : Loopy) : PAddr := u.setWidth 14

/-- `incY`, the vertical increment that wraps at 240 rows (52_ppu_registers.md R384). -/
def incY (u : Loopy) : Loopy :=
  if fy u < 7 then setFy u (fy u + 1)
  else if cy u = 29 then ofFields 0 (ny u ^^^ 1) (nx u) 0 (cx u)
  else if cy u = 31 then ofFields 0 (ny u) (nx u) 0 (cx u)
  else ofFields 0 (ny u) (nx u) (cy u + 1) (cx u)

end Loopy

/-- A SCROLL event's value, `v | x << 15` (53_ppu_timing_events.md R410). -/
def scrollValue (v : Loopy) (x : BitVec 3) : BitVec 18 := x ++ v

/-- `value[14:0]` of a SCROLL event -/
def scrollV (value : BitVec 18) : Loopy := value.setWidth 15

/-- `value[17:15]` of a SCROLL event -/
def scrollX (value : BitVec 18) : BitVec 3 := value.extractLsb' 15 3

end Sys2Proof
end

