-- ==== Sys2Proof/Config.lean ====
section
/-! DEFINITION. The implementation parameters of 00_scope.md R7. The fixed ones are constants; the ones a model takes
as arguments are the fields of `Config`, which stands in State because the host's `step` takes nothing but a state
(10_state.md R53; DESIGN CHOICE, log entry 4); the OPEN palette of RGB values is a constant without a body. -/

namespace Sys2Proof

/-- What a read of an address with no handler returns (50_bus_devices.md R301): OPEN. -/
inductive OpenBusPolicy where
  /-- the fixed value 0 -/
  | zero
  /-- the byte returned by the most recent CPU bus read -/
  | lastRead
  deriving DecidableEq, Repr

/-- What an undefined opcode does (00_scope.md R7): `nop` is the hardware, `refuse` is the conservative modelling
choice of 46_undefined_opcodes.md R261. -/
inductive UndefinedOpcodePolicy where
  | nop
  | refuse
  deriving DecidableEq, Repr

/-- The parameters a model takes as arguments (00_scope.md R7, 10_state.md R53). -/
structure Config where
  openBus           : OpenBusPolicy
  undefinedOpcode   : UndefinedOpcodePolicy
  /-- `EVENT_CAPACITY`: how many records an event arena holds, the sentinel included -/
  eventCapacity     : Nat
  /-- the mapper numbers a ROM image may declare -/
  registeredMappers : List Nat
  deriving DecidableEq, Repr

namespace Config

/-- `DOTS_PER_CPU_CYCLE` -/
def dotsPerCycle : Nat := 3
/-- `DOTS_PER_LINE` -/
def dotsPerLine : Nat := 341
/-- `LINES_PER_FRAME` -/
def linesPerFrame : Nat := 262
/-- `VBLANK_LINE` -/
def vblankLine : Nat := 240
/-- `PRERENDER_LINE` -/
def prerenderLine : Nat := 261
/-- `SCREEN_W` -/
def screenW : Nat := 256
/-- `SCREEN_H` -/
def screenH : Nat := 240
/-- `RAM_SIZE` -/
def ramSize : Nat := 2048
/-- `PRG_RAM_SIZE` -/
def prgRamSize : Nat := 8192
/-- the 14-bit PPU space (10_state.md R42) -/
def vramSize : Nat := 16384
/-- `OAM_SIZE` -/
def oamSize : Nat := 256
/-- `apu.reg[0..23]` (10_state.md R33) -/
def apuRegs : Nat := 24
/-- the smallest `EVENT_CAPACITY` of 00_scope.md R7 with which an event queue cannot overflow -/
def minEventCapacity : Nat := 2893

/-- `masterPalette`: the RGB value of each of the 64 colours. 00_scope.md R7 leaves it OPEN, so it has no body:
nothing can evaluate it (DESIGN CHOICE, log entry 4). No step reads it. -/
opaque masterPalette : BitVec 6 → BitVec 24

/-- The values `State.reset` takes for the parameters that are OPEN (DESIGN CHOICE, log entry 4): DESIGN CHOICE, but for
`undefinedOpcode`, where `nop` is the hardware (00_scope.md R7), and `eventCapacity`, whose default R7 names. -/
def default : Config where
  openBus := .zero
  undefinedOpcode := .nop
  eventCapacity := 4096
  registeredMappers := [0, 1, 2, 3, 4, 7]

/-- The values 00_scope.md R7 allows: a capacity that cannot overflow, and the mapper numbers a superset of
{0, 7} and a subset of {0, 1, 2, 3, 4, 7}. -/
abbrev Legal (c : Config) : Prop :=
  minEventCapacity ≤ c.eventCapacity ∧ 0 ∈ c.registeredMappers ∧ 7 ∈ c.registeredMappers ∧
    ∀ n ∈ c.registeredMappers, n ∈ [0, 1, 2, 3, 4, 7]

end Config
end Sys2Proof
end

