-- ==== Sys2Proof/Machine/State.lean ====
section
/-! DEFINITION. The state of the machine as plain data (10_state.md R20-R60), the reasons a step can stop, and the state
after power-on. Every field's docstring names its rule. -/

namespace Sys2Proof.Machine

/-- A memory of `w`-bit cells: the listed cells, in the canonical form of `Memory.wf` (addresses strictly rising, no cell
listed that holds 0). A cell that is not listed holds 0: every memory of the machine is all zero after reset
(10_state.md R60). -/
abbrev Cells (w : Nat) := List (Nat × BitVec w)

/-- A memory of bytes. -/
abbrev Memory := List Host.Cell

/-- The request lines of the IRQ input, one for each source (10_state.md R26). -/
structure IrqLines where
  mapper   : Bool
  external : Bool
  deriving DecidableEq, Repr

/-- The CPU (10_state.md R20-R28). The flags are six stored bits; bits 5 and 4 of the status byte are not stored (R24). -/
structure Cpu where
  /-- the accumulator (R20) -/
  a : Byte
  /-- the index register X (R20) -/
  x : Byte
  /-- the index register Y (R20) -/
  y : Byte
  /-- the stack pointer (R21) -/
  sp : Byte
  /-- the program counter (R22) -/
  pc : Addr
  /-- negative (R24) -/
  n : Bool
  /-- overflow (R24) -/
  v : Bool
  /-- decimal (R24), which no arithmetic reads (42_arith_logic.md R196) -/
  d : Bool
  /-- interrupt disable (R24) -/
  i : Bool
  /-- zero (R24) -/
  z : Bool
  /-- carry (R24) -/
  c : Bool
  /-- a requested NMI not yet taken (R26) -/
  nmiPending : Bool
  /-- the IRQ request lines (R26) -/
  irqLines : IrqLines
  /-- the cumulative cycle counter, unbounded (R27) -/
  cycles : Nat
  /-- read at the top of each batch; it does not change what a step does (R28) -/
  paused : Bool
  deriving DecidableEq, Repr

/-- The open-bus latch (10_state.md R31). -/
structure Bus where
  lastRead : Byte
  deriving DecidableEq, Repr

/-- One controller port (10_state.md R32). -/
structure Port where
  /-- the host's button mask, bit 0 = A ... bit 7 = Right -/
  buttons : Byte
  /-- the serial shift register -/
  shift : Byte
  deriving DecidableEq, Repr

/-- The controller ports and their shared strobe bit (10_state.md R32). -/
structure Pad where
  port1  : Port
  port2  : Port
  strobe : Bool
  deriving DecidableEq, Repr

/-- The four mirroring modes (10_state.md R45). -/
inductive Mirroring where
  | horizontal
  | vertical
  | single0
  | single1
  deriving DecidableEq, Repr

/-- The mapper variants: mapper numbers 0, 1, 2, 3, 4 and 7 (51_mappers.md R330). -/
inductive Variant where
  | nrom
  | mmc1
  | uxrom
  | cnrom
  | mmc3
  | axrom
  deriving DecidableEq, Repr

/-- The registers of MMC1 (51_mappers.md R352). -/
structure Mmc1 where
  /-- the serial load register with its marker bit, in 1..$1F -/
  shift   : BitVec 5
  control : BitVec 5
  chr0    : BitVec 5
  chr1    : BitVec 5
  prgReg  : BitVec 5
  deriving DecidableEq, Repr

/-- The registers of MMC3 (51_mappers.md R355). -/
structure Mmc3 where
  bankSelect : Byte
  /-- the bank registers `R[0..7]` -/
  r          : Vector Byte 8
  irqLatch   : Byte
  irqCounter : Byte
  irqReload  : Bool
  irqEnable  : Bool
  deriving DecidableEq, Repr

/-- The variant's own registers, tagged with the variant (51_mappers.md R330). -/
inductive MapperRegs where
  /-- no registers (R340) -/
  | nrom
  /-- R352 -/
  | mmc1 (r : Mmc1)
  /-- R350 -/
  | uxrom (bank : Byte)
  /-- R351 -/
  | cnrom (bank : Byte)
  /-- R355 -/
  | mmc3 (r : Mmc3)
  /-- no registers (R345) -/
  | axrom
  deriving DecidableEq, Repr

/-- The mapper binding (10_state.md R34). -/
structure Mapper where
  regs      : MapperRegs
  /-- a byte offset into the PRG data for each 8KB window of $8000-$FFFF -/
  prgOff    : Vector Nat 4
  /-- a byte offset into the CHR data for each 1KB window of the PPU's $0000-$1FFF, used only with CHR ROM -/
  chrOff    : Vector Nat 8
  mirroring : Mirroring
  /-- the interrupt request, which only MMC3 drives (51_mappers.md R360) -/
  irq       : Bool
  deriving DecidableEq, Repr

/-- What an event changes: its kind, its new value and, for a CHR bank, the slot
(53_ppu_timing_events.md R410). -/
inductive Change where
  /-- CTRL: the control byte -/
  | ctrl (value : Byte)
  /-- MASK: the mask byte -/
  | mask (value : Byte)
  /-- SCROLL: `v | x << 15`, 18 bits -/
  | scroll (value : BitVec 18)
  /-- CHR_BANK: the byte offset for a slot 0..7 -/
  | chrBank (slot : Fin 8) (offset : Nat)
  /-- MIRRORING: the mode -/
  | mirroring (mode : Mirroring)
  /-- END: the sentinel of a frozen queue -/
  | stop
  deriving DecidableEq, Repr

/-- An event record: the target line and the change (53_ppu_timing_events.md R410). -/
structure Event where
  line   : Nat
  change : Change
  deriving DecidableEq, Repr

/-- A baseline, and the renderer's working copy (10_state.md R49; 54_ppu_renderer.md R442). -/
structure Snapshot where
  ctrl      : Byte
  mask      : Byte
  v         : Loopy
  x         : BitVec 3
  chrOff    : Vector Nat 8
  mirroring : Mirroring
  deriving DecidableEq, Repr

/-- The PPU (10_state.md R36-R51). -/
structure Ppu where
  /-- $2000 (R36) -/
  ctrl : Byte
  /-- $2001 (R37) -/
  mask : Byte
  /-- bit 7 of the status (R38) -/
  vblank : Bool
  /-- bit 6 of the status, the sprite-zero hit (R38) -/
  hit : Bool
  /-- $2003 (R39) -/
  oamAddr : Byte
  /-- the current VRAM address (R40) -/
  v : Loopy
  /-- the temporary address (R40) -/
  t : Loopy
  /-- fine X (R40) -/
  x : BitVec 3
  /-- the write toggle (R40) -/
  w : Bool
  /-- the delayed-read latch of $2007 (R41) -/
  readBuf : Byte
  /-- video RAM: CHR RAM, nametable pages, palette RAM (R42, R44) -/
  vram : Memory
  /-- object memory (R43) -/
  oam : Memory
  mirroring : Mirroring
  /-- two bits for each quadrant, its physical page (R45) -/
  mirrorMask : Byte
  /-- the PPU's copy of the CHR offsets (R46) -/
  chrOff : Vector Nat 8
  /-- the dots since reset (R47) -/
  dots : Nat
  /-- the current scanline, 0..261 (R47) -/
  line : Nat
  /-- the vblank entries since reset (R47) -/
  frame : Nat
  /-- the queue being built for the next frame, oldest first (R48) -/
  nextQ : List Event
  /-- the queue frozen for replay (R48) -/
  curQ : List Event
  /-- the baseline taken at the latest vblank entry (R49) -/
  frameBase : Snapshot
  /-- the baseline of the frame being rendered (R49) -/
  renderBase : Snapshot
  /-- the line at whose start `v` stands (R50) -/
  liveLine : Nat
  /-- the index buffer, cell `256 * line + column` (R51) -/
  index : Cells 5
  /-- the colour numbers of the last rendered frame, cell `256 * line + column` (R51) -/
  frameOut : Cells 6
  deriving DecidableEq, Repr

/-- What a vblank callback may do to the machine (55_console_host.md R472): reading state and `save()` change nothing
and need no constructor (DESIGN CHOICE, log entry 5). -/
inductive CallbackAction where
  | setButtons1 (mask : Byte)
  | setButtons2 (mask : Byte)
  | pause (b : Bool)
  deriving DecidableEq, Repr

/-- The vblank callback as plain data: for each of its next calls, the actions it takes, the next call's first
(DESIGN CHOICE, log entry 5). Once the list is used up a call does nothing. -/
structure VblankCallback where
  calls : List (List CallbackAction)
  deriving DecidableEq, Repr

/-- One answer of the breakpoint callback (55_console_host.md R473): whether it stops, and the `pause(b)` it
called, if any. -/
structure BreakpointAnswer where
  stop  : Bool
  pause : Option Bool
  deriving DecidableEq, Repr

/-- The breakpoint callback as plain data: its answers, the next call's first (DESIGN CHOICE, log entry 5). Once the list is used up
it answers `continue`. -/
structure BreakpointCallback where
  answers : List BreakpointAnswer
  deriving DecidableEq, Repr

/-- The orchestrator's own state (10_state.md R52). -/
structure Console where
  /-- a cartridge is installed -/
  loaded             : Bool
  vblankCallback     : Option VblankCallback
  breakpointCallback : Option BreakpointCallback
  deriving DecidableEq, Repr

/-- The installed ROM image: configuration that no step changes (10_state.md R53; 55_console_host.md R481, R482). The bytes
are memories, so a byte that is not listed is 0. -/
structure Cart where
  variant    : Variant
  /-- the header's mirroring mode, HORIZONTAL or VERTICAL -/
  headerMode : Mirroring
  /-- PRG size in 16KB units -/
  nPrg       : Nat
  /-- CHR size in 8KB units; 0 means CHR RAM -/
  nChr       : Nat
  prg        : Memory
  chr        : Memory
  deriving DecidableEq, Repr

/-- The whole machine (10_state.md). -/
structure State where
  cpu     : Cpu
  /-- work RAM, 2,048 bytes (R29) -/
  ram     : Memory
  /-- cartridge RAM, 8,192 bytes (R30) -/
  prgRam  : Memory
  bus     : Bus
  pad     : Pad
  /-- the audio registers `apu.reg[0..23]` (R33) -/
  apuReg  : Memory
  mapper  : Mapper
  ppu     : Ppu
  console : Console
  cart    : Cart
  cfg     : Config
  deriving DecidableEq, Repr

/-- Model-level stops that are no event of the hardware (00_scope.md R11). -/
inductive Fault where
  /-- An event would be recorded into a full arena. Raised by `record` (53_ppu_timing_events.md R411, R418), so by a write of
  $2000, $2001, $2005 or $2006, by a mapper write, and by the PPU's advance at line 261; unreachable when
  `EVENT_CAPACITY` is at least 2,893. Safe: the machine stops where the hardware has no such event. -/
  | eventQueueOverflow
  /-- A counter does not fit its field of the save-state blob (93_implementation_defined.md I-30). Raised by `save` only,
  never by a step. Safe: no blob is made where the hardware's counters are unbounded. -/
  | counterOverflow
  deriving DecidableEq, Repr

/-- Why an instruction is given no meaning (00_scope.md R11). -/
inductive Refusal where
  /-- Raised by an arm of `exec` that has no meaning yet. Safe: the run stops. No arm raises it. -/
  | notModelled (mnemonic : String)
  /-- An undefined opcode was fetched from the address `pc` under `undefinedOpcodePolicy = refuse`
  (46_undefined_opcodes.md R261). Raised by the meanings of the 105 undefined opcodes, under that policy only.
  Safe: the hardware runs a no-op there. -/
  | undefinedOpcode (op : Byte) (pc : Addr)
  deriving DecidableEq, Repr

/-- How a meaning or a step ends. -/
abbrev Result := Host.Outcome State Fault Refusal

/-- The CPU after reset, but for the vector it then reads (70_reset_and_hazards.md R530). -/
def Cpu.reset : Cpu where
  a := 0
  x := 0
  y := 0
  sp := 0xFD
  pc := 0
  n := false
  v := false
  d := false
  i := true
  z := false
  c := false
  nmiPending := false
  irqLines := ⟨false, false⟩
  cycles := 0
  paused := false

/-- No cartridge: the unloaded machine of 70_reset_and_hazards.md R532 (DESIGN CHOICE, log entry 1). -/
def Cart.none : Cart where
  variant := .nrom
  headerMode := .horizontal
  nPrg := 0
  nChr := 0
  prg := []
  chr := []

/-- The mapper binding of the unloaded machine (DESIGN CHOICE, log entry 1). -/
def Mapper.none : Mapper where
  regs := .nrom
  prgOff := #v[0, 0, 0, 0]
  chrOff := #v[0, 0, 0, 0, 0, 0, 0, 0]
  mirroring := .horizontal
  irq := false

/-- The baseline that copies the reset values (10_state.md R49). -/
def Snapshot.reset : Snapshot where
  ctrl := 0
  mask := 0
  v := 0
  x := 0
  chrOff := #v[0, 0, 0, 0, 0, 0, 0, 0]
  mirroring := .horizontal

/-- The PPU after reset (10_state.md R60; 70_reset_and_hazards.md R531), with the mirroring and CHR offsets of the unloaded
machine. -/
def Ppu.reset : Ppu where
  ctrl := 0
  mask := 0
  vblank := false
  hit := false
  oamAddr := 0
  v := 0
  t := 0
  x := 0
  w := false
  readBuf := 0
  vram := []
  oam := []
  mirroring := .horizontal
  mirrorMask := 0x50
  chrOff := #v[0, 0, 0, 0, 0, 0, 0, 0]
  dots := 0
  line := 0
  frame := 0
  nextQ := []
  curQ := []
  frameBase := Snapshot.reset
  renderBase := Snapshot.reset
  liveLine := 0
  index := []
  frameOut := []

/-- The machine at power-on: unloaded (70_reset_and_hazards.md R532), every field at its reset value (10_state.md R60), and
`PC` what the reset vector reads as with no PRG data (DESIGN CHOICE, log entry 1). Loading a ROM image runs `systemReset`
(55_console_host.md R480), which gives the loaded machine the values of R60 again, the vector among them. -/
def State.reset : State where
  cpu := Cpu.reset
  ram := []
  prgRam := []
  bus := ⟨0⟩
  pad := ⟨⟨0, 0⟩, ⟨0, 0⟩, false⟩
  apuReg := []
  mapper := Mapper.none
  ppu := Ppu.reset
  console := ⟨false, none, none⟩
  cart := Cart.none
  cfg := Config.default

end Sys2Proof.Machine
end

