-- ==== Sys2Proof/Machine/Flags.lean ====
section
/-! DEFINITION. Every flag computation of the instruction set (10_state.md R25; 42_arith_logic.md R180-R196;
43_shift_rotate.md R210-R213). Sums are computed as natural numbers and narrowed at the end, as R180 says. -/

namespace Sys2Proof.Machine

/-- `NZ(r)`: N is bit 7 of the result, Z says that it is 0 (10_state.md R25). -/
def setNZ (r : Byte) (c : Cpu) : Cpu := { c with n := r.getLsbD 7, z := r = 0 }

/-- A load or transfer into A, X or Y, with its flags (41_load_store_transfer.md). -/
def loadA (r : Byte) (c : Cpu) : Cpu := setNZ r { c with a := r }
def loadX (r : Byte) (c : Cpu) : Cpu := setNZ r { c with x := r }
def loadY (r : Byte) (c : Cpu) : Cpu := setNZ r { c with y := r }

/-- `sum <- A + M + C`, an integer (42_arith_logic.md R181). -/
def carrySum (a m : Byte) (c : Bool) : Nat := a.toNat + m.toNat + c.toNat

/-- The addition of R181: result, carry, overflow, N and Z. -/
def addWithCarry (m : Byte) (c : Cpu) : Cpu :=
  let sum := carrySum c.a m c.c
  let r := BitVec.ofNat 8 sum
  setNZ r { c with a := r, c := 255 < sum, v := (c.a ^^^ r) &&& (m ^^^ r) &&& 0x80 ≠ 0 }

/-- The subtraction of R182: the addition of the complemented operand. -/
def subWithBorrow (m : Byte) (c : Cpu) : Cpu := addWithCarry (m ^^^ 0xFF) c

/-- The comparison of a register with an operand (42_arith_logic.md R187): C is the unsigned order, Z equality, N bit 7 of the
wrapped difference; V is not written. -/
def compareWith (r m : Byte) (c : Cpu) : Cpu :=
  { c with c := m.toNat ≤ r.toNat, z := r = m, n := (r - m).getLsbD 7 }

/-- `BIT`: N and V from the operand, Z from `A AND M` (42_arith_logic.md R186). -/
def bitTest (m : Byte) (c : Cpu) : Cpu :=
  { c with z := c.a &&& m = 0, n := m.getLsbD 7, v := m.getLsbD 6 }

/-- `(M << 1) & $FF` (43_shift_rotate.md R210) -/
def aslResult (m : Byte) (_ : Bool) : Byte := m <<< 1

/-- `M >> 1` (R211) -/
def lsrResult (m : Byte) (_ : Bool) : Byte := m >>> 1

/-- `((M << 1) | C) & $FF` (R212) -/
def rolResult (m : Byte) (c : Bool) : Byte := (m <<< 1) ||| bitByte c

/-- `(C << 7) | (M >> 1)` (R213) -/
def rorResult (m : Byte) (c : Bool) : Byte := (bitByte c <<< 7) ||| (m >>> 1)

/-- The bit a left shift or rotate moves into C (R210, R212). -/
def bit7 (m : Byte) : Bool := m.getLsbD 7

/-- The bit a right shift or rotate moves into C (R211, R213). -/
def bit0 (m : Byte) : Bool := m.getLsbD 0

/-- The flags of a shift or rotate of `m`: C receives the bit moved out, N and Z come from the result. -/
def shiftFlags (result : Byte → Bool → Byte) (out : Byte → Bool) (m : Byte) (c : Cpu) : Cpu :=
  setNZ (result m c.c) { c with c := out m }

end Sys2Proof.Machine
end

