-- ==== Sys2Proof/Syntax.lean ====
section
/-! DEFINITION. The instructions of spec/opcode_table.json as syntax: one constructor of `Instr` for each mnemonic of the
table (56 official ones, 105 undefined opcodes), which takes the operand form as its argument (DEDUCED, log entry 6). The operand
forms are the addressing modes of 40_addressing.md R140, each carrying its operand bytes assembled as 30_encoding.md R113
says. -/

namespace Sys2Proof

/-- The addressing modes that name a byte of memory (40_addressing.md R144-R149). -/
inductive Mem where
  /-- zero page, `$nn` (R144) -/
  | zp (o : Byte)
  /-- zero page indexed by X, `$nn,X` (R145) -/
  | zpx (o : Byte)
  /-- zero page indexed by Y, `$nn,Y` (R145) -/
  | zpy (o : Byte)
  /-- absolute, `$nnnn` (R146) -/
  | abs (a : Addr)
  /-- absolute indexed by X, `$nnnn,X` (R149) -/
  | absx (a : Addr)
  /-- absolute indexed by Y, `$nnnn,Y` (R149) -/
  | absy (a : Addr)
  /-- indexed indirect, `($nn,X)` (R147) -/
  | indx (o : Byte)
  /-- indirect indexed, `($nn),Y` (R148) -/
  | indy (o : Byte)
  deriving DecidableEq, Repr

/-- The operand of a read instruction: an immediate byte (40_addressing.md R143) or a byte of memory. -/
inductive Src where
  | imm (o : Byte)
  | mem (m : Mem)
  deriving DecidableEq, Repr

/-- The operand of a shift or rotate: the accumulator (40_addressing.md R142) or a byte of memory. -/
inductive Rmw where
  | acc
  | mem (m : Mem)
  deriving DecidableEq, Repr

/-- The operand of `JMP`: an absolute target, or a pointer to it (40_addressing.md R152). -/
inductive JmpTarget where
  | abs (a : Addr)
  | ind (ptr : Addr)
  deriving DecidableEq, Repr

/-- The instructions. An undefined opcode carries the operand bytes it fetches and discards
(46_undefined_opcodes.md R260). -/
inductive Instr where
  -- loads, stores and transfers (41_load_store_transfer.md)
  /-- `LDA`, load A (R160) -/
  | lda (src : Src)
  /-- `LDX`, load X (R161) -/
  | ldx (src : Src)
  /-- `LDY`, load Y (R162) -/
  | ldy (src : Src)
  /-- `STA`, store A (R163) -/
  | sta (m : Mem)
  /-- `STX`, store X (R164) -/
  | stx (m : Mem)
  /-- `STY`, store Y (R165) -/
  | sty (m : Mem)
  /-- `TAX`, X from A (R166) -/
  | tax
  /-- `TAY`, Y from A (R167) -/
  | tay
  /-- `TXA`, A from X (R168) -/
  | txa
  /-- `TYA`, A from Y (R169) -/
  | tya
  /-- `TSX`, X from SP (R170) -/
  | tsx
  /-- `TXS`, SP from X (R171) -/
  | txs
  -- arithmetic and logic (42_arith_logic.md)
  /-- `ADC`, add with carry (R181) -/
  | adc (src : Src)
  /-- `SBC`, subtract with borrow (R182) -/
  | sbc (src : Src)
  /-- `AND`, bitwise AND (R183) -/
  | and (src : Src)
  /-- `ORA`, bitwise OR (R184) -/
  | ora (src : Src)
  /-- `EOR`, bitwise exclusive OR (R185) -/
  | eor (src : Src)
  /-- `BIT`, bit test (R186) -/
  | bit (m : Mem)
  /-- `CMP`, compare with A (R187) -/
  | cmp (src : Src)
  /-- `CPX`, compare with X (R188) -/
  | cpx (src : Src)
  /-- `CPY`, compare with Y (R189) -/
  | cpy (src : Src)
  /-- `INC`, increment memory (R190) -/
  | inc (m : Mem)
  /-- `DEC`, decrement memory (R191) -/
  | dec (m : Mem)
  /-- `INX`, increment X (R192) -/
  | inx
  /-- `INY`, increment Y (R193) -/
  | iny
  /-- `DEX`, decrement X (R194) -/
  | dex
  /-- `DEY`, decrement Y (R195) -/
  | dey
  -- shifts and rotates (43_shift_rotate.md)
  /-- `ASL`, shift left (R210) -/
  | asl (dst : Rmw)
  /-- `LSR`, shift right (R211) -/
  | lsr (dst : Rmw)
  /-- `ROL`, rotate left through carry (R212) -/
  | rol (dst : Rmw)
  /-- `ROR`, rotate right through carry (R213) -/
  | ror (dst : Rmw)
  -- control transfer (44_control_transfer.md)
  /-- `BCC`, branch if C = 0 (R221) -/
  | bcc (rel : Byte)
  /-- `BCS`, branch if C = 1 (R222) -/
  | bcs (rel : Byte)
  /-- `BEQ`, branch if Z = 1 (R223) -/
  | beq (rel : Byte)
  /-- `BNE`, branch if Z = 0 (R224) -/
  | bne (rel : Byte)
  /-- `BMI`, branch if N = 1 (R225) -/
  | bmi (rel : Byte)
  /-- `BPL`, branch if N = 0 (R226) -/
  | bpl (rel : Byte)
  /-- `BVC`, branch if V = 0 (R227) -/
  | bvc (rel : Byte)
  /-- `BVS`, branch if V = 1 (R228) -/
  | bvs (rel : Byte)
  /-- `JMP`, jump (R229) -/
  | jmp (target : JmpTarget)
  /-- `JSR`, jump to subroutine (R230) -/
  | jsr (target : Addr)
  /-- `RTS`, return from subroutine (R231) -/
  | rts
  /-- `RTI`, return from interrupt (R232) -/
  | rti
  /-- `BRK`, software interrupt (R233) -/
  | brk
  -- stack, flags and no operation (45_stack_flags_misc.md)
  /-- `PHA`, push A (R240) -/
  | pha
  /-- `PHP`, push the status (R241) -/
  | php
  /-- `PLA`, pull A (R242) -/
  | pla
  /-- `PLP`, pull the status (R243) -/
  | plp
  /-- `CLC`, clear C (R244) -/
  | clc
  /-- `CLD`, clear D (R245) -/
  | cld
  /-- `CLI`, clear I (R246) -/
  | cli
  /-- `CLV`, clear V (R247) -/
  | clv
  /-- `SEC`, set C (R248) -/
  | sec
  /-- `SED`, set D (R249) -/
  | sed
  /-- `SEI`, set I (R250) -/
  | sei
  /-- `NOP`, no operation (R251) -/
  | nop
  -- the undefined opcodes (46_undefined_opcodes.md R260, R263)
  | und02
  | und03 (o : Byte)
  | und04 (o : Byte)
  | und07 (o : Byte)
  | und0B (o : Byte)
  | und0C (o : Addr)
  | und0F (o : Addr)
  | und12
  | und13 (o : Byte)
  | und14 (o : Byte)
  | und17 (o : Byte)
  | und1A
  | und1B (o : Addr)
  | und1C (o : Addr)
  | und1F (o : Addr)
  | und22
  | und23 (o : Byte)
  | und27 (o : Byte)
  | und2B (o : Byte)
  | und2F (o : Addr)
  | und32
  | und33 (o : Byte)
  | und34 (o : Byte)
  | und37 (o : Byte)
  | und3A
  | und3B (o : Addr)
  | und3C (o : Addr)
  | und3F (o : Addr)
  | und42
  | und43 (o : Byte)
  | und44 (o : Byte)
  | und47 (o : Byte)
  | und4B (o : Byte)
  | und4F (o : Addr)
  | und52
  | und53 (o : Byte)
  | und54 (o : Byte)
  | und57 (o : Byte)
  | und5A
  | und5B (o : Addr)
  | und5C (o : Addr)
  | und5F (o : Addr)
  | und62
  | und63 (o : Byte)
  | und64 (o : Byte)
  | und67 (o : Byte)
  | und6B (o : Byte)
  | und6F (o : Addr)
  | und72
  | und73 (o : Byte)
  | und74 (o : Byte)
  | und77 (o : Byte)
  | und7A
  | und7B (o : Addr)
  | und7C (o : Addr)
  | und7F (o : Addr)
  | und80 (o : Byte)
  | und82 (o : Byte)
  | und83 (o : Byte)
  | und87 (o : Byte)
  | und89 (o : Byte)
  | und8B (o : Byte)
  | und8F (o : Addr)
  | und92
  | und93 (o : Byte)
  | und97 (o : Byte)
  | und9B (o : Addr)
  | und9C (o : Addr)
  | und9E (o : Addr)
  | und9F (o : Addr)
  | undA3 (o : Byte)
  | undA7 (o : Byte)
  | undAB (o : Byte)
  | undAF (o : Addr)
  | undB2
  | undB3 (o : Byte)
  | undB7 (o : Byte)
  | undBB (o : Addr)
  | undBF (o : Addr)
  | undC2 (o : Byte)
  | undC3 (o : Byte)
  | undC7 (o : Byte)
  | undCB (o : Byte)
  | undCF (o : Addr)
  | undD2
  | undD3 (o : Byte)
  | undD4 (o : Byte)
  | undD7 (o : Byte)
  | undDA
  | undDB (o : Addr)
  | undDC (o : Addr)
  | undDF (o : Addr)
  | undE2 (o : Byte)
  | undE3 (o : Byte)
  | undE7 (o : Byte)
  | undEB (o : Byte)
  | undEF (o : Addr)
  | undF2
  | undF3 (o : Byte)
  | undF4 (o : Byte)
  | undF7 (o : Byte)
  | undFA
  | undFB (o : Addr)
  | undFC (o : Addr)
  | undFF (o : Addr)
  deriving DecidableEq, Repr

end Sys2Proof
end

