-- ==== Sys2Proof/WellFormed.lean ====
section
/-! DEFINITION. Which operand forms each mnemonic has (the operand lists of 41_load_store_transfer.md to
45_stack_flags_misc.md). No operand byte is restricted: every value of every operand byte is legal
(30_encoding.md R118), so the form is all there is to check. -/

namespace Sys2Proof

/-- The thirteen addressing modes (40_addressing.md R140). -/
inductive Mode where
  | imp | acc | imm | zp | zpx | zpy | abs | absx | absy | ind | indx | indy | rel
  deriving DecidableEq, Repr

def Mem.mode : Mem → Mode
  | .zp _ => .zp
  | .zpx _ => .zpx
  | .zpy _ => .zpy
  | .abs _ => .abs
  | .absx _ => .absx
  | .absy _ => .absy
  | .indx _ => .indx
  | .indy _ => .indy

def Src.mode : Src → Mode
  | .imm _ => .imm
  | .mem m => m.mode

def Rmw.mode : Rmw → Mode
  | .acc => .acc
  | .mem m => m.mode

/-- An instruction is well formed when its mnemonic has its operand form. -/
def Instr.wellFormed : Instr → Bool
  | .lda src => src.mode ∈ [Mode.imm, Mode.zp, Mode.zpx, Mode.abs, Mode.absx, Mode.absy, Mode.indx, Mode.indy]
  | .ldx src => src.mode ∈ [Mode.imm, Mode.zp, Mode.zpy, Mode.abs, Mode.absy]
  | .ldy src => src.mode ∈ [Mode.imm, Mode.zp, Mode.zpx, Mode.abs, Mode.absx]
  | .sta m => m.mode ∈ [Mode.zp, Mode.zpx, Mode.abs, Mode.absx, Mode.absy, Mode.indx, Mode.indy]
  | .stx m => m.mode ∈ [Mode.zp, Mode.zpy, Mode.abs]
  | .sty m => m.mode ∈ [Mode.zp, Mode.zpx, Mode.abs]
  | .tax => true
  | .tay => true
  | .txa => true
  | .tya => true
  | .tsx => true
  | .txs => true
  | .adc src => src.mode ∈ [Mode.imm, Mode.zp, Mode.zpx, Mode.abs, Mode.absx, Mode.absy, Mode.indx, Mode.indy]
  | .sbc src => src.mode ∈ [Mode.imm, Mode.zp, Mode.zpx, Mode.abs, Mode.absx, Mode.absy, Mode.indx, Mode.indy]
  | .and src => src.mode ∈ [Mode.imm, Mode.zp, Mode.zpx, Mode.abs, Mode.absx, Mode.absy, Mode.indx, Mode.indy]
  | .ora src => src.mode ∈ [Mode.imm, Mode.zp, Mode.zpx, Mode.abs, Mode.absx, Mode.absy, Mode.indx, Mode.indy]
  | .eor src => src.mode ∈ [Mode.imm, Mode.zp, Mode.zpx, Mode.abs, Mode.absx, Mode.absy, Mode.indx, Mode.indy]
  | .bit m => m.mode ∈ [Mode.zp, Mode.abs]
  | .cmp src => src.mode ∈ [Mode.imm, Mode.zp, Mode.zpx, Mode.abs, Mode.absx, Mode.absy, Mode.indx, Mode.indy]
  | .cpx src => src.mode ∈ [Mode.imm, Mode.zp, Mode.abs]
  | .cpy src => src.mode ∈ [Mode.imm, Mode.zp, Mode.abs]
  | .inc m => m.mode ∈ [Mode.zp, Mode.zpx, Mode.abs, Mode.absx]
  | .dec m => m.mode ∈ [Mode.zp, Mode.zpx, Mode.abs, Mode.absx]
  | .inx => true
  | .iny => true
  | .dex => true
  | .dey => true
  | .asl dst => dst.mode ∈ [Mode.zp, Mode.zpx, Mode.abs, Mode.absx, Mode.acc]
  | .lsr dst => dst.mode ∈ [Mode.zp, Mode.zpx, Mode.abs, Mode.absx, Mode.acc]
  | .rol dst => dst.mode ∈ [Mode.zp, Mode.zpx, Mode.abs, Mode.absx, Mode.acc]
  | .ror dst => dst.mode ∈ [Mode.zp, Mode.zpx, Mode.abs, Mode.absx, Mode.acc]
  | .bcc _ => true
  | .bcs _ => true
  | .beq _ => true
  | .bne _ => true
  | .bmi _ => true
  | .bpl _ => true
  | .bvc _ => true
  | .bvs _ => true
  | .jmp _ => true
  | .jsr _ => true
  | .rts => true
  | .rti => true
  | .brk => true
  | .pha => true
  | .php => true
  | .pla => true
  | .plp => true
  | .clc => true
  | .cld => true
  | .cli => true
  | .clv => true
  | .sec => true
  | .sed => true
  | .sei => true
  | .nop => true
  | .und02 => true
  | .und03 _ => true
  | .und04 _ => true
  | .und07 _ => true
  | .und0B _ => true
  | .und0C _ => true
  | .und0F _ => true
  | .und12 => true
  | .und13 _ => true
  | .und14 _ => true
  | .und17 _ => true
  | .und1A => true
  | .und1B _ => true
  | .und1C _ => true
  | .und1F _ => true
  | .und22 => true
  | .und23 _ => true
  | .und27 _ => true
  | .und2B _ => true
  | .und2F _ => true
  | .und32 => true
  | .und33 _ => true
  | .und34 _ => true
  | .und37 _ => true
  | .und3A => true
  | .und3B _ => true
  | .und3C _ => true
  | .und3F _ => true
  | .und42 => true
  | .und43 _ => true
  | .und44 _ => true
  | .und47 _ => true
  | .und4B _ => true
  | .und4F _ => true
  | .und52 => true
  | .und53 _ => true
  | .und54 _ => true
  | .und57 _ => true
  | .und5A => true
  | .und5B _ => true
  | .und5C _ => true
  | .und5F _ => true
  | .und62 => true
  | .und63 _ => true
  | .und64 _ => true
  | .und67 _ => true
  | .und6B _ => true
  | .und6F _ => true
  | .und72 => true
  | .und73 _ => true
  | .und74 _ => true
  | .und77 _ => true
  | .und7A => true
  | .und7B _ => true
  | .und7C _ => true
  | .und7F _ => true
  | .und80 _ => true
  | .und82 _ => true
  | .und83 _ => true
  | .und87 _ => true
  | .und89 _ => true
  | .und8B _ => true
  | .und8F _ => true
  | .und92 => true
  | .und93 _ => true
  | .und97 _ => true
  | .und9B _ => true
  | .und9C _ => true
  | .und9E _ => true
  | .und9F _ => true
  | .undA3 _ => true
  | .undA7 _ => true
  | .undAB _ => true
  | .undAF _ => true
  | .undB2 => true
  | .undB3 _ => true
  | .undB7 _ => true
  | .undBB _ => true
  | .undBF _ => true
  | .undC2 _ => true
  | .undC3 _ => true
  | .undC7 _ => true
  | .undCB _ => true
  | .undCF _ => true
  | .undD2 => true
  | .undD3 _ => true
  | .undD4 _ => true
  | .undD7 _ => true
  | .undDA => true
  | .undDB _ => true
  | .undDC _ => true
  | .undDF _ => true
  | .undE2 _ => true
  | .undE3 _ => true
  | .undE7 _ => true
  | .undEB _ => true
  | .undEF _ => true
  | .undF2 => true
  | .undF3 _ => true
  | .undF4 _ => true
  | .undF7 _ => true
  | .undFA => true
  | .undFB _ => true
  | .undFC _ => true
  | .undFF _ => true

/-- The instruction has an encoding in the opcode map. -/
abbrev WellFormed (i : Instr) : Prop := i.wellFormed = true

end Sys2Proof
end

