-- ==== Sys2Proof/Decode.lean ====
section
/-! DEFINITION. Decoding, total on any bytes, and encoding. The decoder follows the opcode map of 30_encoding.md R115
(rows of the map are the high nibble); the encoder follows the operand lists of 41_load_store_transfer.md to
45_stack_flags_misc.md and the list of 46_undefined_opcodes.md R263, so that their agreement says something. -/

namespace Sys2Proof

/-- The instruction of an opcode byte, with the two bytes that follow it (30_encoding.md R114, R115): the decoder is
total, every byte is the opcode of exactly one row. A form of two bytes ignores `h`, a form of one byte ignores both. -/
def decodeOpcode (op l h : Byte) : Instr :=
  match op.toNat with
  -- row 0 of the map
  | 0x00 => .brk
  | 0x01 => .ora (.mem (.indx l))
  | 0x02 => .und02
  | 0x03 => .und03 l
  | 0x04 => .und04 l
  | 0x05 => .ora (.mem (.zp l))
  | 0x06 => .asl (.mem (.zp l))
  | 0x07 => .und07 l
  | 0x08 => .php
  | 0x09 => .ora (.imm l)
  | 0x0A => .asl .acc
  | 0x0B => .und0B l
  | 0x0C => .und0C (wordOf h l)
  | 0x0D => .ora (.mem (.abs (wordOf h l)))
  | 0x0E => .asl (.mem (.abs (wordOf h l)))
  | 0x0F => .und0F (wordOf h l)
  -- row 1 of the map
  | 0x10 => .bpl l
  | 0x11 => .ora (.mem (.indy l))
  | 0x12 => .und12
  | 0x13 => .und13 l
  | 0x14 => .und14 l
  | 0x15 => .ora (.mem (.zpx l))
  | 0x16 => .asl (.mem (.zpx l))
  | 0x17 => .und17 l
  | 0x18 => .clc
  | 0x19 => .ora (.mem (.absy (wordOf h l)))
  | 0x1A => .und1A
  | 0x1B => .und1B (wordOf h l)
  | 0x1C => .und1C (wordOf h l)
  | 0x1D => .ora (.mem (.absx (wordOf h l)))
  | 0x1E => .asl (.mem (.absx (wordOf h l)))
  | 0x1F => .und1F (wordOf h l)
  -- row 2 of the map
  | 0x20 => .jsr (wordOf h l)
  | 0x21 => .and (.mem (.indx l))
  | 0x22 => .und22
  | 0x23 => .und23 l
  | 0x24 => .bit (.zp l)
  | 0x25 => .and (.mem (.zp l))
  | 0x26 => .rol (.mem (.zp l))
  | 0x27 => .und27 l
  | 0x28 => .plp
  | 0x29 => .and (.imm l)
  | 0x2A => .rol .acc
  | 0x2B => .und2B l
  | 0x2C => .bit (.abs (wordOf h l))
  | 0x2D => .and (.mem (.abs (wordOf h l)))
  | 0x2E => .rol (.mem (.abs (wordOf h l)))
  | 0x2F => .und2F (wordOf h l)
  -- row 3 of the map
  | 0x30 => .bmi l
  | 0x31 => .and (.mem (.indy l))
  | 0x32 => .und32
  | 0x33 => .und33 l
  | 0x34 => .und34 l
  | 0x35 => .and (.mem (.zpx l))
  | 0x36 => .rol (.mem (.zpx l))
  | 0x37 => .und37 l
  | 0x38 => .sec
  | 0x39 => .and (.mem (.absy (wordOf h l)))
  | 0x3A => .und3A
  | 0x3B => .und3B (wordOf h l)
  | 0x3C => .und3C (wordOf h l)
  | 0x3D => .and (.mem (.absx (wordOf h l)))
  | 0x3E => .rol (.mem (.absx (wordOf h l)))
  | 0x3F => .und3F (wordOf h l)
  -- row 4 of the map
  | 0x40 => .rti
  | 0x41 => .eor (.mem (.indx l))
  | 0x42 => .und42
  | 0x43 => .und43 l
  | 0x44 => .und44 l
  | 0x45 => .eor (.mem (.zp l))
  | 0x46 => .lsr (.mem (.zp l))
  | 0x47 => .und47 l
  | 0x48 => .pha
  | 0x49 => .eor (.imm l)
  | 0x4A => .lsr .acc
  | 0x4B => .und4B l
  | 0x4C => .jmp (.abs (wordOf h l))
  | 0x4D => .eor (.mem (.abs (wordOf h l)))
  | 0x4E => .lsr (.mem (.abs (wordOf h l)))
  | 0x4F => .und4F (wordOf h l)
  -- row 5 of the map
  | 0x50 => .bvc l
  | 0x51 => .eor (.mem (.indy l))
  | 0x52 => .und52
  | 0x53 => .und53 l
  | 0x54 => .und54 l
  | 0x55 => .eor (.mem (.zpx l))
  | 0x56 => .lsr (.mem (.zpx l))
  | 0x57 => .und57 l
  | 0x58 => .cli
  | 0x59 => .eor (.mem (.absy (wordOf h l)))
  | 0x5A => .und5A
  | 0x5B => .und5B (wordOf h l)
  | 0x5C => .und5C (wordOf h l)
  | 0x5D => .eor (.mem (.absx (wordOf h l)))
  | 0x5E => .lsr (.mem (.absx (wordOf h l)))
  | 0x5F => .und5F (wordOf h l)
  -- row 6 of the map
  | 0x60 => .rts
  | 0x61 => .adc (.mem (.indx l))
  | 0x62 => .und62
  | 0x63 => .und63 l
  | 0x64 => .und64 l
  | 0x65 => .adc (.mem (.zp l))
  | 0x66 => .ror (.mem (.zp l))
  | 0x67 => .und67 l
  | 0x68 => .pla
  | 0x69 => .adc (.imm l)
  | 0x6A => .ror .acc
  | 0x6B => .und6B l
  | 0x6C => .jmp (.ind (wordOf h l))
  | 0x6D => .adc (.mem (.abs (wordOf h l)))
  | 0x6E => .ror (.mem (.abs (wordOf h l)))
  | 0x6F => .und6F (wordOf h l)
  -- row 7 of the map
  | 0x70 => .bvs l
  | 0x71 => .adc (.mem (.indy l))
  | 0x72 => .und72
  | 0x73 => .und73 l
  | 0x74 => .und74 l
  | 0x75 => .adc (.mem (.zpx l))
  | 0x76 => .ror (.mem (.zpx l))
  | 0x77 => .und77 l
  | 0x78 => .sei
  | 0x79 => .adc (.mem (.absy (wordOf h l)))
  | 0x7A => .und7A
  | 0x7B => .und7B (wordOf h l)
  | 0x7C => .und7C (wordOf h l)
  | 0x7D => .adc (.mem (.absx (wordOf h l)))
  | 0x7E => .ror (.mem (.absx (wordOf h l)))
  | 0x7F => .und7F (wordOf h l)
  -- row 8 of the map
  | 0x80 => .und80 l
  | 0x81 => .sta (.indx l)
  | 0x82 => .und82 l
  | 0x83 => .und83 l
  | 0x84 => .sty (.zp l)
  | 0x85 => .sta (.zp l)
  | 0x86 => .stx (.zp l)
  | 0x87 => .und87 l
  | 0x88 => .dey
  | 0x89 => .und89 l
  | 0x8A => .txa
  | 0x8B => .und8B l
  | 0x8C => .sty (.abs (wordOf h l))
  | 0x8D => .sta (.abs (wordOf h l))
  | 0x8E => .stx (.abs (wordOf h l))
  | 0x8F => .und8F (wordOf h l)
  -- row 9 of the map
  | 0x90 => .bcc l
  | 0x91 => .sta (.indy l)
  | 0x92 => .und92
  | 0x93 => .und93 l
  | 0x94 => .sty (.zpx l)
  | 0x95 => .sta (.zpx l)
  | 0x96 => .stx (.zpy l)
  | 0x97 => .und97 l
  | 0x98 => .tya
  | 0x99 => .sta (.absy (wordOf h l))
  | 0x9A => .txs
  | 0x9B => .und9B (wordOf h l)
  | 0x9C => .und9C (wordOf h l)
  | 0x9D => .sta (.absx (wordOf h l))
  | 0x9E => .und9E (wordOf h l)
  | 0x9F => .und9F (wordOf h l)
  -- row A of the map
  | 0xA0 => .ldy (.imm l)
  | 0xA1 => .lda (.mem (.indx l))
  | 0xA2 => .ldx (.imm l)
  | 0xA3 => .undA3 l
  | 0xA4 => .ldy (.mem (.zp l))
  | 0xA5 => .lda (.mem (.zp l))
  | 0xA6 => .ldx (.mem (.zp l))
  | 0xA7 => .undA7 l
  | 0xA8 => .tay
  | 0xA9 => .lda (.imm l)
  | 0xAA => .tax
  | 0xAB => .undAB l
  | 0xAC => .ldy (.mem (.abs (wordOf h l)))
  | 0xAD => .lda (.mem (.abs (wordOf h l)))
  | 0xAE => .ldx (.mem (.abs (wordOf h l)))
  | 0xAF => .undAF (wordOf h l)
  -- row B of the map
  | 0xB0 => .bcs l
  | 0xB1 => .lda (.mem (.indy l))
  | 0xB2 => .undB2
  | 0xB3 => .undB3 l
  | 0xB4 => .ldy (.mem (.zpx l))
  | 0xB5 => .lda (.mem (.zpx l))
  | 0xB6 => .ldx (.mem (.zpy l))
  | 0xB7 => .undB7 l
  | 0xB8 => .clv
  | 0xB9 => .lda (.mem (.absy (wordOf h l)))
  | 0xBA => .tsx
  | 0xBB => .undBB (wordOf h l)
  | 0xBC => .ldy (.mem (.absx (wordOf h l)))
  | 0xBD => .lda (.mem (.absx (wordOf h l)))
  | 0xBE => .ldx (.mem (.absy (wordOf h l)))
  | 0xBF => .undBF (wordOf h l)
  -- row C of the map
  | 0xC0 => .cpy (.imm l)
  | 0xC1 => .cmp (.mem (.indx l))
  | 0xC2 => .undC2 l
  | 0xC3 => .undC3 l
  | 0xC4 => .cpy (.mem (.zp l))
  | 0xC5 => .cmp (.mem (.zp l))
  | 0xC6 => .dec (.zp l)
  | 0xC7 => .undC7 l
  | 0xC8 => .iny
  | 0xC9 => .cmp (.imm l)
  | 0xCA => .dex
  | 0xCB => .undCB l
  | 0xCC => .cpy (.mem (.abs (wordOf h l)))
  | 0xCD => .cmp (.mem (.abs (wordOf h l)))
  | 0xCE => .dec (.abs (wordOf h l))
  | 0xCF => .undCF (wordOf h l)
  -- row D of the map
  | 0xD0 => .bne l
  | 0xD1 => .cmp (.mem (.indy l))
  | 0xD2 => .undD2
  | 0xD3 => .undD3 l
  | 0xD4 => .undD4 l
  | 0xD5 => .cmp (.mem (.zpx l))
  | 0xD6 => .dec (.zpx l)
  | 0xD7 => .undD7 l
  | 0xD8 => .cld
  | 0xD9 => .cmp (.mem (.absy (wordOf h l)))
  | 0xDA => .undDA
  | 0xDB => .undDB (wordOf h l)
  | 0xDC => .undDC (wordOf h l)
  | 0xDD => .cmp (.mem (.absx (wordOf h l)))
  | 0xDE => .dec (.absx (wordOf h l))
  | 0xDF => .undDF (wordOf h l)
  -- row E of the map
  | 0xE0 => .cpx (.imm l)
  | 0xE1 => .sbc (.mem (.indx l))
  | 0xE2 => .undE2 l
  | 0xE3 => .undE3 l
  | 0xE4 => .cpx (.mem (.zp l))
  | 0xE5 => .sbc (.mem (.zp l))
  | 0xE6 => .inc (.zp l)
  | 0xE7 => .undE7 l
  | 0xE8 => .inx
  | 0xE9 => .sbc (.imm l)
  | 0xEA => .nop
  | 0xEB => .undEB l
  | 0xEC => .cpx (.mem (.abs (wordOf h l)))
  | 0xED => .sbc (.mem (.abs (wordOf h l)))
  | 0xEE => .inc (.abs (wordOf h l))
  | 0xEF => .undEF (wordOf h l)
  -- row F of the map
  | 0xF0 => .beq l
  | 0xF1 => .sbc (.mem (.indy l))
  | 0xF2 => .undF2
  | 0xF3 => .undF3 l
  | 0xF4 => .undF4 l
  | 0xF5 => .sbc (.mem (.zpx l))
  | 0xF6 => .inc (.zpx l)
  | 0xF7 => .undF7 l
  | 0xF8 => .sed
  | 0xF9 => .sbc (.mem (.absy (wordOf h l)))
  | 0xFA => .undFA
  | 0xFB => .undFB (wordOf h l)
  | 0xFC => .undFC (wordOf h l)
  | 0xFD => .sbc (.mem (.absx (wordOf h l)))
  | 0xFE => .inc (.absx (wordOf h l))
  | _ => .undFF (wordOf h l)   -- 0xFF, the last opcode of the map

/-- The length in bytes, from the opcode byte alone (30_encoding.md R111). -/
def opcodeLength (op : Byte) : Nat :=
  match op.toNat with
  -- implied and accumulator
  | 0x00 | 0x02 | 0x08 | 0x0A | 0x12 | 0x18 | 0x1A | 0x22 | 0x28 | 0x2A | 0x32 | 0x38
  | 0x3A | 0x40 | 0x42 | 0x48 | 0x4A | 0x52 | 0x58 | 0x5A | 0x60 | 0x62 | 0x68 | 0x6A
  | 0x72 | 0x78 | 0x7A | 0x88 | 0x8A | 0x92 | 0x98 | 0x9A | 0xA8 | 0xAA | 0xB2 | 0xB8
  | 0xBA | 0xC8 | 0xCA | 0xD2 | 0xD8 | 0xDA | 0xE8 | 0xEA | 0xF2 | 0xF8 | 0xFA => 1
  -- absolute, absolute indexed, absolute indirect
  | 0x0C | 0x0D | 0x0E | 0x0F | 0x19 | 0x1B | 0x1C | 0x1D | 0x1E | 0x1F | 0x20 | 0x2C
  | 0x2D | 0x2E | 0x2F | 0x39 | 0x3B | 0x3C | 0x3D | 0x3E | 0x3F | 0x4C | 0x4D | 0x4E
  | 0x4F | 0x59 | 0x5B | 0x5C | 0x5D | 0x5E | 0x5F | 0x6C | 0x6D | 0x6E | 0x6F | 0x79
  | 0x7B | 0x7C | 0x7D | 0x7E | 0x7F | 0x8C | 0x8D | 0x8E | 0x8F | 0x99 | 0x9B | 0x9C
  | 0x9D | 0x9E | 0x9F | 0xAC | 0xAD | 0xAE | 0xAF | 0xB9 | 0xBB | 0xBC | 0xBD | 0xBE
  | 0xBF | 0xCC | 0xCD | 0xCE | 0xCF | 0xD9 | 0xDB | 0xDC | 0xDD | 0xDE | 0xDF | 0xEC
  | 0xED | 0xEE | 0xEF | 0xF9 | 0xFB | 0xFC | 0xFD | 0xFE | 0xFF => 3
  -- immediate, zero page, zero page indexed, the zero page indirect modes, relative
  | _ => 2

/-- Why a list of bytes is not the beginning of an instruction: only that it ends too soon. -/
inductive DecodeError where
  /-- there is no opcode byte -/
  | noOpcode
  /-- the operand bytes of this opcode are missing -/
  | truncated (op : Byte)
  deriving DecidableEq, Repr

/-- The instruction at the beginning of a list of bytes, and the bytes after it (30_encoding.md R110). -/
def decode : List Byte → Except DecodeError (Instr × List Byte)
  | [] => .error .noOpcode
  | op :: rest =>
    match opcodeLength op, rest with
    | 1, rest => .ok (decodeOpcode op 0 0, rest)
    | 2, l :: rest => .ok (decodeOpcode op l 0, rest)
    | 3, l :: h :: rest => .ok (decodeOpcode op l h, rest)
    | _, _ => .error (.truncated op)

/-- The opcode of a memory form, where the mnemonic has it. -/
def Mem.pick (zp zpx zpy abs absx absy indx indy : Option Byte) : Mem → Option Byte
  | .zp _ => zp
  | .zpx _ => zpx
  | .zpy _ => zpy
  | .abs _ => abs
  | .absx _ => absx
  | .absy _ => absy
  | .indx _ => indx
  | .indy _ => indy

/-- The opcode of a read operand's form, where the mnemonic has it. -/
def Src.pick (imm zp zpx zpy abs absx absy indx indy : Option Byte) : Src → Option Byte
  | .imm _ => imm
  | .mem m => m.pick zp zpx zpy abs absx absy indx indy

/-- The opcode of a shift's form, where the mnemonic has it. -/
def Rmw.pick (acc zp zpx abs absx : Option Byte) : Rmw → Option Byte
  | .acc => acc
  | .mem m => m.pick zp zpx none abs absx none none none

/-- The opcode of an instruction, from the operand lists of the family files; none for a form its mnemonic
does not have. -/
def Instr.opcode : Instr → Option Byte
  | .lda src => src.pick (some 0xA9) (some 0xA5) (some 0xB5) none (some 0xAD) (some 0xBD) (some 0xB9) (some 0xA1) (some 0xB1)
  | .ldx src => src.pick (some 0xA2) (some 0xA6) none (some 0xB6) (some 0xAE) none (some 0xBE) none none
  | .ldy src => src.pick (some 0xA0) (some 0xA4) (some 0xB4) none (some 0xAC) (some 0xBC) none none none
  | .sta m => m.pick (some 0x85) (some 0x95) none (some 0x8D) (some 0x9D) (some 0x99) (some 0x81) (some 0x91)
  | .stx m => m.pick (some 0x86) none (some 0x96) (some 0x8E) none none none none
  | .sty m => m.pick (some 0x84) (some 0x94) none (some 0x8C) none none none none
  | .tax => some 0xAA
  | .tay => some 0xA8
  | .txa => some 0x8A
  | .tya => some 0x98
  | .tsx => some 0xBA
  | .txs => some 0x9A
  | .adc src => src.pick (some 0x69) (some 0x65) (some 0x75) none (some 0x6D) (some 0x7D) (some 0x79) (some 0x61) (some 0x71)
  | .sbc src => src.pick (some 0xE9) (some 0xE5) (some 0xF5) none (some 0xED) (some 0xFD) (some 0xF9) (some 0xE1) (some 0xF1)
  | .and src => src.pick (some 0x29) (some 0x25) (some 0x35) none (some 0x2D) (some 0x3D) (some 0x39) (some 0x21) (some 0x31)
  | .ora src => src.pick (some 0x09) (some 0x05) (some 0x15) none (some 0x0D) (some 0x1D) (some 0x19) (some 0x01) (some 0x11)
  | .eor src => src.pick (some 0x49) (some 0x45) (some 0x55) none (some 0x4D) (some 0x5D) (some 0x59) (some 0x41) (some 0x51)
  | .bit m => m.pick (some 0x24) none none (some 0x2C) none none none none
  | .cmp src => src.pick (some 0xC9) (some 0xC5) (some 0xD5) none (some 0xCD) (some 0xDD) (some 0xD9) (some 0xC1) (some 0xD1)
  | .cpx src => src.pick (some 0xE0) (some 0xE4) none none (some 0xEC) none none none none
  | .cpy src => src.pick (some 0xC0) (some 0xC4) none none (some 0xCC) none none none none
  | .inc m => m.pick (some 0xE6) (some 0xF6) none (some 0xEE) (some 0xFE) none none none
  | .dec m => m.pick (some 0xC6) (some 0xD6) none (some 0xCE) (some 0xDE) none none none
  | .inx => some 0xE8
  | .iny => some 0xC8
  | .dex => some 0xCA
  | .dey => some 0x88
  | .asl dst => dst.pick (some 0x0A) (some 0x06) (some 0x16) (some 0x0E) (some 0x1E)
  | .lsr dst => dst.pick (some 0x4A) (some 0x46) (some 0x56) (some 0x4E) (some 0x5E)
  | .rol dst => dst.pick (some 0x2A) (some 0x26) (some 0x36) (some 0x2E) (some 0x3E)
  | .ror dst => dst.pick (some 0x6A) (some 0x66) (some 0x76) (some 0x6E) (some 0x7E)
  | .bcc _ => some 0x90
  | .bcs _ => some 0xB0
  | .beq _ => some 0xF0
  | .bne _ => some 0xD0
  | .bmi _ => some 0x30
  | .bpl _ => some 0x10
  | .bvc _ => some 0x50
  | .bvs _ => some 0x70
  | .jmp (.abs _) => some 0x4C
  | .jmp (.ind _) => some 0x6C
  | .jsr _ => some 0x20
  | .rts => some 0x60
  | .rti => some 0x40
  | .brk => some 0x00
  | .pha => some 0x48
  | .php => some 0x08
  | .pla => some 0x68
  | .plp => some 0x28
  | .clc => some 0x18
  | .cld => some 0xD8
  | .cli => some 0x58
  | .clv => some 0xB8
  | .sec => some 0x38
  | .sed => some 0xF8
  | .sei => some 0x78
  | .nop => some 0xEA
  | .und02 => some 0x02
  | .und03 _ => some 0x03
  | .und04 _ => some 0x04
  | .und07 _ => some 0x07
  | .und0B _ => some 0x0B
  | .und0C _ => some 0x0C
  | .und0F _ => some 0x0F
  | .und12 => some 0x12
  | .und13 _ => some 0x13
  | .und14 _ => some 0x14
  | .und17 _ => some 0x17
  | .und1A => some 0x1A
  | .und1B _ => some 0x1B
  | .und1C _ => some 0x1C
  | .und1F _ => some 0x1F
  | .und22 => some 0x22
  | .und23 _ => some 0x23
  | .und27 _ => some 0x27
  | .und2B _ => some 0x2B
  | .und2F _ => some 0x2F
  | .und32 => some 0x32
  | .und33 _ => some 0x33
  | .und34 _ => some 0x34
  | .und37 _ => some 0x37
  | .und3A => some 0x3A
  | .und3B _ => some 0x3B
  | .und3C _ => some 0x3C
  | .und3F _ => some 0x3F
  | .und42 => some 0x42
  | .und43 _ => some 0x43
  | .und44 _ => some 0x44
  | .und47 _ => some 0x47
  | .und4B _ => some 0x4B
  | .und4F _ => some 0x4F
  | .und52 => some 0x52
  | .und53 _ => some 0x53
  | .und54 _ => some 0x54
  | .und57 _ => some 0x57
  | .und5A => some 0x5A
  | .und5B _ => some 0x5B
  | .und5C _ => some 0x5C
  | .und5F _ => some 0x5F
  | .und62 => some 0x62
  | .und63 _ => some 0x63
  | .und64 _ => some 0x64
  | .und67 _ => some 0x67
  | .und6B _ => some 0x6B
  | .und6F _ => some 0x6F
  | .und72 => some 0x72
  | .und73 _ => some 0x73
  | .und74 _ => some 0x74
  | .und77 _ => some 0x77
  | .und7A => some 0x7A
  | .und7B _ => some 0x7B
  | .und7C _ => some 0x7C
  | .und7F _ => some 0x7F
  | .und80 _ => some 0x80
  | .und82 _ => some 0x82
  | .und83 _ => some 0x83
  | .und87 _ => some 0x87
  | .und89 _ => some 0x89
  | .und8B _ => some 0x8B
  | .und8F _ => some 0x8F
  | .und92 => some 0x92
  | .und93 _ => some 0x93
  | .und97 _ => some 0x97
  | .und9B _ => some 0x9B
  | .und9C _ => some 0x9C
  | .und9E _ => some 0x9E
  | .und9F _ => some 0x9F
  | .undA3 _ => some 0xA3
  | .undA7 _ => some 0xA7
  | .undAB _ => some 0xAB
  | .undAF _ => some 0xAF
  | .undB2 => some 0xB2
  | .undB3 _ => some 0xB3
  | .undB7 _ => some 0xB7
  | .undBB _ => some 0xBB
  | .undBF _ => some 0xBF
  | .undC2 _ => some 0xC2
  | .undC3 _ => some 0xC3
  | .undC7 _ => some 0xC7
  | .undCB _ => some 0xCB
  | .undCF _ => some 0xCF
  | .undD2 => some 0xD2
  | .undD3 _ => some 0xD3
  | .undD4 _ => some 0xD4
  | .undD7 _ => some 0xD7
  | .undDA => some 0xDA
  | .undDB _ => some 0xDB
  | .undDC _ => some 0xDC
  | .undDF _ => some 0xDF
  | .undE2 _ => some 0xE2
  | .undE3 _ => some 0xE3
  | .undE7 _ => some 0xE7
  | .undEB _ => some 0xEB
  | .undEF _ => some 0xEF
  | .undF2 => some 0xF2
  | .undF3 _ => some 0xF3
  | .undF4 _ => some 0xF4
  | .undF7 _ => some 0xF7
  | .undFA => some 0xFA
  | .undFB _ => some 0xFB
  | .undFC _ => some 0xFC
  | .undFF _ => some 0xFF

/-- The operand bytes of a memory form, low byte first (20_memory.md R71). -/
def Mem.operandBytes : Mem → List Byte
  | .zp o | .zpx o | .zpy o | .indx o | .indy o => [o]
  | .abs a | .absx a | .absy a => [loByte a, hiByte a]

/-- The operand bytes of an instruction, low byte first (30_encoding.md R110, R113). -/
def Instr.operandBytes : Instr → List Byte
  | .lda (.imm o) => [o]
  | .lda (.mem m) => m.operandBytes
  | .ldx (.imm o) => [o]
  | .ldx (.mem m) => m.operandBytes
  | .ldy (.imm o) => [o]
  | .ldy (.mem m) => m.operandBytes
  | .adc (.imm o) => [o]
  | .adc (.mem m) => m.operandBytes
  | .sbc (.imm o) => [o]
  | .sbc (.mem m) => m.operandBytes
  | .and (.imm o) => [o]
  | .and (.mem m) => m.operandBytes
  | .ora (.imm o) => [o]
  | .ora (.mem m) => m.operandBytes
  | .eor (.imm o) => [o]
  | .eor (.mem m) => m.operandBytes
  | .cmp (.imm o) => [o]
  | .cmp (.mem m) => m.operandBytes
  | .cpx (.imm o) => [o]
  | .cpx (.mem m) => m.operandBytes
  | .cpy (.imm o) => [o]
  | .cpy (.mem m) => m.operandBytes
  | .sta m => m.operandBytes
  | .stx m => m.operandBytes
  | .sty m => m.operandBytes
  | .bit m => m.operandBytes
  | .inc m => m.operandBytes
  | .dec m => m.operandBytes
  | .asl .acc => []
  | .asl (.mem m) => m.operandBytes
  | .lsr .acc => []
  | .lsr (.mem m) => m.operandBytes
  | .rol .acc => []
  | .rol (.mem m) => m.operandBytes
  | .ror .acc => []
  | .ror (.mem m) => m.operandBytes
  | .bcc rel => [rel]
  | .bcs rel => [rel]
  | .beq rel => [rel]
  | .bne rel => [rel]
  | .bmi rel => [rel]
  | .bpl rel => [rel]
  | .bvc rel => [rel]
  | .bvs rel => [rel]
  | .jmp (.abs a) => [loByte a, hiByte a]
  | .jmp (.ind a) => [loByte a, hiByte a]
  | .jsr a => [loByte a, hiByte a]
  | .tax => []
  | .tay => []
  | .txa => []
  | .tya => []
  | .tsx => []
  | .txs => []
  | .inx => []
  | .iny => []
  | .dex => []
  | .dey => []
  | .rts => []
  | .rti => []
  | .brk => []
  | .pha => []
  | .php => []
  | .pla => []
  | .plp => []
  | .clc => []
  | .cld => []
  | .cli => []
  | .clv => []
  | .sec => []
  | .sed => []
  | .sei => []
  | .nop => []
  | .und02 => []
  | .und03 o => [o]
  | .und04 o => [o]
  | .und07 o => [o]
  | .und0B o => [o]
  | .und0C a => [loByte a, hiByte a]
  | .und0F a => [loByte a, hiByte a]
  | .und12 => []
  | .und13 o => [o]
  | .und14 o => [o]
  | .und17 o => [o]
  | .und1A => []
  | .und1B a => [loByte a, hiByte a]
  | .und1C a => [loByte a, hiByte a]
  | .und1F a => [loByte a, hiByte a]
  | .und22 => []
  | .und23 o => [o]
  | .und27 o => [o]
  | .und2B o => [o]
  | .und2F a => [loByte a, hiByte a]
  | .und32 => []
  | .und33 o => [o]
  | .und34 o => [o]
  | .und37 o => [o]
  | .und3A => []
  | .und3B a => [loByte a, hiByte a]
  | .und3C a => [loByte a, hiByte a]
  | .und3F a => [loByte a, hiByte a]
  | .und42 => []
  | .und43 o => [o]
  | .und44 o => [o]
  | .und47 o => [o]
  | .und4B o => [o]
  | .und4F a => [loByte a, hiByte a]
  | .und52 => []
  | .und53 o => [o]
  | .und54 o => [o]
  | .und57 o => [o]
  | .und5A => []
  | .und5B a => [loByte a, hiByte a]
  | .und5C a => [loByte a, hiByte a]
  | .und5F a => [loByte a, hiByte a]
  | .und62 => []
  | .und63 o => [o]
  | .und64 o => [o]
  | .und67 o => [o]
  | .und6B o => [o]
  | .und6F a => [loByte a, hiByte a]
  | .und72 => []
  | .und73 o => [o]
  | .und74 o => [o]
  | .und77 o => [o]
  | .und7A => []
  | .und7B a => [loByte a, hiByte a]
  | .und7C a => [loByte a, hiByte a]
  | .und7F a => [loByte a, hiByte a]
  | .und80 o => [o]
  | .und82 o => [o]
  | .und83 o => [o]
  | .und87 o => [o]
  | .und89 o => [o]
  | .und8B o => [o]
  | .und8F a => [loByte a, hiByte a]
  | .und92 => []
  | .und93 o => [o]
  | .und97 o => [o]
  | .und9B a => [loByte a, hiByte a]
  | .und9C a => [loByte a, hiByte a]
  | .und9E a => [loByte a, hiByte a]
  | .und9F a => [loByte a, hiByte a]
  | .undA3 o => [o]
  | .undA7 o => [o]
  | .undAB o => [o]
  | .undAF a => [loByte a, hiByte a]
  | .undB2 => []
  | .undB3 o => [o]
  | .undB7 o => [o]
  | .undBB a => [loByte a, hiByte a]
  | .undBF a => [loByte a, hiByte a]
  | .undC2 o => [o]
  | .undC3 o => [o]
  | .undC7 o => [o]
  | .undCB o => [o]
  | .undCF a => [loByte a, hiByte a]
  | .undD2 => []
  | .undD3 o => [o]
  | .undD4 o => [o]
  | .undD7 o => [o]
  | .undDA => []
  | .undDB a => [loByte a, hiByte a]
  | .undDC a => [loByte a, hiByte a]
  | .undDF a => [loByte a, hiByte a]
  | .undE2 o => [o]
  | .undE3 o => [o]
  | .undE7 o => [o]
  | .undEB o => [o]
  | .undEF a => [loByte a, hiByte a]
  | .undF2 => []
  | .undF3 o => [o]
  | .undF4 o => [o]
  | .undF7 o => [o]
  | .undFA => []
  | .undFB a => [loByte a, hiByte a]
  | .undFC a => [loByte a, hiByte a]
  | .undFF a => [loByte a, hiByte a]

/-- The words of an instruction; none for a form its mnemonic does not have. -/
def encode (i : Instr) : Option (List Byte) :=
  i.opcode.map fun op => op :: i.operandBytes

/-- The `k`-th byte of an instruction whose `nbits` bits are `w`, bit 0 the least significant bit of its first byte; bits
above `nbits` are 0. -/
def tableByte (nbits w k : Nat) : Byte :=
  BitVec.ofNat 8 (w % 2 ^ nbits / 256 ^ k)

/-- What the decoder reads from the bytes of a row of spec/opcode_table.json. -/
def decodeTableWord (nbits w : Nat) : Option Instr :=
  match decode [tableByte nbits w 0, tableByte nbits w 1, tableByte nbits w 2] with
  | .ok (i, _) => some i
  | .error _ => none

end Sys2Proof
end

