-- ==== Sys2Proof/Machine/Memory.lean ====
section
/-! DEFINITION. Reading and writing memories, and their canonical form. Polymorphic in the cell width, because the machine
has byte memories, a 5-bit index buffer and a 6-bit frame (10_state.md R29-R51). -/

namespace Sys2Proof.Machine

/-- The cell at an address: 0 where none is listed (00_scope.md R7, `ramInit`; DEDUCED, log entry 13). -/
def Memory.read {w : Nat} : Cells w → Nat → BitVec w
  | [], _ => 0
  | (k, b) :: rest, a => if a = k then b else Memory.read rest a

/-- Writing a cell keeps the canonical form: a cell that holds 0 is not listed. -/
def Memory.write {w : Nat} : Cells w → Nat → BitVec w → Cells w
  | [], a, b => if b = 0 then [] else [(a, b)]
  | (k, c) :: rest, a, b =>
    if a < k then (if b = 0 then (k, c) :: rest else (a, b) :: (k, c) :: rest)
    else if a = k then (if b = 0 then rest else (a, b) :: rest)
    else (k, c) :: Memory.write rest a b

/-- The canonical form: addresses strictly rising, no listed cell that holds 0. -/
def Memory.wf {w : Nat} : Cells w → Bool
  | [] => true
  | (k, b) :: rest => b ≠ 0 && rest.all (fun c => k < c.1) && Memory.wf rest

/-- Every listed address is below the memory's size. -/
def Memory.within {w : Nat} (size : Nat) (m : Cells w) : Bool :=
  m.all fun c => c.1 < size

/-- The cells `k`, `k + 1`, ... from a list of values, in canonical form. -/
def Memory.ofList {w : Nat} (k : Nat) : List (BitVec w) → Cells w
  | [] => []
  | b :: rest => if b = 0 then Memory.ofList (k + 1) rest else (k, b) :: Memory.ofList (k + 1) rest

/-- The first `n` cells given by a function, in canonical form. -/
def Memory.tabulate {w : Nat} (n : Nat) (f : Nat → BitVec w) : Cells w :=
  Memory.ofList 0 ((List.range n).map f)

/-- The `n` cells from address `k` on. -/
def Memory.toList {w : Nat} (m : Cells w) (k n : Nat) : List (BitVec w) :=
  (List.range n).map fun i => Memory.read m (k + i)

end Sys2Proof.Machine
end

