-- ==== Sys2Proof/Machine/Ppu.lean ====
section
/-! DEFINITION. The PPU: its address space (20_memory.md R90-R93), event recording and catch-up
(53_ppu_timing_events.md R410-R413), its register file (52_ppu_registers.md R370-R387), the sprite pattern rows and the
sprite-zero detector (53_ppu_timing_events.md R425, R426). An operation that records an event may end in the model-level
fault of R411, so it answers in `Except Fault`. -/

namespace Sys2Proof.Machine

/-- The 2-bit-per-quadrant bitmask of a mode (10_state.md R45). -/
def Mirroring.mask : Mirroring → Byte
  | .horizontal => 0x50
  | .vertical => 0x44
  | .single0 => 0x00
  | .single1 => 0x55

/-- The cartridge has CHR ROM (51_mappers.md). -/
def Cart.hasChrRom (c : Cart) : Bool := 0 < c.nChr

/-! ## The PPU address space -/

/-- `q`, the logical quadrant of a PPU address: its bits 11:10 (20_memory.md R91). -/
def quadrant (a : PAddr) : BitVec 2 := a.extractLsb' 10 2

/-- The physical page of a quadrant (10_state.md R45; 20_memory.md R91). -/
def quadrantPage (mirrorMask : Byte) (q : BitVec 2) : BitVec 2 :=
  (mirrorMask >>> (2 * q.toNat)).setWidth 2

/-- The palette entry of a PPU address in $3F00-$3FFF: entries $10/$14/$18/$1C are mirrors of $00/$04/$08/$0C
(20_memory.md R91; 10_state.md R44). -/
def paletteEntry (a : PAddr) : BitVec 5 :=
  let i : BitVec 5 := a.setWidth 5
  if i &&& 0x13 = 0x10 then i &&& 0x0F else i

/-- `fold`: the index into `vram` of a PPU address in $2000-$3FFF (20_memory.md R91). -/
def fold (mirrorMask : Byte) (a : PAddr) : Nat :=
  if 0x3F00 ≤ a.toNat then 0x3F00 + (paletteEntry a).toNat
  else 0x2000 + 0x400 * (quadrantPage mirrorMask (quadrant a)).toNat + (a.setWidth 10 : BitVec 10).toNat

/-- `PatRead`: a pattern byte through CHR bank offsets `chrOff` (20_memory.md R92). -/
def patRead (cart : Cart) (vram : Memory) (chrOff : Vector Nat 8) (a : BitVec 13) : Byte :=
  if cart.hasChrRom then
    Memory.read cart.chr (chrOff.get (a.extractLsb' 10 3).toFin + (a.setWidth 10 : BitVec 10).toNat)
  else Memory.read vram a.toNat

/-- `PpuRead` (20_memory.md R93). -/
def Ppu.read (cart : Cart) (p : Ppu) (a : PAddr) : Byte :=
  if a.toNat < 0x2000 then patRead cart p.vram p.chrOff (a.setWidth 13)
  else Memory.read p.vram (fold p.mirrorMask a)

/-- `PpuWrite`: CHR ROM is read-only (20_memory.md R93). -/
def Ppu.write (cart : Cart) (p : Ppu) (a : PAddr) (d : Byte) : Ppu :=
  if a.toNat < 0x2000 then
    if cart.hasChrRom then p else { p with vram := Memory.write p.vram a.toNat d }
  else { p with vram := Memory.write p.vram (fold p.mirrorMask a) d }

/-! ## Predicates -/

/-- A mask byte enables the background or the sprites (52_ppu_registers.md R383). -/
def maskRendering (mask : Byte) : Bool := mask.getLsbD 3 || mask.getLsbD 4

/-- `rendering` (52_ppu_registers.md R383) -/
def Ppu.rendering (p : Ppu) : Bool := maskRendering p.mask

/-- The line is one of the visible lines 0..239. -/
def Ppu.visible (p : Ppu) : Bool := p.line ≤ 239

/-- `inFrame` (52_ppu_registers.md R383) -/
def Ppu.inFrame (p : Ppu) : Bool := p.rendering && (p.line ≤ 239 || p.line = 261)

/-- The status byte: VBLANK, HIT, OVF hardwired 0, bits 4:0 read 0 (10_state.md R38; 52_ppu_registers.md R374). -/
def Ppu.statusByte (p : Ppu) : Byte := (bitByte p.vblank <<< 7) ||| (bitByte p.hit <<< 6)

/-- `snapshot()` (53_ppu_timing_events.md R402) -/
def Ppu.snapshot (p : Ppu) : Snapshot where
  ctrl := p.ctrl
  mask := p.mask
  v := p.v
  x := p.x
  chrOff := p.chrOff
  mirroring := p.mirroring

/-! ## Events -/

/-- `target(l)` (53_ppu_timing_events.md R411) -/
def targetLine (l : Nat) : Nat := if l ≤ 239 then l + 1 else 0

/-- The kind and bank of an event as one number: the twelve keys of 53_ppu_timing_events.md R418 are 0..11, and END is 12. -/
def Change.key : Change → Nat
  | .ctrl _ => 0
  | .mask _ => 1
  | .scroll _ => 2
  | .mirroring _ => 3
  | .chrBank slot _ => 4 + slot.1
  | .stop => 12

/-- The event has this line, kind and bank. -/
def Event.hasKey (line : Nat) (c : Change) (e : Event) : Bool :=
  e.line = line && e.change.key = c.key

/-- `record(kind, value, bank)` with an arena of `capacity` records (53_ppu_timing_events.md R411): one event for each line,
kind and bank, a later value replacing the earlier one. -/
def record (capacity : Nat) (c : Change) (p : Ppu) : Except Fault Ppu :=
  let line := targetLine p.line
  if p.nextQ.any (Event.hasKey line c) then
    .ok { p with nextQ := p.nextQ.map fun e => if e.hasKey line c then ⟨line, c⟩ else e }
  else if capacity - 1 ≤ p.nextQ.length then .error .eventQueueOverflow
  else .ok { p with nextQ := p.nextQ ++ [⟨line, c⟩] }

/-- The SCROLL event of the live scroll, `v | x << 15`. -/
def Ppu.scrollChange (p : Ppu) : Change := .scroll (scrollValue p.v p.x)

/-- `catchUp()`: `v` and `t` are brought to the start of the next line (53_ppu_timing_events.md R413). -/
def catchUp (p : Ppu) : Ppu :=
  let line := p.line + 1
  let k := if p.rendering then line - p.liveLine else 0
  { p with v := Loopy.incY^[k] p.v, t := Loopy.incY^[k] p.t, liveLine := line }

/-- Catch-up happens only during lines 0..239 (53_ppu_timing_events.md R413). -/
def catchUpIfVisible (p : Ppu) : Ppu := if p.visible then catchUp p else p

/-- `ppu.setChrBank(i, off)` (53_ppu_timing_events.md R412) -/
def Ppu.setChrBank (capacity : Nat) (i : Fin 8) (off : Nat) (p : Ppu) : Except Fault Ppu :=
  let p := catchUpIfVisible p
  record capacity (.chrBank i off) { p with chrOff := p.chrOff.set i.1 off i.2 }

/-- `ppu.setMirroring(m)` (53_ppu_timing_events.md R412) -/
def Ppu.setMirroring (capacity : Nat) (m : Mirroring) (p : Ppu) : Except Fault Ppu :=
  let p := catchUpIfVisible p
  record capacity (.mirroring m) { p with mirroring := m, mirrorMask := m.mask }

/-! ## Register writes (52_ppu_registers.md) -/

/-- $2000 write (R371) -/
def Ppu.writeCtrl (capacity : Nat) (d : Byte) (p : Ppu) : Except Fault Ppu := do
  let nt : BitVec 2 := d.setWidth 2
  let p := { p with ctrl := d, t := Loopy.setNametable p.t nt }
  let p := if p.inFrame then { p with v := Loopy.setNametable p.v nt } else p
  let p ← record capacity (.ctrl d) p
  record capacity p.scrollChange p

/-- $2001 write (R372) -/
def Ppu.writeMask (capacity : Nat) (d : Byte) (p : Ppu) : Except Fault Ppu :=
  record capacity (.mask d) { p with mask := d }

/-- $2004 write (R376) -/
def Ppu.writeOam (d : Byte) (p : Ppu) : Ppu :=
  { p with oam := Memory.write p.oam p.oamAddr.toNat d, oamAddr := p.oamAddr + 1 }

/-- $2005 write (R378) -/
def Ppu.writeScroll (capacity : Nat) (d : Byte) (p : Ppu) : Except Fault Ppu :=
  let coarse : BitVec 5 := d.extractLsb' 3 5
  let fine : BitVec 3 := d.setWidth 3
  let p :=
    if p.w then { p with t := Loopy.setCy (Loopy.setFy p.t fine) coarse, w := false }
    else
      let p := { p with t := Loopy.setCx p.t coarse, x := fine, w := true }
      if p.inFrame then { p with v := Loopy.copyHorizontal p.v p.t } else p
  record capacity p.scrollChange p

/-- $2006 write (R379) -/
def Ppu.writeAddr (capacity : Nat) (d : Byte) (p : Ppu) : Except Fault Ppu :=
  if p.w then
    let t := Loopy.setLow p.t d
    let p := { p with t := t, v := t, w := false }
    record capacity p.scrollChange p
  else .ok { p with t := Loopy.setHigh p.t (d.setWidth 6), w := true }

/-- The address increment of $2007, 1 or 32 (R380). -/
def Ppu.dataIncrement (p : Ppu) : Loopy := if p.ctrl.getLsbD 2 then 32 else 1

/-- $2007 write (R380) -/
def Ppu.writeData (cart : Cart) (d : Byte) (p : Ppu) : Ppu :=
  let p := p.write cart (Loopy.address p.v) d
  { p with v := p.v + p.dataIncrement }

/-- A write of PPU register `r`, after the catch-up of the registers that have one (R370). -/
def Ppu.writeReg (cart : Cart) (capacity : Nat) (r : BitVec 3) (d : Byte) (p : Ppu) : Except Fault Ppu :=
  match r with
  | 0 => (catchUpIfVisible p).writeCtrl capacity d
  | 1 => (catchUpIfVisible p).writeMask capacity d
  | 2 => .ok p
  | 3 => .ok { p with oamAddr := d }
  | 4 => .ok (p.writeOam d)
  | 5 => (catchUpIfVisible p).writeScroll capacity d
  | 6 => (catchUpIfVisible p).writeAddr capacity d
  | 7 => .ok ((catchUpIfVisible p).writeData cart d)

/-! ## Register reads (52_ppu_registers.md) -/

/-- $2002 read (R374) -/
def Ppu.readStatus (p : Ppu) : Byte × Ppu :=
  (p.statusByte, { p with vblank := false, w := false })

/-- $2007 read (R381) -/
def Ppu.readData (cart : Cart) (p : Ppu) : Byte × Ppu :=
  let a := Loopy.address p.v
  let v := p.v + p.dataIncrement
  if a.toNat < 0x3F00 then (p.readBuf, { p with readBuf := p.read cart a, v := v })
  else (p.read cart a, { p with readBuf := p.read cart (a - 0x1000), v := v })

/-- A read of PPU register `r` (R370): the write-only registers return 0 and change nothing (R385). -/
def Ppu.readReg (cart : Cart) (r : BitVec 3) (p : Ppu) : Byte × Ppu :=
  match r with
  | 2 => p.readStatus
  | 4 => (Memory.read p.oam p.oamAddr.toNat, p)
  | 7 => (catchUpIfVisible p).readData cart
  | _ => (0, p)

/-! ## Sprites -/

/-- The height of a sprite under a control byte, 8 or 16 (10_state.md R36). -/
def spriteHeight (ctrl : Byte) : Nat := if ctrl.getLsbD 5 then 16 else 8

/-- The pattern address of a table, a tile, a bit plane and a row: `base + 16 * tile + 8 * plane + row`. -/
def patternAddr (table : BitVec 1) (tile : Byte) (plane : BitVec 1) (row : BitVec 3) : BitVec 13 :=
  table ++ tile ++ plane ++ row

/-- `sprRow`: the two pattern bytes of displayed row `r` of a sprite (53_ppu_timing_events.md R426). -/
def spriteRow (cart : Cart) (vram : Memory) (chrOff : Vector Nat 8) (ctrl tile attr : Byte) (h r : Nat) : Byte × Byte :=
  let pr := if attr.getLsbD 7 then h - 1 - r else r
  let table : BitVec 1 := if h = 8 then ctrl.extractLsb' 3 1 else tile.extractLsb' 0 1
  let t : Byte := if h = 8 then tile else (tile &&& 0xFE) + (if 8 ≤ pr then 1 else 0)
  let row := BitVec.ofNat 3 pr
  (patRead cart vram chrOff (patternAddr table t 0 row), patRead cart vram chrOff (patternAddr table t 1 row))

/-- `firstOpaqueRow`, from the live control register, banks and pattern memory; `h` when every row is transparent
(53_ppu_timing_events.md R426). -/
def firstOpaqueRow (cart : Cart) (p : Ppu) (tile attr : Byte) (h : Nat) : Nat :=
  ((List.range h).find? fun r =>
    let row := spriteRow cart p.vram p.chrOff p.ctrl tile attr h r
    row.1 ||| row.2 ≠ 0).getD h

/-- The condition under which the check at the start of line `line` sets HIT (53_ppu_timing_events.md R425). -/
def spriteZeroHits (cart : Cart) (line : Nat) (p : Ppu) : Bool :=
  let y := Memory.read p.oam 0
  let tile := Memory.read p.oam 1
  let attr := Memory.read p.oam 2
  let sx := Memory.read p.oam 3
  let h := spriteHeight p.ctrl
  let top := y.toNat + 1
  p.mask.getLsbD 3 && p.mask.getLsbD 4 && (top ≤ line && line < top + h) && sx.toNat ≤ 254 &&
    firstOpaqueRow cart p tile attr h ≤ line - top

/-- `spriteZeroCheck(L)` (53_ppu_timing_events.md R425); HIT stays set once it is (R428). -/
def spriteZeroCheck (cart : Cart) (line : Nat) (p : Ppu) : Ppu :=
  { p with hit := p.hit || spriteZeroHits cart line p }

end Sys2Proof.Machine
end

