-- ==== Sys2Proof/Machine/Mapper.lean ====
section
/-! DEFINITION. The cartridge mapper (51_mappers.md): bank arithmetic, the setters that publish to the PPU, the six variants'
register writes and power-on, and the MMC3 scanline counter. A setter records an event, so an operation that calls one
answers in `Except Fault` (53_ppu_timing_events.md R411). -/

namespace Sys2Proof.Machine

/-! ## Bank arithmetic (R332) -/

/-- `|prg|` -/
def Cart.prgSize (c : Cart) : Nat := 16384 * c.nPrg

/-- `|chr|` -/
def Cart.chrSize (c : Cart) : Nat := 8192 * c.nChr

/-- `countP(S)` -/
def Cart.countP (c : Cart) (size : Nat) : Nat := max 1 (c.prgSize / size)

/-- `countC(S)` -/
def Cart.countC (c : Cart) (size : Nat) : Nat := max 1 (c.chrSize / size)

/-- The byte offset of PRG bank `b` of `size` bytes: `b & (countP(S) - 1)` times the size. -/
def Cart.prgBase (c : Cart) (size b : Nat) : Nat := (b &&& (c.countP size - 1)) * size

/-- The byte offset of CHR bank `b` of `size` bytes. -/
def Cart.chrBase (c : Cart) (size b : Nat) : Nat := (b &&& (c.countC size - 1)) * size

/-- `mapPrg(S, j0, b)` on the offsets: the 8KB windows from slot `j0` on. -/
def mapPrgOff (c : Cart) (size j0 b : Nat) (off : Vector Nat 4) : Vector Nat 4 :=
  (List.range (size / 0x2000)).foldl
    (fun o k => o.setIfInBounds (j0 + k) ((c.prgBase size b + k * 0x2000) % c.prgSize)) off

/-- `mapPrg(S, j0, b)` -/
def mapPrg (size j0 b : Nat) (s : State) : State :=
  { s with mapper := { s.mapper with prgOff := mapPrgOff s.cart size j0 b s.mapper.prgOff } }

/-- One slot of `mapChr`: the mapper's offset and the PPU's copy of it (R332, R334). -/
def setChrSlot (slot : Fin 8) (off : Nat) (s : State) : Except Fault State := do
  let p ← s.ppu.setChrBank s.cfg.eventCapacity slot off
  return { s with mapper := { s.mapper with chrOff := s.mapper.chrOff.set slot.1 off slot.2 }, ppu := p }

/-- `mapChr(S, j0, b)`: nothing with CHR RAM. -/
def mapChr (size j0 b : Nat) (s : State) : Except Fault State :=
  if s.cart.hasChrRom then
    (List.range (size / 0x400)).foldlM
      (fun s k => setChrSlot (Fin.ofNat 8 (j0 + k)) ((s.cart.chrBase size b + k * 0x400) % s.cart.chrSize) s) s
  else .ok s

/-- `setMirror(m)` (R334) -/
def setMirror (m : Mirroring) (s : State) : Except Fault State := do
  let p ← s.ppu.setMirroring s.cfg.eventCapacity m
  return { s with mapper := { s.mapper with mirroring := m }, ppu := p }

def setRegs (r : MapperRegs) (s : State) : State := { s with mapper := { s.mapper with regs := r } }

/-- `cpu.raiseIRQ(MAPPER)` with the mapper's request (R360) -/
def raiseMapperIrq (s : State) : State :=
  { s with
    mapper := { s.mapper with irq := true }
    cpu := { s.cpu with irqLines := { s.cpu.irqLines with mapper := true } } }

/-- `cpu.ackIRQ(MAPPER)` with the mapper's request (R361) -/
def ackMapperIrq (s : State) : State :=
  { s with
    mapper := { s.mapper with irq := false }
    cpu := { s.cpu with irqLines := { s.cpu.irqLines with mapper := false } } }

/-! ## AxROM (R345), UxROM (R350), CNROM (R351) -/

def axromWrite (d : Byte) (s : State) : Except Fault State :=
  setMirror (if d.getLsbD 4 then .single1 else .single0) (mapPrg 0x8000 0 d.toNat s)

def uxromApply (bank : Byte) (s : State) : State :=
  mapPrg 0x4000 2 (s.cart.countP 0x4000 - 1) (mapPrg 0x4000 0 bank.toNat s)

def uxromWrite (d : Byte) (s : State) : State :=
  mapPrg 0x4000 0 d.toNat (setRegs (.uxrom d) s)

def cnromWrite (d : Byte) (s : State) : Except Fault State :=
  mapChr 0x2000 0 d.toNat (setRegs (.cnrom d) s)

/-! ## MMC1 (R352, R353) -/

/-- The mirroring mode of `control[1:0]` (R353). -/
def mmc1Mirroring (control : BitVec 5) : Mirroring :=
  match (control.setWidth 2 : BitVec 2) with
  | 0 => .single0
  | 1 => .single1
  | 2 => .vertical
  | 3 => .horizontal

/-- The PRG mapping of `mmc1Apply()` by `control[3:2]` (R353). -/
def mmc1Prg (r : Mmc1) (s : State) : State :=
  let bank := (r.prgReg.setWidth 4 : BitVec 4).toNat
  match (r.control.extractLsb' 2 2 : BitVec 2) with
  | 0 => mapPrg 0x8000 0 (bank / 2) s
  | 1 => mapPrg 0x8000 0 (bank / 2) s
  | 2 => mapPrg 0x4000 2 bank (mapPrg 0x4000 0 0 s)
  | 3 => mapPrg 0x4000 2 (s.cart.countP 0x4000 - 1) (mapPrg 0x4000 0 bank s)

/-- The CHR mapping of `mmc1Apply()` by `control[4]` (R353). -/
def mmc1Chr (r : Mmc1) (s : State) : Except Fault State :=
  if r.control.getLsbD 4 then do
    let s ← mapChr 0x1000 0 r.chr0.toNat s
    mapChr 0x1000 4 r.chr1.toNat s
  else mapChr 0x2000 0 (r.chr0.toNat / 2) s

/-- `mmc1Apply()` for the registers just written. -/
def mmc1Apply (r : Mmc1) (s : State) : Except Fault State := do
  let s ← setMirror (mmc1Mirroring r.control) (setRegs (.mmc1 r) s)
  mmc1Chr r (mmc1Prg r s)

/-- The register that the fifth serial write loads, by `(a >> 13) & 3` (R352). -/
def mmc1Load (r : Mmc1) (a : Addr) (value : BitVec 5) : Mmc1 :=
  match (a.extractLsb' 13 2 : BitVec 2) with
  | 0 => { r with control := value }
  | 1 => { r with chr0 := value }
  | 2 => { r with chr1 := value }
  | 3 => { r with prgReg := value }

def mmc1Write (r : Mmc1) (a : Addr) (d : Byte) (s : State) : Except Fault State :=
  if d.getLsbD 7 then mmc1Apply { r with shift := 0x10, control := r.control ||| 0x0C } s
  else
    let shifted : BitVec 5 := (d.extractLsb' 0 1 : BitVec 1) ++ (r.shift.extractLsb' 1 4 : BitVec 4)
    if r.shift.getLsbD 0 then mmc1Apply { mmc1Load r a shifted with shift := 0x10 } s
    else .ok (setRegs (.mmc1 { r with shift := shifted }) s)

/-! ## MMC3 (R355, R356) -/

/-- `mmc3Apply()` on the CHR banks. -/
def mmc3Chr (r : Mmc3) (s : State) : Except Fault State := do
  let c := if r.bankSelect.getLsbD 7 then 4 else 0
  let s ← mapChr 0x400 (c + 0) (r.r[0] &&& 0xFE).toNat s
  let s ← mapChr 0x400 (c + 1) (r.r[0] ||| 1).toNat s
  let s ← mapChr 0x400 (c + 2) (r.r[1] &&& 0xFE).toNat s
  let s ← mapChr 0x400 (c + 3) (r.r[1] ||| 1).toNat s
  let s ← mapChr 0x400 (4 - c + 0) r.r[2].toNat s
  let s ← mapChr 0x400 (4 - c + 1) r.r[3].toNat s
  let s ← mapChr 0x400 (4 - c + 2) r.r[4].toNat s
  mapChr 0x400 (4 - c + 3) r.r[5].toNat s

/-- `mmc3Apply()` on the PRG banks. -/
def mmc3Prg (r : Mmc3) (s : State) : State :=
  let n := s.cart.countP 0x2000
  let s :=
    if r.bankSelect.getLsbD 6 then mapPrg 0x2000 2 r.r[6].toNat (mapPrg 0x2000 0 (n - 2) s)
    else mapPrg 0x2000 2 (n - 2) (mapPrg 0x2000 0 r.r[6].toNat s)
  mapPrg 0x2000 3 (n - 1) (mapPrg 0x2000 1 r.r[7].toNat s)

/-- `mmc3Apply()` for the registers just written. -/
def mmc3Apply (r : Mmc3) (s : State) : Except Fault State := do
  let s ← mmc3Chr r (setRegs (.mmc3 r) s)
  return mmc3Prg r s

/-- The dispatch on `a & $E001` (R355). -/
def mmc3Write (r : Mmc3) (a : Addr) (d : Byte) (s : State) : Except Fault State :=
  match (a.extractLsb' 13 2 : BitVec 2), a.getLsbD 0 with
  | 0, false => mmc3Apply { r with bankSelect := d } s
  | 0, true =>
    let i : Fin 8 := (r.bankSelect.setWidth 3 : BitVec 3).toFin
    mmc3Apply { r with r := r.r.set i.1 d i.2 } s
  | 1, false => setMirror (if d.getLsbD 0 then .horizontal else .vertical) s
  | 1, true => .ok s
  | 2, false => .ok (setRegs (.mmc3 { r with irqLatch := d }) s)
  | 2, true => .ok (setRegs (.mmc3 { r with irqCounter := 0, irqReload := true }) s)
  | 3, false => .ok (ackMapperIrq (setRegs (.mmc3 { r with irqEnable := false }) s))
  | 3, true => .ok (setRegs (.mmc3 { r with irqEnable := true }) s)

/-- The registers after a clock of the counter (R360). -/
def Mmc3.clocked (r : Mmc3) : Mmc3 :=
  if r.irqCounter = 0 || r.irqReload then { r with irqCounter := r.irqLatch, irqReload := false }
  else { r with irqCounter := r.irqCounter - 1 }

/-- `mmc3Clock()`; the other variants have no counter (R360). -/
def mmc3Clock (s : State) : State :=
  match s.mapper.regs with
  | .mmc3 r =>
    let r := r.clocked
    let s := setRegs (.mmc3 r) s
    if r.irqCounter = 0 && r.irqEnable then raiseMapperIrq s else s
  | _ => s

/-! ## The framework -/

/-- `mapper.write(a, d)` of the installed variant, for `a` in $8000-$FFFF (R331): NROM ignores it (R340). -/
def mapperWrite (a : Addr) (d : Byte) (s : State) : Except Fault State :=
  match s.mapper.regs with
  | .nrom => .ok s
  | .mmc1 r => mmc1Write r a d s
  | .uxrom _ => .ok (uxromWrite d s)
  | .cnrom _ => cnromWrite d s
  | .mmc3 r => mmc3Write r a d s
  | .axrom => axromWrite d s

/-- The power-on registers of a variant (R341, R347, R350, R351, R354, R357). -/
def powerOnRegs (v : Variant) (header : Mirroring) : MapperRegs :=
  match v with
  | .nrom => .nrom
  | .mmc1 => .mmc1 ⟨0x10, 0x0C ||| (if header = .vertical then 2 else 3), 0, 0, 0⟩
  | .uxrom => .uxrom 0
  | .cnrom => .cnrom 0
  | .mmc3 => .mmc3 ⟨0, #v[0, 2, 4, 5, 6, 7, 0, 1], 0, 0, false, false⟩
  | .axrom => .axrom

/-- The power-on of a variant: its registers, its bank mapping, its mirroring, and no interrupt (R335). The mapper binding
is a new one, so its offsets are those of `Mapper.none` until they are mapped (DESIGN CHOICE, log entry 3). -/
def mapperPowerOn (s : State) : Except Fault State := do
  let regs := powerOnRegs s.cart.variant s.cart.headerMode
  let s := { s with mapper := { Mapper.none with regs := regs } }
  match regs with
  | .nrom => do
    let s ← mapChr 0x2000 0 0 (mapPrg 0x8000 0 0 s)
    setMirror s.cart.headerMode s
  | .mmc1 r => mmc1Apply r s
  | .uxrom bank => do
    let s ← mapChr 0x2000 0 0 (uxromApply bank s)
    setMirror s.cart.headerMode s
  | .cnrom _ => do
    let s ← mapChr 0x2000 0 0 (mapPrg 0x8000 0 0 s)
    setMirror s.cart.headerMode s
  | .mmc3 r => do
    let s ← mmc3Apply r s
    setMirror s.cart.headerMode s
  | .axrom => do
    let s ← mapChr 0x2000 0 0 (mapPrg 0x8000 0 0 s)
    setMirror .single0 s

end Sys2Proof.Machine
end

