-- ==== Sys2Proof/Machine/Bus.lean ====
section
/-! DEFINITION. The CPU's bus: the routing function of 50_bus_devices.md R300 with every side effect of the devices, the
controller ports, and the object-memory DMA. A read never stops; a write may end in the model-level fault of
53_ppu_timing_events.md R411, so it answers in `Except Fault`. -/

namespace Sys2Proof.Machine

/-- Adding to the cycle counter (10_state.md R27). -/
def charge (n : Nat) (s : State) : State :=
  { s with cpu := { s.cpu with cycles := s.cpu.cycles + n } }

def State.withPpu (s : State) (p : Ppu) : State := { s with ppu := p }

/-- The value of an open-bus read (R301). -/
def openBus (s : State) : Byte :=
  match s.cfg.openBus with
  | .zero => 0
  | .lastRead => s.bus.lastRead

/-- The PRG byte offset of an address in $8000-$FFFF (R313). -/
def prgIndex (m : Mapper) (a : Addr) : Nat :=
  m.prgOff.get (a.extractLsb' 13 2).toFin + (a.setWidth 13 : BitVec 13).toNat

/-! ## Controller ports -/

/-- A read of a port under the strobe (R311). -/
def Port.read (strobe : Bool) (p : Port) : Byte × Port :=
  let p := if strobe then { p with shift := p.buttons } else p
  (p.shift &&& 1, if strobe then p else { p with shift := (p.shift >>> 1) ||| 0x80 })

/-- The strobe's load of a port (R310). -/
def Port.strobed (strobe : Bool) (p : Port) : Port :=
  if strobe then { p with shift := p.buttons } else p

/-- $4016 write (R310) -/
def Pad.write (d : Byte) (pad : Pad) : Pad :=
  let st := d.getLsbD 0
  ⟨pad.port1.strobed st, pad.port2.strobed st, st⟩

/-! ## Reads -/

/-- The byte a read returns and the side effect of the device (R300), before the latch update of R305. -/
def busRead (a : Addr) (s : State) : Byte × State :=
  if a.toNat < 0x2000 then (Memory.read s.ram (a.toNat % 0x800), s)
  else if a.toNat < 0x4000 then
    let r := s.ppu.readReg s.cart (a.setWidth 3)
    (r.1, s.withPpu r.2)
  else if a.toNat < 0x4015 then (openBus s, s)
  else if a.toNat = 0x4015 then (0, s)
  else if a.toNat = 0x4016 then
    let r := s.pad.port1.read s.pad.strobe
    (r.1, { s with pad := { s.pad with port1 := r.2 } })
  else if a.toNat = 0x4017 then
    let r := s.pad.port2.read s.pad.strobe
    (r.1, { s with pad := { s.pad with port2 := r.2 } })
  else if a.toNat < 0x6000 then (openBus s, s)
  else if a.toNat < 0x8000 then (Memory.read s.prgRam (a.toNat - 0x6000), s)
  else (Memory.read s.cart.prg (prgIndex s.mapper a), s)

/-- `MemRead(addr, 1)`: every CPU read sets the open-bus latch to the byte it returns (00_scope.md R10; R305). -/
def memRead (a : Addr) (s : State) : Byte × State :=
  let r := busRead a s
  (r.1, { r.2 with bus := ⟨r.1⟩ })

/-- The byte a read of the address would return now. -/
def State.peek (s : State) (a : Addr) : Byte := (memRead a s).1

/-- `Read16`: the low byte first, `a + 1` modulo 2^16 (20_memory.md R72). -/
def read16 (a : Addr) (s : State) : Addr × State :=
  let lo := memRead a s
  let hi := memRead (a + 1) lo.2
  (wordOf hi.1 lo.1, hi.2)

/-! ## Object-memory DMA -/

/-- One byte of the DMA: an ordinary read, and the byte into object memory (R315). -/
def dmaByte (page : Byte) (s : State) (i : Nat) : State :=
  let r := memRead (wordOf page (BitVec.ofNat 8 i)) s
  let p := r.2.ppu
  r.2.withPpu { p with oam := Memory.write p.oam (p.oamAddr + BitVec.ofNat 8 i).toNat r.1 }

/-- $4014 write: the copy of 256 bytes, and its 513 cycles on the step that wrote (R315, R316). -/
def oamDma (page : Byte) (s : State) : State :=
  charge 513 ((List.range 256).foldl (dmaByte page) s)

/-! ## Writes -/

/-- `MemWrite(addr, 1, d)` (00_scope.md R10; R300) -/
def memWrite (a : Addr) (d : Byte) (s : State) : Except Fault State :=
  if a.toNat < 0x2000 then .ok { s with ram := Memory.write s.ram (a.toNat % 0x800) d }
  else if a.toNat < 0x4000 then do
    let p ← s.ppu.writeReg s.cart s.cfg.eventCapacity (a.setWidth 3) d
    return s.withPpu p
  else if a.toNat < 0x4014 then .ok { s with apuReg := Memory.write s.apuReg (a.toNat - 0x4000) d }
  else if a.toNat = 0x4014 then .ok (oamDma d s)
  else if a.toNat = 0x4015 then .ok { s with apuReg := Memory.write s.apuReg 0x15 d }
  else if a.toNat = 0x4016 then .ok { s with pad := s.pad.write d }
  else if a.toNat = 0x4017 then .ok { s with apuReg := Memory.write s.apuReg 0x17 d }
  else if a.toNat < 0x6000 then .ok s
  else if a.toNat < 0x8000 then .ok { s with prgRam := Memory.write s.prgRam (a.toNat - 0x6000) d }
  else mapperWrite a d s

end Sys2Proof.Machine
end

