-- ==== Sys2Proof/Machine/Ops.lean ====
section
/-! DEFINITION. The CPU's shared operations: its status byte, the stack, taking an interrupt and returning from one, and
fetching an instruction (00_scope.md R10; 10_state.md R22-R26; 60_exceptions.md R501-R509). -/

namespace Sys2Proof.Machine

/-- How a write that must not be repeated ends an instruction: in a next state, or in the fault of the write. -/
def complete : Except Fault State → Result
  | .ok s => .next s
  | .error f => .fault f

/-- An outcome followed by what happens after it, if it is a next state. -/
def andThen (r : Result) (f : State → Result) : Result :=
  match r with
  | .next s => f s
  | .fault e => .fault e
  | .refused e => .refused e

def State.withCpu (s : State) (c : Cpu) : State := { s with cpu := c }

def setPc (a : Addr) (s : State) : State := s.withCpu { s.cpu with pc := a }

/-! ## The status byte (10_state.md R24) -/

/-- `P(b)`: N, V, 1, B, D, I, Z, C from bit 7 to bit 0. -/
def statusByte (b : Bool) (c : Cpu) : Byte :=
  (bitByte c.n <<< 7) ||| (bitByte c.v <<< 6) ||| 0x20 ||| (bitByte b <<< 4) ||| (bitByte c.d <<< 3) |||
    (bitByte c.i <<< 2) ||| (bitByte c.z <<< 1) ||| bitByte c.c

/-- `SetP(m)`: the six stored flags from bits 7, 6, 3, 2, 1, 0; bits 5 and 4 are ignored. -/
def setStatus (m : Byte) (c : Cpu) : Cpu :=
  { c with
    n := m.getLsbD 7, v := m.getLsbD 6, d := m.getLsbD 3, i := m.getLsbD 2, z := m.getLsbD 1, c := m.getLsbD 0 }

/-! ## The stack (10_state.md R23) -/

/-- `Push(v)` -/
def push (v : Byte) (s : State) : Except Fault State := do
  let s ← memWrite (stackAddr s.cpu.sp) v s
  return s.withCpu { s.cpu with sp := s.cpu.sp - 1 }

/-- A 16-bit value is pushed high byte first. -/
def push16 (v : Addr) (s : State) : Except Fault State := do
  let s ← push (hiByte v) s
  push (loByte v) s

/-- `Pull()` -/
def pull (s : State) : Byte × State :=
  let s := s.withCpu { s.cpu with sp := s.cpu.sp + 1 }
  memRead (stackAddr s.cpu.sp) s

/-- A 16-bit value is pulled low byte first. -/
def pull16 (s : State) : Addr × State :=
  let lo := pull s
  let hi := pull lo.2
  (wordOf hi.1 lo.1, hi.2)

/-! ## Interrupts (60_exceptions.md) -/

/-- The vectors (R506). -/
def nmiVector : Addr := 0xFFFA
def resetVector : Addr := 0xFFFC
def irqVector : Addr := 0xFFFE

/-- Entering a handler: `ret` and the status with the given B are pushed, I is set, and PC is read from the vector through
the current PRG mapping. `enter(vec)` of R507 is this with `PC` and B = 0; BRK is this with its own return address and
B = 1 (44_control_transfer.md R233). D and the other flags are unchanged. -/
def enterVector (vec ret : Addr) (b : Bool) (s : State) : Except Fault State := do
  let s ← push16 ret s
  let s ← push (statusByte b s.cpu) s
  let s := s.withCpu { s.cpu with i := true }
  let target := read16 vec s
  return setPc target.1 target.2

/-- The return from an interrupt: the status is pulled, bits 5 and 4 ignored, then PC, with no adjustment (R509;
44_control_transfer.md R232). -/
def returnFromInterrupt (s : State) : State :=
  let p := pull s
  let target := pull16 (p.2.withCpu (setStatus p.1 p.2.cpu))
  setPc target.1 target.2

/-- `cpu.raiseNMI()` (R502) -/
def raiseNmi (s : State) : State := s.withCpu { s.cpu with nmiPending := true }

/-- The IRQ input: the OR of the lines (R503). -/
def IrqLines.requested (l : IrqLines) : Bool := l.mapper || l.external

/-- An interrupt that the poll at the start of a step may find. -/
inductive Interrupt where
  | nmi
  | irq
  deriving DecidableEq, Repr

/-- The poll at the start of a step: a pending NMI, else a requested and unmasked IRQ (R504). -/
def interruptDue (c : Cpu) : Option Interrupt :=
  if c.nmiPending then some .nmi
  else if c.irqLines.requested && !c.i then some .irq
  else none

/-- An NMI or IRQ entry, a step of its own that costs 7 cycles; the NMI's request is cleared, an IRQ's lines are not
(R503, R505, R507). -/
def takeInterrupt (i : Interrupt) (s : State) : Result :=
  match i with
  | .nmi =>
    let s := s.withCpu { s.cpu with nmiPending := false }
    complete ((enterVector nmiVector s.cpu.pc false s).map (charge 7))
  | .irq => complete ((enterVector irqVector s.cpu.pc false s).map (charge 7))

/-! ## Fetching -/

/-- `Fetch()` (00_scope.md R10) -/
def fetchByte (s : State) : Byte × State :=
  let r := memRead s.cpu.pc s
  (r.1, setPc (r.2.cpu.pc + 1) r.2)

/-- The instruction at PC and the state after its bytes are fetched, PC at the byte after it: the opcode, then the operand
bytes its length says, and nothing else (10_state.md R22; 20_memory.md R74; 30_encoding.md R111, R114). -/
def fetchInstr (s : State) : Instr × State :=
  let op := fetchByte s
  match opcodeLength op.1 with
  | 1 => (decodeOpcode op.1 0 0, op.2)
  | 2 =>
    let l := fetchByte op.2
    (decodeOpcode op.1 l.1 0, l.2)
  | _ =>
    let l := fetchByte op.2
    let h := fetchByte l.2
    (decodeOpcode op.1 l.1 h.1, h.2)

end Sys2Proof.Machine
end

