-- ==== Sys2Proof/Machine/Operands.lean ====
section
/-! DEFINITION. The operand forms (40_addressing.md R140-R153), their costs (R153; 70_reset_and_hazards.md R540), and the shapes
of instruction that use them: read, write, read-modify-write, branch, implied. `exec` runs on the state after the
instruction's bytes are fetched, so an operand form makes only the accesses that follow: pointer reads, then the data read
or write (20_memory.md R74). -/

namespace Sys2Proof.Machine

/-- An effective address, whether indexing crossed a page, and the state after the pointer reads. -/
structure Located where
  addr    : Addr
  crossed : Bool
  state   : State

/-- An operand byte, whether indexing crossed a page, and the state after the reads. -/
structure Operand where
  value   : Byte
  crossed : Bool
  state   : State

/-- The two addresses lie in different pages. -/
def pageCrossed (base ea : Addr) : Bool := hiByte base ≠ hiByte ea

/-- A pointer in page zero: its high byte comes from page zero too (40_addressing.md R147, R148; 20_memory.md R72). -/
def readPointer (z : Byte) (s : State) : Addr × State :=
  let lo := memRead (zext16 z) s
  let hi := memRead (zext16 (z + 1)) lo.2
  (wordOf hi.1 lo.1, hi.2)

/-- An indexed address (40_addressing.md R148, R149): the sum carries into the high byte and wraps at $FFFF. -/
def indexed (base : Addr) (index : Byte) (s : State) : Located :=
  let ea := base + zext16 index
  ⟨ea, pageCrossed base ea, s⟩

/-- The effective address of a memory form (40_addressing.md R144-R149). -/
def effAddr (m : Mem) (s : State) : Located :=
  match m with
  | .zp o => ⟨zext16 o, false, s⟩
  | .zpx o => ⟨zext16 (o + s.cpu.x), false, s⟩
  | .zpy o => ⟨zext16 (o + s.cpu.y), false, s⟩
  | .abs a => ⟨a, false, s⟩
  | .absx a => indexed a s.cpu.x s
  | .absy a => indexed a s.cpu.y s
  | .indx o =>
    let p := readPointer (o + s.cpu.x) s
    ⟨p.1, false, p.2⟩
  | .indy o =>
    let p := readPointer o s
    indexed p.1 s.cpu.y p.2

/-- The operand of a read instruction (40_addressing.md R143, R150): one read, none for an immediate. -/
def readSrc (src : Src) (s : State) : Operand :=
  match src with
  | .imm o => ⟨o, false, s⟩
  | .mem m =>
    let l := effAddr m s
    let r := memRead l.addr l.state
    ⟨r.1, l.crossed, r.2⟩

/-! ## Costs -/

/-- One extra cycle for a crossed page (40_addressing.md R153). -/
def pagePenalty (crossed : Bool) : Nat := if crossed then 1 else 0

/-- The cost of a read instruction: its base cycles, and the page-cross penalty in the modes that pay it. -/
def readCycles (src : Src) (crossed : Bool) : Nat :=
  match src with
  | .imm _ => 2
  | .mem (.zp _) => 3
  | .mem (.zpx _) => 4
  | .mem (.zpy _) => 4
  | .mem (.abs _) => 4
  | .mem (.absx _) => 4 + pagePenalty crossed
  | .mem (.absy _) => 4 + pagePenalty crossed
  | .mem (.indx _) => 6
  | .mem (.indy _) => 5 + pagePenalty crossed

/-- The cost of a write instruction, the same whether or not a page is crossed. -/
def storeCycles : Mem → Nat
  | .zp _ => 3
  | .zpx _ => 4
  | .zpy _ => 4
  | .abs _ => 4
  | .absx _ => 5
  | .absy _ => 5
  | .indx _ => 6
  | .indy _ => 6

/-- The cost of a read-modify-write of memory. The opcode map has it in the modes zp, zp,X, abs and abs,X only; the other modes
are ill-formed syntax, which no word decodes to (DEDUCED, log entry 6). -/
def modifyCycles : Mem → Nat
  | .zp _ => 5
  | .zpx _ => 6
  | .zpy _ => 6
  | .abs _ => 6
  | .absx _ => 7
  | .absy _ => 7
  | .indx _ => 8
  | .indy _ => 8

/-! ## The shapes -/

/-- A read instruction: the operand is read, then the registers and flags change. -/
def readInstr (src : Src) (f : Byte → Cpu → Cpu) (s : State) : Result :=
  let o := readSrc src s
  .next (charge (readCycles src o.crossed) (o.state.withCpu (f o.value o.state.cpu)))

/-- A write instruction: one write of a register (40_addressing.md R150). -/
def storeInstr (m : Mem) (reg : Cpu → Byte) (s : State) : Result :=
  let l := effAddr m s
  complete ((memWrite l.addr (reg l.state.cpu) l.state).map (charge (storeCycles m)))

/-- A read-modify-write of memory: one read, then one write of the result, then the flags (40_addressing.md R150). The flags
are set on the CPU as the write leaves it; a write never changes A, X, Y, SP, PC or a flag. -/
def modifyInstr (m : Mem) (result : Byte → Bool → Byte) (flags : Byte → Cpu → Cpu) (s : State) : Result :=
  let l := effAddr m s
  let r := memRead l.addr l.state
  complete ((memWrite l.addr (result r.1 r.2.cpu.c) r.2).map fun s =>
    charge (modifyCycles m) (s.withCpu (flags r.1 s.cpu)))

/-- A shift or rotate of A or of memory (40_addressing.md R142, R150). -/
def shiftInstr (dst : Rmw) (result : Byte → Bool → Byte) (out : Byte → Bool) (s : State) : Result :=
  match dst with
  | .acc =>
    let c := shiftFlags result out s.cpu.a s.cpu
    .next (charge 2 (s.withCpu { c with a := result s.cpu.a s.cpu.c }))
  | .mem m => modifyInstr m result (shiftFlags result out) s

/-- The target of a branch, from the address of the next instruction (40_addressing.md R151). -/
def branchTarget (next : Addr) (rel : Byte) : Addr := next + sext16 rel

/-- A conditional branch (44_control_transfer.md R220): 2 cycles, one more when taken, one more when the target is in
another page. -/
def branchInstr (cond : Bool) (rel : Byte) (s : State) : Result :=
  let target := branchTarget s.cpu.pc rel
  if cond then .next (charge (3 + pagePenalty (pageCrossed s.cpu.pc target)) (setPc target s))
  else .next (charge 2 s)

/-- An implied instruction that only changes CPU registers (40_addressing.md R141). -/
def impliedInstr (cycles : Nat) (f : Cpu → Cpu) (s : State) : Result :=
  .next (charge cycles (s.withCpu (f s.cpu)))

end Sys2Proof.Machine
end

