-- ==== Sys2Proof/Machine/Arith.lean ====
section
/-! DEFINITION. Arithmetic, logic, compare, increment and decrement (42_arith_logic.md R180-R196). The decimal flag
is read by none of them (R196). -/

namespace Sys2Proof.Machine

/-- `ADC` (R181) -/
def execAdc (src : Src) (s : State) : Result :=
  readInstr src addWithCarry s

/-- `SBC` (R182) -/
def execSbc (src : Src) (s : State) : Result :=
  readInstr src subWithBorrow s

/-- `AND` (R183) -/
def execAnd (src : Src) (s : State) : Result :=
  readInstr src (fun m c => loadA (c.a &&& m) c) s

/-- `ORA` (R184) -/
def execOra (src : Src) (s : State) : Result :=
  readInstr src (fun m c => loadA (c.a ||| m) c) s

/-- `EOR` (R185) -/
def execEor (src : Src) (s : State) : Result :=
  readInstr src (fun m c => loadA (c.a ^^^ m) c) s

/-- `BIT` (R186): A is not written -/
def execBit (m : Mem) (s : State) : Result :=
  readInstr (.mem m) bitTest s

/-- `CMP` (R187): A is not written -/
def execCmp (src : Src) (s : State) : Result :=
  readInstr src (fun m c => compareWith c.a m c) s

/-- `CPX` (R188) -/
def execCpx (src : Src) (s : State) : Result :=
  readInstr src (fun m c => compareWith c.x m c) s

/-- `CPY` (R189) -/
def execCpy (src : Src) (s : State) : Result :=
  readInstr src (fun m c => compareWith c.y m c) s

/-- `INC` (R190): C is not written -/
def execInc (m : Mem) (s : State) : Result :=
  modifyInstr m (fun b _ => b + 1) (fun b => setNZ (b + 1)) s

/-- `DEC` (R191): C is not written -/
def execDec (m : Mem) (s : State) : Result :=
  modifyInstr m (fun b _ => b - 1) (fun b => setNZ (b - 1)) s

/-- `INX` (R192) -/
def execInx (s : State) : Result :=
  impliedInstr 2 (fun c => loadX (c.x + 1) c) s

/-- `INY` (R193) -/
def execIny (s : State) : Result :=
  impliedInstr 2 (fun c => loadY (c.y + 1) c) s

/-- `DEX` (R194) -/
def execDex (s : State) : Result :=
  impliedInstr 2 (fun c => loadX (c.x - 1) c) s

/-- `DEY` (R195) -/
def execDey (s : State) : Result :=
  impliedInstr 2 (fun c => loadY (c.y - 1) c) s

end Sys2Proof.Machine
end

