-- ==== Sys2Proof/Machine/Control.lean ====
section
/-! DEFINITION. Branches, jumps, calls, returns and BRK (44_control_transfer.md R220-R234). PC is already past the
instruction when a meaning runs. -/

namespace Sys2Proof.Machine

/-- The target that `JMP (ptr)` reads, with the NMOS page wrap: the high byte of a pointer at `$xxFF` comes from `$xx00`
(R229; 20_memory.md R72). -/
def readIndirect (ptr : Addr) (s : State) : Addr × State :=
  let lo := memRead ptr s
  let hi := memRead (wordOf (hiByte ptr) (loByte ptr + 1)) lo.2
  (wordOf hi.1 lo.1, hi.2)

/-- `BCC` (R221) -/
def execBcc (rel : Byte) (s : State) : Result :=
  branchInstr (!s.cpu.c) rel s

/-- `BCS` (R222) -/
def execBcs (rel : Byte) (s : State) : Result :=
  branchInstr s.cpu.c rel s

/-- `BEQ` (R223) -/
def execBeq (rel : Byte) (s : State) : Result :=
  branchInstr s.cpu.z rel s

/-- `BNE` (R224) -/
def execBne (rel : Byte) (s : State) : Result :=
  branchInstr (!s.cpu.z) rel s

/-- `BMI` (R225) -/
def execBmi (rel : Byte) (s : State) : Result :=
  branchInstr s.cpu.n rel s

/-- `BPL` (R226) -/
def execBpl (rel : Byte) (s : State) : Result :=
  branchInstr (!s.cpu.n) rel s

/-- `BVC` (R227) -/
def execBvc (rel : Byte) (s : State) : Result :=
  branchInstr (!s.cpu.v) rel s

/-- `BVS` (R228) -/
def execBvs (rel : Byte) (s : State) : Result :=
  branchInstr s.cpu.v rel s

/-- `JMP` (R229): the indirect form reads its high byte within the pointer's page -/
def execJmp (target : JmpTarget) (s : State) : Result :=
  match target with
  | .abs a => .next (charge 3 (setPc a s))
  | .ind ptr =>
    let r := readIndirect ptr s
    .next (charge 5 (setPc r.1 r.2))

/-- `JSR` (R230): the address of its own last byte is pushed -/
def execJsr (target : Addr) (s : State) : Result :=
  complete ((push16 (s.cpu.pc - 1) s).map fun s => charge 6 (setPc target s))

/-- `RTS` (R231) -/
def execRts (s : State) : Result :=
  let r := pull16 s
  .next (charge 6 (setPc (r.1 + 1) r.2))

/-- `RTI` (R232) -/
def execRti (s : State) : Result :=
  .next (charge 6 (returnFromInterrupt s))

/-- `BRK` (R233): the IRQ vector whatever I holds, the return address past a padding byte, B = 1 (60_exceptions.md R508) -/
def execBrk (s : State) : Result :=
  complete ((enterVector irqVector (s.cpu.pc + 1) true s).map (charge 7))

end Sys2Proof.Machine
end

