-- ==== Sys2Proof/Machine/Loads.lean ====
section
/-! DEFINITION. Loads, stores and register transfers (41_load_store_transfer.md R160-R171). -/

namespace Sys2Proof.Machine

/-- `LDA` (R160) -/
def execLda (src : Src) (s : State) : Result :=
  readInstr src loadA s

/-- `LDX` (R161) -/
def execLdx (src : Src) (s : State) : Result :=
  readInstr src loadX s

/-- `LDY` (R162) -/
def execLdy (src : Src) (s : State) : Result :=
  readInstr src loadY s

/-- `STA` (R163) -/
def execSta (m : Mem) (s : State) : Result :=
  storeInstr m Cpu.a s

/-- `STX` (R164) -/
def execStx (m : Mem) (s : State) : Result :=
  storeInstr m Cpu.x s

/-- `STY` (R165) -/
def execSty (m : Mem) (s : State) : Result :=
  storeInstr m Cpu.y s

/-- `TAX` (R166) -/
def execTax (s : State) : Result :=
  impliedInstr 2 (fun c => loadX c.a c) s

/-- `TAY` (R167) -/
def execTay (s : State) : Result :=
  impliedInstr 2 (fun c => loadY c.a c) s

/-- `TXA` (R168) -/
def execTxa (s : State) : Result :=
  impliedInstr 2 (fun c => loadA c.x c) s

/-- `TYA` (R169) -/
def execTya (s : State) : Result :=
  impliedInstr 2 (fun c => loadA c.y c) s

/-- `TSX` (R170) -/
def execTsx (s : State) : Result :=
  impliedInstr 2 (fun c => loadX c.sp c) s

/-- `TXS` (R171): no flag is written -/
def execTxs (s : State) : Result :=
  impliedInstr 2 (fun c => { c with sp := c.x }) s

end Sys2Proof.Machine
end

