-- ==== Sys2Proof/Machine/Shift.lean ====
section
/-! DEFINITION. Shifts and rotates by one bit (43_shift_rotate.md R210-R213). -/

namespace Sys2Proof.Machine

/-- `ASL` (R210) -/
def execAsl (dst : Rmw) (s : State) : Result :=
  shiftInstr dst aslResult bit7 s

/-- `LSR` (R211) -/
def execLsr (dst : Rmw) (s : State) : Result :=
  shiftInstr dst lsrResult bit0 s

/-- `ROL` (R212) -/
def execRol (dst : Rmw) (s : State) : Result :=
  shiftInstr dst rolResult bit7 s

/-- `ROR` (R213) -/
def execRor (dst : Rmw) (s : State) : Result :=
  shiftInstr dst rorResult bit0 s

end Sys2Proof.Machine
end

