-- ==== Sys2Proof/Machine/Stack.lean ====
section
/-! DEFINITION. Stack, flag and no-operation instructions (45_stack_flags_misc.md R240-R251). -/

namespace Sys2Proof.Machine

/-- `PHA` (R240) -/
def execPha (s : State) : Result :=
  complete ((push s.cpu.a s).map (charge 3))

/-- `PHP` (R241): bits 5 and 4 are pushed as 1 -/
def execPhp (s : State) : Result :=
  complete ((push (statusByte true s.cpu) s).map (charge 3))

/-- `PLA` (R242) -/
def execPla (s : State) : Result :=
  let r := pull s
  .next (charge 4 (r.2.withCpu (loadA r.1 r.2.cpu)))

/-- `PLP` (R243): bits 5 and 4 are ignored -/
def execPlp (s : State) : Result :=
  let r := pull s
  .next (charge 4 (r.2.withCpu (setStatus r.1 r.2.cpu)))

/-- `CLC` (R244) -/
def execClc (s : State) : Result :=
  impliedInstr 2 (fun c => { c with c := false }) s

/-- `CLD` (R245) -/
def execCld (s : State) : Result :=
  impliedInstr 2 (fun c => { c with d := false }) s

/-- `CLI` (R246) -/
def execCli (s : State) : Result :=
  impliedInstr 2 (fun c => { c with i := false }) s

/-- `CLV` (R247) -/
def execClv (s : State) : Result :=
  impliedInstr 2 (fun c => { c with v := false }) s

/-- `SEC` (R248) -/
def execSec (s : State) : Result :=
  impliedInstr 2 (fun c => { c with c := true }) s

/-- `SED` (R249) -/
def execSed (s : State) : Result :=
  impliedInstr 2 (fun c => { c with d := true }) s

/-- `SEI` (R250) -/
def execSei (s : State) : Result :=
  impliedInstr 2 (fun c => { c with i := true }) s

/-- `NOP` (R251) -/
def execNop (s : State) : Result :=
  impliedInstr 2 (fun c => c) s

end Sys2Proof.Machine
end

