-- ==== Sys2Proof/Machine/Undefined.lean ====
section
/-! DEFINITION. The 105 undefined opcodes (46_undefined_opcodes.md R260-R263). Each has a definition of its own over one shared
operation; its length and cost are those of R263. -/

namespace Sys2Proof.Machine

/-- An undefined opcode of `length` bytes and `cost` cycles. Its operand bytes are already fetched and are discarded; it does
nothing else (R260), or it is refused under the policy that refuses, with the address it was fetched from (R261; DEDUCED, log
entry 10). -/
def undefinedInstr (op : Byte) (length cost : Nat) (s : State) : Result :=
  match s.cfg.undefinedOpcode with
  | .nop => .next (charge cost s)
  | .refuse => .refused (.undefinedOpcode op (s.cpu.pc - BitVec.ofNat 16 length))

/-- $02, JAM impl on silicon -/
def execUnd02 (s : State) : Result := undefinedInstr 0x02 1 2 s
/-- $03, SLO (zp,X) on silicon -/
def execUnd03 (_ : Byte) (s : State) : Result := undefinedInstr 0x03 2 8 s
/-- $04, NOP zp on silicon -/
def execUnd04 (_ : Byte) (s : State) : Result := undefinedInstr 0x04 2 3 s
/-- $07, SLO zp on silicon -/
def execUnd07 (_ : Byte) (s : State) : Result := undefinedInstr 0x07 2 5 s
/-- $0B, ANC # on silicon -/
def execUnd0B (_ : Byte) (s : State) : Result := undefinedInstr 0x0B 2 2 s
/-- $0C, NOP abs on silicon -/
def execUnd0C (_ : Addr) (s : State) : Result := undefinedInstr 0x0C 3 4 s
/-- $0F, SLO abs on silicon -/
def execUnd0F (_ : Addr) (s : State) : Result := undefinedInstr 0x0F 3 6 s
/-- $12, JAM impl on silicon -/
def execUnd12 (s : State) : Result := undefinedInstr 0x12 1 2 s
/-- $13, SLO (zp),Y on silicon -/
def execUnd13 (_ : Byte) (s : State) : Result := undefinedInstr 0x13 2 8 s
/-- $14, NOP zp,X on silicon -/
def execUnd14 (_ : Byte) (s : State) : Result := undefinedInstr 0x14 2 4 s
/-- $17, SLO zp,X on silicon -/
def execUnd17 (_ : Byte) (s : State) : Result := undefinedInstr 0x17 2 6 s
/-- $1A, NOP impl on silicon -/
def execUnd1A (s : State) : Result := undefinedInstr 0x1A 1 2 s
/-- $1B, SLO abs,Y on silicon -/
def execUnd1B (_ : Addr) (s : State) : Result := undefinedInstr 0x1B 3 7 s
/-- $1C, NOP abs,X on silicon -/
def execUnd1C (_ : Addr) (s : State) : Result := undefinedInstr 0x1C 3 4 s
/-- $1F, SLO abs,X on silicon -/
def execUnd1F (_ : Addr) (s : State) : Result := undefinedInstr 0x1F 3 7 s
/-- $22, JAM impl on silicon -/
def execUnd22 (s : State) : Result := undefinedInstr 0x22 1 2 s
/-- $23, RLA (zp,X) on silicon -/
def execUnd23 (_ : Byte) (s : State) : Result := undefinedInstr 0x23 2 8 s
/-- $27, RLA zp on silicon -/
def execUnd27 (_ : Byte) (s : State) : Result := undefinedInstr 0x27 2 5 s
/-- $2B, ANC # on silicon -/
def execUnd2B (_ : Byte) (s : State) : Result := undefinedInstr 0x2B 2 2 s
/-- $2F, RLA abs on silicon -/
def execUnd2F (_ : Addr) (s : State) : Result := undefinedInstr 0x2F 3 6 s
/-- $32, JAM impl on silicon -/
def execUnd32 (s : State) : Result := undefinedInstr 0x32 1 2 s
/-- $33, RLA (zp),Y on silicon -/
def execUnd33 (_ : Byte) (s : State) : Result := undefinedInstr 0x33 2 8 s
/-- $34, NOP zp,X on silicon -/
def execUnd34 (_ : Byte) (s : State) : Result := undefinedInstr 0x34 2 4 s
/-- $37, RLA zp,X on silicon -/
def execUnd37 (_ : Byte) (s : State) : Result := undefinedInstr 0x37 2 6 s
/-- $3A, NOP impl on silicon -/
def execUnd3A (s : State) : Result := undefinedInstr 0x3A 1 2 s
/-- $3B, RLA abs,Y on silicon -/
def execUnd3B (_ : Addr) (s : State) : Result := undefinedInstr 0x3B 3 7 s
/-- $3C, NOP abs,X on silicon -/
def execUnd3C (_ : Addr) (s : State) : Result := undefinedInstr 0x3C 3 4 s
/-- $3F, RLA abs,X on silicon -/
def execUnd3F (_ : Addr) (s : State) : Result := undefinedInstr 0x3F 3 7 s
/-- $42, JAM impl on silicon -/
def execUnd42 (s : State) : Result := undefinedInstr 0x42 1 2 s
/-- $43, SRE (zp,X) on silicon -/
def execUnd43 (_ : Byte) (s : State) : Result := undefinedInstr 0x43 2 8 s
/-- $44, NOP zp on silicon -/
def execUnd44 (_ : Byte) (s : State) : Result := undefinedInstr 0x44 2 3 s
/-- $47, SRE zp on silicon -/
def execUnd47 (_ : Byte) (s : State) : Result := undefinedInstr 0x47 2 5 s
/-- $4B, ALR # on silicon -/
def execUnd4B (_ : Byte) (s : State) : Result := undefinedInstr 0x4B 2 2 s
/-- $4F, SRE abs on silicon -/
def execUnd4F (_ : Addr) (s : State) : Result := undefinedInstr 0x4F 3 6 s
/-- $52, JAM impl on silicon -/
def execUnd52 (s : State) : Result := undefinedInstr 0x52 1 2 s
/-- $53, SRE (zp),Y on silicon -/
def execUnd53 (_ : Byte) (s : State) : Result := undefinedInstr 0x53 2 8 s
/-- $54, NOP zp,X on silicon -/
def execUnd54 (_ : Byte) (s : State) : Result := undefinedInstr 0x54 2 4 s
/-- $57, SRE zp,X on silicon -/
def execUnd57 (_ : Byte) (s : State) : Result := undefinedInstr 0x57 2 6 s
/-- $5A, NOP impl on silicon -/
def execUnd5A (s : State) : Result := undefinedInstr 0x5A 1 2 s
/-- $5B, SRE abs,Y on silicon -/
def execUnd5B (_ : Addr) (s : State) : Result := undefinedInstr 0x5B 3 7 s
/-- $5C, NOP abs,X on silicon -/
def execUnd5C (_ : Addr) (s : State) : Result := undefinedInstr 0x5C 3 4 s
/-- $5F, SRE abs,X on silicon -/
def execUnd5F (_ : Addr) (s : State) : Result := undefinedInstr 0x5F 3 7 s
/-- $62, JAM impl on silicon -/
def execUnd62 (s : State) : Result := undefinedInstr 0x62 1 2 s
/-- $63, RRA (zp,X) on silicon -/
def execUnd63 (_ : Byte) (s : State) : Result := undefinedInstr 0x63 2 8 s
/-- $64, NOP zp on silicon -/
def execUnd64 (_ : Byte) (s : State) : Result := undefinedInstr 0x64 2 3 s
/-- $67, RRA zp on silicon -/
def execUnd67 (_ : Byte) (s : State) : Result := undefinedInstr 0x67 2 5 s
/-- $6B, ARR # on silicon -/
def execUnd6B (_ : Byte) (s : State) : Result := undefinedInstr 0x6B 2 2 s
/-- $6F, RRA abs on silicon -/
def execUnd6F (_ : Addr) (s : State) : Result := undefinedInstr 0x6F 3 6 s
/-- $72, JAM impl on silicon -/
def execUnd72 (s : State) : Result := undefinedInstr 0x72 1 2 s
/-- $73, RRA (zp),Y on silicon -/
def execUnd73 (_ : Byte) (s : State) : Result := undefinedInstr 0x73 2 8 s
/-- $74, NOP zp,X on silicon -/
def execUnd74 (_ : Byte) (s : State) : Result := undefinedInstr 0x74 2 4 s
/-- $77, RRA zp,X on silicon -/
def execUnd77 (_ : Byte) (s : State) : Result := undefinedInstr 0x77 2 6 s
/-- $7A, NOP impl on silicon -/
def execUnd7A (s : State) : Result := undefinedInstr 0x7A 1 2 s
/-- $7B, RRA abs,Y on silicon -/
def execUnd7B (_ : Addr) (s : State) : Result := undefinedInstr 0x7B 3 7 s
/-- $7C, NOP abs,X on silicon -/
def execUnd7C (_ : Addr) (s : State) : Result := undefinedInstr 0x7C 3 4 s
/-- $7F, RRA abs,X on silicon -/
def execUnd7F (_ : Addr) (s : State) : Result := undefinedInstr 0x7F 3 7 s
/-- $80, NOP # on silicon -/
def execUnd80 (_ : Byte) (s : State) : Result := undefinedInstr 0x80 2 2 s
/-- $82, NOP # on silicon -/
def execUnd82 (_ : Byte) (s : State) : Result := undefinedInstr 0x82 2 2 s
/-- $83, SAX (zp,X) on silicon -/
def execUnd83 (_ : Byte) (s : State) : Result := undefinedInstr 0x83 2 6 s
/-- $87, SAX zp on silicon -/
def execUnd87 (_ : Byte) (s : State) : Result := undefinedInstr 0x87 2 3 s
/-- $89, NOP # on silicon -/
def execUnd89 (_ : Byte) (s : State) : Result := undefinedInstr 0x89 2 2 s
/-- $8B, XAA # on silicon -/
def execUnd8B (_ : Byte) (s : State) : Result := undefinedInstr 0x8B 2 2 s
/-- $8F, SAX abs on silicon -/
def execUnd8F (_ : Addr) (s : State) : Result := undefinedInstr 0x8F 3 4 s
/-- $92, JAM impl on silicon -/
def execUnd92 (s : State) : Result := undefinedInstr 0x92 1 2 s
/-- $93, AHX (zp),Y on silicon -/
def execUnd93 (_ : Byte) (s : State) : Result := undefinedInstr 0x93 2 6 s
/-- $97, SAX zp,Y on silicon -/
def execUnd97 (_ : Byte) (s : State) : Result := undefinedInstr 0x97 2 4 s
/-- $9B, TAS abs,Y on silicon -/
def execUnd9B (_ : Addr) (s : State) : Result := undefinedInstr 0x9B 3 5 s
/-- $9C, SHY abs,X on silicon -/
def execUnd9C (_ : Addr) (s : State) : Result := undefinedInstr 0x9C 3 5 s
/-- $9E, SHX abs,Y on silicon -/
def execUnd9E (_ : Addr) (s : State) : Result := undefinedInstr 0x9E 3 5 s
/-- $9F, AHX abs,Y on silicon -/
def execUnd9F (_ : Addr) (s : State) : Result := undefinedInstr 0x9F 3 5 s
/-- $A3, LAX (zp,X) on silicon -/
def execUndA3 (_ : Byte) (s : State) : Result := undefinedInstr 0xA3 2 6 s
/-- $A7, LAX zp on silicon -/
def execUndA7 (_ : Byte) (s : State) : Result := undefinedInstr 0xA7 2 3 s
/-- $AB, LAX # on silicon -/
def execUndAB (_ : Byte) (s : State) : Result := undefinedInstr 0xAB 2 2 s
/-- $AF, LAX abs on silicon -/
def execUndAF (_ : Addr) (s : State) : Result := undefinedInstr 0xAF 3 4 s
/-- $B2, JAM impl on silicon -/
def execUndB2 (s : State) : Result := undefinedInstr 0xB2 1 2 s
/-- $B3, LAX (zp),Y on silicon -/
def execUndB3 (_ : Byte) (s : State) : Result := undefinedInstr 0xB3 2 5 s
/-- $B7, LAX zp,Y on silicon -/
def execUndB7 (_ : Byte) (s : State) : Result := undefinedInstr 0xB7 2 4 s
/-- $BB, LAS abs,Y on silicon -/
def execUndBB (_ : Addr) (s : State) : Result := undefinedInstr 0xBB 3 4 s
/-- $BF, LAX abs,Y on silicon -/
def execUndBF (_ : Addr) (s : State) : Result := undefinedInstr 0xBF 3 4 s
/-- $C2, NOP # on silicon -/
def execUndC2 (_ : Byte) (s : State) : Result := undefinedInstr 0xC2 2 2 s
/-- $C3, DCP (zp,X) on silicon -/
def execUndC3 (_ : Byte) (s : State) : Result := undefinedInstr 0xC3 2 8 s
/-- $C7, DCP zp on silicon -/
def execUndC7 (_ : Byte) (s : State) : Result := undefinedInstr 0xC7 2 5 s
/-- $CB, AXS # on silicon -/
def execUndCB (_ : Byte) (s : State) : Result := undefinedInstr 0xCB 2 2 s
/-- $CF, DCP abs on silicon -/
def execUndCF (_ : Addr) (s : State) : Result := undefinedInstr 0xCF 3 6 s
/-- $D2, JAM impl on silicon -/
def execUndD2 (s : State) : Result := undefinedInstr 0xD2 1 2 s
/-- $D3, DCP (zp),Y on silicon -/
def execUndD3 (_ : Byte) (s : State) : Result := undefinedInstr 0xD3 2 8 s
/-- $D4, NOP zp,X on silicon -/
def execUndD4 (_ : Byte) (s : State) : Result := undefinedInstr 0xD4 2 4 s
/-- $D7, DCP zp,X on silicon -/
def execUndD7 (_ : Byte) (s : State) : Result := undefinedInstr 0xD7 2 6 s
/-- $DA, NOP impl on silicon -/
def execUndDA (s : State) : Result := undefinedInstr 0xDA 1 2 s
/-- $DB, DCP abs,Y on silicon -/
def execUndDB (_ : Addr) (s : State) : Result := undefinedInstr 0xDB 3 7 s
/-- $DC, NOP abs,X on silicon -/
def execUndDC (_ : Addr) (s : State) : Result := undefinedInstr 0xDC 3 4 s
/-- $DF, DCP abs,X on silicon -/
def execUndDF (_ : Addr) (s : State) : Result := undefinedInstr 0xDF 3 7 s
/-- $E2, NOP # on silicon -/
def execUndE2 (_ : Byte) (s : State) : Result := undefinedInstr 0xE2 2 2 s
/-- $E3, ISC (zp,X) on silicon -/
def execUndE3 (_ : Byte) (s : State) : Result := undefinedInstr 0xE3 2 8 s
/-- $E7, ISC zp on silicon -/
def execUndE7 (_ : Byte) (s : State) : Result := undefinedInstr 0xE7 2 5 s
/-- $EB, SBC # on silicon -/
def execUndEB (_ : Byte) (s : State) : Result := undefinedInstr 0xEB 2 2 s
/-- $EF, ISC abs on silicon -/
def execUndEF (_ : Addr) (s : State) : Result := undefinedInstr 0xEF 3 6 s
/-- $F2, JAM impl on silicon -/
def execUndF2 (s : State) : Result := undefinedInstr 0xF2 1 2 s
/-- $F3, ISC (zp),Y on silicon -/
def execUndF3 (_ : Byte) (s : State) : Result := undefinedInstr 0xF3 2 8 s
/-- $F4, NOP zp,X on silicon -/
def execUndF4 (_ : Byte) (s : State) : Result := undefinedInstr 0xF4 2 4 s
/-- $F7, ISC zp,X on silicon -/
def execUndF7 (_ : Byte) (s : State) : Result := undefinedInstr 0xF7 2 6 s
/-- $FA, NOP impl on silicon -/
def execUndFA (s : State) : Result := undefinedInstr 0xFA 1 2 s
/-- $FB, ISC abs,Y on silicon -/
def execUndFB (_ : Addr) (s : State) : Result := undefinedInstr 0xFB 3 7 s
/-- $FC, NOP abs,X on silicon -/
def execUndFC (_ : Addr) (s : State) : Result := undefinedInstr 0xFC 3 4 s
/-- $FF, ISC abs,X on silicon -/
def execUndFF (_ : Addr) (s : State) : Result := undefinedInstr 0xFF 3 7 s

end Sys2Proof.Machine
end

