-- ==== Sys2Proof/Machine/Dispatch.lean ====
section
/-! DEFINITION. The meaning of each instruction, run on the state after its bytes are fetched. -/

namespace Sys2Proof.Machine

def exec (i : Instr) (s : State) : Host.Outcome State Fault Refusal :=
  match i with
  -- 41_load_store_transfer.md
  | .lda src => Sys2Proof.Machine.execLda src s
  | .ldx src => Sys2Proof.Machine.execLdx src s
  | .ldy src => Sys2Proof.Machine.execLdy src s
  | .sta m => Sys2Proof.Machine.execSta m s
  | .stx m => Sys2Proof.Machine.execStx m s
  | .sty m => Sys2Proof.Machine.execSty m s
  | .tax => Sys2Proof.Machine.execTax s
  | .tay => Sys2Proof.Machine.execTay s
  | .txa => Sys2Proof.Machine.execTxa s
  | .tya => Sys2Proof.Machine.execTya s
  | .tsx => Sys2Proof.Machine.execTsx s
  | .txs => Sys2Proof.Machine.execTxs s
  -- 42_arith_logic.md
  | .adc src => Sys2Proof.Machine.execAdc src s
  | .sbc src => Sys2Proof.Machine.execSbc src s
  | .and src => Sys2Proof.Machine.execAnd src s
  | .ora src => Sys2Proof.Machine.execOra src s
  | .eor src => Sys2Proof.Machine.execEor src s
  | .bit m => Sys2Proof.Machine.execBit m s
  | .cmp src => Sys2Proof.Machine.execCmp src s
  | .cpx src => Sys2Proof.Machine.execCpx src s
  | .cpy src => Sys2Proof.Machine.execCpy src s
  | .inc m => Sys2Proof.Machine.execInc m s
  | .dec m => Sys2Proof.Machine.execDec m s
  | .inx => Sys2Proof.Machine.execInx s
  | .iny => Sys2Proof.Machine.execIny s
  | .dex => Sys2Proof.Machine.execDex s
  | .dey => Sys2Proof.Machine.execDey s
  -- 43_shift_rotate.md
  | .asl dst => Sys2Proof.Machine.execAsl dst s
  | .lsr dst => Sys2Proof.Machine.execLsr dst s
  | .rol dst => Sys2Proof.Machine.execRol dst s
  | .ror dst => Sys2Proof.Machine.execRor dst s
  -- 44_control_transfer.md
  | .bcc rel => Sys2Proof.Machine.execBcc rel s
  | .bcs rel => Sys2Proof.Machine.execBcs rel s
  | .beq rel => Sys2Proof.Machine.execBeq rel s
  | .bne rel => Sys2Proof.Machine.execBne rel s
  | .bmi rel => Sys2Proof.Machine.execBmi rel s
  | .bpl rel => Sys2Proof.Machine.execBpl rel s
  | .bvc rel => Sys2Proof.Machine.execBvc rel s
  | .bvs rel => Sys2Proof.Machine.execBvs rel s
  | .jmp target => Sys2Proof.Machine.execJmp target s
  | .jsr target => Sys2Proof.Machine.execJsr target s
  | .rts => Sys2Proof.Machine.execRts s
  | .rti => Sys2Proof.Machine.execRti s
  | .brk => Sys2Proof.Machine.execBrk s
  -- 45_stack_flags_misc.md
  | .pha => Sys2Proof.Machine.execPha s
  | .php => Sys2Proof.Machine.execPhp s
  | .pla => Sys2Proof.Machine.execPla s
  | .plp => Sys2Proof.Machine.execPlp s
  | .clc => Sys2Proof.Machine.execClc s
  | .cld => Sys2Proof.Machine.execCld s
  | .cli => Sys2Proof.Machine.execCli s
  | .clv => Sys2Proof.Machine.execClv s
  | .sec => Sys2Proof.Machine.execSec s
  | .sed => Sys2Proof.Machine.execSed s
  | .sei => Sys2Proof.Machine.execSei s
  | .nop => Sys2Proof.Machine.execNop s
  -- 46_undefined_opcodes.md
  | .und02 => Sys2Proof.Machine.execUnd02 s
  | .und03 o => Sys2Proof.Machine.execUnd03 o s
  | .und04 o => Sys2Proof.Machine.execUnd04 o s
  | .und07 o => Sys2Proof.Machine.execUnd07 o s
  | .und0B o => Sys2Proof.Machine.execUnd0B o s
  | .und0C o => Sys2Proof.Machine.execUnd0C o s
  | .und0F o => Sys2Proof.Machine.execUnd0F o s
  | .und12 => Sys2Proof.Machine.execUnd12 s
  | .und13 o => Sys2Proof.Machine.execUnd13 o s
  | .und14 o => Sys2Proof.Machine.execUnd14 o s
  | .und17 o => Sys2Proof.Machine.execUnd17 o s
  | .und1A => Sys2Proof.Machine.execUnd1A s
  | .und1B o => Sys2Proof.Machine.execUnd1B o s
  | .und1C o => Sys2Proof.Machine.execUnd1C o s
  | .und1F o => Sys2Proof.Machine.execUnd1F o s
  | .und22 => Sys2Proof.Machine.execUnd22 s
  | .und23 o => Sys2Proof.Machine.execUnd23 o s
  | .und27 o => Sys2Proof.Machine.execUnd27 o s
  | .und2B o => Sys2Proof.Machine.execUnd2B o s
  | .und2F o => Sys2Proof.Machine.execUnd2F o s
  | .und32 => Sys2Proof.Machine.execUnd32 s
  | .und33 o => Sys2Proof.Machine.execUnd33 o s
  | .und34 o => Sys2Proof.Machine.execUnd34 o s
  | .und37 o => Sys2Proof.Machine.execUnd37 o s
  | .und3A => Sys2Proof.Machine.execUnd3A s
  | .und3B o => Sys2Proof.Machine.execUnd3B o s
  | .und3C o => Sys2Proof.Machine.execUnd3C o s
  | .und3F o => Sys2Proof.Machine.execUnd3F o s
  | .und42 => Sys2Proof.Machine.execUnd42 s
  | .und43 o => Sys2Proof.Machine.execUnd43 o s
  | .und44 o => Sys2Proof.Machine.execUnd44 o s
  | .und47 o => Sys2Proof.Machine.execUnd47 o s
  | .und4B o => Sys2Proof.Machine.execUnd4B o s
  | .und4F o => Sys2Proof.Machine.execUnd4F o s
  | .und52 => Sys2Proof.Machine.execUnd52 s
  | .und53 o => Sys2Proof.Machine.execUnd53 o s
  | .und54 o => Sys2Proof.Machine.execUnd54 o s
  | .und57 o => Sys2Proof.Machine.execUnd57 o s
  | .und5A => Sys2Proof.Machine.execUnd5A s
  | .und5B o => Sys2Proof.Machine.execUnd5B o s
  | .und5C o => Sys2Proof.Machine.execUnd5C o s
  | .und5F o => Sys2Proof.Machine.execUnd5F o s
  | .und62 => Sys2Proof.Machine.execUnd62 s
  | .und63 o => Sys2Proof.Machine.execUnd63 o s
  | .und64 o => Sys2Proof.Machine.execUnd64 o s
  | .und67 o => Sys2Proof.Machine.execUnd67 o s
  | .und6B o => Sys2Proof.Machine.execUnd6B o s
  | .und6F o => Sys2Proof.Machine.execUnd6F o s
  | .und72 => Sys2Proof.Machine.execUnd72 s
  | .und73 o => Sys2Proof.Machine.execUnd73 o s
  | .und74 o => Sys2Proof.Machine.execUnd74 o s
  | .und77 o => Sys2Proof.Machine.execUnd77 o s
  | .und7A => Sys2Proof.Machine.execUnd7A s
  | .und7B o => Sys2Proof.Machine.execUnd7B o s
  | .und7C o => Sys2Proof.Machine.execUnd7C o s
  | .und7F o => Sys2Proof.Machine.execUnd7F o s
  | .und80 o => Sys2Proof.Machine.execUnd80 o s
  | .und82 o => Sys2Proof.Machine.execUnd82 o s
  | .und83 o => Sys2Proof.Machine.execUnd83 o s
  | .und87 o => Sys2Proof.Machine.execUnd87 o s
  | .und89 o => Sys2Proof.Machine.execUnd89 o s
  | .und8B o => Sys2Proof.Machine.execUnd8B o s
  | .und8F o => Sys2Proof.Machine.execUnd8F o s
  | .und92 => Sys2Proof.Machine.execUnd92 s
  | .und93 o => Sys2Proof.Machine.execUnd93 o s
  | .und97 o => Sys2Proof.Machine.execUnd97 o s
  | .und9B o => Sys2Proof.Machine.execUnd9B o s
  | .und9C o => Sys2Proof.Machine.execUnd9C o s
  | .und9E o => Sys2Proof.Machine.execUnd9E o s
  | .und9F o => Sys2Proof.Machine.execUnd9F o s
  | .undA3 o => Sys2Proof.Machine.execUndA3 o s
  | .undA7 o => Sys2Proof.Machine.execUndA7 o s
  | .undAB o => Sys2Proof.Machine.execUndAB o s
  | .undAF o => Sys2Proof.Machine.execUndAF o s
  | .undB2 => Sys2Proof.Machine.execUndB2 s
  | .undB3 o => Sys2Proof.Machine.execUndB3 o s
  | .undB7 o => Sys2Proof.Machine.execUndB7 o s
  | .undBB o => Sys2Proof.Machine.execUndBB o s
  | .undBF o => Sys2Proof.Machine.execUndBF o s
  | .undC2 o => Sys2Proof.Machine.execUndC2 o s
  | .undC3 o => Sys2Proof.Machine.execUndC3 o s
  | .undC7 o => Sys2Proof.Machine.execUndC7 o s
  | .undCB o => Sys2Proof.Machine.execUndCB o s
  | .undCF o => Sys2Proof.Machine.execUndCF o s
  | .undD2 => Sys2Proof.Machine.execUndD2 s
  | .undD3 o => Sys2Proof.Machine.execUndD3 o s
  | .undD4 o => Sys2Proof.Machine.execUndD4 o s
  | .undD7 o => Sys2Proof.Machine.execUndD7 o s
  | .undDA => Sys2Proof.Machine.execUndDA s
  | .undDB o => Sys2Proof.Machine.execUndDB o s
  | .undDC o => Sys2Proof.Machine.execUndDC o s
  | .undDF o => Sys2Proof.Machine.execUndDF o s
  | .undE2 o => Sys2Proof.Machine.execUndE2 o s
  | .undE3 o => Sys2Proof.Machine.execUndE3 o s
  | .undE7 o => Sys2Proof.Machine.execUndE7 o s
  | .undEB o => Sys2Proof.Machine.execUndEB o s
  | .undEF o => Sys2Proof.Machine.execUndEF o s
  | .undF2 => Sys2Proof.Machine.execUndF2 s
  | .undF3 o => Sys2Proof.Machine.execUndF3 o s
  | .undF4 o => Sys2Proof.Machine.execUndF4 o s
  | .undF7 o => Sys2Proof.Machine.execUndF7 o s
  | .undFA => Sys2Proof.Machine.execUndFA s
  | .undFB o => Sys2Proof.Machine.execUndFB o s
  | .undFC o => Sys2Proof.Machine.execUndFC o s
  | .undFF o => Sys2Proof.Machine.execUndFF o s

end Sys2Proof.Machine
end

