-- ==== Sys2Proof/Machine/Reset.lean ====
section
/-! DEFINITION. The CPU reset and the system reset (70_reset_and_hazards.md R530, R531). -/

namespace Sys2Proof.Machine

/-- `cpu.reset()`: the register values, pending requests discarded, and PC read from the reset vector. It pushes nothing and
costs nothing; `paused` is no CPU register that it touches (R530, R531). -/
def cpuReset (s : State) : State :=
  let s := s.withCpu { Cpu.reset with paused := s.cpu.paused }
  let target := read16 resetVector s
  setPc target.1 target.2

/-- The memories, the PPU, the audio registers and the pads of `systemReset()`, up to the mapper (R531): the queue being built
is cleared only after the mapper's power-on, so it is kept here. -/
def clearForReset (s : State) : State :=
  { s with
    ram := []
    prgRam := []
    apuReg := []
    bus := ⟨0⟩
    pad := ⟨{ s.pad.port1 with shift := 0 }, { s.pad.port2 with shift := 0 }, false⟩
    ppu := { Ppu.reset with nextQ := s.ppu.nextQ } }

/-- The power-on events and the catch-up are discarded, and the baselines copy the power-on state (R531). -/
def Ppu.startFrame (p : Ppu) : Ppu :=
  let p := { p with nextQ := [], liveLine := 0 }
  { p with frameBase := p.snapshot, renderBase := p.snapshot }

/-- `systemReset()` (R531) -/
def systemReset (s : State) : Except Fault State := do
  let s ← mapperPowerOn (clearForReset s)
  return cpuReset (s.withPpu s.ppu.startFrame)

end Sys2Proof.Machine
end

