-- ==== Sys2Proof/Machine/Fetch.lean ====
section
/-! DEFINITION. Installing a cartridge, and storing one instruction where the next step fetches it (DESIGN CHOICE, log entry 7). -/

namespace Sys2Proof.Machine

/-- Installing a cartridge whose image is already parsed (55_console_host.md R480): the machine is loaded, not paused, and
reset. -/
def installCart (cart : Cart) (s : State) : Except Fault State :=
  systemReset { s with
    cart := cart
    console := { s.console with loaded := true }
    cpu := { s.cpu with paused := false } }

/-- The address holds a byte that can be placed: work RAM, cartridge RAM or PRG (50_bus_devices.md R306). -/
def placeable (a : Addr) : Bool := a.toNat < 0x2000 || 0x6000 ≤ a.toNat

/-- Placing a byte at an address, from outside the machine; a device window holds none. -/
def placeByte (a : Addr) (b : Byte) (s : State) : State :=
  if a.toNat < 0x2000 then { s with ram := Memory.write s.ram (a.toNat % 0x800) b }
  else if a.toNat < 0x6000 then s
  else if a.toNat < 0x8000 then { s with prgRam := Memory.write s.prgRam (a.toNat - 0x6000) b }
  else { s with cart := { s.cart with prg := Memory.write s.cart.prg (prgIndex s.mapper a) b } }

/-- A 16KB NROM cartridge with CHR RAM whose program is the three given bytes at $8000, the reset vector pointing at it. -/
def fetchCart (b0 b1 b2 : Byte) : Cart where
  variant := .nrom
  headerMode := .horizontal
  nPrg := 1
  nChr := 0
  prg := Memory.write (Memory.ofList 0 [b0, b1, b2]) 0x3FFD 0x80
  chr := []

/-- No interrupt is due at the next step. -/
def clearDueInterrupt (s : State) : State :=
  match interruptDue s.cpu with
  | none => s
  | some _ => s.withCpu { s.cpu with nmiPending := false, irqLines := ⟨false, false⟩ }

/-- Three bytes where the next step of a loaded machine fetches: at PC, or at $0000 where PC or a byte after it lies in a
device window, which can hold no program (DESIGN CHOICE, log entry 7). -/
def placeAtPc (b0 b1 b2 : Byte) (s : State) : State :=
  let s := clearDueInterrupt s
  let pc := s.cpu.pc
  let s := if placeable pc && placeable (pc + 1) && placeable (pc + 2) then s else setPc 0 s
  let pc := s.cpu.pc
  placeByte (pc + 2) b2 (placeByte (pc + 1) b1 (placeByte pc b0 s))

/-- The instruction's three bytes where the next step fetches it: an unloaded machine gets the cartridge that holds
it. -/
def placeInstr (b0 b1 b2 : Byte) (s : State) : State :=
  if s.console.loaded then placeAtPc b0 b1 b2 s
  else
    match installCart (fetchCart b0 b1 b2) s with
    | .ok s => s
    | .error _ => s

end Sys2Proof.Machine
end

