-- ==== Sys2Proof/Machine/Render.lean ====
section
/-! DEFINITION. The raster-effect frame renderer (54_ppu_renderer.md): the frozen queue is replayed on a working copy of the
baseline, each visible line is drawn with the working copy it starts with, and a final pass turns the index buffer into
colour numbers. -/

namespace Sys2Proof.Machine

/-! ## Replay -/

/-- The step from one line to the next: `incY` while the working copy renders (R441). -/
def Snapshot.nextLine (w : Snapshot) : Snapshot :=
  if maskRendering w.mask then { w with v := Loopy.incY w.v } else w

/-- Applying an event to the working copy (53_ppu_timing_events.md R410, last column). -/
def Snapshot.apply (w : Snapshot) : Change → Snapshot
  | .ctrl d => { w with ctrl := d }
  | .mask d => { w with mask := d }
  | .scroll value => { w with v := scrollV value, x := scrollX value }
  | .chrBank i off => { w with chrOff := w.chrOff.set i.1 off i.2 }
  | .mirroring m => { w with mirroring := m }
  | .stop => w

/-- The span of `n` lines from `line` on: each line with the working copy at its start, and the working copy after
the last (R441). -/
def drawSpan (line : Nat) : Nat → Snapshot → List (Nat × Snapshot) × Snapshot
  | 0, w => ([], w)
  | n + 1, w =>
    let rest := drawSpan (line + 1) n w.nextLine
    ((line, w) :: rest.1, rest.2)

/-- The replay of a queue from line `cur` on: the lines drawn, in order, each with the working copy it starts with
(R441). -/
def replay (cur : Nat) (w : Snapshot) : List Event → List (Nat × Snapshot)
  | [] => []
  | e :: rest =>
    let span := drawSpan cur (e.line - cur) w
    match e.change with
    | .stop => span.1
    | c => span.1 ++ replay e.line (span.2.apply c) rest

/-! ## One line -/

/-- The bit pair of a tile in its attribute byte (R444, R445). -/
def attributeBits (at_ : Byte) (cx cy : BitVec 5) : BitVec 2 :=
  (at_ >>> ((if cy.getLsbD 1 then 4 else 0) + (if cx.getLsbD 1 then 2 else 0))).setWidth 2

/-- The colour of column `b` of two bit planes: `hi` bit : `lo` bit. -/
def planeColour (lo hi : Byte) (b : Nat) : BitVec 2 :=
  BitVec.ofBool (hi.getLsbD b) ++ BitVec.ofBool (lo.getLsbD b)

/-- The PPU address of a nametable byte: `$2000 | ny << 11 | nx << 10 | cy << 5 | cx` (R444). -/
def tileAddr (ny nx : BitVec 1) (cy cx : BitVec 5) : PAddr :=
  (0b10 : BitVec 2) ++ ny ++ nx ++ cy ++ cx

/-- The PPU address of an attribute byte: `$23C0 | ny << 11 | nx << 10 | (cy >> 2) << 3 | cx >> 2` (R444). -/
def attributeAddr (ny nx : BitVec 1) (cy cx : BitVec 5) : PAddr :=
  (0b10 : BitVec 2) ++ ny ++ nx ++ (0b1111 : BitVec 4) ++ (cy.extractLsb' 2 3 : BitVec 3) ++ (cx.extractLsb' 2 3 : BitVec 3)

/-- `bg(px)`: the background index of a column, 0 where it is transparent (R444). -/
def background (cart : Cart) (vram : Memory) (w : Snapshot) (px : Nat) : BitVec 5 :=
  if !w.mask.getLsbD 3 then 0
  else if px < 8 && !w.mask.getLsbD 1 then 0
  else
    let f := w.x.toNat + px
    let cxn := (Loopy.cx w.v).toNat + f / 8
    let nx := Loopy.nx w.v ^^^ BitVec.ofNat 1 (cxn / 32)
    let cx := BitVec.ofNat 5 cxn
    let cy := Loopy.cy w.v
    let ny := Loopy.ny w.v
    let fy := Loopy.fy w.v
    let tile := Memory.read vram (fold w.mirroring.mask (tileAddr ny nx cy cx))
    let at_ := Memory.read vram (fold w.mirroring.mask (attributeAddr ny nx cy cx))
    let pal := attributeBits at_ cx cy
    let table : BitVec 1 := w.ctrl.extractLsb' 4 1
    let lo := patRead cart vram w.chrOff (patternAddr table tile 0 fy)
    let hi := patRead cart vram w.chrOff (patternAddr table tile 1 fy)
    let c := planeColour lo hi (7 - f % 8)
    if c = 0 then 0 else (0 : BitVec 1) ++ pal ++ c

/-- The opaque pixel of sprite `i` at a column of a line: its index and its priority bit (R446). -/
def spritePixel (cart : Cart) (vram oam : Memory) (w : Snapshot) (line px i : Nat) : Option (BitVec 5 × Bool) :=
  let y := Memory.read oam (4 * i)
  let tile := Memory.read oam (4 * i + 1)
  let attr := Memory.read oam (4 * i + 2)
  let sx := Memory.read oam (4 * i + 3)
  let h := spriteHeight w.ctrl
  let top := y.toNat + 1
  if top ≤ line && line < top + h && sx.toNat ≤ px && px ≤ sx.toNat + 7 then
    let row := spriteRow cart vram w.chrOff w.ctrl tile attr h (line - top)
    let k := px - sx.toNat
    let c := planeColour row.1 row.2 (if attr.getLsbD 6 then k else 7 - k)
    if c = 0 then none
    else some ((1 : BitVec 1) ++ (attr.setWidth 2 : BitVec 2) ++ c, attr.getLsbD 5)
  else none

/-- `spr(px)`: the first sprite, lowest index first, with an opaque pixel at the column (R446). -/
def spriteCandidate (cart : Cart) (vram oam : Memory) (w : Snapshot) (line px : Nat) : Option (BitVec 5 × Bool) :=
  if !w.mask.getLsbD 4 then none
  else if px < 8 && !w.mask.getLsbD 2 then none
  else (List.range 64).findSome? (spritePixel cart vram oam w line px)

/-- Composition of the background and the sprite candidate (R447). -/
def compose (g : BitVec 5) : Option (BitVec 5 × Bool) → BitVec 5
  | none => g
  | some (index, behind) => if g = 0 || !behind then index else g

/-- The index of a pixel of a line drawn with the working copy `w` (R443, R447). -/
def pixel (cart : Cart) (vram oam : Memory) (w : Snapshot) (line px : Nat) : BitVec 5 :=
  compose (background cart vram w px) (spriteCandidate cart vram oam w line px)

/-! ## The frame -/

/-- The working copy a line was last drawn with, if it was drawn. -/
def drawnWith (drawn : List (Nat × Snapshot)) (line : Nat) : Option Snapshot :=
  (drawn.reverse.find? fun d => d.1 = line).map Prod.snd

/-- The index buffer after the lines of `drawn` are drawn over `old`: cell `256 * line + column` (R443). -/
def drawLines (cart : Cart) (vram oam : Memory) (drawn : List (Nat × Snapshot)) (old : Cells 5) : Cells 5 :=
  Memory.tabulate (Config.screenH * Config.screenW) fun k =>
    match drawnWith drawn (k / Config.screenW) with
    | some w => pixel cart vram oam w (k / Config.screenW) (k % Config.screenW)
    | none => Memory.read old k

/-- `palettePass()`: each cell through palette RAM, masked to 6 bits (R449). -/
def palettePass (vram : Memory) (mirrorMask : Byte) (index : Cells 5) : Cells 6 :=
  Memory.tabulate (Config.screenH * Config.screenW) fun k =>
    (Memory.read vram (fold mirrorMask (0x3F00 + (Memory.read index k).setWidth 14))).setWidth 6

/-- `render()` (R440, R441): it changes nothing but `index` and `frameOut`. -/
def render (cart : Cart) (p : Ppu) : Ppu :=
  let index := drawLines cart p.vram p.oam (replay 0 p.renderBase p.curQ) p.index
  { p with index := index, frameOut := palettePass p.vram p.mirrorMask index }

/-- The RGB value of a pixel of the last rendered frame: `masterPalette[n]` of its colour number (R449). -/
def frameRgb (p : Ppu) (line px : Nat) : BitVec 24 :=
  Config.masterPalette (Memory.read p.frameOut (Config.screenW * line + px))

end Sys2Proof.Machine
end

