-- ==== Sys2Proof/Machine/Timing.lean ====
section
/-! DEFINITION. The PPU's clocking: line crossings, vertical blank, and the advance after a step
(53_ppu_timing_events.md R400-R403; 55_console_host.md R471). -/

namespace Sys2Proof.Machine

/-- One action of a vblank callback (55_console_host.md R472). -/
def CallbackAction.run (s : State) : CallbackAction → State
  | .setButtons1 m => { s with pad := { s.pad with port1 := { s.pad.port1 with buttons := m } } }
  | .setButtons2 m => { s with pad := { s.pad with port2 := { s.pad.port2 with buttons := m } } }
  | .pause b => s.withCpu { s.cpu with paused := b }

/-- The call of the vblank callback, if one is set (55_console_host.md R472; DESIGN CHOICE, log entry 5). -/
def callVblank (s : State) : State :=
  match s.console.vblankCallback with
  | some ⟨actions :: rest⟩ =>
    actions.foldl CallbackAction.run { s with console := { s.console with vblankCallback := some ⟨rest⟩ } }
  | _ => s

/-- (a), (b) and (c) of `setVBlank()`: VBLANK, the queue swap with its sentinel, the baselines, and the counters
(53_ppu_timing_events.md R402). -/
def Ppu.enterVblank (p : Ppu) : Ppu :=
  { p with
    vblank := true
    curQ := p.nextQ ++ [⟨Config.vblankLine, .stop⟩]
    nextQ := []
    renderBase := p.frameBase
    frameBase := p.snapshot
    liveLine := 0
    frame := p.frame + 1 }

/-- `setVBlank()`: then the NMI request if `ctrl[7]` is set, the render, and the callback (R402). -/
def setVblank (s : State) : State :=
  let s := s.withPpu s.ppu.enterVblank
  let s := if s.ppu.ctrl.getLsbD 7 then raiseNmi s else s
  callVblank (s.withPpu (render s.cart s.ppu))

/-- `clearVBlank()` (53_ppu_timing_events.md R403) -/
def Ppu.clearVblank (capacity : Nat) (p : Ppu) : Except Fault Ppu :=
  let p := { p with vblank := false, hit := false, v := if p.rendering then p.t else p.v, liveLine := 0 }
  record capacity p.scrollChange p

/-- `setHcount(L)` (53_ppu_timing_events.md R401) -/
def setHcount (line : Nat) (s : State) : Except Fault State := do
  let s := s.withPpu { s.ppu with line := line }
  let s := if line = Config.vblankLine then setVblank s else s
  let s ← if line = Config.prerenderLine then
      (s.ppu.clearVblank s.cfg.eventCapacity).map s.withPpu
    else .ok s
  return if line ≤ 239 then s.withPpu (spriteZeroCheck s.cart line s.ppu) else s

/-- The MMC3 is clocked as the PPU leaves this line (53_ppu_timing_events.md R401; 51_mappers.md R360). -/
def clocksMapper (p : Ppu) : Bool := (p.line ≤ 239 || p.line = 261) && p.rendering

/-- `lineBoundary(L)` (53_ppu_timing_events.md R401) -/
def lineBoundary (line : Nat) (s : State) : Except Fault State :=
  setHcount line (if clocksMapper s.ppu then mmc3Clock s else s)

/-- One dot of `advance` (53_ppu_timing_events.md R401). -/
def tickDot (s : State) : Except Fault State :=
  let dots := s.ppu.dots + 1
  let s := s.withPpu { s.ppu with dots := dots }
  if dots % Config.dotsPerLine = 0 then lineBoundary (dots / Config.dotsPerLine % Config.linesPerFrame) s
  else .ok s

/-- `n` dots of `advance`, every line crossing in order (53_ppu_timing_events.md R401). -/
def advanceDots : Nat → State → Except Fault State
  | 0, s => .ok s
  | n + 1, s => do
    let s ← tickDot s
    advanceDots n s

/-- `advance(c)` after a step that took the cycle counter from `before` to its present value
(55_console_host.md R471). -/
def advanceAfter (before : Nat) (s : State) : Result :=
  complete (advanceDots (Config.dotsPerCycle * (s.cpu.cycles - before)) s)

end Sys2Proof.Machine
end

