-- ==== Sys2Proof/Machine/Step.lean ====
section
/-! DEFINITION. One step: one CPU step, which is an interrupt entry or one instruction, and then the PPU's advance by its cycles
(55_console_host.md R470, R471; 60_exceptions.md R505). -/

namespace Sys2Proof.Machine

/-- `cpu.step()`: exactly one of an NMI entry, an IRQ entry, or one instruction, its cost added to `cpu.cycles` (60_exceptions.md
R505). -/
def cpuStep (s : State) : Result :=
  match interruptDue s.cpu with
  | some i => takeInterrupt i s
  | none => exec (fetchInstr s).1 (fetchInstr s).2

/-- One iteration of a batch after its breakpoint check: the CPU step, then the advance. An unloaded machine runs nothing
(55_console_host.md R470; DEDUCED, log entry 12). -/
def step (s : State) : Host.Outcome State Fault Refusal :=
  if s.console.loaded then andThen (cpuStep s) (advanceAfter s.cpu.cycles) else .next s

/-- The state with one instruction stored where the next step fetches it (DESIGN CHOICE, log entry 7). -/
def State.withFetchWord (s : State) (nbits w : Nat) : State :=
  placeInstr (tableByte nbits w 0) (tableByte nbits w 1) (tableByte nbits w 2) s

end Sys2Proof.Machine
end

