-- ==== Sys2Proof/Machine/Console.lean ====
section
/-! DEFINITION. What the host can do to the machine (55_console_host.md R470-R492), but for save states, which are in
Machine/Save.lean. Each interaction of the table of R492 is a function on states. -/

namespace Sys2Proof.Machine

/-! ## Batches (R470, R473) -/

/-- The breakpoint callback's next answer: whether it stops the batch, and the state after it. Unset, it never stops and changes
nothing (R473). -/
def askBreakpoint (s : State) : Bool × State :=
  match s.console.breakpointCallback with
  | some ⟨answer :: rest⟩ =>
    let s := { s with console := { s.console with breakpointCallback := some ⟨rest⟩ } }
    (answer.stop, match answer.pause with
      | some b => s.withCpu { s.cpu with paused := b }
      | none => s)
  | _ => (false, s)

/-- The loop of `runCycles`. The fuel bounds the number of steps; every step costs at least 2 cycles, so `n` of them
reach `n` cycles (DEDUCED, log entry 15). -/
def batchLoop (start n : Nat) : Nat → State → Result
  | 0, s => .next s
  | fuel + 1, s =>
    if n ≤ s.cpu.cycles - start then .next s
    else
      let asked := askBreakpoint s
      if asked.1 then .next asked.2 else andThen (step asked.2) (batchLoop start n fuel)

/-- `runCycles(n)`: nothing runs when unloaded or paused, and with `n <= 0` no step runs (R470). -/
def runCycles (n : Int) (s : State) : Result :=
  if s.console.loaded && !s.cpu.paused then batchLoop s.cpu.cycles n.toNat n.toNat s else .next s

/-! ## ROM images (R480-R483) -/

/-- Why a ROM image is not loaded (R483). -/
inductive LoadError where
  | badMagic
  | unsupportedMapper (n : Nat)
  | noPrg
  | truncated
  deriving DecidableEq, Repr

/-- The reason strings (R483). -/
def LoadError.reason : LoadError → String
  | .badMagic => "bad header magic"
  | .unsupportedMapper n => "unsupported mapper " ++ toString n
  | .noPrg => "no PRG data"
  | .truncated => "truncated image"

/-- The variant of a mapper number (00_scope.md R4; DEDUCED for other numbers, log entry 14). -/
def variantOf : Nat → Option Variant
  | 0 => some .nrom
  | 1 => some .mmc1
  | 2 => some .uxrom
  | 3 => some .cnrom
  | 4 => some .mmc3
  | 7 => some .axrom
  | _ => none

/-- `(byte7 & $F0) | (byte6 >> 4)` (R483) -/
def mapperNumber (byte6 byte7 : Byte) : Nat := ((byte7 &&& 0xF0) ||| (byte6 >>> 4)).toNat

/-- The variant of a mapper number that is registered. -/
def registeredVariant (cfg : Config) (n : Nat) : Option Variant :=
  if n ∈ cfg.registeredMappers then variantOf n else none

/-- `parseHeader` with the data that follows (R481-R483): the checks are made in the order of R483. -/
def parseImage (cfg : Config) (image : List Byte) : Except LoadError Cart :=
  let byte (i : Nat) : Byte := image.getD i 0
  let number := mapperNumber (byte 6) (byte 7)
  let nPrg := (byte 4).toNat
  let nChr := (byte 5).toNat
  let data := 16 + (if (byte 6).getLsbD 2 then 512 else 0)
  if image.length < 16 ∨ image.take 4 ≠ [0x4E, 0x45, 0x53, 0x1A] then .error .badMagic
  else
    match registeredVariant cfg number with
    | none => .error (.unsupportedMapper number)
    | some variant =>
      if nPrg = 0 then .error .noPrg
      else if image.length < data + 16384 * nPrg + 8192 * nChr then .error .truncated
      else .ok {
        variant := variant
        headerMode := if (byte 6).getLsbD 0 then .vertical else .horizontal
        nPrg := nPrg
        nChr := nChr
        prg := Memory.ofList 0 ((image.drop data).take (16384 * nPrg))
        chr := Memory.ofList 0 ((image.drop (data + 16384 * nPrg)).take (8192 * nChr)) }

/-- `loadRom(image)`: a failure changes nothing (R480). -/
def loadRom (image : List Byte) (s : State) : Except LoadError Result :=
  match parseImage s.cfg image with
  | .error e => .error e
  | .ok cart => .ok (complete (installCart cart s))

/-- `reset()`: with no cartridge it does nothing (R487). -/
def consoleReset (s : State) : Result :=
  if s.console.loaded then complete (systemReset s) else .next s

/-! ## Inputs and outputs (R476, R485, R486, R492) -/

/-- `pause(b)` (R476) -/
def pause (b : Bool) (s : State) : State := s.withCpu { s.cpu with paused := b }

/-- `isPaused()` (R476) -/
def isPaused (s : State) : Bool := s.cpu.paused

/-- `pad[1].buttons <- mask` (R485) -/
def setButtons1 (mask : Byte) (s : State) : State := CallbackAction.run s (.setButtons1 mask)

/-- `pad[2].buttons <- mask` (R485) -/
def setButtons2 (mask : Byte) (s : State) : State := CallbackAction.run s (.setButtons2 mask)

/-- `cpu.raiseIRQ(EXTERNAL)` (R492; 60_exceptions.md R503) -/
def raiseExternalIrq (s : State) : State :=
  s.withCpu { s.cpu with irqLines := { s.cpu.irqLines with external := true } }

/-- `cpu.ackIRQ(EXTERNAL)` (R492; 60_exceptions.md R503) -/
def ackExternalIrq (s : State) : State :=
  s.withCpu { s.cpu with irqLines := { s.cpu.irqLines with external := false } }

/-- `setVblankCallback(fn)` (R472) -/
def setVblankCallback (fn : Option VblankCallback) (s : State) : State :=
  { s with console := { s.console with vblankCallback := fn } }

/-- `setBreakpointCallback(fn)` (R473) -/
def setBreakpointCallback (fn : Option BreakpointCallback) (s : State) : State :=
  { s with console := { s.console with breakpointCallback := fn } }

/-- A colour number of the last rendered frame (R492). -/
def readFrame (s : State) (line px : Nat) : BitVec 6 :=
  Memory.read s.ppu.frameOut (Config.screenW * line + px)

/-- The copy of `ram` that the host may hand to `pushRamSnapshot` (R486). -/
def ramSnapshot (s : State) : List Byte := Memory.toList s.ram 0 Config.ramSize

/-- The byte of `getNextButtonMask()` that the host writes to port 1 (R486). -/
def setNextButtonMask (mask : Byte) (s : State) : State := setButtons1 mask s

end Sys2Proof.Machine
end

