-- ==== Sys2Proof/Machine/Save.lean ====
section
/-! DEFINITION. Save states (55_console_host.md R488-R490): the blob, its base64 fields, and the load that checks every field
before it writes any (the ranges that R489 does not spell out: DEDUCED, log entry 9). -/

namespace Sys2Proof.Machine

/-! ## Base64 (RFC 4648, standard alphabet, with padding: R488) -/

/-- The alphabet of RFC 4648. -/
def base64Alphabet : List Char :=
  "ABCDEFGHIJKLMNOPQRSTUVWXYZabcdefghijklmnopqrstuvwxyz0123456789+/".toList

def base64Char (n : BitVec 6) : Char := base64Alphabet.getD n.toNat 'A'

def base64Value (c : Char) : Option (BitVec 6) := (base64Alphabet.idxOf? c).map (BitVec.ofNat 6)

/-- The four digits of three bytes. -/
def sextets (a b c : Byte) : BitVec 6 × BitVec 6 × BitVec 6 × BitVec 6 :=
  let w : BitVec 24 := a ++ b ++ c
  (w.extractLsb' 18 6, w.extractLsb' 12 6, w.extractLsb' 6 6, w.extractLsb' 0 6)

def base64Encode : List Byte → List Char
  | [] => []
  | [a] =>
    let q := sextets a 0 0
    [base64Char q.1, base64Char q.2.1, '=', '=']
  | [a, b] =>
    let q := sextets a b 0
    [base64Char q.1, base64Char q.2.1, base64Char q.2.2.1, '=']
  | a :: b :: c :: rest =>
    let q := sextets a b c
    base64Char q.1 :: base64Char q.2.1 :: base64Char q.2.2.1 :: base64Char q.2.2.2 :: base64Encode rest

/-- The three bytes of four digits. -/
def octets (p q r s : BitVec 6) : Byte × Byte × Byte :=
  let w : BitVec 24 := p ++ q ++ r ++ s
  (w.extractLsb' 16 8, w.extractLsb' 8 8, w.extractLsb' 0 8)

/-- The last group of digits, whose padding says how many bytes it holds; the bits that padding leaves over must be 0
(DESIGN CHOICE, log entry 8). -/
def base64Last (c0 c1 c2 c3 : Char) : Option (List Byte) := do
  let p ← base64Value c0
  let q ← base64Value c1
  if c3 = '=' then
    if c2 = '=' then
      let o := octets p q 0 0
      if o.2.1 = 0 then some [o.1] else none
    else do
      let r ← base64Value c2
      let o := octets p q r 0
      if o.2.2 = 0 then some [o.1, o.2.1] else none
  else do
    let r ← base64Value c2
    let s ← base64Value c3
    let o := octets p q r s
    some [o.1, o.2.1, o.2.2]

def base64Decode : List Char → Option (List Byte)
  | [] => some []
  | [c0, c1, c2, c3] => base64Last c0 c1 c2 c3
  | c0 :: c1 :: c2 :: c3 :: rest => do
    let p ← base64Value c0
    let q ← base64Value c1
    let r ← base64Value c2
    let s ← base64Value c3
    let tail ← base64Decode rest
    let o := octets p q r s
    some (o.1 :: o.2.1 :: o.2.2 :: tail)
  | _ => none

/-! ## Little-endian numbers -/

/-- The `n` bytes of a number, low byte first. -/
def leBytes : Nat → Nat → List Byte
  | 0, _ => []
  | n + 1, v => BitVec.ofNat 8 v :: leBytes n (v / 256)

/-- The number of a list of bytes, low byte first. -/
def leValue : List Byte → Nat
  | [] => 0
  | b :: rest => b.toNat + 256 * leValue rest

/-! ## The blob (R488) -/

/-- A save-state object: its base64 fields and the mirroring mode. A field may be absent in an object that `save` did not
make. -/
structure Blob where
  cpu       : Option (List Char)
  ppu       : Option (List Char)
  oam       : Option (List Char)
  vram      : Option (List Char)
  mirroring : Option Nat
  ram       : Option (List Char)
  prgRam    : Option (List Char)
  mapper    : Option (List Char)
  io        : Option (List Char)
  deriving DecidableEq, Repr

/-- The mode's value (10_state.md R45). -/
def Mirroring.value : Mirroring → Nat
  | .horizontal => 0
  | .vertical => 1
  | .single0 => 2
  | .single1 => 3

/-- The mode of a value (10_state.md R45). -/
def Mirroring.ofValue : Nat → Option Mirroring
  | 0 => some .horizontal
  | 1 => some .vertical
  | 2 => some .single0
  | 3 => some .single1
  | _ => none

/-- The 20 bytes of the `cpu` field. -/
def cpuBytes (c : Cpu) : List Byte :=
  [c.a, c.x, c.y, c.sp, loByte c.pc, hiByte c.pc, statusByte false c, bitByte c.nmiPending,
    bitByte c.irqLines.mapper ||| (bitByte c.irqLines.external <<< 1), bitByte c.paused] ++
    leBytes 8 c.cycles ++ [0, 0]

/-- The 24 bytes of the `ppu` field. -/
def ppuBytes (p : Ppu) : List Byte :=
  [p.ctrl, p.mask, p.statusByte, p.oamAddr] ++ leBytes 2 p.v.toNat ++ leBytes 2 p.t.toNat ++
    [p.x.setWidth 8, bitByte p.w, p.readBuf, BitVec.ofNat 8 p.liveLine] ++ leBytes 8 p.dots ++ leBytes 4 p.frame

/-- The registers of a variant in rule order, one byte each (the width: DESIGN CHOICE, log entry 18). -/
def MapperRegs.bytes : MapperRegs → List Byte
  | .nrom => []
  | .axrom => []
  | .uxrom bank => [bank]
  | .cnrom bank => [bank]
  | .mmc1 r =>
    [r.shift.setWidth 8, r.control.setWidth 8, r.chr0.setWidth 8, r.chr1.setWidth 8, r.prgReg.setWidth 8]
  | .mmc3 r => [r.bankSelect] ++ r.r.toList ++ [r.irqLatch, r.irqCounter, bitByte r.irqReload, bitByte r.irqEnable]

/-- The `mapper` field: the registers, `prgOff` (4 x 4), `chrOff` (8 x 4), `irq` in one byte (its width: DESIGN CHOICE, log entry 18). -/
def mapperBytes (m : Mapper) : List Byte :=
  m.regs.bytes ++ m.prgOff.toList.flatMap (leBytes 4) ++ m.chrOff.toList.flatMap (leBytes 4) ++ [bitByte m.irq]

/-- The 30 bytes of the `io` field. -/
def ioBytes (s : State) : List Byte :=
  [s.pad.port1.buttons, s.pad.port1.shift, s.pad.port2.buttons, s.pad.port2.shift, bitByte s.pad.strobe,
    s.bus.lastRead] ++ Memory.toList s.apuReg 0 Config.apuRegs

/-- Where the saved part of `vram` begins: all of it with CHR RAM, from $2000 on with CHR ROM. -/
def vramStart (c : Cart) : Nat := if c.hasChrRom then 0x2000 else 0

/-- Every counter fits its field of the blob (93_implementation_defined.md I-30). -/
def countersFit (s : State) : Bool :=
  s.cpu.cycles < 2 ^ 64 && s.ppu.dots < 2 ^ 64 && s.ppu.frame < 2 ^ 32

/-- `save()` (R488). A counter too large for its field ends in the fault of I-30 (DEDUCED, log entry 11). Without a cartridge the blob
has the layout of NROM with CHR RAM (DESIGN CHOICE, log entry 17). -/
def save (s : State) : Except Fault Blob :=
  if countersFit s then
    let start := vramStart s.cart
    .ok {
      cpu := some (base64Encode (cpuBytes s.cpu))
      ppu := some (base64Encode (ppuBytes s.ppu))
      oam := some (base64Encode (Memory.toList s.ppu.oam 0 Config.oamSize))
      vram := some (base64Encode (Memory.toList s.ppu.vram start (Config.vramSize - start)))
      mirroring := some s.ppu.mirroring.value
      ram := some (base64Encode (Memory.toList s.ram 0 Config.ramSize))
      prgRam := some (base64Encode (Memory.toList s.prgRam 0 Config.prgRamSize))
      mapper := some (base64Encode (mapperBytes s.mapper))
      io := some (base64Encode (ioBytes s)) }
  else .error .counterOverflow

/-! ## Loading (R489) -/

/-- A field that is present, decodable and of the right length. -/
def blobField (f : Option (List Char)) (length : Nat) : Option (List Byte) := do
  let chars ← f
  let bytes ← base64Decode chars
  if bytes.length = length then some bytes else none

/-- A byte that holds one bit. -/
def bitOfByte (b : Byte) : Option Bool :=
  if b = 0 then some false else if b = 1 then some true else none

/-- A number within a bound. -/
def below (bound v : Nat) : Option Nat := if v < bound then some v else none

/-- The CPU of 20 bytes. Bits 5 and 4 of the status byte are no stored bits and are ignored (10_state.md R24). -/
def cpuOfBytes (l : List Byte) : Option Cpu := do
  let at_ (i : Nat) : Byte := l.getD i 0
  let nmi ← bitOfByte (at_ 7)
  let lines ← below 4 (at_ 8).toNat
  let paused ← bitOfByte (at_ 9)
  if l.drop 18 = [0, 0] then
    some (setStatus (at_ 6) { Cpu.reset with
      a := at_ 0, x := at_ 1, y := at_ 2, sp := at_ 3, pc := wordOf (at_ 5) (at_ 4)
      nmiPending := nmi
      irqLines := ⟨lines.testBit 0, lines.testBit 1⟩
      paused := paused
      cycles := leValue ((l.drop 10).take 8) })
  else none

/-- The fields of the PPU that 24 bytes give, written into `p`. -/
def ppuOfBytes (l : List Byte) (p : Ppu) : Option Ppu := do
  let at_ (i : Nat) : Byte := l.getD i 0
  let v ← below (2 ^ 15) (leValue ((l.drop 4).take 2))
  let t ← below (2 ^ 15) (leValue ((l.drop 6).take 2))
  let x ← below 8 (at_ 8).toNat
  let w ← bitOfByte (at_ 9)
  let live ← below 241 (at_ 11).toNat
  if at_ 2 &&& 0x3F = 0 then
    some { p with
      ctrl := at_ 0, mask := at_ 1, vblank := (at_ 2).getLsbD 7, hit := (at_ 2).getLsbD 6, oamAddr := at_ 3
      v := BitVec.ofNat 15 v, t := BitVec.ofNat 15 t, x := BitVec.ofNat 3 x, w := w, readBuf := at_ 10
      liveLine := live, dots := leValue ((l.drop 12).take 8), frame := leValue ((l.drop 20).take 4) }
  else none

/-- How many bytes a variant's registers take. -/
def MapperRegs.size (r : MapperRegs) : Nat := r.bytes.length

/-- A register of five bits. -/
def fiveBits (b : Byte) : Option (BitVec 5) := (below 32 b.toNat).map (BitVec.ofNat 5)

/-- The registers of the same variant as `old` from their bytes; MMC1's `shift` holds a value in 1..$1F
(51_mappers.md R352). -/
def MapperRegs.ofBytes (old : MapperRegs) (l : List Byte) : Option MapperRegs :=
  let at_ (i : Nat) : Byte := l.getD i 0
  match old with
  | .nrom => some .nrom
  | .axrom => some .axrom
  | .uxrom _ => some (.uxrom (at_ 0))
  | .cnrom _ => some (.cnrom (at_ 0))
  | .mmc1 _ => do
    let shift ← fiveBits (at_ 0)
    let control ← fiveBits (at_ 1)
    let chr0 ← fiveBits (at_ 2)
    let chr1 ← fiveBits (at_ 3)
    let prgReg ← fiveBits (at_ 4)
    if shift = 0 then none else some (.mmc1 ⟨shift, control, chr0, chr1, prgReg⟩)
  | .mmc3 _ => do
    let reload ← bitOfByte (at_ 11)
    let enable ← bitOfByte (at_ 12)
    some (.mmc3 ⟨at_ 0, #v[at_ 1, at_ 2, at_ 3, at_ 4, at_ 5, at_ 6, at_ 7, at_ 8], at_ 9, at_ 10, reload, enable⟩)

/-- The `i`-th offset of four bytes in a list. -/
def offsetAt (l : List Byte) (i : Nat) : Nat := leValue ((l.drop (4 * i)).take 4)

/-- A PRG offset within its range: a multiple of 8KB inside the data (51_mappers.md R333). -/
def prgOffsetOk (c : Cart) (off : Nat) : Bool := off % 0x2000 = 0 && off < c.prgSize

/-- A CHR offset within its range: with CHR ROM a multiple of 1KB inside the data (51_mappers.md R333). -/
def chrOffsetOk (c : Cart) (off : Nat) : Bool := !c.hasChrRom || (off % 0x400 = 0 && off < c.chrSize)

/-- The mapper binding from its field, for the installed cartridge; `irq` is its last byte (its width: DESIGN CHOICE, log entry 18). -/
def mapperOfBytes (c : Cart) (m : Mapper) (mode : Mirroring) (l : List Byte) : Option Mapper := do
  let size := m.regs.size
  let regs ← m.regs.ofBytes (l.take size)
  let prg := (l.drop size).take 16
  let chr := (l.drop (size + 16)).take 32
  let irq ← bitOfByte (l.getD (size + 48) 0)
  let prgOff : Vector Nat 4 := Vector.ofFn fun i => offsetAt prg i.1
  let chrOff : Vector Nat 8 := Vector.ofFn fun i => offsetAt chr i.1
  if prgOff.toList.all (prgOffsetOk c) && chrOff.toList.all (chrOffsetOk c) then
    some { regs := regs, prgOff := prgOff, chrOff := chrOff, mirroring := mode, irq := irq }
  else none

/-- The derived state of a load (R489): the mask, the line, the PPU's CHR offsets, empty queues, and both baselines the
snapshot of the loaded state. -/
def Ppu.reconstruct (mode : Mirroring) (chrOff : Vector Nat 8) (p : Ppu) : Ppu :=
  let p := { p with
    mirroring := mode
    mirrorMask := mode.mask
    line := p.dots / Config.dotsPerLine % Config.linesPerFrame
    chrOff := chrOff
    nextQ := []
    curQ := [] }
  { p with frameBase := p.snapshot, renderBase := p.snapshot }

/-- `load(blob)`: every field is checked before any is written; none, a failure that changes nothing (R489). Without a cartridge no PRG
offset is in range, so every load fails (DESIGN CHOICE, log entry 17). -/
def loadState (blob : Blob) (s : State) : Option State := do
  let start := vramStart s.cart
  let cpuL ← blobField blob.cpu 20
  let ppuL ← blobField blob.ppu 24
  let oam ← blobField blob.oam Config.oamSize
  let vram ← blobField blob.vram (Config.vramSize - start)
  let modeN ← blob.mirroring
  let mode ← Mirroring.ofValue modeN
  let ram ← blobField blob.ram Config.ramSize
  let prgRam ← blobField blob.prgRam Config.prgRamSize
  let mapperL ← blobField blob.mapper (s.mapper.regs.size + 49)
  let io ← blobField blob.io 30
  let cpu ← cpuOfBytes cpuL
  let ppu ← ppuOfBytes ppuL s.ppu
  let mapper ← mapperOfBytes s.cart s.mapper mode mapperL
  let strobe ← bitOfByte (io.getD 4 0)
  let kept := s.ppu.vram.filter fun c => c.1 < start
  some { s with
    cpu := cpu
    ram := Memory.ofList 0 ram
    prgRam := Memory.ofList 0 prgRam
    bus := ⟨io.getD 5 0⟩
    pad := ⟨⟨io.getD 0 0, io.getD 1 0⟩, ⟨io.getD 2 0, io.getD 3 0⟩, strobe⟩
    apuReg := Memory.ofList 0 (io.drop 6)
    mapper := mapper
    ppu := Ppu.reconstruct mode mapper.chrOff
      { ppu with oam := Memory.ofList 0 oam, vram := kept ++ Memory.ofList start vram } }

end Sys2Proof.Machine
end

