-- ==== Sys2Proof/Safety.lean ====
section
/-! DEFINITION. What claims about the machine are stated in: the invariant that holds at every step boundary, the addresses that hold memory, and reading consecutive bytes at PC. -/

namespace Sys2Proof.Machine

/-! ## The invariant -/

/-- A memory is in canonical form and inside its size. -/
structure Memory.Ok {w : Nat} (size : Nat) (m : Cells w) : Prop where
  canonical : Memory.wf m = true
  inside    : Memory.within size m = true

/-- Every memory of the machine, with its size (10_state.md R29, R30, R33, R42, R43, R51; 55_console_host.md R482). -/
structure State.MemoriesOk (s : State) : Prop where
  ram      : Memory.Ok Config.ramSize s.ram
  prgRam   : Memory.Ok Config.prgRamSize s.prgRam
  apuReg   : Memory.Ok Config.apuRegs s.apuReg
  vram     : Memory.Ok Config.vramSize s.ppu.vram
  oam      : Memory.Ok Config.oamSize s.ppu.oam
  index    : Memory.Ok (Config.screenH * Config.screenW) s.ppu.index
  frameOut : Memory.Ok (Config.screenH * Config.screenW) s.ppu.frameOut
  prg      : Memory.Ok s.cart.prgSize s.cart.prg
  chr      : Memory.Ok s.cart.chrSize s.cart.chr

/-- The variant's registers belong to the cartridge's variant, and MMC1's serial register holds its marker
(51_mappers.md R330, R352). -/
def MapperRegs.okFor : MapperRegs → Variant → Prop
  | .nrom, .nrom => True
  | .mmc1 r, .mmc1 => r.shift ≠ 0
  | .uxrom _, .uxrom => True
  | .cnrom _, .cnrom => True
  | .mmc3 _, .mmc3 => True
  | .axrom, .axrom => True
  | _, _ => False

/-- A PRG offset is a multiple of 8KB inside the data (51_mappers.md R333). -/
abbrev Cart.prgOffOk (c : Cart) (off : Nat) : Prop := off % 0x2000 = 0 ∧ off < c.prgSize

/-- With CHR ROM a CHR offset is a multiple of 1KB inside the data (51_mappers.md R333); with CHR RAM it is not used. It fits
the four bytes a save state gives it (55_console_host.md R488). -/
abbrev Cart.chrOffOk (c : Cart) (off : Nat) : Prop :=
  (c.hasChrRom = true → off % 0x400 = 0 ∧ off < c.chrSize) ∧ off < 2 ^ 32

/-- The mapper binding and the PPU's copies of it (51_mappers.md R333, R334, R361; 10_state.md R45). The offsets lie inside
the data once a cartridge is installed. -/
structure State.MapperOk (s : State) : Prop where
  regs       : s.mapper.regs.okFor s.cart.variant
  prgOff     : s.console.loaded = true → ∀ j : Fin 4, s.cart.prgOffOk (s.mapper.prgOff.get j)
  chrOff     : ∀ j : Fin 8, s.cart.chrOffOk (s.mapper.chrOff.get j)
  chrCopy    : s.ppu.chrOff = s.mapper.chrOff
  mirrorCopy : s.ppu.mirroring = s.mapper.mirroring
  mirrorMask : s.ppu.mirrorMask = s.ppu.mirroring.mask
  irqLine    : s.mapper.irq = s.cpu.irqLines.mapper

/-- A queue as 53_ppu_timing_events.md R414 describes it: sorted by target line, no END, no two events with one line, kind and
bank, and every target at most `last`. -/
structure QueueOk (last : Nat) (q : List Event) : Prop where
  sorted   : q.Pairwise fun e f => e.line ≤ f.line
  noStop   : ∀ e ∈ q, e.change ≠ .stop
  distinct : q.Pairwise fun e f => Event.hasKey e.line e.change f = false
  targets  : ∀ e ∈ q, e.line ≤ last

/-- A frozen queue: empty, or a queue followed by its sentinel (53_ppu_timing_events.md R414). -/
def FrozenOk (q : List Event) : Prop :=
  q = [] ∨ ∃ body, QueueOk Config.vblankLine body ∧ q = body ++ [⟨Config.vblankLine, .stop⟩]

/-- The PPU's position, its catch-up line and its queues (53_ppu_timing_events.md R400, R413, R414). -/
structure Ppu.TimingOk (p : Ppu) : Prop where
  position : p.line = p.dots / Config.dotsPerLine % Config.linesPerFrame
  live     : p.liveLine ≤ targetLine p.line
  nextQ    : QueueOk (targetLine p.line) p.nextQ
  curQ     : FrozenOk p.curQ

/-- The cartridge has PRG data once it is installed, at most what a header byte can say, and a header mode
(55_console_host.md R481, R483). -/
structure State.CartOk (s : State) : Prop where
  someP  : s.console.loaded = true → 0 < s.cart.nPrg
  byteP  : s.cart.nPrg < 256
  byteC  : s.cart.nChr < 256
  header : s.cart.headerMode = .horizontal ∨ s.cart.headerMode = .vertical

/-- What holds at every step boundary. -/
structure State.Inv (s : State) : Prop where
  memories : s.MemoriesOk
  mapper   : s.MapperOk
  timing   : s.ppu.TimingOk
  cart     : s.CartOk
  config   : s.cfg.Legal

/-! ## Terms of the statements -/

/-- The address holds memory: work RAM, cartridge RAM or PRG. Nothing else in the map is memory
(50_bus_devices.md R306). -/
abbrev isMemory (a : Addr) : Prop := a.toNat < 0x2000 ∨ 0x6000 ≤ a.toNat

/-- The address holds memory that a store changes: work RAM or cartridge RAM (50_bus_devices.md R306). -/
abbrev isRam (a : Addr) : Prop := a.toNat < 0x2000 ∨ (0x6000 ≤ a.toNat ∧ a.toNat < 0x8000)

/-- Two addresses are one cell of work RAM or cartridge RAM (50_bus_devices.md R302, R307). -/
abbrev sameCell (a b : Addr) : Prop :=
  a = b ∨ (a.toNat < 0x2000 ∧ b.toNat < 0x2000 ∧ a.toNat % 0x800 = b.toNat % 0x800)

/-- Every register, flag and pending NMI of the CPU is as before; the MAPPER line and the cycle counter may differ. -/
abbrev sameRegisters (s t : State) : Prop :=
  t.cpu = { s.cpu with
    irqLines := ⟨t.cpu.irqLines.mapper, s.cpu.irqLines.external⟩
    cycles := t.cpu.cycles }

/-- Every byte of memory reads as before (50_bus_devices.md R306). -/
abbrev sameMemory (s t : State) : Prop := ∀ a : Addr, isMemory a → t.peek a = s.peek a

/-- `i` has opcode `op` and only changes the CPU, as `f` says: it completes in every state, and costs `cycles`. -/
def Implied (i : Instr) (op : Byte) (cycles : Nat) (f : Cpu → Cpu) : Prop :=
  i.opcode = some op ∧ ∀ s, exec i s = .next (charge cycles (s.withCpu (f s.cpu)))

/-- `i` has opcode `op` and reads the operand `src`: it completes in every state, makes the operand's reads and no other
access, and changes the CPU as `f` says of the operand byte; it costs `base`, and one more for a crossed page. -/
def Reads (i : Instr) (op : Byte) (src : Src) (base : Nat) (f : Byte → Cpu → Cpu) : Prop :=
  i.opcode = some op ∧ ∀ s, exec i s = .next
    (let o := readSrc src s
     charge (base + if o.crossed then 1 else 0) (o.state.withCpu (f o.value o.state.cpu)))

/-- `i` has opcode `op` and stores the register `reg`: it completes at every step boundary, writes once, at its effective
address, changes no register or flag, and costs `cycles` beside what the write itself costs. -/
def Stores (i : Instr) (op : Byte) (m : Mem) (cycles : Nat) (reg : Cpu → Byte) : Prop :=
  i.opcode = some op ∧ ∀ s : State, s.Inv → ∃ t,
    memWrite (effAddr m s).addr (reg s.cpu) (effAddr m s).state = .ok t ∧ sameRegisters s t ∧
      exec i s = .next (charge cycles t)

/-- `i` has opcode `op` and modifies memory: it completes at every step boundary, reads its effective address once, writes the
result of the byte and the carry there once, then changes the flags as `f` says of the byte and the carry; it costs
`cycles` beside what the write itself costs. -/
def Modifies (i : Instr) (op : Byte) (m : Mem) (cycles : Nat) (result : Byte → Bool → Byte)
    (f : Byte → Bool → Cpu → Cpu) : Prop :=
  i.opcode = some op ∧ ∀ s : State, s.Inv →
    let l := effAddr m s
    let r := memRead l.addr l.state
    ∃ t, memWrite l.addr (result r.1 s.cpu.c) r.2 = .ok t ∧ sameRegisters s t ∧
      exec i s = .next (charge cycles (t.withCpu (f r.1 s.cpu.c t.cpu)))

/-- `i` is an undefined opcode of `length` bytes: it completes where the hardware's policy holds, having changed nothing, and
costs `cycles`. -/
def Undefined (i : Instr) (op : Byte) (length cycles : Nat) : Prop :=
  i.opcode = some op ∧ opcodeLength op = length ∧
    ∀ s : State, s.cfg.undefinedOpcode = .nop → exec i s = .next (charge cycles s)

/-- The queue `new` is the queue `old` with one event at `line` for each change of `changes`, an earlier event of the same line, kind
and bank replaced (53_ppu_timing_events.md R411). -/
def Recorded (line : Nat) (changes : List Change) (old new : List Event) : Prop :=
  ∀ e, e ∈ new ↔ (∃ c ∈ changes, e = ⟨line, c⟩) ∨ (e ∈ old ∧ ∀ c ∈ changes, e.hasKey line c = false)

/-- The CHR_BANK changes of the `n` slots from `j0` on, each with the slot's offset (53_ppu_timing_events.md R410, R412). -/
def bankChanges (j0 n : Nat) (off : Vector Nat 8) : List Change :=
  ((List.finRange 8).filter fun j => j0 ≤ j.1 ∧ j.1 < j0 + n).map fun j => .chrBank j (off.get j)

/-- From `s` to `t` the mapper published its state: the PPU caught up, took the mapper's offsets and mirroring, and recorded
`changes` at the target line; nothing else but the mapper changed (51_mappers.md R334; 53_ppu_timing_events.md R411, R412). -/
def Published (changes : List Change) (s t : State) : Prop :=
  t = { s with
    mapper := t.mapper
    ppu := { catchUpIfVisible s.ppu with
      chrOff := t.mapper.chrOff
      mirroring := t.mapper.mirroring
      mirrorMask := t.mapper.mirroring.mask
      nextQ := t.ppu.nextQ } } ∧
  Recorded (if s.ppu.line ≤ 239 then s.ppu.line + 1 else 0) changes s.ppu.nextQ t.ppu.nextQ

/-- The next `n` bytes at PC, each fetched in turn, and the state after them. -/
def fetchBytes : Nat → State → List Byte × State
  | 0, s => ([], s)
  | n + 1, s =>
    let b := fetchByte s
    let rest := fetchBytes n b.2
    (b.1 :: rest.1, rest.2)

end Sys2Proof.Machine
end

