-- ==== Sys2Proof/Certificates/Slice0/Obligations.lean ====
section
/-! DEFINITION. The statements for the provers, in the order of the families: encoding, addressing, instructions, frames, bus,
mappers, PPU, console, the whole machine. Each docstring names the rules it formalises. -/

open Sys2Proof Sys2Proof.Machine

/-! ## Encoding (30_encoding.md) -/

/-- Words written out from the operand lists and examples of the spec decode to the instruction they stand for
(30_encoding.md R115; 95_test_vectors.md L2.1). -/
def Obligations.SpecWordsDecode : Prop :=
  decode [0xA9, 0x7F] = .ok (.lda (.imm 0x7F), []) ∧
  decode [0xBD, 0xFF, 0x12] = .ok (.lda (.mem (.absx 0x12FF)), []) ∧
  decode [0x96, 0x10] = .ok (.stx (.zpy 0x10), []) ∧
  decode [0x71, 0x20] = .ok (.adc (.mem (.indy 0x20)), []) ∧
  decode [0x0A] = .ok (.asl .acc, []) ∧
  decode [0x6C, 0xFF, 0x02] = .ok (.jmp (.ind 0x02FF), []) ∧
  decode [0xD0, 0xFD] = .ok (.bne 0xFD, []) ∧
  decode [0x00, 0xEA] = .ok (.brk, [0xEA]) ∧
  decode [0x08] = .ok (.php, []) ∧
  decode [0x1C, 0xFF, 0x02] = .ok (.und1C 0x02FF, [])

/-- A well-formed instruction has words, and they decode to it whatever bytes follow: no operand byte is dropped or misplaced
(30_encoding.md R110, R113, R114). -/
def Obligations.DecodeOfEncode : Prop :=
  ∀ i : Instr, WellFormed i → ∃ ws, encode i = some ws ∧ ∀ rest, decode (ws ++ rest) = .ok (i, rest)

/-- Whatever the decoder reads is a well-formed instruction, and the bytes it consumed are that instruction's own words: each
word has one meaning (30_encoding.md R114). -/
def Obligations.EncodeOfDecode : Prop :=
  ∀ (bytes rest : List Byte) (i : Instr), decode bytes = .ok (i, rest) →
    WellFormed i ∧ ∃ ws, encode i = some ws ∧ bytes = ws ++ rest

/-- Every opcode byte decodes to one instruction, of the length that the opcode alone gives, 1, 2 or 3 bytes; the decoder refuses
only a list that ends too soon (30_encoding.md R111, R114). -/
def Obligations.DecoderIsTotal : Prop :=
  ∀ (op : Byte) (rest : List Byte),
    (opcodeLength op = 1 ∨ opcodeLength op = 2 ∨ opcodeLength op = 3) ∧
    (opcodeLength op ≤ rest.length + 1 → ∃ i, decode (op :: rest) = .ok (i, rest.drop (opcodeLength op - 1)) ∧
      i.opcode = some op) ∧
    (rest.length + 1 < opcodeLength op → decode (op :: rest) = .error (.truncated op))

/-- When the bytes at PC decode to an instruction and no interrupt is due, a step of a loaded machine is `exec` of that
instruction on the state after its bytes are fetched, and then the PPU's advance by the cycles it cost
(30_encoding.md R114; 55_console_host.md R471). -/
def Obligations.StepRunsDecodedInstruction : Prop :=
  ∀ (s : State) (n : Nat) (i : Instr), s.console.loaded = true → interruptDue s.cpu = none →
    decode (fetchBytes n s).1 = .ok (i, []) →
    step s = andThen (exec i (fetchBytes n s).2) (advanceAfter s.cpu.cycles)

/-- Fetching `n` bytes reads them at PC, PC + 1, ... modulo 2^16, and leaves PC after them; from memory it changes nothing else
but the open-bus latch (10_state.md R22; 20_memory.md R73). -/
def Obligations.FetchAdvancesPc : Prop :=
  ∀ (s : State) (n : Nat), (fetchBytes n s).2.cpu = { s.cpu with pc := s.cpu.pc + BitVec.ofNat 16 n } ∧
    ((∀ k < n, isMemory (s.cpu.pc + BitVec.ofNat 16 k)) →
      (fetchBytes n s).1 = (List.range n).map (fun k => s.peek (s.cpu.pc + BitVec.ofNat 16 k)) ∧
      ∃ b, (fetchBytes n s).2 = { s with cpu := { s.cpu with pc := s.cpu.pc + BitVec.ofNat 16 n }, bus := b })

/-! ## Addressing (40_addressing.md) -/

/-- The effective address of every memory form, whether it crossed a page, and the state after the pointer reads: the zero-page
forms wrap in page zero, a pointer takes both its bytes from page zero, and an indexed sum carries and wraps at $FFFF. An
immediate operand is the fetched byte and reads nothing; a memory operand is one read at the effective address, with that read's
byte and effects, which for an address of memory are its byte and the open-bus latch (40_addressing.md R143-R150; 20_memory.md R75). -/
def Obligations.EffectiveAddresses : Prop :=
  ∀ (s : State) (o : Byte) (a : Addr) (m : Mem),
    let pointer (z : Byte) : Addr := wordOf (s.peek (zext16 (z + 1))) (s.peek (zext16 z))
    let after (z : Byte) : State := { s with bus := ⟨s.peek (zext16 (z + 1))⟩ }
    effAddr (.zp o) s = ⟨zext16 o, false, s⟩ ∧
    effAddr (.zpx o) s = ⟨zext16 (o + s.cpu.x), false, s⟩ ∧
    effAddr (.zpy o) s = ⟨zext16 (o + s.cpu.y), false, s⟩ ∧
    effAddr (.abs a) s = ⟨a, false, s⟩ ∧
    effAddr (.absx a) s = ⟨a + zext16 s.cpu.x, hiByte a ≠ hiByte (a + zext16 s.cpu.x), s⟩ ∧
    effAddr (.absy a) s = ⟨a + zext16 s.cpu.y, hiByte a ≠ hiByte (a + zext16 s.cpu.y), s⟩ ∧
    effAddr (.indx o) s = ⟨pointer (o + s.cpu.x), false, after (o + s.cpu.x)⟩ ∧
    effAddr (.indy o) s =
      ⟨pointer o + zext16 s.cpu.y, hiByte (pointer o) ≠ hiByte (pointer o + zext16 s.cpu.y), after o⟩ ∧
    readSrc (.imm o) s = ⟨o, false, s⟩ ∧
    (readSrc (.mem m) s).value = (memRead (effAddr m s).addr (effAddr m s).state).1 ∧
    (readSrc (.mem m) s).crossed = (effAddr m s).crossed ∧
    (readSrc (.mem m) s).state = (memRead (effAddr m s).addr (effAddr m s).state).2 ∧
    (isMemory (effAddr m s).addr →
      (readSrc (.mem m) s).value = s.peek (effAddr m s).addr ∧
      (readSrc (.mem m) s).state = { s with bus := ⟨s.peek (effAddr m s).addr⟩ })

/-! ## Loads, stores and transfers (41_load_store_transfer.md) -/

/-- `LDA`, `LDX` and `LDY` in every form: the operand goes to the register, N and Z come from it, every other flag is
unchanged (41_load_store_transfer.md R160-R162). -/
def Obligations.LoadResults : Prop :=
  ∀ (o : Byte) (a : Addr),
  let lda (m : Byte) (c : Cpu) : Cpu := { c with a := m, n := m.getLsbD 7, z := m = 0 }
  let ldx (m : Byte) (c : Cpu) : Cpu := { c with x := m, n := m.getLsbD 7, z := m = 0 }
  let ldy (m : Byte) (c : Cpu) : Cpu := { c with y := m, n := m.getLsbD 7, z := m = 0 }
  Reads (.lda (.imm o)) 0xA9 (.imm o) 2 lda ∧
  Reads (.lda (.mem (.zp o))) 0xA5 (.mem (.zp o)) 3 lda ∧
  Reads (.lda (.mem (.zpx o))) 0xB5 (.mem (.zpx o)) 4 lda ∧
  Reads (.lda (.mem (.abs a))) 0xAD (.mem (.abs a)) 4 lda ∧
  Reads (.lda (.mem (.absx a))) 0xBD (.mem (.absx a)) 4 lda ∧
  Reads (.lda (.mem (.absy a))) 0xB9 (.mem (.absy a)) 4 lda ∧
  Reads (.lda (.mem (.indx o))) 0xA1 (.mem (.indx o)) 6 lda ∧
  Reads (.lda (.mem (.indy o))) 0xB1 (.mem (.indy o)) 5 lda ∧
  Reads (.ldx (.imm o)) 0xA2 (.imm o) 2 ldx ∧
  Reads (.ldx (.mem (.zp o))) 0xA6 (.mem (.zp o)) 3 ldx ∧
  Reads (.ldx (.mem (.zpy o))) 0xB6 (.mem (.zpy o)) 4 ldx ∧
  Reads (.ldx (.mem (.abs a))) 0xAE (.mem (.abs a)) 4 ldx ∧
  Reads (.ldx (.mem (.absy a))) 0xBE (.mem (.absy a)) 4 ldx ∧
  Reads (.ldy (.imm o)) 0xA0 (.imm o) 2 ldy ∧
  Reads (.ldy (.mem (.zp o))) 0xA4 (.mem (.zp o)) 3 ldy ∧
  Reads (.ldy (.mem (.zpx o))) 0xB4 (.mem (.zpx o)) 4 ldy ∧
  Reads (.ldy (.mem (.abs a))) 0xAC (.mem (.abs a)) 4 ldy ∧
  Reads (.ldy (.mem (.absx a))) 0xBC (.mem (.absx a)) 4 ldy

/-- `STA`, `STX` and `STY` in every form: one write of the register at the effective address, no flag, the same cost whether or not
a page is crossed (41_load_store_transfer.md R163-R165). -/
def Obligations.StoreResults : Prop :=
  ∀ (o : Byte) (a : Addr),
  Stores (.sta (.zp o)) 0x85 (.zp o) 3 Cpu.a ∧
  Stores (.sta (.zpx o)) 0x95 (.zpx o) 4 Cpu.a ∧
  Stores (.sta (.abs a)) 0x8D (.abs a) 4 Cpu.a ∧
  Stores (.sta (.absx a)) 0x9D (.absx a) 5 Cpu.a ∧
  Stores (.sta (.absy a)) 0x99 (.absy a) 5 Cpu.a ∧
  Stores (.sta (.indx o)) 0x81 (.indx o) 6 Cpu.a ∧
  Stores (.sta (.indy o)) 0x91 (.indy o) 6 Cpu.a ∧
  Stores (.stx (.zp o)) 0x86 (.zp o) 3 Cpu.x ∧
  Stores (.stx (.zpy o)) 0x96 (.zpy o) 4 Cpu.x ∧
  Stores (.stx (.abs a)) 0x8E (.abs a) 4 Cpu.x ∧
  Stores (.sty (.zp o)) 0x84 (.zp o) 3 Cpu.y ∧
  Stores (.sty (.zpx o)) 0x94 (.zpx o) 4 Cpu.y ∧
  Stores (.sty (.abs a)) 0x8C (.abs a) 4 Cpu.y

/-- The register transfers and the increments of X and Y: N and Z come from the value written, but `TXS` writes no flag; the
increments wrap modulo 256 and leave C (41_load_store_transfer.md R166-R171; 42_arith_logic.md R192-R195). -/
def Obligations.RegisterResults : Prop :=
  Implied .tax 0xAA 2 (fun c => { c with x := c.a, n := c.a.getLsbD 7, z := c.a = 0 }) ∧
  Implied .tay 0xA8 2 (fun c => { c with y := c.a, n := c.a.getLsbD 7, z := c.a = 0 }) ∧
  Implied .txa 0x8A 2 (fun c => { c with a := c.x, n := c.x.getLsbD 7, z := c.x = 0 }) ∧
  Implied .tya 0x98 2 (fun c => { c with a := c.y, n := c.y.getLsbD 7, z := c.y = 0 }) ∧
  Implied .tsx 0xBA 2 (fun c => { c with x := c.sp, n := c.sp.getLsbD 7, z := c.sp = 0 }) ∧
  Implied .txs 0x9A 2 (fun c => { c with sp := c.x }) ∧
  Implied .inx 0xE8 2 (fun c => { c with x := c.x + 1, n := (c.x + 1).getLsbD 7, z := c.x + 1 = 0 }) ∧
  Implied .iny 0xC8 2 (fun c => { c with y := c.y + 1, n := (c.y + 1).getLsbD 7, z := c.y + 1 = 0 }) ∧
  Implied .dex 0xCA 2 (fun c => { c with x := c.x - 1, n := (c.x - 1).getLsbD 7, z := c.x - 1 = 0 }) ∧
  Implied .dey 0x88 2 (fun c => { c with y := c.y - 1, n := (c.y - 1).getLsbD 7, z := c.y - 1 = 0 })

/-! ## Arithmetic and logic (42_arith_logic.md) -/

/-- `ADC` in every form: the integer sum of A, the operand and C, reduced modulo 256; C is the carry out, V the signed overflow by the
rule's formula, N and Z come from the result; D and I are unchanged (42_arith_logic.md R181). -/
def Obligations.AdcResults : Prop :=
  ∀ (o : Byte) (a : Addr),
  let adc (m : Byte) (c : Cpu) : Cpu :=
    let sum := c.a.toNat + m.toNat + c.c.toNat
    let r := BitVec.ofNat 8 sum
    { c with
      a := r
      c := 255 < sum
      v := (c.a ^^^ r) &&& (m ^^^ r) &&& 0x80 ≠ 0
      n := r.getLsbD 7
      z := r = 0 }
  Reads (.adc (.imm o)) 0x69 (.imm o) 2 adc ∧
  Reads (.adc (.mem (.zp o))) 0x65 (.mem (.zp o)) 3 adc ∧
  Reads (.adc (.mem (.zpx o))) 0x75 (.mem (.zpx o)) 4 adc ∧
  Reads (.adc (.mem (.abs a))) 0x6D (.mem (.abs a)) 4 adc ∧
  Reads (.adc (.mem (.absx a))) 0x7D (.mem (.absx a)) 4 adc ∧
  Reads (.adc (.mem (.absy a))) 0x79 (.mem (.absy a)) 4 adc ∧
  Reads (.adc (.mem (.indx o))) 0x61 (.mem (.indx o)) 6 adc ∧
  Reads (.adc (.mem (.indy o))) 0x71 (.mem (.indy o)) 5 adc

/-- `SBC` in every form, by the rule's equivalent form: the result is `A - M - (1 - C)` modulo 256 and C says that no borrow occurred;
V is the overflow of the addition of the complemented operand; D and I are unchanged (42_arith_logic.md R182). -/
def Obligations.SbcResults : Prop :=
  ∀ (o : Byte) (a : Addr),
  let sbc (m : Byte) (c : Cpu) : Cpu :=
    let r := c.a - m - (if c.c then 0 else 1)
    { c with
      a := r
      c := m.toNat + (1 - c.c.toNat) ≤ c.a.toNat
      v := (c.a ^^^ r) &&& (~~~m ^^^ r) &&& 0x80 ≠ 0
      n := r.getLsbD 7
      z := r = 0 }
  Reads (.sbc (.imm o)) 0xE9 (.imm o) 2 sbc ∧
  Reads (.sbc (.mem (.zp o))) 0xE5 (.mem (.zp o)) 3 sbc ∧
  Reads (.sbc (.mem (.zpx o))) 0xF5 (.mem (.zpx o)) 4 sbc ∧
  Reads (.sbc (.mem (.abs a))) 0xED (.mem (.abs a)) 4 sbc ∧
  Reads (.sbc (.mem (.absx a))) 0xFD (.mem (.absx a)) 4 sbc ∧
  Reads (.sbc (.mem (.absy a))) 0xF9 (.mem (.absy a)) 4 sbc ∧
  Reads (.sbc (.mem (.indx o))) 0xE1 (.mem (.indx o)) 6 sbc ∧
  Reads (.sbc (.mem (.indy o))) 0xF1 (.mem (.indy o)) 5 sbc

/-- After `ADC`, V says that the signed sum does not fit a signed byte and C that the unsigned sum does not fit a byte; after `SBC`
the same of the signed and the unsigned difference. It holds whatever D holds (42_arith_logic.md R180, R196). -/
def Obligations.OverflowIsSigned : Prop :=
  ∀ (src : Src) (s : State),
    let o := readSrc src s
    let signed : Int := s.cpu.a.toInt + o.value.toInt + s.cpu.c.toNat
    let difference : Int := s.cpu.a.toInt - o.value.toInt - (1 - s.cpu.c.toNat)
    (∃ t, exec (.adc src) s = .next t ∧
      t.cpu.a.toNat = (s.cpu.a.toNat + o.value.toNat + s.cpu.c.toNat) % 256 ∧
      (t.cpu.v = true ↔ signed < -128 ∨ 127 < signed) ∧
      (t.cpu.c = true ↔ 256 ≤ s.cpu.a.toNat + o.value.toNat + s.cpu.c.toNat)) ∧
    (∃ t, exec (.sbc src) s = .next t ∧
      (t.cpu.a.toNat : Int) = (s.cpu.a.toNat - o.value.toNat - (1 - s.cpu.c.toNat)) % 256 ∧
      (t.cpu.v = true ↔ difference < -128 ∨ 127 < difference) ∧
      (t.cpu.c = true ↔ (0 : Int) ≤ s.cpu.a.toNat - o.value.toNat - (1 - s.cpu.c.toNat)))

/-- `AND`, `ORA` and `EOR` in every form: A and N and Z change, no other flag. `BIT` in both forms: N and V from the operand, Z from
`A AND M`; A and every other flag are unchanged (42_arith_logic.md R183-R186). -/
def Obligations.LogicResults : Prop :=
  ∀ (o : Byte) (a : Addr),
  let land (m : Byte) (c : Cpu) : Cpu := { c with a := c.a &&& m, n := (c.a &&& m).getLsbD 7, z := c.a &&& m = 0 }
  let lor (m : Byte) (c : Cpu) : Cpu := { c with a := c.a ||| m, n := (c.a ||| m).getLsbD 7, z := c.a ||| m = 0 }
  let lxor (m : Byte) (c : Cpu) : Cpu := { c with a := c.a ^^^ m, n := (c.a ^^^ m).getLsbD 7, z := c.a ^^^ m = 0 }
  let bit (m : Byte) (c : Cpu) : Cpu := { c with n := m.getLsbD 7, v := m.getLsbD 6, z := c.a &&& m = 0 }
  Reads (.and (.imm o)) 0x29 (.imm o) 2 land ∧
  Reads (.and (.mem (.zp o))) 0x25 (.mem (.zp o)) 3 land ∧
  Reads (.and (.mem (.zpx o))) 0x35 (.mem (.zpx o)) 4 land ∧
  Reads (.and (.mem (.abs a))) 0x2D (.mem (.abs a)) 4 land ∧
  Reads (.and (.mem (.absx a))) 0x3D (.mem (.absx a)) 4 land ∧
  Reads (.and (.mem (.absy a))) 0x39 (.mem (.absy a)) 4 land ∧
  Reads (.and (.mem (.indx o))) 0x21 (.mem (.indx o)) 6 land ∧
  Reads (.and (.mem (.indy o))) 0x31 (.mem (.indy o)) 5 land ∧
  Reads (.ora (.imm o)) 0x09 (.imm o) 2 lor ∧
  Reads (.ora (.mem (.zp o))) 0x05 (.mem (.zp o)) 3 lor ∧
  Reads (.ora (.mem (.zpx o))) 0x15 (.mem (.zpx o)) 4 lor ∧
  Reads (.ora (.mem (.abs a))) 0x0D (.mem (.abs a)) 4 lor ∧
  Reads (.ora (.mem (.absx a))) 0x1D (.mem (.absx a)) 4 lor ∧
  Reads (.ora (.mem (.absy a))) 0x19 (.mem (.absy a)) 4 lor ∧
  Reads (.ora (.mem (.indx o))) 0x01 (.mem (.indx o)) 6 lor ∧
  Reads (.ora (.mem (.indy o))) 0x11 (.mem (.indy o)) 5 lor ∧
  Reads (.eor (.imm o)) 0x49 (.imm o) 2 lxor ∧
  Reads (.eor (.mem (.zp o))) 0x45 (.mem (.zp o)) 3 lxor ∧
  Reads (.eor (.mem (.zpx o))) 0x55 (.mem (.zpx o)) 4 lxor ∧
  Reads (.eor (.mem (.abs a))) 0x4D (.mem (.abs a)) 4 lxor ∧
  Reads (.eor (.mem (.absx a))) 0x5D (.mem (.absx a)) 4 lxor ∧
  Reads (.eor (.mem (.absy a))) 0x59 (.mem (.absy a)) 4 lxor ∧
  Reads (.eor (.mem (.indx o))) 0x41 (.mem (.indx o)) 6 lxor ∧
  Reads (.eor (.mem (.indy o))) 0x51 (.mem (.indy o)) 5 lxor ∧
  Reads (.bit (.zp o)) 0x24 (.mem (.zp o)) 3 bit ∧
  Reads (.bit (.abs a)) 0x2C (.mem (.abs a)) 4 bit

/-- `CMP`, `CPX` and `CPY` in every form: C is the unsigned order, Z equality, N bit 7 of the wrapped difference; the register and V
are unchanged (42_arith_logic.md R187-R189). -/
def Obligations.CompareResults : Prop :=
  ∀ (o : Byte) (a : Addr),
  let cmp (m : Byte) (c : Cpu) : Cpu := { c with c := m.toNat ≤ c.a.toNat, z := c.a = m, n := (c.a - m).getLsbD 7 }
  let cpx (m : Byte) (c : Cpu) : Cpu := { c with c := m.toNat ≤ c.x.toNat, z := c.x = m, n := (c.x - m).getLsbD 7 }
  let cpy (m : Byte) (c : Cpu) : Cpu := { c with c := m.toNat ≤ c.y.toNat, z := c.y = m, n := (c.y - m).getLsbD 7 }
  Reads (.cmp (.imm o)) 0xC9 (.imm o) 2 cmp ∧
  Reads (.cmp (.mem (.zp o))) 0xC5 (.mem (.zp o)) 3 cmp ∧
  Reads (.cmp (.mem (.zpx o))) 0xD5 (.mem (.zpx o)) 4 cmp ∧
  Reads (.cmp (.mem (.abs a))) 0xCD (.mem (.abs a)) 4 cmp ∧
  Reads (.cmp (.mem (.absx a))) 0xDD (.mem (.absx a)) 4 cmp ∧
  Reads (.cmp (.mem (.absy a))) 0xD9 (.mem (.absy a)) 4 cmp ∧
  Reads (.cmp (.mem (.indx o))) 0xC1 (.mem (.indx o)) 6 cmp ∧
  Reads (.cmp (.mem (.indy o))) 0xD1 (.mem (.indy o)) 5 cmp ∧
  Reads (.cpx (.imm o)) 0xE0 (.imm o) 2 cpx ∧
  Reads (.cpx (.mem (.zp o))) 0xE4 (.mem (.zp o)) 3 cpx ∧
  Reads (.cpx (.mem (.abs a))) 0xEC (.mem (.abs a)) 4 cpx ∧
  Reads (.cpy (.imm o)) 0xC0 (.imm o) 2 cpy ∧
  Reads (.cpy (.mem (.zp o))) 0xC4 (.mem (.zp o)) 3 cpy ∧
  Reads (.cpy (.mem (.abs a))) 0xCC (.mem (.abs a)) 4 cpy

/-- `INC` and `DEC` in every form: one read, one write of the byte plus or minus one modulo 256, N and Z from it; C and V are
unchanged (42_arith_logic.md R190, R191). -/
def Obligations.IncDecMemoryResults : Prop :=
  ∀ (o : Byte) (a : Addr),
  let flags (r : Byte) (c : Cpu) : Cpu := { c with n := r.getLsbD 7, z := r = 0 }
  Modifies (.inc (.zp o)) 0xE6 (.zp o) 5 (fun m _ => m + 1) (fun m _ => flags (m + 1)) ∧
  Modifies (.inc (.zpx o)) 0xF6 (.zpx o) 6 (fun m _ => m + 1) (fun m _ => flags (m + 1)) ∧
  Modifies (.inc (.abs a)) 0xEE (.abs a) 6 (fun m _ => m + 1) (fun m _ => flags (m + 1)) ∧
  Modifies (.inc (.absx a)) 0xFE (.absx a) 7 (fun m _ => m + 1) (fun m _ => flags (m + 1)) ∧
  Modifies (.dec (.zp o)) 0xC6 (.zp o) 5 (fun m _ => m - 1) (fun m _ => flags (m - 1)) ∧
  Modifies (.dec (.zpx o)) 0xD6 (.zpx o) 6 (fun m _ => m - 1) (fun m _ => flags (m - 1)) ∧
  Modifies (.dec (.abs a)) 0xCE (.abs a) 6 (fun m _ => m - 1) (fun m _ => flags (m - 1)) ∧
  Modifies (.dec (.absx a)) 0xDE (.absx a) 7 (fun m _ => m - 1) (fun m _ => flags (m - 1))

/-! ## Shifts and rotates (43_shift_rotate.md) -/

/-- `ASL`, `LSR`, `ROL` and `ROR` on A and in every memory form: C receives the bit moved out, the rotates move the old C in, N and
Z come from the result, V is unchanged (43_shift_rotate.md R210-R213). -/
def Obligations.ShiftResults : Prop :=
  ∀ (o : Byte) (a : Addr),
  let flags (r : Byte) (out : Bool) (c : Cpu) : Cpu := { c with c := out, n := r.getLsbD 7, z := r = 0 }
  let asl (m : Byte) (_ : Bool) : Byte := m <<< 1
  let lsr (m : Byte) (_ : Bool) : Byte := m >>> 1
  let rol (m : Byte) (k : Bool) : Byte := (m <<< 1) ||| (if k then 0x01 else 0x00)
  let ror (m : Byte) (k : Bool) : Byte := (if k then 0x80 else 0x00) ||| (m >>> 1)
  Implied (.asl .acc) 0x0A 2
    (fun c => flags (asl c.a c.c) (c.a.getLsbD 7) { c with a := asl c.a c.c }) ∧
  Modifies (.asl (.mem (.zp o))) 0x06 (.zp o) 5 asl (fun m k => flags (asl m k) (m.getLsbD 7)) ∧
  Modifies (.asl (.mem (.zpx o))) 0x16 (.zpx o) 6 asl (fun m k => flags (asl m k) (m.getLsbD 7)) ∧
  Modifies (.asl (.mem (.abs a))) 0x0E (.abs a) 6 asl (fun m k => flags (asl m k) (m.getLsbD 7)) ∧
  Modifies (.asl (.mem (.absx a))) 0x1E (.absx a) 7 asl (fun m k => flags (asl m k) (m.getLsbD 7)) ∧
  Implied (.lsr .acc) 0x4A 2
    (fun c => flags (lsr c.a c.c) (c.a.getLsbD 0) { c with a := lsr c.a c.c }) ∧
  Modifies (.lsr (.mem (.zp o))) 0x46 (.zp o) 5 lsr (fun m k => flags (lsr m k) (m.getLsbD 0)) ∧
  Modifies (.lsr (.mem (.zpx o))) 0x56 (.zpx o) 6 lsr (fun m k => flags (lsr m k) (m.getLsbD 0)) ∧
  Modifies (.lsr (.mem (.abs a))) 0x4E (.abs a) 6 lsr (fun m k => flags (lsr m k) (m.getLsbD 0)) ∧
  Modifies (.lsr (.mem (.absx a))) 0x5E (.absx a) 7 lsr (fun m k => flags (lsr m k) (m.getLsbD 0)) ∧
  Implied (.rol .acc) 0x2A 2
    (fun c => flags (rol c.a c.c) (c.a.getLsbD 7) { c with a := rol c.a c.c }) ∧
  Modifies (.rol (.mem (.zp o))) 0x26 (.zp o) 5 rol (fun m k => flags (rol m k) (m.getLsbD 7)) ∧
  Modifies (.rol (.mem (.zpx o))) 0x36 (.zpx o) 6 rol (fun m k => flags (rol m k) (m.getLsbD 7)) ∧
  Modifies (.rol (.mem (.abs a))) 0x2E (.abs a) 6 rol (fun m k => flags (rol m k) (m.getLsbD 7)) ∧
  Modifies (.rol (.mem (.absx a))) 0x3E (.absx a) 7 rol (fun m k => flags (rol m k) (m.getLsbD 7)) ∧
  Implied (.ror .acc) 0x6A 2
    (fun c => flags (ror c.a c.c) (c.a.getLsbD 0) { c with a := ror c.a c.c }) ∧
  Modifies (.ror (.mem (.zp o))) 0x66 (.zp o) 5 ror (fun m k => flags (ror m k) (m.getLsbD 0)) ∧
  Modifies (.ror (.mem (.zpx o))) 0x76 (.zpx o) 6 ror (fun m k => flags (ror m k) (m.getLsbD 0)) ∧
  Modifies (.ror (.mem (.abs a))) 0x6E (.abs a) 6 ror (fun m k => flags (ror m k) (m.getLsbD 0)) ∧
  Modifies (.ror (.mem (.absx a))) 0x7E (.absx a) 7 ror (fun m k => flags (ror m k) (m.getLsbD 0))

/-! ## Control transfer (44_control_transfer.md) -/

/-- The eight branches: taken when the flag has the value, to the next instruction's address plus the sign-extended displacement,
modulo 2^16, for 3 cycles, or 4 into another page; not taken, 2 cycles and nothing else; no flag is written
(44_control_transfer.md R220-R228). -/
def Obligations.BranchResults : Prop :=
  ∀ (rel : Byte) (s : State),
  let target : Addr := s.cpu.pc + sext16 rel
  let taken : State :=
    charge (if hiByte s.cpu.pc = hiByte target then 3 else 4) (s.withCpu { s.cpu with pc := target })
  ((Instr.bcc rel).opcode = some 0x90 ∧ exec (.bcc rel) s = .next (if !s.cpu.c then taken else charge 2 s)) ∧
  ((Instr.bcs rel).opcode = some 0xB0 ∧ exec (.bcs rel) s = .next (if s.cpu.c then taken else charge 2 s)) ∧
  ((Instr.beq rel).opcode = some 0xF0 ∧ exec (.beq rel) s = .next (if s.cpu.z then taken else charge 2 s)) ∧
  ((Instr.bne rel).opcode = some 0xD0 ∧ exec (.bne rel) s = .next (if !s.cpu.z then taken else charge 2 s)) ∧
  ((Instr.bmi rel).opcode = some 0x30 ∧ exec (.bmi rel) s = .next (if s.cpu.n then taken else charge 2 s)) ∧
  ((Instr.bpl rel).opcode = some 0x10 ∧ exec (.bpl rel) s = .next (if !s.cpu.n then taken else charge 2 s)) ∧
  ((Instr.bvc rel).opcode = some 0x50 ∧ exec (.bvc rel) s = .next (if !s.cpu.v then taken else charge 2 s)) ∧
  ((Instr.bvs rel).opcode = some 0x70 ∧ exec (.bvs rel) s = .next (if s.cpu.v then taken else charge 2 s))

/-- `JMP` loads PC; the indirect form reads the low byte at the pointer and then the high byte within the pointer's page, so a pointer
at $xxFF takes it from $xx00 (44_control_transfer.md R229). -/
def Obligations.JumpResults : Prop :=
  ∀ (a : Addr) (s : State),
    let lo := memRead a s
    let hi := memRead (wordOf (hiByte a) (loByte a + 1)) lo.2
    (Instr.jmp (.abs a)).opcode = some 0x4C ∧
    exec (.jmp (.abs a)) s = .next (charge 3 (s.withCpu { s.cpu with pc := a })) ∧
    (Instr.jmp (.ind a)).opcode = some 0x6C ∧
    exec (.jmp (.ind a)) s = .next (charge 5 (hi.2.withCpu { hi.2.cpu with pc := wordOf hi.1 lo.1 }))

/-- `JSR` pushes the address of its own last byte, high byte first, and jumps; `RTS` pulls an address, low byte first, and goes to the
byte after it; the stack pointer wraps within page 1 and no flag changes (44_control_transfer.md R230, R231). -/
def Obligations.CallAndReturnResults : Prop :=
  ∀ (target : Addr) (s : State),
    let ret : Addr := s.cpu.pc - 1
    let sp := s.cpu.sp
    (Instr.jsr target).opcode = some 0x20 ∧
    exec (.jsr target) s = .next { s with
      ram := Memory.write (Memory.write s.ram (0x100 + sp.toNat) (hiByte ret)) (0x100 + (sp - 1).toNat) (loByte ret)
      cpu := { s.cpu with sp := sp - 2, pc := target, cycles := s.cpu.cycles + 6 } } ∧
    Instr.rts.opcode = some 0x60 ∧
    exec .rts s = .next { s with
      cpu := { s.cpu with
        sp := sp + 2
        pc := wordOf (Memory.read s.ram (0x100 + (sp + 2).toNat)) (Memory.read s.ram (0x100 + (sp + 1).toNat)) + 1
        cycles := s.cpu.cycles + 6 }
      bus := ⟨Memory.read s.ram (0x100 + (sp + 2).toNat)⟩ }

/-- `RTI` pulls the six flags, ignoring bits 5 and 4, and then PC, low byte first, with no adjustment; it clears no interrupt request
(44_control_transfer.md R232; 60_exceptions.md R509). -/
def Obligations.RtiResult : Prop :=
  ∀ s : State,
    let p := Memory.read s.ram (0x100 + (s.cpu.sp + 1).toNat)
    let lo := Memory.read s.ram (0x100 + (s.cpu.sp + 2).toNat)
    let hi := Memory.read s.ram (0x100 + (s.cpu.sp + 3).toNat)
    Instr.rti.opcode = some 0x40 ∧
    exec .rti s = .next { s with
      cpu := { s.cpu with
        n := p.getLsbD 7
        v := p.getLsbD 6
        d := p.getLsbD 3
        i := p.getLsbD 2
        z := p.getLsbD 1
        c := p.getLsbD 0
        sp := s.cpu.sp + 3
        pc := wordOf hi lo
        cycles := s.cpu.cycles + 6 }
      bus := ⟨hi⟩ }

/-- `BRK` pushes the address past its padding byte, high byte first, and the status with B and bit 5 set, sets I, and goes to the IRQ
vector whatever I held; D and the other flags are unchanged (44_control_transfer.md R233; 60_exceptions.md R508). -/
def Obligations.BrkEntersHandler : Prop :=
  ∀ s : State,
    let ret : Addr := s.cpu.pc + 1
    let sp := s.cpu.sp
    let ram := Memory.write (Memory.write (Memory.write s.ram
      (0x100 + sp.toNat) (hiByte ret)) (0x100 + (sp - 1).toNat) (loByte ret)) (0x100 + (sp - 2).toNat) (statusByte true s.cpu)
    Instr.brk.opcode = some 0x00 ∧
    (statusByte true s.cpu).getLsbD 4 = true ∧ (statusByte true s.cpu).getLsbD 5 = true ∧
    exec .brk s = .next { s with
      ram := ram
      cpu := { s.cpu with
        sp := sp - 3
        i := true
        pc := wordOf (s.peek 0xFFFF) (s.peek 0xFFFE)
        cycles := s.cpu.cycles + 7 }
      bus := ⟨s.peek 0xFFFF⟩ }

/-- A subroutine that runs nothing returns to the instruction after its call, with the stack pointer and every register and flag as
before, wherever the stack pointer stands in page 1. A handler that runs nothing returns to the interrupted code: after a BRK, an NMI or
an IRQ entry, `RTI` restores every flag, I among them, and the stack pointer, and PC is the pushed address
(44_control_transfer.md R230-R234; 60_exceptions.md R507, R509). -/
def Obligations.ReturnsRestore : Prop :=
  ∀ (target : Addr) (s : State), Memory.wf s.ram = true →
    (∃ t u, exec (.jsr target) s = .next t ∧ t.cpu.pc = target ∧ exec .rts t = .next u ∧
      u.cpu = { s.cpu with cycles := s.cpu.cycles + 12 }) ∧
    (∃ t u, exec .brk s = .next t ∧ exec .rti t = .next u ∧
      u.cpu = { s.cpu with pc := s.cpu.pc + 1, cycles := s.cpu.cycles + 13 }) ∧
    (∃ t u, takeInterrupt .irq s = .next t ∧ exec .rti t = .next u ∧
      u.cpu = { s.cpu with cycles := s.cpu.cycles + 13 }) ∧
    (∃ t u, takeInterrupt .nmi s = .next t ∧ exec .rti t = .next u ∧
      u.cpu = { s.cpu with nmiPending := false, cycles := s.cpu.cycles + 13 })

/-! ## Stack, flags and no operation (45_stack_flags_misc.md) -/

/-- `PHA` and `PHP` write page 1 and move SP down; `PLA` and `PLP` move SP up and read page 1; SP wraps modulo 256. `PHP` pushes bits 5
and 4 as 1 and `PLP` ignores them (45_stack_flags_misc.md R240-R243; 10_state.md R23, R24). -/
def Obligations.StackInstructionResults : Prop :=
  ∀ s : State,
    let sp := s.cpu.sp
    let b := Memory.read s.ram (0x100 + (sp + 1).toNat)
    let pushed (v : Byte) : State := { s with
      ram := Memory.write s.ram (0x100 + sp.toNat) v
      cpu := { s.cpu with sp := sp - 1, cycles := s.cpu.cycles + 3 } }
    let bitOf (f : Bool) (w : Byte) : Byte := if f then w else 0
    Instr.pha.opcode = some 0x48 ∧ exec .pha s = .next (pushed s.cpu.a) ∧
    Instr.php.opcode = some 0x08 ∧
    exec .php s = .next (pushed (0x30 ||| bitOf s.cpu.n 0x80 ||| bitOf s.cpu.v 0x40 ||| bitOf s.cpu.d 0x08 |||
      bitOf s.cpu.i 0x04 ||| bitOf s.cpu.z 0x02 ||| bitOf s.cpu.c 0x01)) ∧
    Instr.pla.opcode = some 0x68 ∧
    exec .pla s = .next { s with
      cpu := { s.cpu with a := b, n := b.getLsbD 7, z := b = 0, sp := sp + 1, cycles := s.cpu.cycles + 4 }
      bus := ⟨b⟩ } ∧
    Instr.plp.opcode = some 0x28 ∧
    exec .plp s = .next { s with
      cpu := { s.cpu with
        n := b.getLsbD 7
        v := b.getLsbD 6
        d := b.getLsbD 3
        i := b.getLsbD 2
        z := b.getLsbD 1
        c := b.getLsbD 0
        sp := sp + 1
        cycles := s.cpu.cycles + 4 }
      bus := ⟨b⟩ }

/-- The flag instructions write their flag and nothing else, and `NOP` writes nothing (45_stack_flags_misc.md R244-R251). -/
def Obligations.FlagInstructionResults : Prop :=
  Implied .clc 0x18 2 (fun c => { c with c := false }) ∧
  Implied .cld 0xD8 2 (fun c => { c with d := false }) ∧
  Implied .cli 0x58 2 (fun c => { c with i := false }) ∧
  Implied .clv 0xB8 2 (fun c => { c with v := false }) ∧
  Implied .sec 0x38 2 (fun c => { c with c := true }) ∧
  Implied .sed 0xF8 2 (fun c => { c with d := true }) ∧
  Implied .sei 0x78 2 (fun c => { c with i := true }) ∧
  Implied .nop 0xEA 2 (fun c => c)

/-! ## Undefined opcodes (46_undefined_opcodes.md) -/

/-- The 105 undefined opcodes under the hardware's policy, with the length and cost of the table: the operand bytes are discarded and
nothing else happens, the twelve JAM opcodes among them (46_undefined_opcodes.md R260, R262, R263). -/
def Obligations.UndefinedOpcodesAreNoOps : Prop :=
  ∀ (o : Byte) (a : Addr),
  Undefined .und02 0x02 1 2 ∧
  Undefined (.und03 o) 0x03 2 8 ∧
  Undefined (.und04 o) 0x04 2 3 ∧
  Undefined (.und07 o) 0x07 2 5 ∧
  Undefined (.und0B o) 0x0B 2 2 ∧
  Undefined (.und0C a) 0x0C 3 4 ∧
  Undefined (.und0F a) 0x0F 3 6 ∧
  Undefined .und12 0x12 1 2 ∧
  Undefined (.und13 o) 0x13 2 8 ∧
  Undefined (.und14 o) 0x14 2 4 ∧
  Undefined (.und17 o) 0x17 2 6 ∧
  Undefined .und1A 0x1A 1 2 ∧
  Undefined (.und1B a) 0x1B 3 7 ∧
  Undefined (.und1C a) 0x1C 3 4 ∧
  Undefined (.und1F a) 0x1F 3 7 ∧
  Undefined .und22 0x22 1 2 ∧
  Undefined (.und23 o) 0x23 2 8 ∧
  Undefined (.und27 o) 0x27 2 5 ∧
  Undefined (.und2B o) 0x2B 2 2 ∧
  Undefined (.und2F a) 0x2F 3 6 ∧
  Undefined .und32 0x32 1 2 ∧
  Undefined (.und33 o) 0x33 2 8 ∧
  Undefined (.und34 o) 0x34 2 4 ∧
  Undefined (.und37 o) 0x37 2 6 ∧
  Undefined .und3A 0x3A 1 2 ∧
  Undefined (.und3B a) 0x3B 3 7 ∧
  Undefined (.und3C a) 0x3C 3 4 ∧
  Undefined (.und3F a) 0x3F 3 7 ∧
  Undefined .und42 0x42 1 2 ∧
  Undefined (.und43 o) 0x43 2 8 ∧
  Undefined (.und44 o) 0x44 2 3 ∧
  Undefined (.und47 o) 0x47 2 5 ∧
  Undefined (.und4B o) 0x4B 2 2 ∧
  Undefined (.und4F a) 0x4F 3 6 ∧
  Undefined .und52 0x52 1 2 ∧
  Undefined (.und53 o) 0x53 2 8 ∧
  Undefined (.und54 o) 0x54 2 4 ∧
  Undefined (.und57 o) 0x57 2 6 ∧
  Undefined .und5A 0x5A 1 2 ∧
  Undefined (.und5B a) 0x5B 3 7 ∧
  Undefined (.und5C a) 0x5C 3 4 ∧
  Undefined (.und5F a) 0x5F 3 7 ∧
  Undefined .und62 0x62 1 2 ∧
  Undefined (.und63 o) 0x63 2 8 ∧
  Undefined (.und64 o) 0x64 2 3 ∧
  Undefined (.und67 o) 0x67 2 5 ∧
  Undefined (.und6B o) 0x6B 2 2 ∧
  Undefined (.und6F a) 0x6F 3 6 ∧
  Undefined .und72 0x72 1 2 ∧
  Undefined (.und73 o) 0x73 2 8 ∧
  Undefined (.und74 o) 0x74 2 4 ∧
  Undefined (.und77 o) 0x77 2 6 ∧
  Undefined .und7A 0x7A 1 2 ∧
  Undefined (.und7B a) 0x7B 3 7 ∧
  Undefined (.und7C a) 0x7C 3 4 ∧
  Undefined (.und7F a) 0x7F 3 7 ∧
  Undefined (.und80 o) 0x80 2 2 ∧
  Undefined (.und82 o) 0x82 2 2 ∧
  Undefined (.und83 o) 0x83 2 6 ∧
  Undefined (.und87 o) 0x87 2 3 ∧
  Undefined (.und89 o) 0x89 2 2 ∧
  Undefined (.und8B o) 0x8B 2 2 ∧
  Undefined (.und8F a) 0x8F 3 4 ∧
  Undefined .und92 0x92 1 2 ∧
  Undefined (.und93 o) 0x93 2 6 ∧
  Undefined (.und97 o) 0x97 2 4 ∧
  Undefined (.und9B a) 0x9B 3 5 ∧
  Undefined (.und9C a) 0x9C 3 5 ∧
  Undefined (.und9E a) 0x9E 3 5 ∧
  Undefined (.und9F a) 0x9F 3 5 ∧
  Undefined (.undA3 o) 0xA3 2 6 ∧
  Undefined (.undA7 o) 0xA7 2 3 ∧
  Undefined (.undAB o) 0xAB 2 2 ∧
  Undefined (.undAF a) 0xAF 3 4 ∧
  Undefined .undB2 0xB2 1 2 ∧
  Undefined (.undB3 o) 0xB3 2 5 ∧
  Undefined (.undB7 o) 0xB7 2 4 ∧
  Undefined (.undBB a) 0xBB 3 4 ∧
  Undefined (.undBF a) 0xBF 3 4 ∧
  Undefined (.undC2 o) 0xC2 2 2 ∧
  Undefined (.undC3 o) 0xC3 2 8 ∧
  Undefined (.undC7 o) 0xC7 2 5 ∧
  Undefined (.undCB o) 0xCB 2 2 ∧
  Undefined (.undCF a) 0xCF 3 6 ∧
  Undefined .undD2 0xD2 1 2 ∧
  Undefined (.undD3 o) 0xD3 2 8 ∧
  Undefined (.undD4 o) 0xD4 2 4 ∧
  Undefined (.undD7 o) 0xD7 2 6 ∧
  Undefined .undDA 0xDA 1 2 ∧
  Undefined (.undDB a) 0xDB 3 7 ∧
  Undefined (.undDC a) 0xDC 3 4 ∧
  Undefined (.undDF a) 0xDF 3 7 ∧
  Undefined (.undE2 o) 0xE2 2 2 ∧
  Undefined (.undE3 o) 0xE3 2 8 ∧
  Undefined (.undE7 o) 0xE7 2 5 ∧
  Undefined (.undEB o) 0xEB 2 2 ∧
  Undefined (.undEF a) 0xEF 3 6 ∧
  Undefined .undF2 0xF2 1 2 ∧
  Undefined (.undF3 o) 0xF3 2 8 ∧
  Undefined (.undF4 o) 0xF4 2 4 ∧
  Undefined (.undF7 o) 0xF7 2 6 ∧
  Undefined .undFA 0xFA 1 2 ∧
  Undefined (.undFB a) 0xFB 3 7 ∧
  Undefined (.undFC a) 0xFC 3 4 ∧
  Undefined (.undFF a) 0xFF 3 7

/-- Some undefined opcode's bytes begin with this byte: it is none of the 151 official ones (30_encoding.md R117). -/
def isUndefinedOpcode (op : Byte) : Prop :=
  op ∈ [0x02, 0x03, 0x04, 0x07, 0x0B, 0x0C, 0x0F, 0x12, 0x13, 0x14, 0x17, 0x1A, 0x1B,
    0x1C, 0x1F, 0x22, 0x23, 0x27, 0x2B, 0x2F, 0x32, 0x33, 0x34, 0x37, 0x3A, 0x3B, 0x3C, 0x3F,
    0x42, 0x43, 0x44, 0x47, 0x4B, 0x4F, 0x52, 0x53, 0x54, 0x57, 0x5A, 0x5B, 0x5C, 0x5F, 0x62,
    0x63, 0x64, 0x67, 0x6B, 0x6F, 0x72, 0x73, 0x74, 0x77, 0x7A, 0x7B, 0x7C, 0x7F, 0x80, 0x82,
    0x83, 0x87, 0x89, 0x8B, 0x8F, 0x92, 0x93, 0x97, 0x9B, 0x9C, 0x9E, 0x9F, 0xA3, 0xA7, 0xAB,
    0xAF, 0xB2, 0xB3, 0xB7, 0xBB, 0xBF, 0xC2, 0xC3, 0xC7, 0xCB, 0xCF, 0xD2, 0xD3, 0xD4, 0xD7,
    0xDA, 0xDB, 0xDC, 0xDF, 0xE2, 0xE3, 0xE7, 0xEB, 0xEF, 0xF2, 0xF3, 0xF4, 0xF7, 0xFA, 0xFB,
    0xFC, 0xFF].map (BitVec.ofNat 8)

/-- Under the conservative policy every undefined opcode is refused by its own byte and an address, and changes nothing. That the
address is the one the opcode was fetched from is the model's reading of the rule, log entry 10
(46_undefined_opcodes.md R261; log entry 10). -/
def Obligations.UndefinedOpcodesRefused : Prop :=
  ∀ (op l h : Byte) (s : State), isUndefinedOpcode op → s.cfg.undefinedOpcode = .refuse →
    exec (decodeOpcode op l h) s = .refused (.undefinedOpcode op (s.cpu.pc - BitVec.ofNat 16 (opcodeLength op)))

/-! ## Frames (10_state.md R20-R28; 20_memory.md R74, R75) -/

/-- An instruction that reads its operand and stores nothing: it completes in every state, changes its destination register and its
flags and no other register or flag, and leaves every byte of memory. A read of a device may change what a read of that device
changes: VBLANK, `v`, `t`, `w`, the read buffer and the catch-up line of the PPU, and the shift registers of the ports; an operand
in memory changes only the open-bus latch (10_state.md R25; 20_memory.md R74, R75). -/
def Obligations.ReadsLeaveTheRest : Prop :=
  ∀ (src : Src) (m : Mem) (s : State),
    let rest (src : Src) (t : State) : Prop :=
      sameMemory s t ∧ t.ram = s.ram ∧ t.prgRam = s.prgRam ∧ t.apuReg = s.apuReg ∧ t.mapper = s.mapper ∧
      t.console = s.console ∧ t.cart = s.cart ∧ t.cfg = s.cfg ∧
      t.ppu = { s.ppu with
        vblank := t.ppu.vblank, v := t.ppu.v, t := t.ppu.t, w := t.ppu.w
        readBuf := t.ppu.readBuf, liveLine := t.ppu.liveLine } ∧
      t.pad = ⟨{ s.pad.port1 with shift := t.pad.port1.shift }, { s.pad.port2 with shift := t.pad.port2.shift },
        s.pad.strobe⟩ ∧
      ((∀ n, src = .mem n → isMemory (effAddr n s).addr) → t = { s with cpu := t.cpu, bus := t.bus })
    let goes (src : Src) (i : Instr) (f : Cpu → Cpu) : Prop := ∃ t, exec i s = .next t ∧ t.cpu = f t.cpu ∧ rest src t
    let c := s.cpu
    goes src (.lda src) (fun k => { c with a := k.a, n := k.n, z := k.z, cycles := k.cycles }) ∧
    goes src (.ldx src) (fun k => { c with x := k.x, n := k.n, z := k.z, cycles := k.cycles }) ∧
    goes src (.ldy src) (fun k => { c with y := k.y, n := k.n, z := k.z, cycles := k.cycles }) ∧
    goes src (.adc src) (fun k => { c with a := k.a, n := k.n, v := k.v, z := k.z, c := k.c, cycles := k.cycles }) ∧
    goes src (.sbc src) (fun k => { c with a := k.a, n := k.n, v := k.v, z := k.z, c := k.c, cycles := k.cycles }) ∧
    goes src (.and src) (fun k => { c with a := k.a, n := k.n, z := k.z, cycles := k.cycles }) ∧
    goes src (.ora src) (fun k => { c with a := k.a, n := k.n, z := k.z, cycles := k.cycles }) ∧
    goes src (.eor src) (fun k => { c with a := k.a, n := k.n, z := k.z, cycles := k.cycles }) ∧
    goes src (.cmp src) (fun k => { c with n := k.n, z := k.z, c := k.c, cycles := k.cycles }) ∧
    goes src (.cpx src) (fun k => { c with n := k.n, z := k.z, c := k.c, cycles := k.cycles }) ∧
    goes src (.cpy src) (fun k => { c with n := k.n, z := k.z, c := k.c, cycles := k.cycles }) ∧
    goes (.mem m) (.bit m) (fun k => { c with n := k.n, v := k.v, z := k.z, cycles := k.cycles })

/-- An instruction that stores completes at every step boundary and stores at its effective address, which `effAddr` computes. No
register changes, and no flag but those named. A byte of work or cartridge RAM changes only if it is the cell stored to, and then
it holds the value. Nothing else of memory changes unless the store is a mapper write, which may switch the bank that an address
of PRG shows; only that can change an IRQ line. A store to RAM changes nothing else of the machine
(10_state.md R25; 50_bus_devices.md R302, R306, R307, R314). -/
def Obligations.StoresChangeOnlyTheirBytes : Prop :=
  ∀ (m : Mem) (s : State), s.Inv →
    let ea : Addr := (effAddr m s).addr
    let stores (i : Instr) (value : Byte) (f : Cpu → Cpu) : Prop := ∃ t, exec i s = .next t ∧
      t.cpu = f t.cpu ∧ t.console = s.console ∧ t.cart = s.cart ∧ t.cfg = s.cfg ∧
      (∀ a, isRam a → ¬ sameCell a ea → t.peek a = s.peek a) ∧
      (ea.toNat < 0x8000 → (∀ a, isMemory a → ¬ sameCell a ea → t.peek a = s.peek a) ∧ t.cpu.irqLines = s.cpu.irqLines) ∧
      (isRam ea → t.peek ea = value ∧ t = { s with cpu := t.cpu, bus := t.bus, ram := t.ram, prgRam := t.prgRam })
    let c := s.cpu
    let none (k : Cpu) : Cpu := { c with irqLines := ⟨k.irqLines.mapper, c.irqLines.external⟩, cycles := k.cycles }
    let nz (k : Cpu) : Cpu := { c with n := k.n, z := k.z, irqLines := ⟨k.irqLines.mapper, c.irqLines.external⟩, cycles := k.cycles }
    let nzc (k : Cpu) : Cpu := { c with n := k.n, z := k.z, c := k.c, irqLines := ⟨k.irqLines.mapper, c.irqLines.external⟩, cycles := k.cycles }
    stores (.sta m) c.a none ∧ stores (.stx m) c.x none ∧ stores (.sty m) c.y none ∧
    stores (.inc m) (s.peek ea + 1) nz ∧ stores (.dec m) (s.peek ea - 1) nz ∧
    stores (.asl (.mem m)) (s.peek ea <<< 1) nzc ∧ stores (.lsr (.mem m)) (s.peek ea >>> 1) nzc ∧
    stores (.rol (.mem m)) ((s.peek ea <<< 1) ||| bitByte c.c) nzc ∧
    stores (.ror (.mem m)) ((s.peek ea >>> 1) ||| (bitByte c.c <<< 7)) nzc

/-- Pushes, pulls, calls, returns and handler entries: they complete in every state, and of all memory they change only the cells of
page 1 that they push to; the pulls change no byte. The devices, the mapper and the cartridge are untouched
(10_state.md R23; 44_control_transfer.md R230-R233; 60_exceptions.md R507). -/
def Obligations.StackInstructionsChangeOnlyTheStack : Prop :=
  ∀ (s : State) (target : Addr), Memory.wf s.ram = true →
    let slot (k : Byte) : Addr := stackAddr (s.cpu.sp - k)
    let only (r : Result) (cells : List Addr) : Prop := ∃ t, r = .next t ∧
      t = { s with cpu := t.cpu, bus := t.bus, ram := t.ram } ∧
      ∀ a, isMemory a → (∀ c ∈ cells, ¬ sameCell a c) → t.peek a = s.peek a
    only (exec .pha s) [slot 0] ∧ only (exec .php s) [slot 0] ∧
    only (exec .pla s) [] ∧ only (exec .plp s) [] ∧ only (exec .rts s) [] ∧ only (exec .rti s) [] ∧
    only (exec (.jsr target) s) [slot 0, slot 1] ∧
    only (exec .brk s) [slot 0, slot 1, slot 2] ∧
    only (takeInterrupt .nmi s) [slot 0, slot 1, slot 2] ∧ only (takeInterrupt .irq s) [slot 0, slot 1, slot 2]

/-- Who writes the flags and the registers: an instruction that changes a flag or a register is one of those that the rule names for
it. N is written by the instructions of its row and no other, and so are V, D, I and C; X, Y, the stack pointer and PC change
only by the instructions named (10_state.md R20-R25). -/
def Obligations.OnlyNamedInstructionsWrite : Prop :=
  ∀ (i : Instr) (s t : State), s.Inv → exec i s = .next t →
    (t.cpu.d ≠ s.cpu.d → i ∈ [.cld, .sed, .plp, .rti]) ∧
    (t.cpu.i ≠ s.cpu.i → i ∈ [.cli, .sei, .plp, .rti, .brk]) ∧
    (t.cpu.v ≠ s.cpu.v → i ∈ [.clv, .plp, .rti] ∨ (∃ src, i = .adc src ∨ i = .sbc src) ∨ ∃ m, i = .bit m) ∧
    (t.cpu.c ≠ s.cpu.c → i ∈ [.clc, .sec, .plp, .rti] ∨
      (∃ src, i = .adc src ∨ i = .sbc src ∨ i = .cmp src ∨ i = .cpx src ∨ i = .cpy src) ∨
      ∃ dst, i = .asl dst ∨ i = .lsr dst ∨ i = .rol dst ∨ i = .ror dst) ∧
    (t.cpu.n ≠ s.cpu.n ∨ t.cpu.z ≠ s.cpu.z →
      i ∈ [.pla, .plp, .rti, .tax, .tay, .txa, .tya, .tsx, .inx, .iny, .dex, .dey] ∨
      (∃ src, i ∈ [.lda src, .ldx src, .ldy src, .adc src, .sbc src, .and src, .ora src, .eor src,
        .cmp src, .cpx src, .cpy src]) ∨
      (∃ m, i = .inc m ∨ i = .dec m ∨ i = .bit m) ∨
      ∃ dst, i = .asl dst ∨ i = .lsr dst ∨ i = .rol dst ∨ i = .ror dst) ∧
    (t.cpu.a ≠ s.cpu.a → i ∈ [.pla, .txa, .tya, .asl .acc, .lsr .acc, .rol .acc, .ror .acc] ∨
      ∃ src, i ∈ [.lda src, .adc src, .sbc src, .and src, .ora src, .eor src]) ∧
    (t.cpu.x ≠ s.cpu.x → i ∈ [.tax, .tsx, .inx, .dex] ∨ ∃ src, i = .ldx src) ∧
    (t.cpu.y ≠ s.cpu.y → i ∈ [.tay, .iny, .dey] ∨ ∃ src, i = .ldy src) ∧
    (t.cpu.sp ≠ s.cpu.sp → i ∈ [.txs, .pha, .php, .pla, .plp, .rts, .rti, .brk] ∨ ∃ a, i = .jsr a) ∧
    (t.cpu.pc ≠ s.cpu.pc → i ∈ [.rts, .rti, .brk] ∨ (∃ target, i = .jmp target) ∨ (∃ a, i = .jsr a) ∨
      ∃ rel, i ∈ [.bcc rel, .bcs rel, .beq rel, .bne rel, .bmi rel, .bpl rel, .bvc rel, .bvs rel]) ∧
    t.cpu.nmiPending = s.cpu.nmiPending ∧ t.cpu.irqLines.external = s.cpu.irqLines.external ∧
    t.cpu.paused = s.cpu.paused

/-- Every instruction completes: at a step boundary, with the hardware's policy for undefined opcodes, each instruction in each of its
forms answers a next state that meets the invariant, at least 2 cycles later, with the same cartridge, configuration and console
(60_exceptions.md R500, R505; 70_reset_and_hazards.md R540). -/
def Obligations.EveryInstructionCompletes : Prop :=
  ∀ (i : Instr) (s : State), s.Inv → s.cfg.undefinedOpcode = .nop →
    ∃ t, exec i s = .next t ∧ t.Inv ∧ s.cpu.cycles + 2 ≤ t.cpu.cycles ∧ t.cart = s.cart ∧ t.cfg = s.cfg ∧ t.console = s.console

/-! ## Interrupts (60_exceptions.md) -/

/-- What a step of a loaded machine does first: a pending NMI is taken whatever I holds, else a requested IRQ if I is clear, else the
instruction at PC runs. An entry pushes PC, high byte first, and the status with B = 0 and bit 5 = 1, sets I, and reads PC from its
vector; D and the other flags, every other register and the IRQ lines are unchanged, an NMI's request is cleared, and the entry
costs 7 cycles (60_exceptions.md R502-R507). -/
def Obligations.InterruptPriorityAndEntry : Prop :=
  ∀ s : State, s.console.loaded = true →
    let runs (r : Result) : Prop := step s = andThen r (advanceAfter s.cpu.cycles)
    let requested := s.cpu.irqLines.mapper || s.cpu.irqLines.external
    let sp := s.cpu.sp
    let entered (vector : Addr) (c : Cpu) : State := { s with
      ram := Memory.write (Memory.write (Memory.write s.ram
        (0x100 + sp.toNat) (hiByte c.pc)) (0x100 + (sp - 1).toNat) (loByte c.pc)) (0x100 + (sp - 2).toNat) (statusByte false c)
      cpu := { c with
        sp := sp - 3
        i := true
        pc := wordOf (s.peek (vector + 1)) (s.peek vector)
        cycles := c.cycles + 7 }
      bus := ⟨s.peek (vector + 1)⟩ }
    (s.cpu.nmiPending = true → runs (.next (entered 0xFFFA { s.cpu with nmiPending := false }))) ∧
    (s.cpu.nmiPending = false → requested = true → s.cpu.i = false → runs (.next (entered 0xFFFE s.cpu))) ∧
    (s.cpu.nmiPending = false → (requested = false ∨ s.cpu.i = true) → runs (exec (fetchInstr s).1 (fetchInstr s).2)) ∧
    (statusByte false s.cpu).getLsbD 4 = false ∧ (statusByte false s.cpu).getLsbD 5 = true

/-! ## The bus and its devices (50_bus_devices.md) -/

/-- Every CPU read returns the byte of its row of the routing table and sets the open-bus latch to that byte; only a PPU register, a
controller port and the latch can change, and an address of the PPU window is the same register as every mirror of it. An address
with no handler reads as the open-bus policy says (50_bus_devices.md R300-R303, R305, R308, R309). -/
def Obligations.ReadRouting : Prop :=
  ∀ (s : State) (a b : Addr),
    let n := a.toNat
    let r := memRead a s
    let after : State := { s with bus := ⟨r.1⟩ }
    let openBus : Byte := match s.cfg.openBus with
      | .zero => 0
      | .lastRead => s.bus.lastRead
    (n ≤ 0x1FFF → r = (Memory.read s.ram (n % 0x800), after)) ∧
    (0x2000 ≤ n → n ≤ 0x3FFF → r.2 = { after with ppu := r.2.ppu }) ∧
    (0x2000 ≤ n → n ≤ 0x3FFF → 0x2000 ≤ b.toNat → b.toNat ≤ 0x3FFF → n % 8 = b.toNat % 8 → memRead b s = r) ∧
    (0x4000 ≤ n → n ≤ 0x4014 → r = (openBus, after)) ∧
    (n = 0x4015 → r = (0x00, after)) ∧
    (n = 0x4016 → r.2 = { after with pad := { s.pad with port1 := r.2.pad.port1 } }) ∧
    (n = 0x4017 → r.2 = { after with pad := { s.pad with port2 := r.2.pad.port2 } }) ∧
    (0x4018 ≤ n → n ≤ 0x5FFF → r = (openBus, after)) ∧
    (0x6000 ≤ n → n ≤ 0x7FFF → r = (Memory.read s.prgRam (n - 0x6000), after)) ∧
    (0x8000 ≤ n → ∀ j : Fin 4, j.1 = (n - 0x8000) / 0x2000 →
      r = (Memory.read s.cart.prg (s.mapper.prgOff.get j + n % 0x2000), after)) ∧
    r.2.bus.lastRead = r.1

/-- Work RAM and cartridge RAM read back the last byte written, through every mirror, and a write leaves every other cell; the audio
registers hold the byte written; the expansion space and the PPU's status ignore a write; no write, not even one to the PRG
window, changes a byte of the cartridge (50_bus_devices.md R300, R302, R306-R309, R314; 52_ppu_registers.md R373). -/
def Obligations.MemoryReadsBackLastWrite : Prop :=
  ∀ (s : State) (a : Addr) (d : Byte), s.Inv →
    let n := a.toNat
    ∃ t, memWrite a d s = .ok t ∧ t.cart = s.cart ∧
      (isRam a → t = { s with ram := t.ram, prgRam := t.prgRam } ∧
        ∀ b, isMemory b → t.peek b = if sameCell b a then d else s.peek b) ∧
      (¬ isRam a → t.ram = s.ram ∧ t.prgRam = s.prgRam) ∧
      ((0x4000 ≤ n ∧ n ≤ 0x4013) ∨ n = 0x4015 ∨ n = 0x4017 → t = { s with apuReg := t.apuReg } ∧
        ∀ k, Memory.read t.apuReg k = if k = n - 0x4000 then d else Memory.read s.apuReg k) ∧
      (0x4018 ≤ n → n ≤ 0x5FFF → t = s) ∧
      (0x2000 ≤ n → n ≤ 0x3FFF → n % 8 = 2 → t = s)

/-- After the strobe is written 1 and then 0, the k-th read of a port returns button k of its mask, A first, and every read after the
eighth returns 1; while the strobe stays 1 every read returns button A; reading one port leaves the other
(50_bus_devices.md R310, R311; 10_state.md R32). -/
def Obligations.ControllerSerialReads : Prop :=
  ∀ (s : State) (k : Nat),
    let after (port : Addr) (s : State) : State := (fun s => (memRead port s).2)^[k] s
    let button (p : Port) (i : Nat) : Byte := bitByte (p.buttons.getLsbD i)
    ∃ t u, memWrite 0x4016 1 s = .ok t ∧ memWrite 0x4016 0 t = .ok u ∧
      (memRead 0x4016 (after 0x4016 u)).1 = (if k < 8 then button s.pad.port1 k else 1) ∧
      (memRead 0x4017 (after 0x4017 u)).1 = (if k < 8 then button s.pad.port2 k else 1) ∧
      (memRead 0x4016 (after 0x4017 u)).1 = button s.pad.port1 0 ∧
      (memRead 0x4017 (after 0x4016 u)).1 = button s.pad.port2 0 ∧
      (memRead 0x4016 (after 0x4016 t)).1 = button s.pad.port1 0 ∧
      (memRead 0x4017 (after 0x4017 t)).1 = button s.pad.port2 0

/-- A write of $4014 reads the page's 256 bytes in order, each an ordinary read with its effects, and writes each into object memory, from
the object-memory address on and around its end; it leaves that address, costs 513 cycles beside the instruction's, and changes no
register or flag. From a page of memory it changes nothing else but the open-bus latch, which holds the last byte read
(50_bus_devices.md R315, R316, R305). -/
def Obligations.ObjectMemoryDma : Prop :=
  ∀ (s : State) (page : Byte), Memory.wf s.ppu.oam = true → ∃ (t : State) (after : Nat → State), memWrite 0x4014 page s = .ok t ∧
    after 0 = s ∧
    (∀ i < 256,
      let r := memRead (wordOf page (BitVec.ofNat 8 i)) (after i)
      after (i + 1) = { r.2 with ppu := { r.2.ppu with
        oam := Memory.write r.2.ppu.oam (s.ppu.oamAddr + BitVec.ofNat 8 i).toNat r.1 } }) ∧
    t = { after 256 with cpu := { s.cpu with cycles := s.cpu.cycles + 513 } } ∧
    t.ppu.oamAddr = s.ppu.oamAddr ∧
    t.ram = s.ram ∧ t.prgRam = s.prgRam ∧ t.apuReg = s.apuReg ∧ t.mapper = s.mapper ∧ t.cart = s.cart ∧
    (isMemory (wordOf page 0) →
      (∀ i : Byte, Memory.read t.ppu.oam (s.ppu.oamAddr + i).toNat = s.peek (wordOf page i)) ∧
      t = { s with
        cpu := { s.cpu with cycles := s.cpu.cycles + 513 }
        bus := ⟨s.peek (wordOf page 0xFF)⟩
        ppu := { s.ppu with oam := t.ppu.oam } })

/-! ## Mappers (51_mappers.md) -/

/-- Mapping a bank: the requested index is masked with the bank count minus one, so it wraps modulo the count when that is a power of
two, and each 8KB (PRG) or 1KB (CHR) slot of the window gets its offset, reduced modulo the data; every other slot keeps its
offset. With CHR RAM a CHR mapping does nothing; with CHR ROM it is published: the PPU catches up, its copy follows the mapper's, and
a CHR_BANK event is recorded for each slot of the window (51_mappers.md R332, R334, R362; 53_ppu_timing_events.md R412). -/
def Obligations.BankArithmetic : Prop :=
  ∀ (s : State) (b : Nat),
    (∀ size ∈ [0x2000, 0x4000, 0x8000], ∀ j0 : Nat,
      let count := max 1 (s.cart.prgSize / size)
      mapPrg size j0 b s = { s with mapper := { s.mapper with prgOff := (mapPrg size j0 b s).mapper.prgOff } } ∧
      (∀ j : Fin 4, (mapPrg size j0 b s).mapper.prgOff.get j =
        if j0 ≤ j.1 ∧ j.1 < j0 + size / 0x2000 then
          ((b &&& (count - 1)) * size + (j.1 - j0) * 0x2000) % s.cart.prgSize
        else s.mapper.prgOff.get j) ∧
      (∀ k, s.cart.prgSize / size = 2 ^ k → j0 < 4 →
        ∀ j : Fin 4, j.1 = j0 → (mapPrg size j0 b s).mapper.prgOff.get j = (b % 2 ^ k) * size)) ∧
    (s.Inv → ∀ size ∈ [0x400, 0x800, 0x1000, 0x2000], ∀ j0 : Nat, j0 + size / 0x400 ≤ 8 →
      let count := max 1 (s.cart.chrSize / size)
      ∃ t, mapChr size j0 b s = .ok t ∧ t.ppu.chrOff = t.mapper.chrOff ∧ t.mapper.prgOff = s.mapper.prgOff ∧
        (s.cart.nChr = 0 → t = s) ∧
        (0 < s.cart.nChr → t.mapper = { s.mapper with chrOff := t.mapper.chrOff } ∧
          Published (bankChanges j0 (size / 0x400) t.mapper.chrOff) s t ∧
          ∀ j : Fin 8, t.mapper.chrOff.get j =
            if j0 ≤ j.1 ∧ j.1 < j0 + size / 0x400 then
              ((b &&& (count - 1)) * size + (j.1 - j0) * 0x400) % s.cart.chrSize
            else s.mapper.chrOff.get j))

/-- A write to the PRG window of NROM, UxROM, CNROM and AxROM: NROM ignores it; UxROM switches the 16KB bank at $8000 and keeps the one
at $C000; CNROM switches the 8KB CHR bank and, with CHR ROM, publishes it with eight CHR_BANK events; AxROM switches the 32KB PRG bank
and takes single-screen mirroring from bit 4, published with a MIRRORING event. Nothing else changes
(51_mappers.md R334, R340, R345, R350, R351; 10_state.md R45; 53_ppu_timing_events.md R412). -/
def Obligations.DiscreteMapperWrites : Prop :=
  ∀ (s : State) (a : Addr) (d : Byte), s.Inv → 0x8000 ≤ a.toNat →
    let c := s.cart
    let prg (size k : Nat) : Nat := (c.prgBase size d.toNat + k * 0x2000) % c.prgSize
    let chr (k : Nat) : Nat := (c.chrBase 0x2000 d.toNat + k * 0x400) % c.chrSize
    (c.variant = .nrom → memWrite a d s = .ok s) ∧
    (c.variant = .uxrom → memWrite a d s = .ok { s with mapper := { s.mapper with
      regs := .uxrom d
      prgOff := #v[prg 0x4000 0, prg 0x4000 1, s.mapper.prgOff[2], s.mapper.prgOff[3]] } }) ∧
    (c.variant = .cnrom → ∃ t, memWrite a d s = .ok t ∧ t.mapper = { s.mapper with
        regs := .cnrom d
        chrOff := if 0 < c.nChr then #v[chr 0, chr 1, chr 2, chr 3, chr 4, chr 5, chr 6, chr 7] else s.mapper.chrOff } ∧
      (0 < c.nChr → Published (bankChanges 0 8 t.mapper.chrOff) s t) ∧ (c.nChr = 0 → t = { s with mapper := t.mapper })) ∧
    (c.variant = .axrom → ∃ t, memWrite a d s = .ok t ∧ t.mapper = { s.mapper with
        prgOff := #v[prg 0x8000 0, prg 0x8000 1, prg 0x8000 2, prg 0x8000 3]
        mirroring := if d.getLsbD 4 then .single1 else .single0 } ∧
      Published [.mirroring t.mapper.mirroring] s t ∧ t.ppu.mirrorMask = if d.getLsbD 4 then 0x55 else 0x00)

/-- MMC1: four serial writes change nothing but the shift register; the fifth loads the register that its address selects with the five
bits written, the first one lowest, and applies the banking: PRG by `control[3:2]`, CHR by `control[4]`, mirroring by
`control[1:0]`, published with a MIRRORING event and, with CHR ROM, eight CHR_BANK events. A write with bit 7 set starts the sequence
again, sets PRG mode 3 and applies the banking (51_mappers.md R334, R352, R353; 53_ppu_timing_events.md R412). -/
def Obligations.Mmc1SerialLoad : Prop :=
  ∀ (s : State) (r : Mmc1) (a1 a2 a3 a4 a5 : Addr) (d1 d2 d3 d4 d5 : Byte), s.Inv → s.mapper.regs = .mmc1 r →
    (∀ a ∈ [a1, a2, a3, a4, a5], 0x8000 ≤ a.toNat) →
    let c := s.cart
    let prg (size b k : Nat) : Nat := (c.prgBase size b + k * 0x2000) % c.prgSize
    let chr (size b k : Nat) : Nat := (c.chrBase size b + k * 0x400) % c.chrSize
    let applied (r : Mmc1) (t : State) : Prop :=
      let bank := r.prgReg.toNat % 16
      let last := c.countP 0x4000 - 1
      let chr0 := r.chr0.toNat
      let chr1 := r.chr1.toNat
      t.mapper.regs = .mmc1 r ∧ t.mapper.irq = s.mapper.irq ∧
      Published (.mirroring t.mapper.mirroring :: if 0 < c.nChr then bankChanges 0 8 t.mapper.chrOff else []) s t ∧
      (c.nChr = 0 → t.mapper.chrOff = s.mapper.chrOff) ∧
      t.mapper.mirroring = (match r.control.toNat % 4 with
        | 0 => .single0
        | 1 => .single1
        | 2 => .vertical
        | _ => .horizontal) ∧
      t.mapper.prgOff = (match r.control.toNat / 4 % 4 with
        | 2 => #v[prg 0x4000 0 0, prg 0x4000 0 1, prg 0x4000 bank 0, prg 0x4000 bank 1]
        | 3 => #v[prg 0x4000 bank 0, prg 0x4000 bank 1, prg 0x4000 last 0, prg 0x4000 last 1]
        | _ => #v[prg 0x8000 (bank / 2) 0, prg 0x8000 (bank / 2) 1, prg 0x8000 (bank / 2) 2, prg 0x8000 (bank / 2) 3]) ∧
      (0 < c.nChr → t.mapper.chrOff = if r.control.toNat < 16 then
          #v[chr 0x2000 (chr0 / 2) 0, chr 0x2000 (chr0 / 2) 1, chr 0x2000 (chr0 / 2) 2, chr 0x2000 (chr0 / 2) 3,
            chr 0x2000 (chr0 / 2) 4, chr 0x2000 (chr0 / 2) 5, chr 0x2000 (chr0 / 2) 6, chr 0x2000 (chr0 / 2) 7]
        else #v[chr 0x1000 chr0 0, chr 0x1000 chr0 1, chr 0x1000 chr0 2, chr 0x1000 chr0 3,
          chr 0x1000 chr1 0, chr 0x1000 chr1 1, chr 0x1000 chr1 2, chr 0x1000 chr1 3])
    (d1.getLsbD 7 = true → ∃ t, memWrite a1 d1 s = .ok t ∧
      applied { r with shift := 0x10, control := r.control ||| 0x0C } t) ∧
    (r.shift = 0x10 → (∀ d ∈ [d1, d2, d3, d4, d5], d.getLsbD 7 = false) →
      let bit (d : Byte) : BitVec 1 := BitVec.ofBool (d.getLsbD 0)
      let value : BitVec 5 := bit d5 ++ bit d4 ++ bit d3 ++ bit d2 ++ bit d1
      ∃ t u v w x, memWrite a1 d1 s = .ok t ∧ memWrite a2 d2 t = .ok u ∧ memWrite a3 d3 u = .ok v ∧
        memWrite a4 d4 v = .ok w ∧ w = { s with mapper := { s.mapper with regs := w.mapper.regs } } ∧
        memWrite a5 d5 w = .ok x ∧ applied (match a5.toNat / 0x2000 % 4 with
          | 0 => { r with control := value }
          | 1 => { r with chr0 := value }
          | 2 => { r with chr1 := value }
          | _ => { r with prgReg := value }) x)

/-- MMC3: the eight rows of its register table, by `a & $E001`, and the banking after a bank write: PRG in 8KB units, with bit 6 of the
bank select exchanging the first and third windows, CHR in 1KB units, with bit 7 exchanging the halves. With CHR ROM a bank write is
published with eight CHR_BANK events, and a mirroring write with a MIRRORING event
(51_mappers.md R334, R355, R356, R361; 53_ppu_timing_events.md R412). -/
def Obligations.Mmc3Registers : Prop :=
  ∀ (s : State) (r : Mmc3) (a : Addr) (d : Byte), s.Inv → s.mapper.regs = .mmc3 r → 0x8000 ≤ a.toNat →
    let c := s.cart
    let row : Addr := a &&& 0xE001
    let kept (r : Mmc3) : State := { s with mapper := { s.mapper with regs := .mmc3 r } }
    let prg (b : Nat) : Nat := c.prgBase 0x2000 b % c.prgSize
    let chr (b : Byte) : Nat := c.chrBase 0x400 b.toNat % c.chrSize
    let banked (r : Mmc3) (t : State) : Prop :=
      let fixed := prg (c.countP 0x2000 - 2)
      let swapped := r.bankSelect.getLsbD 6
      let pairs := #v[chr (r.r[0] &&& 0xFE), chr (r.r[0] ||| 1), chr (r.r[1] &&& 0xFE), chr (r.r[1] ||| 1)]
      let singles := #v[chr r.r[2], chr r.r[3], chr r.r[4], chr r.r[5]]
      t.mapper = { s.mapper with
        regs := .mmc3 r
        prgOff := #v[if swapped then fixed else prg r.r[6].toNat, prg r.r[7].toNat,
          if swapped then prg r.r[6].toNat else fixed, prg (c.countP 0x2000 - 1)]
        chrOff := if 0 < c.nChr then (if r.bankSelect.getLsbD 7 then singles ++ pairs else pairs ++ singles)
          else s.mapper.chrOff } ∧
      (0 < c.nChr → Published (bankChanges 0 8 t.mapper.chrOff) s t) ∧ (c.nChr = 0 → t = { s with mapper := t.mapper })
    ∃ t, memWrite a d s = .ok t ∧
      (row = 0x8000 → banked { r with bankSelect := d } t) ∧
      (row = 0x8001 → banked { r with r := r.r.setIfInBounds (r.bankSelect.toNat % 8) d } t) ∧
      (row = 0xA000 → t.mapper = { s.mapper with mirroring := if d.getLsbD 0 then .horizontal else .vertical } ∧
        Published [.mirroring t.mapper.mirroring] s t) ∧
      (row = 0xA001 → t = s) ∧
      (row = 0xC000 → t = kept { r with irqLatch := d }) ∧
      (row = 0xC001 → t = kept { r with irqCounter := 0, irqReload := true }) ∧
      (row = 0xE000 → t = { s with
        mapper := { s.mapper with regs := .mmc3 { r with irqEnable := false }, irq := false }
        cpu := { s.cpu with irqLines := { s.cpu.irqLines with mapper := false } } }) ∧
      (row = 0xE001 → t = kept { r with irqEnable := true })

/-- The MMC3 scanline counter. A clock reloads a counter found at 0 or asked to reload, and counts any other down; with the counter enabled
the request and the CPU's MAPPER line rise at a clock that leaves it at 0, and a raised request stays. So after a reload the request
rises `latch` clocks later and not before; with the counter disabled no number of clocks raises it; and the other variants have no
counter (51_mappers.md R360, R361). -/
def Obligations.Mmc3ScanlineCounter : Prop :=
  ∀ (s : State) (r : Mmc3) (k : Nat),
    let reloads := r.irqReload = true ∨ r.irqCounter = 0
    let counted : Mmc3 := { r with
      irqCounter := if reloads then r.irqLatch else r.irqCounter - 1
      irqReload := if reloads then false else r.irqReload }
    let fires : Bool := r.irqEnable && decide (counted.irqCounter = 0)
    let t := mmc3Clock^[k + 1] s
    (s.mapper.regs = .mmc3 r → mmc3Clock s = { s with
      mapper := { s.mapper with regs := .mmc3 counted, irq := s.mapper.irq || fires }
      cpu := { s.cpu with irqLines := { s.cpu.irqLines with mapper := s.cpu.irqLines.mapper || fires } } }) ∧
    (s.mapper.regs = .mmc3 r → reloads → k ≤ r.irqLatch.toNat → s.mapper.irq = false → s.cpu.irqLines.mapper = false →
      t.mapper.regs = .mmc3 { r with irqCounter := r.irqLatch - BitVec.ofNat 8 k, irqReload := false } ∧
      t.mapper.irq = (r.irqEnable && decide (k = r.irqLatch.toNat)) ∧ t.cpu.irqLines.mapper = t.mapper.irq ∧
      t = { s with
        mapper := { s.mapper with regs := t.mapper.regs, irq := t.mapper.irq }
        cpu := { s.cpu with irqLines := { s.cpu.irqLines with mapper := t.mapper.irq } } }) ∧
    (s.mapper.regs = .mmc3 r → r.irqEnable = false → t = { s with mapper := { s.mapper with regs := t.mapper.regs } }) ∧
    ((∀ q, s.mapper.regs ≠ .mmc3 q) → t = s)

/-! ## The PPU's address space and registers (20_memory.md, 52_ppu_registers.md) -/

/-- Folding: for every mirroring mode a nametable quadrant goes to the page that the mode's table gives, and the palette repeats every
32 bytes with `$10/$14/$18/$1C` on `$00/$04/$08/$0C`. A pattern address reads CHR ROM through its 1KB bank, or CHR RAM. Each
address reads back the last byte written to its cell, through every mirror, and CHR ROM ignores a write
(20_memory.md R90-R94). -/
def Obligations.PpuAddressSpace : Prop :=
  ∀ (cart : Cart) (p : Ppu) (m : Mirroring) (a b : PAddr) (d : Byte), Memory.wf p.vram = true → p.mirrorMask = m.mask →
    let n := a.toNat
    let q := n / 0x400 % 4
    let page : Nat := match m with
      | .horizontal => q / 2
      | .vertical => q % 2
      | .single0 => 0
      | .single1 => 1
    let i := n % 0x20
    let sameCell := if n < 0x2000 then b = a ∧ cart.nChr = 0 else 0x2000 ≤ b.toNat ∧ fold m.mask b = fold m.mask a
    (0x2000 ≤ n → fold m.mask a =
      if 0x3F00 ≤ n then 0x3F00 + (if i % 4 = 0 then i % 16 else i) else 0x2000 + 0x400 * page + n % 0x400) ∧
    (n < 0x2000 → ∀ j : Fin 8, j.1 = n / 0x400 → p.read cart a =
      if cart.nChr = 0 then Memory.read p.vram n else Memory.read cart.chr (p.chrOff.get j + n % 0x400)) ∧
    (0x2000 ≤ n → p.read cart a = Memory.read p.vram (fold m.mask a)) ∧
    p.write cart a d = { p with vram := (p.write cart a d).vram } ∧
    ((sameCell → (p.write cart a d).read cart b = d) ∧ (¬ sameCell → (p.write cart a d).read cart b = p.read cart b))

/-- The registers beside the control and scroll registers. `$2002` returns VBLANK and HIT in bits 7 and 6 and clears VBLANK and the
toggle; `$2004` reads and writes object memory at its address, and only the write moves the address; `$2007` moves `v` by 1 or 32,
is buffered below the palette and direct in it; the write-only registers read as 0; a write of `$2002` does nothing
(52_ppu_registers.md R370, R373-R377, R380-R382, R385). -/
def Obligations.StatusObjectAndDataPorts : Prop :=
  ∀ (s : State) (a : Addr) (d : Byte), 0x2000 ≤ a.toNat → a.toNat ≤ 0x3FFF →
    let r := a.toNat % 8
    let p := s.ppu
    let caught := catchUpIfVisible p
    let address : PAddr := caught.v.setWidth 14
    let next : Loopy := caught.v + (if p.ctrl.getLsbD 2 then 32 else 1)
    let got := memRead a s
    let left (q : Ppu) : State := { s with ppu := q, bus := ⟨got.1⟩ }
    (r = 2 → got = ((if p.vblank then 0x80 else 0) ||| (if p.hit then 0x40 else 0), left { p with vblank := false, w := false })) ∧
    (r = 4 → got = (Memory.read p.oam p.oamAddr.toNat, left p)) ∧
    (r = 7 → address.toNat < 0x3F00 → got = (p.readBuf, left { caught with readBuf := p.read s.cart address, v := next })) ∧
    (r = 7 → 0x3F00 ≤ address.toNat → got = (p.read s.cart address,
      left { caught with readBuf := p.read s.cart (address - 0x1000), v := next })) ∧
    (r = 0 ∨ r = 1 ∨ r = 3 ∨ r = 5 ∨ r = 6 → got = (0, left p)) ∧
    (r = 2 → memWrite a d s = .ok s) ∧
    (r = 3 → memWrite a d s = .ok { s with ppu := { p with oamAddr := d } }) ∧
    (r = 4 → memWrite a d s = .ok { s with
      ppu := { p with oam := Memory.write p.oam p.oamAddr.toNat d, oamAddr := p.oamAddr + 1 } }) ∧
    (r = 7 → memWrite a d s = .ok { s with ppu := { caught with vram := (p.write s.cart address d).vram, v := next } })

/-- The control, mask, scroll and address registers, after the catch-up: `$2000` sets the nametable bits of `t`, and of `v` in a rendered
frame; `$2005` sets the horizontal scroll, and `v`'s in a rendered frame, then the vertical scroll of `t`; `$2006` sets the high six
bits of `t`, clearing its top bit, then the low byte and `v`; both share one toggle; the events are those of the rules, at the
target line (52_ppu_registers.md R371, R372, R378, R379, R383, R386; 53_ppu_timing_events.md R411). -/
def Obligations.ControlAndScrollWrites : Prop :=
  ∀ (s : State) (a : Addr) (d : Byte), s.Inv → 0x2000 ≤ a.toNat → a.toNat ≤ 0x3FFF →
    let r := a.toNat % 8
    let p := catchUpIfVisible s.ppu
    let inFrame := (p.mask.getLsbD 3 ∨ p.mask.getLsbD 4) ∧ (p.line ≤ 239 ∨ p.line = 261)
    let line := if p.line ≤ 239 then p.line + 1 else 0
    let d15 : Loopy := d.setWidth 15
    let nt (u : Loopy) : Loopy := u &&& 0x73FF#15 ||| (d15 &&& 3#15) <<< 10
    let first : Loopy := p.t &&& 0x7FE0#15 ||| d15 >>> 3
    let second : Loopy := p.t &&& 0x0C1F#15 ||| (d15 &&& 7#15) <<< 12 ||| (d15 &&& 0xF8#15) <<< 2
    let high : Loopy := p.t &&& 0x00FF#15 ||| (d15 &&& 0x3F#15) <<< 8
    let low : Loopy := p.t &&& 0x7F00#15 ||| d15
    let scroll (q : Ppu) : Change := .scroll (q.v.setWidth 18 ||| q.x.setWidth 18 <<< 15)
    ∃ q, memWrite a d s = .ok { s with ppu := q } ∧
      (r = 0 → q = { p with ctrl := d, t := nt p.t, v := if inFrame then nt p.v else p.v, nextQ := q.nextQ } ∧
        Recorded line [.ctrl d, scroll q] p.nextQ q.nextQ) ∧
      (r = 1 → q = { p with mask := d, nextQ := q.nextQ } ∧ Recorded line [.mask d] p.nextQ q.nextQ) ∧
      (r = 5 → p.w = false → q = { p with
          t := first
          x := d.setWidth 3
          v := if inFrame then p.v &&& 0x7BE0#15 ||| first &&& 0x041F#15 else p.v
          w := true
          nextQ := q.nextQ } ∧ Recorded line [scroll q] p.nextQ q.nextQ) ∧
      (r = 5 → p.w = true → q = { p with t := second, w := false, nextQ := q.nextQ } ∧
        Recorded line [scroll q] p.nextQ q.nextQ) ∧
      (r = 6 → p.w = false → q = { p with t := high, w := true }) ∧
      (r = 6 → p.w = true → q = { p with t := low, v := low, w := false, nextQ := q.nextQ } ∧
        Recorded line [scroll q] p.nextQ q.nextQ)

/-! ## The PPU's timing and events (53_ppu_timing_events.md) -/

/-- The vertical increment adds 1 to fine Y below 7; at 7 it clears it and adds 1 to coarse Y, but from 29 coarse Y goes to 0 with the
vertical nametable bit toggled, and from 31 to 0 without. It never changes the horizontal bits, and 240 of them bring a row below 240
back to itself with the nametable bit toggled. A catch-up moves `v` and `t` alike, by the lines since
the last one while rendering and not otherwise, and catching up twice is catching up once
(52_ppu_registers.md R384; 53_ppu_timing_events.md R413). -/
def Obligations.ScrollCatchUp : Prop :=
  (∀ u : Loopy,
    let fineY := u.toNat / 0x1000
    let coarseY := u.toNat / 32 % 32
    (fineY < 7 → (Loopy.incY u).toNat = u.toNat + 0x1000) ∧
    (fineY = 7 → coarseY = 29 → Loopy.incY u = (u ^^^ 0x0800#15) &&& 0x0C1F#15) ∧
    (fineY = 7 → coarseY = 31 → Loopy.incY u = u &&& 0x0C1F#15) ∧
    (fineY = 7 → coarseY ≠ 29 → coarseY ≠ 31 → (Loopy.incY u).toNat + 0x7000 = u.toNat + 32)) ∧
  (∀ u : Loopy, Loopy.incY u &&& 0x041F#15 = u &&& 0x041F#15) ∧
  (∀ u : Loopy, u.toNat / 32 % 32 < 30 → Loopy.incY^[240] u = u ^^^ 0x0800) ∧
  (∀ p : Ppu, p.line ≤ 239 →
    let k := if p.mask.getLsbD 3 ∨ p.mask.getLsbD 4 then p.line + 1 - p.liveLine else 0
    catchUpIfVisible p = { p with v := Loopy.incY^[k] p.v, t := Loopy.incY^[k] p.t, liveLine := p.line + 1 }) ∧
  (∀ p : Ppu, 240 ≤ p.line → catchUpIfVisible p = p) ∧
  (∀ (p : Ppu) (later : Nat), p.liveLine ≤ p.line + 1 → p.line ≤ later → later ≤ 239 →
    catchUpIfVisible { catchUpIfVisible p with line := later } = catchUpIfVisible { p with line := later })

/-- Recording an event: it is in the queue, replaces an event of the same line, kind and bank, and leaves every other event; the queue
stays sorted, without END, with distinct keys and targets up to the current one, and holds at most 2,892 events. With a capacity of
2,893 or more it cannot overflow; with a smaller one it faults when the arena is full
(53_ppu_timing_events.md R411, R414, R418). -/
def Obligations.EventQueueRecording : Prop :=
  ∀ (p : Ppu) (c : Change) (capacity : Nat), c ≠ .stop →
    let line := if p.line ≤ 239 then p.line + 1 else 0
    (QueueOk line p.nextQ → 2893 ≤ capacity → ∃ q, record capacity c p = .ok { p with nextQ := q } ∧
      Recorded line [c] p.nextQ q ∧ QueueOk line q ∧ q.length ≤ 2892) ∧
    (capacity ≤ p.nextQ.length + 1 → (∀ e ∈ p.nextQ, e.hasKey line c = false) →
      record capacity c p = .error .eventQueueOverflow)

/-- One dot of the PPU. Between line boundaries only the dot counter changes. At a boundary the line advances, the MMC3 counter is
clocked when a rendered line is left, and then: at line 240 VBLANK is set, the queue with its sentinel is frozen, the baselines
move on, the frame is counted, an NMI is requested if enabled, the frame is rendered, and the callback is called, which can change
only the buttons, the pause bit and its own remaining calls; at line 261 VBLANK and HIT are cleared, `v` takes `t` while rendering,
and a scroll event is recorded; at a visible line the sprite-zero check runs
(53_ppu_timing_events.md R400-R404, R425; 55_console_host.md R472). -/
def Obligations.LineBoundaries : Prop :=
  ∀ s : State, s.Inv →
    let p := s.ppu
    let line := (p.line + 1) % 262
    let rendering := p.mask.getLsbD 3 ∨ p.mask.getLsbD 4
    let clocked : State := if rendering ∧ (p.line ≤ 239 ∨ p.line = 261) then mmc3Clock s else s
    let called := callVblank s
    ∃ t, tickDot s = .ok t ∧
      ((p.dots + 1) % 341 ≠ 0 → t = { s with ppu := { p with dots := p.dots + 1 } }) ∧
      ((p.dots + 1) % 341 = 0 →
        (line = 240 → t = callVblank { clocked with
          cpu := { clocked.cpu with nmiPending := s.cpu.nmiPending || p.ctrl.getLsbD 7 }
          ppu := render s.cart { p with
            dots := p.dots + 1
            line := 240
            vblank := true
            curQ := p.nextQ ++ [⟨240, .stop⟩]
            nextQ := []
            renderBase := p.frameBase
            frameBase := ⟨p.ctrl, p.mask, p.v, p.x, p.chrOff, p.mirroring⟩
            liveLine := 0
            frame := p.frame + 1 } }) ∧
        (line = 261 → t = { clocked with ppu := { p with
            dots := p.dots + 1
            line := 261
            vblank := false
            hit := false
            v := if rendering then p.t else p.v
            liveLine := 0
            nextQ := t.ppu.nextQ } } ∧
          Recorded 0 [.scroll (t.ppu.v.setWidth 18 ||| p.x.setWidth 18 <<< 15)] p.nextQ t.ppu.nextQ) ∧
        (240 < line → line < 261 → t = { clocked with ppu := { p with dots := p.dots + 1, line := line } }) ∧
        (line ≤ 239 → t = { clocked with ppu := { p with
          dots := p.dots + 1
          line := line
          hit := p.hit || spriteZeroHits s.cart line p } })) ∧
      (s.console.vblankCallback = none → called = s) ∧
      called = { s with
        cpu := { s.cpu with paused := called.cpu.paused }
        pad := ⟨⟨called.pad.port1.buttons, s.pad.port1.shift⟩, ⟨called.pad.port2.buttons, s.pad.port2.shift⟩, s.pad.strobe⟩
        console := { s.console with vblankCallback := called.console.vblankCallback } }

/-- The frame counter: `n` dots of the advance pass vertical blank once for every 81,840th dot of an 89,342-dot frame among them, so one
frame's dots, from any point, enter it exactly once and come back to the same line
(53_ppu_timing_events.md R400-R402, R405). -/
def Obligations.VblankOncePerFrame : Prop :=
  ∀ (s : State) (n : Nat), s.Inv → ∃ t u, advanceDots n s = .ok t ∧ t.Inv ∧ t.ppu.dots = s.ppu.dots + n ∧
    t.ppu.line = (s.ppu.dots + n) / 341 % 262 ∧
    t.ppu.frame + (s.ppu.dots + 7502) / 89342 = s.ppu.frame + (s.ppu.dots + n + 7502) / 89342 ∧
    advanceDots (262 * 341) s = .ok u ∧ u.ppu.frame = s.ppu.frame + 1 ∧ u.ppu.line = s.ppu.line

/-- The sprite-zero hit: it is set at a line exactly when both layers are enabled, sprite 0 covers the line, its column is at most 254,
and it has an opaque row at or above that line; once set it stays, and reading the status does not clear it. A sprite's rows are
the pattern bytes at the addresses of the rule, for 8x8 and 8x16 sprites and the vertical flip
(53_ppu_timing_events.md R425-R428). -/
def Obligations.SpriteZeroHit : Prop :=
  (∀ (cart : Cart) (p : Ppu) (line : Nat),
    let y := (Memory.read p.oam 0).toNat
    let tile := Memory.read p.oam 1
    let attr := Memory.read p.oam 2
    let h := if p.ctrl.getLsbD 5 then 16 else 8
    let row (r : Nat) := spriteRow cart p.vram p.chrOff p.ctrl tile attr h r
    ((spriteZeroCheck cart line p).hit = true ↔ p.hit = true ∨
      (p.mask.getLsbD 3 = true ∧ p.mask.getLsbD 4 = true ∧ y + 1 ≤ line ∧ line < y + 1 + h ∧
        (Memory.read p.oam 3).toNat ≤ 254 ∧ ∃ r ≤ line - (y + 1), (row r).1 ≠ 0 ∨ (row r).2 ≠ 0)) ∧
    spriteZeroCheck cart line p = { p with hit := (spriteZeroCheck cart line p).hit }) ∧
  (∀ (s : State) (a : Addr), (memRead a s).2.ppu.hit = s.ppu.hit) ∧
  (∀ (cart : Cart) (vram : Memory) (chrOff : Vector Nat 8) (ctrl tile attr : Byte) (h r : Nat), (h = 8 ∨ h = 16) → r < h →
    let pr := if attr.getLsbD 7 then h - 1 - r else r
    let address : Nat := if h = 8 then (if ctrl.getLsbD 3 then 0x1000 else 0) + 16 * tile.toNat + pr
      else 0x1000 * (tile.toNat % 2) + 16 * (tile.toNat / 2 * 2 + pr / 8) + pr % 8
    spriteRow cart vram chrOff ctrl tile attr h r =
      (patRead cart vram chrOff (BitVec.ofNat 13 address), patRead cart vram chrOff (BitVec.ofNat 13 (address + 8))))

/-! ## The renderer (54_ppu_renderer.md) -/

/-- A pixel of a line. The background: the tile at the scroll's row and at the column `x + px` to the right of its start, in the next
nametable past coarse X 31, its attribute bits, and the two bit planes of its row; 0 where the colour is 0, where the layer is off or
where the left columns are hidden. The sprites: the lowest-numbered one with an opaque pixel, by its column, its row and its flips; it
shows in front of the background, or behind it only where the background is 0. So an index is a backdrop 0, a background 1-15 or a
sprite 17-31 whose low two bits are not both 0, 0 with both layers disabled, and the greyscale and emphasis bits of the mask and the
other bits of the control byte change nothing (54_ppu_renderer.md R442-R448, R450). -/
def Obligations.PixelIndexes : Prop :=
  ∀ (cart : Cart) (vram oam : Memory) (w : Snapshot) (line px : Nat) (mask ctrl : Byte),
    let n := (pixel cart vram oam w line px).toNat
    let v := w.v.toNat
    let column := w.x.toNat + px
    let cx := (v % 32 + column / 8) % 32
    let nx := (v / 0x400 + (v % 32 + column / 8) / 32) % 2
    let cy := v / 32 % 32
    let ny := v / 0x800 % 2
    let fy := v / 0x1000
    let cell (address : Nat) : Nat := (Memory.read vram (fold w.mirroring.mask (BitVec.ofNat 14 address))).toNat
    let tile := cell (0x2000 + 0x800 * ny + 0x400 * nx + 32 * cy + cx)
    let attrByte := cell (0x23C0 + 0x800 * ny + 0x400 * nx + 8 * (cy / 4) + cx / 4)
    let palette := attrByte / 2 ^ (4 * (cy / 2 % 2) + 2 * (cx / 2 % 2)) % 4
    let pattern (address : Nat) : Byte := patRead cart vram w.chrOff (BitVec.ofNat 13 address)
    let base := (if w.ctrl.getLsbD 4 then 0x1000 else 0) + 16 * tile + fy
    let colour (lo hi : Byte) (b : Nat) : Nat := 2 * (hi.getLsbD b).toNat + (lo.getLsbD b).toNat
    let c := colour (pattern base) (pattern (base + 8)) (7 - column % 8)
    let background :=
      if w.mask.getLsbD 3 = false ∨ (px < 8 ∧ w.mask.getLsbD 1 = false) ∨ c = 0 then 0 else 4 * palette + c
    let height := if w.ctrl.getLsbD 5 then 16 else 8
    let attr (i : Nat) : Byte := Memory.read oam (4 * i + 2)
    let top (i : Nat) := (Memory.read oam (4 * i)).toNat + 1
    let left (i : Nat) := (Memory.read oam (4 * i + 3)).toNat
    let spriteColour (i : Nat) : Nat :=
      if top i ≤ line ∧ line < top i + height ∧ left i ≤ px ∧ px ≤ left i + 7 then
        let row := spriteRow cart vram w.chrOff w.ctrl (Memory.read oam (4 * i + 1)) (attr i) height (line - top i)
        colour row.1 row.2 (if (attr i).getLsbD 6 then px - left i else 7 - (px - left i))
      else 0
    let sprites := w.mask.getLsbD 4 = true ∧ (8 ≤ px ∨ w.mask.getLsbD 2 = true)
    (¬ sprites → n = background) ∧
    ((∀ i < 64, spriteColour i = 0) → n = background) ∧
    (∀ i < 64, sprites → spriteColour i ≠ 0 → (∀ j < i, spriteColour j = 0) →
      n = if background = 0 ∨ (attr i).getLsbD 5 = false then 16 + 4 * ((attr i).toNat % 4) + spriteColour i else background) ∧
    (n < 32 ∧ (n % 4 = 0 → n = 0)) ∧
    (w.mask &&& 0x18 = 0 → n = 0) ∧
    (w.mask &&& 0x08 = 0 → n = 0 ∨ 17 ≤ n) ∧
    (w.mask &&& 0x10 = 0 → n < 16) ∧
    (mask &&& 0x1E = w.mask &&& 0x1E → ctrl &&& 0x38 = w.ctrl &&& 0x38 →
      pixel cart vram oam { w with mask := mask, ctrl := ctrl } line px = pixel cart vram oam w line px)

/-- The replay of a frame. The working copy starts as the baseline; a line is drawn with the working copy after every event of its line, in
order, each writing the field of its kind; and the copy moves down one row to the next line while it renders. So a change takes effect
from its target line on and not above it, and events of one line all come before it is drawn. The final pass turns each index into the
low six bits of its palette entry (54_ppu_renderer.md R441, R443, R449; 53_ppu_timing_events.md R410). -/
def Obligations.RasterEffect : Prop :=
  ∀ (cart : Cart) (p : Ppu) (queue : List Event) (line px : Nat), QueueOk 240 queue → p.curQ = queue ++ [⟨240, .stop⟩] →
    line < 240 → px < 256 →
    let change (w : Snapshot) (e : Event) : Snapshot := match e.change with
      | .ctrl d => { w with ctrl := d }
      | .mask d => { w with mask := d }
      | .scroll value => { w with v := value.setWidth 15, x := (value >>> 15).setWidth 3 }
      | .chrBank i off => { w with chrOff := w.chrOff.setIfInBounds i.1 off }
      | .mirroring m => { w with mirroring := m }
      | .stop => w
    let applied (l : Nat) (w : Snapshot) : Snapshot := (queue.filter fun e => e.line = l).foldl change w
    let down (n : Nat) (w : Snapshot) : Snapshot :=
      if w.mask.getLsbD 3 ∨ w.mask.getLsbD 4 then { w with v := Loopy.incY^[n] w.v } else w
    let drawn (l : Nat) (w : Snapshot) : Prop :=
      let index := pixel cart p.vram p.oam w l px
      Memory.read (render cart p).index (256 * l + px) = index ∧
      Memory.read (render cart p).frameOut (256 * l + px) =
        (Memory.read p.vram (0x3F00 + (if index.toNat % 4 = 0 then index.toNat % 16 else index.toNat))).setWidth 6
    (∃ working : Nat → Snapshot, working 0 = applied 0 p.renderBase ∧
      (∀ l, working (l + 1) = applied (l + 1) (down 1 (working l))) ∧ drawn line (working line)) ∧
    (∀ e, queue = [e] → drawn line
      (if line < e.line then down line p.renderBase else down (line - e.line) (change (down e.line p.renderBase) e)))

/-- Rendering is a function of the baseline, the frozen queue, video RAM, object memory and CHR data: two PPUs that agree on those
render the same index buffer and the same colours, whatever else they hold, the buffers included; and rendering changes
nothing but the two buffers (54_ppu_renderer.md R440, R441, R452). -/
def Obligations.RenderDeterminism : Prop :=
  ∀ (cart : Cart) (p q : Ppu) (queue : List Event), QueueOk 240 queue → p.curQ = queue ++ [⟨240, .stop⟩] → q.curQ = p.curQ →
    q.renderBase = p.renderBase → q.vram = p.vram → q.oam = p.oam →
    (render cart q).index = (render cart p).index ∧ (render cart q).frameOut = (render cart p).frameOut ∧
    render cart q = { q with index := (render cart p).index, frameOut := (render cart p).frameOut }

/-! ## Reset and the console (70_reset_and_hazards.md, 55_console_host.md) -/

/-- The console's reset of a loaded machine: the CPU's registers and PC from the reset vector, every memory, register, counter, queue and
buffer of the machine at zero or empty, the mapper at its variant's power-on registers and mapping, mirroring as the header says
(single-screen 0 for AxROM), both baselines the state after it, and the buttons, the pause bit, the callbacks and the cartridge
kept. Without a cartridge it does nothing (70_reset_and_hazards.md R530, R531; 10_state.md R60; 51_mappers.md R335-R357;
55_console_host.md R487). -/
def Obligations.SystemReset : Prop :=
  ∀ s : State, s.Inv →
    let c := s.cart
    let last := 0x4000 * (c.nPrg - 1)
    (s.console.loaded = false → consoleReset s = .next s) ∧
    (s.console.loaded = true → ∃ t, consoleReset s = .next t ∧ t.Inv ∧
      t = { s with
        cpu := { t.cpu with
          a := 0, x := 0, y := 0, sp := 0xFD, pc := wordOf (t.peek 0xFFFD) (t.peek 0xFFFC)
          n := false, v := false, d := false, i := true, z := false, c := false
          nmiPending := false, irqLines := ⟨false, false⟩, cycles := 0, paused := s.cpu.paused }
        ram := [], prgRam := [], apuReg := []
        bus := ⟨t.peek 0xFFFD⟩
        pad := ⟨⟨s.pad.port1.buttons, 0⟩, ⟨s.pad.port2.buttons, 0⟩, false⟩
        mapper := t.mapper
        ppu := { t.ppu with
          ctrl := 0, mask := 0, vblank := false, hit := false, oamAddr := 0, v := 0, t := 0, x := 0, w := false
          readBuf := 0, vram := [], oam := [], mirroring := t.mapper.mirroring, chrOff := t.mapper.chrOff
          dots := 0, line := 0, frame := 0, nextQ := [], curQ := [], liveLine := 0, index := [], frameOut := []
          frameBase := ⟨0, 0, 0, 0, t.mapper.chrOff, t.mapper.mirroring⟩
          renderBase := ⟨0, 0, 0, 0, t.mapper.chrOff, t.mapper.mirroring⟩ } } ∧
      t.mapper.irq = false ∧
      t.mapper.regs = (match c.variant with
        | .nrom => .nrom
        | .mmc1 => .mmc1 ⟨0x10, if c.headerMode = .vertical then 0x0E else 0x0F, 0, 0, 0⟩
        | .uxrom => .uxrom 0
        | .cnrom => .cnrom 0
        | .mmc3 => .mmc3 ⟨0, #v[0, 2, 4, 5, 6, 7, 0, 1], 0, 0, false, false⟩
        | .axrom => .axrom) ∧
      t.mapper.mirroring = (if c.variant = .axrom then .single0 else c.headerMode) ∧
      t.mapper.prgOff = (match c.variant with
        | .mmc1 | .uxrom | .mmc3 => #v[0, 0x2000, last, last + 0x2000]
        | _ => #v[0, 0x2000, 0x4000 % c.prgSize, 0x6000 % c.prgSize]) ∧
      (0 < c.nChr → t.mapper.chrOff = #v[0, 0x400, 0x800, 0xC00, 0x1000, 0x1400, 0x1800, 0x1C00]))

/-- Loading a ROM image: it fails with the reasons of the rule, in its order, and otherwise installs the image's PRG and CHR data, its
variant and its header mode, and the machine is loaded, not paused, and reset, with its callbacks, buttons and parameters kept. That a
cell beyond the data reads as 0 is the model's (log entry 13) (55_console_host.md R480-R483; 70_reset_and_hazards.md R531, R532). -/
def Obligations.RomLoading : Prop :=
  ∀ (image : List Byte) (s : State), s.Inv →
    let byte (i : Nat) : Byte := image.getD i 0
    let number := ((byte 7 &&& 0xF0) ||| (byte 6 >>> 4)).toNat
    let nPrg := (byte 4).toNat
    let nChr := (byte 5).toNat
    let prgStart := 16 + (if (byte 6).getLsbD 2 then 512 else 0)
    let chrStart := prgStart + 16384 * nPrg
    let badMagic := image.length < 16 ∨ ¬ (byte 0 = 0x4E ∧ byte 1 = 0x45 ∧ byte 2 = 0x53 ∧ byte 3 = 0x1A)
    let variants : List (Nat × Variant) := [(0, .nrom), (1, .mmc1), (2, .uxrom), (3, .cnrom), (4, .mmc3), (7, .axrom)]
    (badMagic → loadRom image s = .error .badMagic) ∧
    (¬ badMagic → number ∉ s.cfg.registeredMappers → loadRom image s = .error (.unsupportedMapper number)) ∧
    (¬ badMagic → number ∈ s.cfg.registeredMappers → nPrg = 0 → loadRom image s = .error .noPrg) ∧
    (¬ badMagic → number ∈ s.cfg.registeredMappers → 0 < nPrg → image.length < chrStart + 8192 * nChr →
      loadRom image s = .error .truncated) ∧
    (¬ badMagic → number ∈ s.cfg.registeredMappers → 0 < nPrg → chrStart + 8192 * nChr ≤ image.length →
      ∃ t, loadRom image s = .ok (.next t) ∧ t.Inv ∧
        (number, t.cart.variant) ∈ variants ∧ t.cart.nPrg = nPrg ∧ t.cart.nChr = nChr ∧
        t.cart.headerMode = (if (byte 6).getLsbD 0 then .vertical else .horizontal) ∧
        (∀ k, Memory.read t.cart.prg k = if k < 16384 * nPrg then byte (prgStart + k) else 0) ∧
        (∀ k, Memory.read t.cart.chr k = if k < 8192 * nChr then byte (chrStart + k) else 0) ∧
        t.console = { s.console with loaded := true } ∧ t.cpu.paused = false ∧ t.cfg = s.cfg ∧
        t.pad = ⟨⟨s.pad.port1.buttons, 0⟩, ⟨s.pad.port2.buttons, 0⟩, false⟩ ∧
        t.cpu.pc = wordOf (t.peek 0xFFFD) (t.peek 0xFFFC) ∧ consoleReset t = .next t)

/-- A save state, loaded into any machine with the same cartridge installed, restores every register, flag, counter, memory and mapper
binding; the queues are empty, both baselines are the snapshot of the loaded state, the buffers and the callbacks are those of the
machine it was loaded into. Two clauses are the model's choice: the counters must fit their fields of the blob (DEDUCED, log entry 11),
and with CHR ROM the pattern area of video RAM, which the blob does not hold, stays that of the machine loaded into (DEDUCED, log
entry 9) (55_console_host.md R488-R490). -/
def Obligations.SaveThenLoadRestores : Prop :=
  ∀ s u : State, s.Inv → u.Inv → s.console.loaded = true → u.cart = s.cart →
    s.cpu.cycles < 2 ^ 64 → s.ppu.dots < 2 ^ 64 → s.ppu.frame < 2 ^ 32 →
    let base : Snapshot := ⟨s.ppu.ctrl, s.ppu.mask, s.ppu.v, s.ppu.x, s.ppu.chrOff, s.ppu.mirroring⟩
    ∃ b t, save s = .ok b ∧ loadState b u = some t ∧
      t = { s with
        console := u.console
        cfg := u.cfg
        ppu := { s.ppu with
          vram := t.ppu.vram
          nextQ := []
          curQ := []
          frameBase := base
          renderBase := base
          index := u.ppu.index
          frameOut := u.ppu.frameOut } } ∧
      (s.cart.nChr = 0 → t.ppu.vram = s.ppu.vram) ∧
      (0 < s.cart.nChr → ∀ k, Memory.read t.ppu.vram k =
        if k < 0x2000 then Memory.read u.ppu.vram k else Memory.read s.ppu.vram k)

/-! ## The whole machine -/

/-- The invariant holds in the state after power-on, which is the model's choice where the spec makes no state observable (log
entry 1; 70_reset_and_hazards.md R532). -/
def Obligations.ResetInvariant : Prop := State.reset.Inv

/-- Every step keeps the invariant, from every state that meets it: memories canonical and inside their sizes, PRG and CHR offsets multiples
of their units inside the data, the PPU's copies of the mapper's state equal to it, the line the dots say, the queues sorted with
distinct keys, the parameters legal; and no step changes the cartridge or the parameters, or unloads the machine
(51_mappers.md R333, R334; 53_ppu_timing_events.md R400, R414, R418; 10_state.md R53). -/
def Obligations.StepKeepsInvariant : Prop :=
  ∀ s t : State, s.Inv → step s = .next t → t.Inv ∧ t.cart = s.cart ∧ t.cfg = s.cfg ∧ t.console.loaded = s.console.loaded

/-- A loaded machine never stops: with the hardware's policy for undefined opcodes every step from a state that meets the invariant
answers a next state, whatever the bytes at PC, takes at least 2 cycles, and moves the PPU by three dots for every cycle
(55_console_host.md R471, R474; 46_undefined_opcodes.md R260, R262; 53_ppu_timing_events.md R400). -/
def Obligations.StepNeverStops : Prop :=
  ∀ s : State, s.Inv → s.cfg.undefinedOpcode = .nop → s.console.loaded = true →
    ∃ t, step s = .next t ∧ t.Inv ∧ t.console.loaded = true ∧ s.cpu.cycles + 2 ≤ t.cpu.cycles ∧
      t.ppu.dots = s.ppu.dots + 3 * (t.cpu.cycles - s.cpu.cycles)

/-- A batch of `n` cycles: unloaded, paused or with `n` at most 0 it changes nothing; otherwise, with no breakpoint callback or one that only
answers continue, it ends with at least `n` cycles consumed, in the state of a step from a state that had consumed fewer. An answer stop
ends it before its next step; an answer continue lets one step run, and the batch goes on with the cycles that are left. A callback is
the list of its answers to come, each with an optional pause, which is the model's choice (DESIGN CHOICE, log entry 5)
(55_console_host.md R470, R473, R474). -/
def Obligations.BatchReachesItsCycles : Prop :=
  ∀ (s : State) (n : Int), s.Inv → s.cfg.undefinedOpcode = .nop →
    let asked (pause : Option Bool) (rest : List BreakpointAnswer) : State := { s with
      cpu := { s.cpu with paused := pause.getD s.cpu.paused }
      console := { s.console with breakpointCallback := some ⟨rest⟩ } }
    (s.console.loaded = false ∨ s.cpu.paused = true ∨ n ≤ 0 → runCycles n s = .next s) ∧
    (s.console.loaded = true → s.cpu.paused = false → 0 < n →
      (∀ script, s.console.breakpointCallback = some script → ∀ answer ∈ script.answers, answer.stop = false) →
      ∃ r t : State, runCycles n s = .next t ∧ t.Inv ∧ step r = .next t ∧ r.Inv ∧ s.cpu.cycles ≤ r.cpu.cycles ∧
        (r.cpu.cycles - s.cpu.cycles : Int) < n ∧ n ≤ (t.cpu.cycles - s.cpu.cycles : Int)) ∧
    (∀ pause rest, s.console.loaded = true → s.cpu.paused = false → 0 < n →
      s.console.breakpointCallback = some ⟨⟨true, pause⟩ :: rest⟩ → runCycles n s = .next (asked pause rest)) ∧
    (∀ pause rest, s.console.loaded = true → s.cpu.paused = false → 0 < n →
      s.console.breakpointCallback = some ⟨⟨false, pause⟩ :: rest⟩ →
      ∃ t, step (asked pause rest) = .next t ∧
        (n ≤ (t.cpu.cycles - s.cpu.cycles : Int) → runCycles n s = .next t) ∧
        ((t.cpu.cycles - s.cpu.cycles : Int) < n → t.cpu.paused = false →
          runCycles n s = runCycles (n - (t.cpu.cycles - s.cpu.cycles)) t))
end

