-- ==== Sys2Proof/Laws/Bits.lean ====
section
/-! SUPPORT. Laws of the bit fields: words of two bytes, stack addresses, the fields of the loopy registers, and SCROLL
values. Each field is a quotient and a remainder, so equations between fields are linear arithmetic. -/

namespace Sys2Proof

theorem toNat_append_eq {m n : Nat} (a : BitVec m) (b : BitVec n) : (a ++ b).toNat = a.toNat * 2 ^ n + b.toNat := by
  rw [BitVec.toNat_append, ← Nat.shiftLeft_add_eq_or_of_lt b.isLt, Nat.shiftLeft_eq]

theorem toNat_extract_eq {m : Nat} (s l : Nat) (a : BitVec m) : (a.extractLsb' s l).toNat = a.toNat / 2 ^ s % 2 ^ l := by
  rw [BitVec.extractLsb'_toNat, Nat.shiftRight_eq_div_pow]

theorem toNat_wordOf (h l : Byte) : (wordOf h l).toNat = 256 * h.toNat + l.toNat := by
  have := toNat_append_eq h l
  simp only [wordOf]
  omega

theorem toNat_hiByte (a : Addr) : (hiByte a).toNat = a.toNat / 256 := by
  have := toNat_extract_eq 8 8 a
  have := a.isLt
  simp only [hiByte]
  omega

theorem toNat_loByte (a : Addr) : (loByte a).toNat = a.toNat % 256 := by
  simp [loByte]

@[simp] theorem hiByte_wordOf (h l : Byte) : hiByte (wordOf h l) = h := by
  apply BitVec.eq_of_toNat_eq
  have := l.isLt
  rw [toNat_hiByte, toNat_wordOf]
  omega

@[simp] theorem loByte_wordOf (h l : Byte) : loByte (wordOf h l) = l := by
  apply BitVec.eq_of_toNat_eq
  have := l.isLt
  rw [toNat_loByte, toNat_wordOf]
  omega

@[simp] theorem wordOf_hiByte_loByte (a : Addr) : wordOf (hiByte a) (loByte a) = a := by
  apply BitVec.eq_of_toNat_eq
  rw [toNat_wordOf, toNat_hiByte, toNat_loByte]
  omega

theorem toNat_stackAddr (sp : Byte) : (stackAddr sp).toNat = 256 + sp.toNat := by
  simp [stackAddr, toNat_wordOf]

@[simp] theorem toNat_zext16 (b : Byte) : (zext16 b).toNat = b.toNat := by
  simp [zext16]
  omega

theorem stackAddr_lt (sp : Byte) : (stackAddr sp).toNat < 0x2000 := by
  have := sp.isLt; have := toNat_stackAddr sp; omega

theorem zext16_lt (b : Byte) : (zext16 b).toNat < 0x2000 := by
  have := b.isLt; simp; omega

theorem toNat_scrollValue (v : Loopy) (x : BitVec 3) : (scrollValue v x).toNat = x.toNat * 32768 + v.toNat :=
  toNat_append_eq x v

@[simp] theorem scrollV_scrollValue (v : Loopy) (x : BitVec 3) : scrollV (scrollValue v x) = v := by
  apply BitVec.eq_of_toNat_eq
  have := toNat_scrollValue v x
  simp only [scrollV, BitVec.toNat_setWidth]
  omega

@[simp] theorem scrollX_scrollValue (v : Loopy) (x : BitVec 3) : scrollX (scrollValue v x) = x := by
  apply BitVec.eq_of_toNat_eq
  have := toNat_scrollValue v x
  have := toNat_extract_eq 15 3 (scrollValue v x)
  simp only [scrollX]
  omega

namespace Loopy

variable (f : BitVec 3) (n m : BitVec 1) (c d : BitVec 5) (u v : Loopy)

theorem toNat_fy : (fy u).toNat = u.toNat / 4096 := by
  have := toNat_extract_eq 12 3 u; have := u.isLt; simp only [fy]; omega

theorem toNat_ny : (ny u).toNat = u.toNat / 2048 % 2 := by
  have := toNat_extract_eq 11 1 u; simp only [ny]; omega

theorem toNat_nx : (nx u).toNat = u.toNat / 1024 % 2 := by
  have := toNat_extract_eq 10 1 u; simp only [nx]; omega

theorem toNat_cy : (cy u).toNat = u.toNat / 32 % 32 := by
  have := toNat_extract_eq 5 5 u; simp only [cy]; omega

theorem toNat_cx : (cx u).toNat = u.toNat % 32 := by
  have := toNat_extract_eq 0 5 u; simp only [cx]; omega

theorem toNat_ofFields : (ofFields f n m c d).toNat =
    f.toNat * 4096 + n.toNat * 2048 + m.toNat * 1024 + c.toNat * 32 + d.toNat := by
  have h1 := toNat_append_eq f n
  have h2 := toNat_append_eq (f ++ n) m
  have h3 := toNat_append_eq (f ++ n ++ m) c
  have h4 := toNat_append_eq (f ++ n ++ m ++ c) d
  simp only [ofFields]
  omega

@[simp] theorem fy_ofFields : fy (ofFields f n m c d) = f := by
  apply BitVec.eq_of_toNat_eq
  have := toNat_ofFields f n m c d; have := f.isLt; have := n.isLt; have := m.isLt; have := c.isLt; have := d.isLt
  rw [toNat_fy]; omega

@[simp] theorem ny_ofFields : ny (ofFields f n m c d) = n := by
  apply BitVec.eq_of_toNat_eq
  have := toNat_ofFields f n m c d; have := f.isLt; have := n.isLt; have := m.isLt; have := c.isLt; have := d.isLt
  rw [toNat_ny]; omega

@[simp] theorem nx_ofFields : nx (ofFields f n m c d) = m := by
  apply BitVec.eq_of_toNat_eq
  have := toNat_ofFields f n m c d; have := f.isLt; have := n.isLt; have := m.isLt; have := c.isLt; have := d.isLt
  rw [toNat_nx]; omega

@[simp] theorem cy_ofFields : cy (ofFields f n m c d) = c := by
  apply BitVec.eq_of_toNat_eq
  have := toNat_ofFields f n m c d; have := f.isLt; have := n.isLt; have := m.isLt; have := c.isLt; have := d.isLt
  rw [toNat_cy]; omega

@[simp] theorem cx_ofFields : cx (ofFields f n m c d) = d := by
  apply BitVec.eq_of_toNat_eq
  have := toNat_ofFields f n m c d; have := f.isLt; have := n.isLt; have := m.isLt; have := c.isLt; have := d.isLt
  rw [toNat_cx]; omega

@[simp] theorem ofFields_fields : ofFields (fy u) (ny u) (nx u) (cy u) (cx u) = u := by
  apply BitVec.eq_of_toNat_eq
  rw [toNat_ofFields, toNat_fy, toNat_ny, toNat_nx, toNat_cy, toNat_cx]
  omega

/-- Two loopy values with equal fields are equal. -/
theorem ext_fields {u v : Loopy} (h1 : fy u = fy v) (h2 : ny u = ny v) (h3 : nx u = nx v) (h4 : cy u = cy v)
    (h5 : cx u = cx v) : u = v := by
  rw [← ofFields_fields u, ← ofFields_fields v, h1, h2, h3, h4, h5]

/-- `incY` never changes CX (52_ppu_registers.md R384). -/
@[simp] theorem cx_incY : cx (incY u) = cx u := by
  unfold incY setFy
  repeat' split
  all_goals simp

/-- `incY` never changes NX (52_ppu_registers.md R384). -/
@[simp] theorem nx_incY : nx (incY u) = nx u := by
  unfold incY setFy
  repeat' split
  all_goals simp

end Loopy
end Sys2Proof
end

