-- ==== Sys2Proof/Laws/Memory.lean ====
section
/-! SUPPORT. Laws of memories: read after write, and that every operation that makes a memory keeps its canonical form and its
size. -/

namespace Sys2Proof.Machine.Memory

variable {w : Nat}

/-- A memory whose listed addresses all lie above `a` reads 0 at `a`. -/
theorem read_eq_zero_of_lt {m : Cells w} {a : Nat} (h : ∀ c ∈ m, a < c.1) : read m a = 0 := by
  induction m with
  | nil => rfl
  | cons c rest ih =>
    obtain ⟨k, b⟩ := c
    have hk : a < k := h (k, b) (by simp)
    simp [read, Nat.ne_of_lt hk, ih fun c hc => h c (by simp [hc])]

theorem wf_cons {k : Nat} {b : BitVec w} {rest : Cells w} :
    wf ((k, b) :: rest) = true ↔ b ≠ 0 ∧ (∀ c ∈ rest, k < c.1) ∧ wf rest = true := by
  simp [wf, and_assoc]

/-- Reading any address after a write: the value written there, the old cell elsewhere. -/
theorem read_write {m : Cells w} (h : wf m = true) (a : Nat) (b : BitVec w) (x : Nat) :
    read (write m a b) x = if x = a then b else read m x := by
  induction m with
  | nil =>
    by_cases hb : b = 0#w <;> by_cases hx : x = a <;> simp [write, read, hb, hx]
  | cons c rest ih =>
    obtain ⟨k, d⟩ := c
    obtain ⟨hd, hlt, hrest⟩ := wf_cons.1 h
    simp only [write]
    split
    · next hak =>
      have h0 : x = a → read ((k, d) :: rest) x = 0 := fun hx => read_eq_zero_of_lt (by
        intro c hc
        rcases List.mem_cons.1 hc with rfl | hc
        · omega
        · have := hlt c hc; omega)
      split
      · next hb => split <;> simp_all
      · simp [read]
    · split
      · next hak =>
        subst hak
        split
        · next hb =>
          by_cases hx : x = a
          · simp [hx, hb, read_eq_zero_of_lt hlt]
          · simp [read, hx]
        · by_cases hx : x = a <;> simp [read, hx]
      · by_cases hx : x = k
        · have : x ≠ a := by omega
          simp [read, hx]; omega
        · simp only [read, hx, if_false]
          exact ih hrest

@[simp] theorem read_write_self {m : Cells w} (h : wf m = true) (a : Nat) (b : BitVec w) :
    read (write m a b) a = b := by simp [read_write h]

theorem read_write_ne {m : Cells w} (h : wf m = true) {a x : Nat} (hx : x ≠ a) (b : BitVec w) :
    read (write m a b) x = read m x := by simp [read_write h, hx]

theorem mem_write {m : Cells w} {a : Nat} {b : BitVec w} {c : Nat × BitVec w} (h : c ∈ write m a b) :
    c = (a, b) ∨ c ∈ m := by
  induction m with
  | nil => simp only [write] at h; split at h <;> simp_all
  | cons d rest ih =>
    obtain ⟨k, e⟩ := d
    simp only [write] at h
    split at h
    · split at h <;> simp_all
    · split at h
      · split at h <;> simp_all
        tauto
      · rcases List.mem_cons.1 h with rfl | h
        · simp
        · rcases ih h with h | h <;> simp [h]

/-- A write keeps the canonical form. -/
theorem wf_write {m : Cells w} (h : wf m = true) (a : Nat) (b : BitVec w) : wf (write m a b) = true := by
  induction m with
  | nil => simp only [write]; split <;> simp_all [wf]
  | cons c rest ih =>
    obtain ⟨k, d⟩ := c
    obtain ⟨hd, hlt, hrest⟩ := wf_cons.1 h
    simp only [write]
    split
    · split
      · exact h
      · refine wf_cons.2 ⟨‹_›, ?_, h⟩
        intro c hc
        rcases List.mem_cons.1 hc with rfl | hc
        · assumption
        · have := hlt c hc; omega
    · split
      · split
        · exact hrest
        · subst_vars; exact wf_cons.2 ⟨‹_›, hlt, hrest⟩
      · refine wf_cons.2 ⟨hd, ?_, ih hrest⟩
        intro c hc
        rcases mem_write hc with rfl | hc
        · simp only []; omega
        · exact hlt c hc

theorem within_iff {size : Nat} {m : Cells w} : within size m = true ↔ ∀ c ∈ m, c.1 < size := by
  simp [within]

theorem within_write {size : Nat} {m : Cells w} (h : within size m = true) {a : Nat} (ha : a < size)
    (b : BitVec w) : within size (write m a b) = true := by
  rw [within_iff] at *
  intro c hc
  rcases mem_write hc with rfl | hc
  · exact ha
  · exact h c hc

/-- A write inside the memory keeps it a canonical memory of its size. -/
theorem Ok.write {size : Nat} {m : Cells w} (h : Ok size m) {a : Nat} (ha : a < size) (b : BitVec w) :
    Ok size (Memory.write m a b) :=
  ⟨wf_write h.canonical a b, within_write h.inside ha b⟩

theorem Ok.nil (size : Nat) : Ok size ([] : Cells w) := ⟨rfl, rfl⟩

theorem mem_ofList {k : Nat} {l : List (BitVec w)} {c : Nat × BitVec w} (h : c ∈ ofList k l) :
    k ≤ c.1 ∧ c.1 < k + l.length := by
  induction l generalizing k with
  | nil => simp [ofList] at h
  | cons b rest ih =>
    simp only [ofList] at h
    split at h
    · have := ih h; simp; omega
    · rcases List.mem_cons.1 h with rfl | h
      · simp
      · have := ih h; simp; omega

theorem wf_ofList (k : Nat) (l : List (BitVec w)) : wf (ofList k l) = true := by
  induction l generalizing k with
  | nil => rfl
  | cons b rest ih =>
    simp only [ofList]
    split
    · exact ih _
    · exact wf_cons.2 ⟨‹_›, fun c hc => by have := mem_ofList hc; omega, ih _⟩

/-- A list of values gives a canonical memory. -/
theorem ok_ofList {size k : Nat} {l : List (BitVec w)} (h : k + l.length ≤ size) : Ok size (ofList k l) :=
  ⟨wf_ofList k l, within_iff.2 fun _ hc => by have := mem_ofList hc; omega⟩

/-- Reading a memory made from a list. -/
theorem read_ofList (k : Nat) (l : List (BitVec w)) (a : Nat) :
    read (ofList k l) a = if k ≤ a then l.getD (a - k) 0 else 0 := by
  induction l generalizing k with
  | nil => simp [ofList, read]
  | cons b rest ih =>
    simp only [ofList]
    by_cases hak : a = k
    · subst hak
      split
      · next hb => rw [ih]; simp [hb]
      · simp [read]
    · have hlt : k ≤ a → a - k = (a - (k + 1)) + 1 := by omega
      by_cases hle : k ≤ a
      · have h1 : k + 1 ≤ a := by omega
        split
        · rw [ih]; simp [h1, hlt hle]
        · simp [read, hak, ih, h1, hlt hle]
      · have h1 : ¬ k + 1 ≤ a := by omega
        split
        · rw [ih]; simp [h1]
        · simp [read, hak, ih, h1]

/-- A tabulated memory is canonical. -/
theorem ok_tabulate (n : Nat) (f : Nat → BitVec w) : Ok n (tabulate n f) := ok_ofList (by simp)

/-- Reading a tabulated memory. -/
theorem read_tabulate (n : Nat) (f : Nat → BitVec w) (a : Nat) :
    read (tabulate n f) a = if a < n then f a else 0 := by
  simp only [tabulate, read_ofList, Nat.zero_le, if_true, Nat.sub_zero]
  split
  · next h => simp [List.getD, h]
  · next h => simp [List.getD, List.getElem?_eq_none (l := (List.range n).map f) (i := a) (by simpa using h)]

/-- Two canonical memories that read alike everywhere are one memory. -/
theorem ext {m n : Cells w} (hm : wf m = true) (hn : wf n = true) (h : ∀ a, read m a = read n a) : m = n := by
  induction m generalizing n with
  | nil =>
    cases n with
    | nil => rfl
    | cons c rest =>
      obtain ⟨k, b⟩ := c
      exact absurd (h k) (by simpa [read] using (wf_cons.1 hn).1.symm)
  | cons c rest ih =>
    obtain ⟨k, b⟩ := c
    obtain ⟨hb, hlt, hrest⟩ := wf_cons.1 hm
    cases n with
    | nil => exact absurd (h k) (by simpa [read] using hb)
    | cons d rest' =>
      obtain ⟨k', b'⟩ := d
      obtain ⟨hb', hlt', hrest'⟩ := wf_cons.1 hn
      have hkk : k = k' := by
        rcases Nat.lt_trichotomy k k' with hc | hc | hc
        · refine absurd (h k) ?_
          rw [read_eq_zero_of_lt (m := (k', b') :: rest')]
          · simpa [read] using hb
          · intro c hmem
            rcases List.mem_cons.1 hmem with rfl | hmem
            · exact hc
            · have := hlt' c hmem; omega
        · exact hc
        · refine absurd (h k') ?_
          rw [read_eq_zero_of_lt (m := (k, b) :: rest)]
          · simpa [read] using hb'.symm
          · intro c hmem
            rcases List.mem_cons.1 hmem with rfl | hmem
            · exact hc
            · have := hlt c hmem; omega
      subst hkk
      have hbb : b = b' := by simpa [read] using h k
      subst hbb
      congr 1
      refine ih hrest hrest' fun a => ?_
      by_cases ha : a = k
      · subst ha
        rw [read_eq_zero_of_lt hlt, read_eq_zero_of_lt hlt']
      · simpa [read, ha] using h a

/-- A memory rebuilt from the list of all its cells is itself. -/
theorem ofList_toList {size : Nat} {m : Cells w} (h : Ok size m) : ofList 0 (toList m 0 size) = m := by
  refine ext (wf_ofList _ _) h.canonical fun a => ?_
  rw [read_ofList]
  simp only [Nat.zero_le, if_true, Nat.sub_zero, toList, Nat.zero_add]
  by_cases ha : a < size
  · simp [List.getD, ha]
  · have hn : (List.range size)[a]? = none := List.getElem?_eq_none (by simpa using ha)
    have h0 : read m a = 0 := by
      have hall := within_iff.1 h.inside
      clear h hn
      induction m with
      | nil => rfl
      | cons c rest ih =>
        obtain ⟨k, b⟩ := c
        have hk : k < size := hall (k, b) (by simp)
        simp only [read]
        rw [if_neg (by omega), ih fun c hc => hall c (by simp [hc])]
    simp [List.getD, hn, h0]

@[simp] theorem length_toList (m : Cells w) (k n : Nat) : (toList m k n).length = n := by simp [toList]

end Sys2Proof.Machine.Memory
end

