-- ==== Sys2Proof/Laws/State.lean ====
section
/-! SUPPORT. One lemma per field per named update of the state, each true by definition, so that no proof unfolds a record
update. -/

namespace Sys2Proof.Machine

variable (s : State) (c : Cpu) (p : Ppu) (a : Addr) (n : Nat) (r : MapperRegs)


/-! ## `State.withCpu` -/

@[simp] theorem withCpu_cpu : (s.withCpu c).cpu = c := rfl
@[simp] theorem withCpu_ram : (s.withCpu c).ram = s.ram := rfl
@[simp] theorem withCpu_prgRam : (s.withCpu c).prgRam = s.prgRam := rfl
@[simp] theorem withCpu_bus : (s.withCpu c).bus = s.bus := rfl
@[simp] theorem withCpu_pad : (s.withCpu c).pad = s.pad := rfl
@[simp] theorem withCpu_apuReg : (s.withCpu c).apuReg = s.apuReg := rfl
@[simp] theorem withCpu_mapper : (s.withCpu c).mapper = s.mapper := rfl
@[simp] theorem withCpu_ppu : (s.withCpu c).ppu = s.ppu := rfl
@[simp] theorem withCpu_console : (s.withCpu c).console = s.console := rfl
@[simp] theorem withCpu_cart : (s.withCpu c).cart = s.cart := rfl
@[simp] theorem withCpu_cfg : (s.withCpu c).cfg = s.cfg := rfl

/-! ## `State.withPpu` -/

@[simp] theorem withPpu_cpu : (s.withPpu p).cpu = s.cpu := rfl
@[simp] theorem withPpu_ram : (s.withPpu p).ram = s.ram := rfl
@[simp] theorem withPpu_prgRam : (s.withPpu p).prgRam = s.prgRam := rfl
@[simp] theorem withPpu_bus : (s.withPpu p).bus = s.bus := rfl
@[simp] theorem withPpu_pad : (s.withPpu p).pad = s.pad := rfl
@[simp] theorem withPpu_apuReg : (s.withPpu p).apuReg = s.apuReg := rfl
@[simp] theorem withPpu_mapper : (s.withPpu p).mapper = s.mapper := rfl
@[simp] theorem withPpu_ppu : (s.withPpu p).ppu = p := rfl
@[simp] theorem withPpu_console : (s.withPpu p).console = s.console := rfl
@[simp] theorem withPpu_cart : (s.withPpu p).cart = s.cart := rfl
@[simp] theorem withPpu_cfg : (s.withPpu p).cfg = s.cfg := rfl

/-! ## `setPc` -/

@[simp] theorem setPc_ram : (setPc a s).ram = s.ram := rfl
@[simp] theorem setPc_prgRam : (setPc a s).prgRam = s.prgRam := rfl
@[simp] theorem setPc_bus : (setPc a s).bus = s.bus := rfl
@[simp] theorem setPc_pad : (setPc a s).pad = s.pad := rfl
@[simp] theorem setPc_apuReg : (setPc a s).apuReg = s.apuReg := rfl
@[simp] theorem setPc_mapper : (setPc a s).mapper = s.mapper := rfl
@[simp] theorem setPc_ppu : (setPc a s).ppu = s.ppu := rfl
@[simp] theorem setPc_console : (setPc a s).console = s.console := rfl
@[simp] theorem setPc_cart : (setPc a s).cart = s.cart := rfl
@[simp] theorem setPc_cfg : (setPc a s).cfg = s.cfg := rfl
@[simp] theorem setPc_cpu_a : (setPc a s).cpu.a = s.cpu.a := rfl
@[simp] theorem setPc_cpu_x : (setPc a s).cpu.x = s.cpu.x := rfl
@[simp] theorem setPc_cpu_y : (setPc a s).cpu.y = s.cpu.y := rfl
@[simp] theorem setPc_cpu_sp : (setPc a s).cpu.sp = s.cpu.sp := rfl
@[simp] theorem setPc_cpu_pc : (setPc a s).cpu.pc = a := rfl
@[simp] theorem setPc_cpu_n : (setPc a s).cpu.n = s.cpu.n := rfl
@[simp] theorem setPc_cpu_v : (setPc a s).cpu.v = s.cpu.v := rfl
@[simp] theorem setPc_cpu_d : (setPc a s).cpu.d = s.cpu.d := rfl
@[simp] theorem setPc_cpu_i : (setPc a s).cpu.i = s.cpu.i := rfl
@[simp] theorem setPc_cpu_z : (setPc a s).cpu.z = s.cpu.z := rfl
@[simp] theorem setPc_cpu_c : (setPc a s).cpu.c = s.cpu.c := rfl
@[simp] theorem setPc_cpu_nmiPending : (setPc a s).cpu.nmiPending = s.cpu.nmiPending := rfl
@[simp] theorem setPc_cpu_irqLines : (setPc a s).cpu.irqLines = s.cpu.irqLines := rfl
@[simp] theorem setPc_cpu_cycles : (setPc a s).cpu.cycles = s.cpu.cycles := rfl
@[simp] theorem setPc_cpu_paused : (setPc a s).cpu.paused = s.cpu.paused := rfl

/-! ## `charge` -/

@[simp] theorem charge_ram : (charge n s).ram = s.ram := rfl
@[simp] theorem charge_prgRam : (charge n s).prgRam = s.prgRam := rfl
@[simp] theorem charge_bus : (charge n s).bus = s.bus := rfl
@[simp] theorem charge_pad : (charge n s).pad = s.pad := rfl
@[simp] theorem charge_apuReg : (charge n s).apuReg = s.apuReg := rfl
@[simp] theorem charge_mapper : (charge n s).mapper = s.mapper := rfl
@[simp] theorem charge_ppu : (charge n s).ppu = s.ppu := rfl
@[simp] theorem charge_console : (charge n s).console = s.console := rfl
@[simp] theorem charge_cart : (charge n s).cart = s.cart := rfl
@[simp] theorem charge_cfg : (charge n s).cfg = s.cfg := rfl
@[simp] theorem charge_cpu_a : (charge n s).cpu.a = s.cpu.a := rfl
@[simp] theorem charge_cpu_x : (charge n s).cpu.x = s.cpu.x := rfl
@[simp] theorem charge_cpu_y : (charge n s).cpu.y = s.cpu.y := rfl
@[simp] theorem charge_cpu_sp : (charge n s).cpu.sp = s.cpu.sp := rfl
@[simp] theorem charge_cpu_pc : (charge n s).cpu.pc = s.cpu.pc := rfl
@[simp] theorem charge_cpu_n : (charge n s).cpu.n = s.cpu.n := rfl
@[simp] theorem charge_cpu_v : (charge n s).cpu.v = s.cpu.v := rfl
@[simp] theorem charge_cpu_d : (charge n s).cpu.d = s.cpu.d := rfl
@[simp] theorem charge_cpu_i : (charge n s).cpu.i = s.cpu.i := rfl
@[simp] theorem charge_cpu_z : (charge n s).cpu.z = s.cpu.z := rfl
@[simp] theorem charge_cpu_c : (charge n s).cpu.c = s.cpu.c := rfl
@[simp] theorem charge_cpu_nmiPending : (charge n s).cpu.nmiPending = s.cpu.nmiPending := rfl
@[simp] theorem charge_cpu_irqLines : (charge n s).cpu.irqLines = s.cpu.irqLines := rfl
@[simp] theorem charge_cpu_cycles : (charge n s).cpu.cycles = s.cpu.cycles + n := rfl
@[simp] theorem charge_cpu_paused : (charge n s).cpu.paused = s.cpu.paused := rfl

/-! ## `setRegs` -/

@[simp] theorem setRegs_cpu : (setRegs r s).cpu = s.cpu := rfl
@[simp] theorem setRegs_ram : (setRegs r s).ram = s.ram := rfl
@[simp] theorem setRegs_prgRam : (setRegs r s).prgRam = s.prgRam := rfl
@[simp] theorem setRegs_bus : (setRegs r s).bus = s.bus := rfl
@[simp] theorem setRegs_pad : (setRegs r s).pad = s.pad := rfl
@[simp] theorem setRegs_apuReg : (setRegs r s).apuReg = s.apuReg := rfl
@[simp] theorem setRegs_ppu : (setRegs r s).ppu = s.ppu := rfl
@[simp] theorem setRegs_console : (setRegs r s).console = s.console := rfl
@[simp] theorem setRegs_cart : (setRegs r s).cart = s.cart := rfl
@[simp] theorem setRegs_cfg : (setRegs r s).cfg = s.cfg := rfl
@[simp] theorem setRegs_mapper_regs : (setRegs r s).mapper.regs = r := rfl
@[simp] theorem setRegs_mapper_prgOff : (setRegs r s).mapper.prgOff = s.mapper.prgOff := rfl
@[simp] theorem setRegs_mapper_chrOff : (setRegs r s).mapper.chrOff = s.mapper.chrOff := rfl
@[simp] theorem setRegs_mapper_mirroring : (setRegs r s).mapper.mirroring = s.mapper.mirroring := rfl
@[simp] theorem setRegs_mapper_irq : (setRegs r s).mapper.irq = s.mapper.irq := rfl

/-! ## `mapPrg` -/

@[simp] theorem mapPrg_cpu (size j0 b : Nat) : (mapPrg size j0 b s).cpu = s.cpu := rfl
@[simp] theorem mapPrg_ram (size j0 b : Nat) : (mapPrg size j0 b s).ram = s.ram := rfl
@[simp] theorem mapPrg_prgRam (size j0 b : Nat) : (mapPrg size j0 b s).prgRam = s.prgRam := rfl
@[simp] theorem mapPrg_bus (size j0 b : Nat) : (mapPrg size j0 b s).bus = s.bus := rfl
@[simp] theorem mapPrg_pad (size j0 b : Nat) : (mapPrg size j0 b s).pad = s.pad := rfl
@[simp] theorem mapPrg_apuReg (size j0 b : Nat) : (mapPrg size j0 b s).apuReg = s.apuReg := rfl
@[simp] theorem mapPrg_ppu (size j0 b : Nat) : (mapPrg size j0 b s).ppu = s.ppu := rfl
@[simp] theorem mapPrg_console (size j0 b : Nat) : (mapPrg size j0 b s).console = s.console := rfl
@[simp] theorem mapPrg_cart (size j0 b : Nat) : (mapPrg size j0 b s).cart = s.cart := rfl
@[simp] theorem mapPrg_cfg (size j0 b : Nat) : (mapPrg size j0 b s).cfg = s.cfg := rfl
@[simp] theorem mapPrg_mapper_regs (size j0 b : Nat) : (mapPrg size j0 b s).mapper.regs = s.mapper.regs := rfl
@[simp] theorem mapPrg_mapper_prgOff (size j0 b : Nat) : (mapPrg size j0 b s).mapper.prgOff = mapPrgOff s.cart size j0 b s.mapper.prgOff := rfl
@[simp] theorem mapPrg_mapper_chrOff (size j0 b : Nat) : (mapPrg size j0 b s).mapper.chrOff = s.mapper.chrOff := rfl
@[simp] theorem mapPrg_mapper_mirroring (size j0 b : Nat) : (mapPrg size j0 b s).mapper.mirroring = s.mapper.mirroring := rfl
@[simp] theorem mapPrg_mapper_irq (size j0 b : Nat) : (mapPrg size j0 b s).mapper.irq = s.mapper.irq := rfl

/-! ## `raiseMapperIrq` -/

@[simp] theorem raiseMapperIrq_ram : (raiseMapperIrq s).ram = s.ram := rfl
@[simp] theorem raiseMapperIrq_prgRam : (raiseMapperIrq s).prgRam = s.prgRam := rfl
@[simp] theorem raiseMapperIrq_bus : (raiseMapperIrq s).bus = s.bus := rfl
@[simp] theorem raiseMapperIrq_pad : (raiseMapperIrq s).pad = s.pad := rfl
@[simp] theorem raiseMapperIrq_apuReg : (raiseMapperIrq s).apuReg = s.apuReg := rfl
@[simp] theorem raiseMapperIrq_ppu : (raiseMapperIrq s).ppu = s.ppu := rfl
@[simp] theorem raiseMapperIrq_console : (raiseMapperIrq s).console = s.console := rfl
@[simp] theorem raiseMapperIrq_cart : (raiseMapperIrq s).cart = s.cart := rfl
@[simp] theorem raiseMapperIrq_cfg : (raiseMapperIrq s).cfg = s.cfg := rfl
@[simp] theorem raiseMapperIrq_cpu_a : (raiseMapperIrq s).cpu.a = s.cpu.a := rfl
@[simp] theorem raiseMapperIrq_cpu_x : (raiseMapperIrq s).cpu.x = s.cpu.x := rfl
@[simp] theorem raiseMapperIrq_cpu_y : (raiseMapperIrq s).cpu.y = s.cpu.y := rfl
@[simp] theorem raiseMapperIrq_cpu_sp : (raiseMapperIrq s).cpu.sp = s.cpu.sp := rfl
@[simp] theorem raiseMapperIrq_cpu_pc : (raiseMapperIrq s).cpu.pc = s.cpu.pc := rfl
@[simp] theorem raiseMapperIrq_cpu_n : (raiseMapperIrq s).cpu.n = s.cpu.n := rfl
@[simp] theorem raiseMapperIrq_cpu_v : (raiseMapperIrq s).cpu.v = s.cpu.v := rfl
@[simp] theorem raiseMapperIrq_cpu_d : (raiseMapperIrq s).cpu.d = s.cpu.d := rfl
@[simp] theorem raiseMapperIrq_cpu_i : (raiseMapperIrq s).cpu.i = s.cpu.i := rfl
@[simp] theorem raiseMapperIrq_cpu_z : (raiseMapperIrq s).cpu.z = s.cpu.z := rfl
@[simp] theorem raiseMapperIrq_cpu_c : (raiseMapperIrq s).cpu.c = s.cpu.c := rfl
@[simp] theorem raiseMapperIrq_cpu_nmiPending : (raiseMapperIrq s).cpu.nmiPending = s.cpu.nmiPending := rfl
@[simp] theorem raiseMapperIrq_cpu_irqLines : (raiseMapperIrq s).cpu.irqLines = ⟨true, s.cpu.irqLines.external⟩ := rfl
@[simp] theorem raiseMapperIrq_cpu_cycles : (raiseMapperIrq s).cpu.cycles = s.cpu.cycles := rfl
@[simp] theorem raiseMapperIrq_cpu_paused : (raiseMapperIrq s).cpu.paused = s.cpu.paused := rfl
@[simp] theorem raiseMapperIrq_mapper_regs : (raiseMapperIrq s).mapper.regs = s.mapper.regs := rfl
@[simp] theorem raiseMapperIrq_mapper_prgOff : (raiseMapperIrq s).mapper.prgOff = s.mapper.prgOff := rfl
@[simp] theorem raiseMapperIrq_mapper_chrOff : (raiseMapperIrq s).mapper.chrOff = s.mapper.chrOff := rfl
@[simp] theorem raiseMapperIrq_mapper_mirroring : (raiseMapperIrq s).mapper.mirroring = s.mapper.mirroring := rfl
@[simp] theorem raiseMapperIrq_mapper_irq : (raiseMapperIrq s).mapper.irq = true := rfl

/-! ## `ackMapperIrq` -/

@[simp] theorem ackMapperIrq_ram : (ackMapperIrq s).ram = s.ram := rfl
@[simp] theorem ackMapperIrq_prgRam : (ackMapperIrq s).prgRam = s.prgRam := rfl
@[simp] theorem ackMapperIrq_bus : (ackMapperIrq s).bus = s.bus := rfl
@[simp] theorem ackMapperIrq_pad : (ackMapperIrq s).pad = s.pad := rfl
@[simp] theorem ackMapperIrq_apuReg : (ackMapperIrq s).apuReg = s.apuReg := rfl
@[simp] theorem ackMapperIrq_ppu : (ackMapperIrq s).ppu = s.ppu := rfl
@[simp] theorem ackMapperIrq_console : (ackMapperIrq s).console = s.console := rfl
@[simp] theorem ackMapperIrq_cart : (ackMapperIrq s).cart = s.cart := rfl
@[simp] theorem ackMapperIrq_cfg : (ackMapperIrq s).cfg = s.cfg := rfl
@[simp] theorem ackMapperIrq_cpu_a : (ackMapperIrq s).cpu.a = s.cpu.a := rfl
@[simp] theorem ackMapperIrq_cpu_x : (ackMapperIrq s).cpu.x = s.cpu.x := rfl
@[simp] theorem ackMapperIrq_cpu_y : (ackMapperIrq s).cpu.y = s.cpu.y := rfl
@[simp] theorem ackMapperIrq_cpu_sp : (ackMapperIrq s).cpu.sp = s.cpu.sp := rfl
@[simp] theorem ackMapperIrq_cpu_pc : (ackMapperIrq s).cpu.pc = s.cpu.pc := rfl
@[simp] theorem ackMapperIrq_cpu_n : (ackMapperIrq s).cpu.n = s.cpu.n := rfl
@[simp] theorem ackMapperIrq_cpu_v : (ackMapperIrq s).cpu.v = s.cpu.v := rfl
@[simp] theorem ackMapperIrq_cpu_d : (ackMapperIrq s).cpu.d = s.cpu.d := rfl
@[simp] theorem ackMapperIrq_cpu_i : (ackMapperIrq s).cpu.i = s.cpu.i := rfl
@[simp] theorem ackMapperIrq_cpu_z : (ackMapperIrq s).cpu.z = s.cpu.z := rfl
@[simp] theorem ackMapperIrq_cpu_c : (ackMapperIrq s).cpu.c = s.cpu.c := rfl
@[simp] theorem ackMapperIrq_cpu_nmiPending : (ackMapperIrq s).cpu.nmiPending = s.cpu.nmiPending := rfl
@[simp] theorem ackMapperIrq_cpu_irqLines : (ackMapperIrq s).cpu.irqLines = ⟨false, s.cpu.irqLines.external⟩ := rfl
@[simp] theorem ackMapperIrq_cpu_cycles : (ackMapperIrq s).cpu.cycles = s.cpu.cycles := rfl
@[simp] theorem ackMapperIrq_cpu_paused : (ackMapperIrq s).cpu.paused = s.cpu.paused := rfl
@[simp] theorem ackMapperIrq_mapper_regs : (ackMapperIrq s).mapper.regs = s.mapper.regs := rfl
@[simp] theorem ackMapperIrq_mapper_prgOff : (ackMapperIrq s).mapper.prgOff = s.mapper.prgOff := rfl
@[simp] theorem ackMapperIrq_mapper_chrOff : (ackMapperIrq s).mapper.chrOff = s.mapper.chrOff := rfl
@[simp] theorem ackMapperIrq_mapper_mirroring : (ackMapperIrq s).mapper.mirroring = s.mapper.mirroring := rfl
@[simp] theorem ackMapperIrq_mapper_irq : (ackMapperIrq s).mapper.irq = false := rfl

/-! ## `raiseNmi` -/

@[simp] theorem raiseNmi_ram : (raiseNmi s).ram = s.ram := rfl
@[simp] theorem raiseNmi_prgRam : (raiseNmi s).prgRam = s.prgRam := rfl
@[simp] theorem raiseNmi_bus : (raiseNmi s).bus = s.bus := rfl
@[simp] theorem raiseNmi_pad : (raiseNmi s).pad = s.pad := rfl
@[simp] theorem raiseNmi_apuReg : (raiseNmi s).apuReg = s.apuReg := rfl
@[simp] theorem raiseNmi_mapper : (raiseNmi s).mapper = s.mapper := rfl
@[simp] theorem raiseNmi_ppu : (raiseNmi s).ppu = s.ppu := rfl
@[simp] theorem raiseNmi_console : (raiseNmi s).console = s.console := rfl
@[simp] theorem raiseNmi_cart : (raiseNmi s).cart = s.cart := rfl
@[simp] theorem raiseNmi_cfg : (raiseNmi s).cfg = s.cfg := rfl
@[simp] theorem raiseNmi_cpu_a : (raiseNmi s).cpu.a = s.cpu.a := rfl
@[simp] theorem raiseNmi_cpu_x : (raiseNmi s).cpu.x = s.cpu.x := rfl
@[simp] theorem raiseNmi_cpu_y : (raiseNmi s).cpu.y = s.cpu.y := rfl
@[simp] theorem raiseNmi_cpu_sp : (raiseNmi s).cpu.sp = s.cpu.sp := rfl
@[simp] theorem raiseNmi_cpu_pc : (raiseNmi s).cpu.pc = s.cpu.pc := rfl
@[simp] theorem raiseNmi_cpu_n : (raiseNmi s).cpu.n = s.cpu.n := rfl
@[simp] theorem raiseNmi_cpu_v : (raiseNmi s).cpu.v = s.cpu.v := rfl
@[simp] theorem raiseNmi_cpu_d : (raiseNmi s).cpu.d = s.cpu.d := rfl
@[simp] theorem raiseNmi_cpu_i : (raiseNmi s).cpu.i = s.cpu.i := rfl
@[simp] theorem raiseNmi_cpu_z : (raiseNmi s).cpu.z = s.cpu.z := rfl
@[simp] theorem raiseNmi_cpu_c : (raiseNmi s).cpu.c = s.cpu.c := rfl
@[simp] theorem raiseNmi_cpu_nmiPending : (raiseNmi s).cpu.nmiPending = true := rfl
@[simp] theorem raiseNmi_cpu_irqLines : (raiseNmi s).cpu.irqLines = s.cpu.irqLines := rfl
@[simp] theorem raiseNmi_cpu_cycles : (raiseNmi s).cpu.cycles = s.cpu.cycles := rfl
@[simp] theorem raiseNmi_cpu_paused : (raiseNmi s).cpu.paused = s.cpu.paused := rfl

/-! ## The flag updates of the CPU -/

variable (b : Byte)

@[simp] theorem setNZ_a : (setNZ b c).a = c.a := rfl
@[simp] theorem setNZ_x : (setNZ b c).x = c.x := rfl
@[simp] theorem setNZ_y : (setNZ b c).y = c.y := rfl
@[simp] theorem setNZ_sp : (setNZ b c).sp = c.sp := rfl
@[simp] theorem setNZ_pc : (setNZ b c).pc = c.pc := rfl
@[simp] theorem setNZ_n : (setNZ b c).n = b.getLsbD 7 := rfl
@[simp] theorem setNZ_v : (setNZ b c).v = c.v := rfl
@[simp] theorem setNZ_d : (setNZ b c).d = c.d := rfl
@[simp] theorem setNZ_i : (setNZ b c).i = c.i := rfl
@[simp] theorem setNZ_z : (setNZ b c).z = decide (b = 0) := rfl
@[simp] theorem setNZ_c : (setNZ b c).c = c.c := rfl
@[simp] theorem setNZ_nmiPending : (setNZ b c).nmiPending = c.nmiPending := rfl
@[simp] theorem setNZ_irqLines : (setNZ b c).irqLines = c.irqLines := rfl
@[simp] theorem setNZ_cycles : (setNZ b c).cycles = c.cycles := rfl
@[simp] theorem setNZ_paused : (setNZ b c).paused = c.paused := rfl
@[simp] theorem loadA_a : (loadA b c).a = b := rfl
@[simp] theorem loadA_x : (loadA b c).x = c.x := rfl
@[simp] theorem loadA_y : (loadA b c).y = c.y := rfl
@[simp] theorem loadA_sp : (loadA b c).sp = c.sp := rfl
@[simp] theorem loadA_pc : (loadA b c).pc = c.pc := rfl
@[simp] theorem loadA_n : (loadA b c).n = b.getLsbD 7 := rfl
@[simp] theorem loadA_v : (loadA b c).v = c.v := rfl
@[simp] theorem loadA_d : (loadA b c).d = c.d := rfl
@[simp] theorem loadA_i : (loadA b c).i = c.i := rfl
@[simp] theorem loadA_z : (loadA b c).z = decide (b = 0) := rfl
@[simp] theorem loadA_c : (loadA b c).c = c.c := rfl
@[simp] theorem loadA_nmiPending : (loadA b c).nmiPending = c.nmiPending := rfl
@[simp] theorem loadA_irqLines : (loadA b c).irqLines = c.irqLines := rfl
@[simp] theorem loadA_cycles : (loadA b c).cycles = c.cycles := rfl
@[simp] theorem loadA_paused : (loadA b c).paused = c.paused := rfl
@[simp] theorem loadX_a : (loadX b c).a = c.a := rfl
@[simp] theorem loadX_x : (loadX b c).x = b := rfl
@[simp] theorem loadX_y : (loadX b c).y = c.y := rfl
@[simp] theorem loadX_sp : (loadX b c).sp = c.sp := rfl
@[simp] theorem loadX_pc : (loadX b c).pc = c.pc := rfl
@[simp] theorem loadX_n : (loadX b c).n = b.getLsbD 7 := rfl
@[simp] theorem loadX_v : (loadX b c).v = c.v := rfl
@[simp] theorem loadX_d : (loadX b c).d = c.d := rfl
@[simp] theorem loadX_i : (loadX b c).i = c.i := rfl
@[simp] theorem loadX_z : (loadX b c).z = decide (b = 0) := rfl
@[simp] theorem loadX_c : (loadX b c).c = c.c := rfl
@[simp] theorem loadX_nmiPending : (loadX b c).nmiPending = c.nmiPending := rfl
@[simp] theorem loadX_irqLines : (loadX b c).irqLines = c.irqLines := rfl
@[simp] theorem loadX_cycles : (loadX b c).cycles = c.cycles := rfl
@[simp] theorem loadX_paused : (loadX b c).paused = c.paused := rfl
@[simp] theorem loadY_a : (loadY b c).a = c.a := rfl
@[simp] theorem loadY_x : (loadY b c).x = c.x := rfl
@[simp] theorem loadY_y : (loadY b c).y = b := rfl
@[simp] theorem loadY_sp : (loadY b c).sp = c.sp := rfl
@[simp] theorem loadY_pc : (loadY b c).pc = c.pc := rfl
@[simp] theorem loadY_n : (loadY b c).n = b.getLsbD 7 := rfl
@[simp] theorem loadY_v : (loadY b c).v = c.v := rfl
@[simp] theorem loadY_d : (loadY b c).d = c.d := rfl
@[simp] theorem loadY_i : (loadY b c).i = c.i := rfl
@[simp] theorem loadY_z : (loadY b c).z = decide (b = 0) := rfl
@[simp] theorem loadY_c : (loadY b c).c = c.c := rfl
@[simp] theorem loadY_nmiPending : (loadY b c).nmiPending = c.nmiPending := rfl
@[simp] theorem loadY_irqLines : (loadY b c).irqLines = c.irqLines := rfl
@[simp] theorem loadY_cycles : (loadY b c).cycles = c.cycles := rfl
@[simp] theorem loadY_paused : (loadY b c).paused = c.paused := rfl
@[simp] theorem setStatus_a : (setStatus b c).a = c.a := rfl
@[simp] theorem setStatus_x : (setStatus b c).x = c.x := rfl
@[simp] theorem setStatus_y : (setStatus b c).y = c.y := rfl
@[simp] theorem setStatus_sp : (setStatus b c).sp = c.sp := rfl
@[simp] theorem setStatus_pc : (setStatus b c).pc = c.pc := rfl
@[simp] theorem setStatus_n : (setStatus b c).n = b.getLsbD 7 := rfl
@[simp] theorem setStatus_v : (setStatus b c).v = b.getLsbD 6 := rfl
@[simp] theorem setStatus_d : (setStatus b c).d = b.getLsbD 3 := rfl
@[simp] theorem setStatus_i : (setStatus b c).i = b.getLsbD 2 := rfl
@[simp] theorem setStatus_z : (setStatus b c).z = b.getLsbD 1 := rfl
@[simp] theorem setStatus_c : (setStatus b c).c = b.getLsbD 0 := rfl
@[simp] theorem setStatus_nmiPending : (setStatus b c).nmiPending = c.nmiPending := rfl
@[simp] theorem setStatus_irqLines : (setStatus b c).irqLines = c.irqLines := rfl
@[simp] theorem setStatus_cycles : (setStatus b c).cycles = c.cycles := rfl
@[simp] theorem setStatus_paused : (setStatus b c).paused = c.paused := rfl

end Sys2Proof.Machine
end

