-- ==== Sys2Proof/Laws/Ppu.lean ====
section
/-! SUPPORT. What the PPU's operations can do: recording an event, catching up, and the register file. -/

namespace Sys2Proof.Machine

/-! ## Addresses -/

theorem quadrantPage_mask_lt (m : Mirroring) (q : BitVec 2) : (quadrantPage m.mask q).toNat < 2 := by
  cases m <;> revert q <;> decide

/-- A folded address lies in the video RAM (20_memory.md R91). -/
theorem fold_lt (mask : Byte) (a : PAddr) : fold mask a < Config.vramSize := by
  have h1 := (paletteEntry a).isLt
  have h2 := (quadrantPage mask (quadrant a)).isLt
  have h3 := (a.setWidth 10 : BitVec 10).isLt
  unfold fold Config.vramSize
  split <;> omega

/-! ## Catch-up -/

/-- Lines during which rendering is disabled are not counted (53_ppu_timing_events.md R413). -/
theorem catchUpIfVisible_still {p : Ppu} (h : p.rendering = false) :
    (catchUpIfVisible p).v = p.v ∧ (catchUpIfVisible p).t = p.t := by
  unfold catchUpIfVisible catchUp
  split <;> simp [h]

/-- The fields that a catch-up may change: `v`, `t` and `liveLine` (53_ppu_timing_events.md R413). -/
theorem catchUpIfVisible_eq (p : Ppu) : ∃ v t l,
    catchUpIfVisible p = { p with v := v, t := t, liveLine := l } ∧ (p.liveLine ≤ targetLine p.line → l ≤ targetLine p.line) := by
  unfold catchUpIfVisible
  split
  · next h =>
    refine ⟨_, _, _, rfl, fun _ => ?_⟩
    simp only [Ppu.visible, decide_eq_true_eq] at h
    simp [targetLine, h]
  · exact ⟨p.v, p.t, p.liveLine, rfl, id⟩

/-! ## Recording -/

theorem Change.key_lt {c : Change} (h : c ≠ .stop) : c.key < 12 := by
  cases c with
  | chrBank i _ => have := i.isLt; simp only [Change.key]; omega
  | stop => exact absurd rfl h
  | _ => simp [Change.key]

theorem Event.hasKey_iff (line : Nat) (c : Change) (e : Event) :
    e.hasKey line c = true ↔ e.line = line ∧ e.change.key = c.key := by
  simp [Event.hasKey]

theorem Event.hasKey_eq_false_iff (line : Nat) (c : Change) (e : Event) :
    e.hasKey line c = false ↔ ¬ (e.line = line ∧ e.change.key = c.key) := by
  rw [← Event.hasKey_iff, Bool.not_eq_true]

/-- A queue with distinct keys, no END and targets up to 240 has at most 2,892 events, fewer when a key is missing
(53_ppu_timing_events.md R418). -/
theorem length_lt_of_distinct {q : List Event} (hd : q.Pairwise fun e f => Event.hasKey e.line e.change f = false)
    (hs : ∀ e ∈ q, e.change ≠ .stop) (ht : ∀ e ∈ q, e.line ≤ 240) {line : Nat} {c : Change} (hl : line ≤ 240)
    (hc : c ≠ .stop) (hn : q.any (Event.hasKey line c) = false) : q.length < 2892 := by
  let num (e : Event) : Nat := 12 * e.line + e.change.key
  have hkey : ∀ e ∈ q, num e < 2892 := fun e he => by
    have := Change.key_lt (hs e he); have := ht e he; simp only [num]; omega
  have hnodup : ((12 * line + c.key) :: q.map num).Nodup := by
    refine List.nodup_cons.2 ⟨?_, ?_⟩
    · intro hmem
      obtain ⟨e, he, hke⟩ := List.mem_map.1 hmem
      have := Change.key_lt (hs e he); have := Change.key_lt hc
      have hfalse := List.any_eq_false.1 hn e he
      rw [Bool.not_eq_true, Event.hasKey_eq_false_iff] at hfalse
      simp only [num] at hke
      omega
    · rw [List.Nodup, List.pairwise_map]
      refine hd.imp_of_mem fun {e f} he hf hef => ?_
      have := Change.key_lt (hs e he); have := Change.key_lt (hs f hf)
      rw [Event.hasKey_eq_false_iff] at hef
      simp only [num]
      omega
  have hsub : ((12 * line + c.key) :: q.map num) ⊆ List.range 2892 := by
    intro k hk
    rcases List.mem_cons.1 hk with rfl | hk
    · have := Change.key_lt hc; simp; omega
    · obtain ⟨e, he, rfl⟩ := List.mem_map.1 hk
      simpa using hkey e he
  have := (List.subperm_of_subset hnodup hsub).length_le
  simp at this
  omega

/-- Recording changes nothing but the queue being built, which grows by at most one event. -/
theorem record_frame {capacity : Nat} {c : Change} {p q : Ppu} (h : record capacity c p = .ok q) :
    ∃ es, q = { p with nextQ := es } ∧ es.length ≤ p.nextQ.length + 1 := by
  unfold record at h
  dsimp only at h
  split at h
  · cases h; exact ⟨_, rfl, by simp⟩
  · split at h
    · cases h
    · cases h; exact ⟨_, rfl, by simp⟩

/-- Recording succeeds while the arena has room. -/
theorem record_room {capacity : Nat} (c : Change) (p : Ppu) (h : p.nextQ.length + 2 ≤ capacity) :
    ∃ q, record capacity c p = .ok q := by
  unfold record
  dsimp only
  split
  · exact ⟨_, rfl⟩
  · rw [if_neg (by omega)]; exact ⟨_, rfl⟩

/-- The part of 53_ppu_timing_events.md R414 that bounds a queue's length (R418). -/
structure QueueKeys (q : List Event) : Prop where
  distinct : q.Pairwise fun e f => Event.hasKey e.line e.change f = false
  noStop   : ∀ e ∈ q, e.change ≠ .stop
  targets  : ∀ e ∈ q, e.line ≤ 240

theorem targetLine_le (l : Nat) : targetLine l ≤ Config.vblankLine := by unfold targetLine Config.vblankLine; split <;> omega

theorem QueueOk.keys {last : Nat} {q : List Event} (h : QueueOk last q) (hl : last ≤ 240) : QueueKeys q :=
  ⟨h.distinct, h.noStop, fun e he => (h.targets e he).trans hl⟩

/-- Recording into a queue with distinct keys succeeds when the capacity is one that cannot overflow, and keeps the keys
distinct. -/
theorem record_distinct {capacity : Nat} (hcap : Config.minEventCapacity ≤ capacity) {c : Change} (hc : c ≠ .stop)
    {p : Ppu} (hd : p.nextQ.Pairwise fun e f => Event.hasKey e.line e.change f = false)
    (hs : ∀ e ∈ p.nextQ, e.change ≠ .stop) (ht : ∀ e ∈ p.nextQ, e.line ≤ 240) :
    ∃ es, record capacity c p = .ok { p with nextQ := es } ∧
      (es.Pairwise fun e f => Event.hasKey e.line e.change f = false) ∧ (∀ e ∈ es, e.change ≠ .stop) ∧
      (∀ e ∈ es, e ∈ p.nextQ ∨ e.line = targetLine p.line) ∧
      ((p.nextQ.Pairwise fun e f => e.line ≤ f.line) → (∀ e ∈ p.nextQ, e.line ≤ targetLine p.line) →
        es.Pairwise fun e f => e.line ≤ f.line) := by
  have htl : targetLine p.line ≤ 240 := by unfold targetLine; split <;> omega
  have hsame : ∀ e : Event, (if e.hasKey (targetLine p.line) c then (⟨targetLine p.line, c⟩ : Event) else e).line = e.line ∧
      (if e.hasKey (targetLine p.line) c then (⟨targetLine p.line, c⟩ : Event) else e).change.key = e.change.key := by
    intro e
    split
    · next h => rw [Event.hasKey_iff] at h; simp [h]
    · simp
  unfold record
  dsimp only
  by_cases hany : p.nextQ.any (Event.hasKey (targetLine p.line) c) = true
  · simp only [hany, if_true]
    refine ⟨_, rfl, ?_, ?_, ?_, ?_⟩
    · rw [List.pairwise_map]
      refine hd.imp fun {e f} hef => ?_
      rw [Event.hasKey_eq_false_iff] at *
      rw [(hsame e).1, (hsame e).2, (hsame f).1, (hsame f).2]
      exact hef
    · intro e he
      obtain ⟨f, hf, rfl⟩ := List.mem_map.1 he
      split
      · exact hc
      · exact hs f hf
    · intro e he
      obtain ⟨f, hf, rfl⟩ := List.mem_map.1 he
      split
      · exact .inr rfl
      · exact .inl hf
    · intro hsort _
      rw [List.pairwise_map]
      refine hsort.imp fun {e f} hef => ?_
      rw [(hsame e).1, (hsame f).1]
      exact hef
  · simp only [hany, Bool.false_eq_true, if_false]
    have hlen := length_lt_of_distinct hd hs ht htl hc (by simpa using hany)
    have hcap' : ¬ capacity - 1 ≤ p.nextQ.length := by unfold Config.minEventCapacity at hcap; omega
    rw [if_neg hcap']
    refine ⟨_, rfl, ?_, ?_, ?_, ?_⟩
    · rw [List.pairwise_append]
      refine ⟨hd, by simp, ?_⟩
      intro e he f hf
      obtain rfl := List.mem_singleton.1 hf
      rw [Bool.not_eq_true] at hany
      have := List.any_eq_false.1 hany e he
      rw [Bool.not_eq_true, Event.hasKey_eq_false_iff] at this
      rw [Event.hasKey_eq_false_iff]
      intro hk
      exact this ⟨hk.1.symm, hk.2.symm⟩
    · intro e he
      rcases List.mem_append.1 he with he | he
      · exact hs e he
      · obtain rfl := List.mem_singleton.1 he; exact hc
    · intro e he
      rcases List.mem_append.1 he with he | he
      · exact .inl he
      · obtain rfl := List.mem_singleton.1 he; exact .inr rfl
    · intro hsort hle
      rw [List.pairwise_append]
      refine ⟨hsort, by simp, ?_⟩
      intro e he f hf
      obtain rfl := List.mem_singleton.1 hf
      exact hle e he

/-- Recording never overflows a queue with distinct keys, keeps its keys, and keeps a queue that is as
53_ppu_timing_events.md R414 says. -/
theorem record_keys {capacity : Nat} (hcap : Config.minEventCapacity ≤ capacity) {c : Change} (hc : c ≠ .stop)
    {p : Ppu} (h : QueueKeys p.nextQ) : ∃ es, record capacity c p = .ok { p with nextQ := es } ∧ QueueKeys es ∧
      (QueueOk (targetLine p.line) p.nextQ → QueueOk (targetLine p.line) es) := by
  obtain ⟨es, he, hd, hs, hm, hsort⟩ := record_distinct hcap hc h.distinct h.noStop h.targets
  refine ⟨es, he, ⟨hd, hs, fun e hmem => ?_⟩, fun hq => ⟨hsort hq.sorted hq.targets, hs, hd, fun e hmem => ?_⟩⟩
  · rcases hm e hmem with h' | h'
    · exact h.targets e h'
    · exact h'.le.trans (targetLine_le _)
  · rcases hm e hmem with h' | h'
    · exact hq.targets e h'
    · exact h'.le

/-- Recording keeps a queue that is as 53_ppu_timing_events.md R414 says, and never overflows it. -/
theorem record_queueOk {capacity : Nat} (hcap : Config.minEventCapacity ≤ capacity) {c : Change} (hc : c ≠ .stop)
    {p : Ppu} (h : QueueOk (targetLine p.line) p.nextQ) :
    ∃ es, record capacity c p = .ok { p with nextQ := es } ∧ QueueOk (targetLine p.line) es := by
  obtain ⟨es, he, _, hq⟩ := record_keys hcap hc (h.keys (targetLine_le _))
  exact ⟨es, he, hq h⟩

/-! ## Register reads -/

/-- The fields that a register read may change (52_ppu_registers.md R370). -/
theorem readReg_frame (cart : Cart) (r : BitVec 3) (p : Ppu) : ∃ vb v t w rb l,
    (p.readReg cart r).2 = { p with vblank := vb, v := v, t := t, w := w, readBuf := rb, liveLine := l } ∧
      (p.liveLine ≤ targetLine p.line → l ≤ targetLine p.line) := by
  have hsame : ∃ vb v t w rb l,
      p = { p with vblank := vb, v := v, t := t, w := w, readBuf := rb, liveLine := l } ∧
        (p.liveLine ≤ targetLine p.line → l ≤ targetLine p.line) :=
    ⟨p.vblank, p.v, p.t, p.w, p.readBuf, p.liveLine, rfl, id⟩
  unfold Ppu.readReg
  split
  · exact ⟨false, p.v, p.t, false, p.readBuf, p.liveLine, rfl, id⟩
  · exact hsame
  · obtain ⟨v, t, l, hc, hl⟩ := catchUpIfVisible_eq p
    rw [hc]
    unfold Ppu.readData
    dsimp only
    split
    · exact ⟨p.vblank, _, t, p.w, _, l, rfl, hl⟩
    · exact ⟨p.vblank, _, t, p.w, _, l, rfl, hl⟩
  · exact hsame

end Sys2Proof.Machine
end

