-- ==== Sys2Proof/Laws/Bus.lean ====
section
/-! SUPPORT. What a bus read can do, in each region of the map; the stack, pointers, vectors and operand forms in terms of the
memories they read and write. -/

namespace Sys2Proof.Machine

/-! ## Reads by region (50_bus_devices.md R300) -/

theorem memRead_ram {a : Addr} (h : a.toNat < 0x2000) (s : State) :
    memRead a s = (Memory.read s.ram (a.toNat % 0x800), { s with bus := ⟨Memory.read s.ram (a.toNat % 0x800)⟩ }) := by
  simp [memRead, busRead, h]

theorem memRead_ppu {a : Addr} (h1 : 0x2000 ≤ a.toNat) (h2 : a.toNat < 0x4000) (s : State) :
    memRead a s = ((s.ppu.readReg s.cart (a.setWidth 3)).1,
      { s with ppu := (s.ppu.readReg s.cart (a.setWidth 3)).2, bus := ⟨(s.ppu.readReg s.cart (a.setWidth 3)).1⟩ }) := by
  simp only [memRead, busRead, if_neg (show ¬ a.toNat < 0x2000 by omega), if_pos h2]
  rfl

theorem memRead_open {a : Addr} (h : (0x4000 ≤ a.toNat ∧ a.toNat < 0x4015) ∨ (0x4018 ≤ a.toNat ∧ a.toNat < 0x6000))
    (s : State) : memRead a s = (openBus s, { s with bus := ⟨openBus s⟩ }) := by
  simp only [memRead, busRead, if_neg (show ¬ a.toNat < 0x2000 by omega), if_neg (show ¬ a.toNat < 0x4000 by omega)]
  rcases h with h | h
  · simp only [if_pos h.2]
  · simp only [if_neg (show ¬ a.toNat < 0x4015 by omega), if_neg (show ¬ a.toNat = 0x4015 by omega),
      if_neg (show ¬ a.toNat = 0x4016 by omega), if_neg (show ¬ a.toNat = 0x4017 by omega), if_pos h.2]

theorem memRead_prgRam {a : Addr} (h1 : 0x6000 ≤ a.toNat) (h2 : a.toNat < 0x8000) (s : State) :
    memRead a s = (Memory.read s.prgRam (a.toNat - 0x6000),
      { s with bus := ⟨Memory.read s.prgRam (a.toNat - 0x6000)⟩ }) := by
  simp only [memRead, busRead, if_neg (show ¬ a.toNat < 0x2000 by omega), if_neg (show ¬ a.toNat < 0x4000 by omega),
    if_neg (show ¬ a.toNat < 0x4015 by omega), if_neg (show ¬ a.toNat = 0x4015 by omega),
    if_neg (show ¬ a.toNat = 0x4016 by omega), if_neg (show ¬ a.toNat = 0x4017 by omega),
    if_neg (show ¬ a.toNat < 0x6000 by omega), if_pos h2]

theorem memRead_prg {a : Addr} (h : 0x8000 ≤ a.toNat) (s : State) :
    memRead a s = (Memory.read s.cart.prg (prgIndex s.mapper a),
      { s with bus := ⟨Memory.read s.cart.prg (prgIndex s.mapper a)⟩ }) := by
  simp only [memRead, busRead, if_neg (show ¬ a.toNat < 0x2000 by omega), if_neg (show ¬ a.toNat < 0x4000 by omega),
    if_neg (show ¬ a.toNat < 0x4015 by omega), if_neg (show ¬ a.toNat = 0x4015 by omega),
    if_neg (show ¬ a.toNat = 0x4016 by omega), if_neg (show ¬ a.toNat = 0x4017 by omega),
    if_neg (show ¬ a.toNat < 0x6000 by omega), if_neg (show ¬ a.toNat < 0x8000 by omega)]

theorem memRead_4015 {a : Addr} (h : a.toNat = 0x4015) (s : State) : memRead a s = (0, { s with bus := ⟨0⟩ }) := by
  simp only [memRead, busRead, h]
  rfl

theorem memRead_port1 {a : Addr} (h : a.toNat = 0x4016) (s : State) :
    memRead a s = ((s.pad.port1.read s.pad.strobe).1,
      { s with
        pad := { s.pad with port1 := (s.pad.port1.read s.pad.strobe).2 }
        bus := ⟨(s.pad.port1.read s.pad.strobe).1⟩ }) := by
  simp only [memRead, busRead, h]
  rfl

theorem memRead_port2 {a : Addr} (h : a.toNat = 0x4017) (s : State) :
    memRead a s = ((s.pad.port2.read s.pad.strobe).1,
      { s with
        pad := { s.pad with port2 := (s.pad.port2.read s.pad.strobe).2 }
        bus := ⟨(s.pad.port2.read s.pad.strobe).1⟩ }) := by
  simp only [memRead, busRead, h]
  rfl

theorem Port.read_snd (st : Bool) (p : Port) : (p.read st).2 = { p with shift := (p.read st).2.shift } := by
  cases st <;> rfl

/-- A read of an address that holds memory changes nothing but the open-bus latch (20_memory.md R75). -/
theorem memRead_memory {a : Addr} (h : isMemory a) (s : State) :
    memRead a s = (s.peek a, { s with bus := ⟨s.peek a⟩ }) := by
  unfold State.peek
  rcases h with h | h
  · rw [memRead_ram h]
  · by_cases h8 : a.toNat < 0x8000
    · rw [memRead_prgRam h h8]
    · rw [memRead_prg (by omega)]

/-- Everything a read may change: the open-bus latch, which takes the byte read, some fields of the PPU, and the ports' shift
registers. -/
theorem memRead_frame (a : Addr) (s : State) : ∃ vb v t w rb l sh1 sh2,
    (memRead a s).2 = { s with
      bus := ⟨(memRead a s).1⟩
      ppu := { s.ppu with vblank := vb, v := v, t := t, w := w, readBuf := rb, liveLine := l }
      pad := ⟨{ s.pad.port1 with shift := sh1 }, { s.pad.port2 with shift := sh2 }, s.pad.strobe⟩ } ∧
    (s.ppu.liveLine ≤ targetLine s.ppu.line → l ≤ targetLine s.ppu.line) := by
  have hsame : ∀ b : Byte, ∃ vb v t w rb l sh1 sh2, { s with bus := ⟨b⟩ } = { s with
      bus := ⟨b⟩
      ppu := { s.ppu with vblank := vb, v := v, t := t, w := w, readBuf := rb, liveLine := l }
      pad := ⟨{ s.pad.port1 with shift := sh1 }, { s.pad.port2 with shift := sh2 }, s.pad.strobe⟩ } ∧
    (s.ppu.liveLine ≤ targetLine s.ppu.line → l ≤ targetLine s.ppu.line) := fun _ =>
    ⟨s.ppu.vblank, s.ppu.v, s.ppu.t, s.ppu.w, s.ppu.readBuf, s.ppu.liveLine, s.pad.port1.shift, s.pad.port2.shift, rfl, id⟩
  by_cases h1 : a.toNat < 0x2000
  · rw [memRead_ram h1]; exact hsame _
  by_cases h2 : a.toNat < 0x4000
  · rw [memRead_ppu (by omega) h2]
    obtain ⟨vb, v, t, w, rb, l, h, hl⟩ := readReg_frame s.cart (a.setWidth 3) s.ppu
    rw [h]
    exact ⟨vb, v, t, w, rb, l, s.pad.port1.shift, s.pad.port2.shift, rfl, hl⟩
  by_cases h3 : a.toNat < 0x4015
  · rw [memRead_open (.inl ⟨by omega, h3⟩)]; exact hsame _
  by_cases h4 : a.toNat = 0x4015
  · rw [memRead_4015 h4]; exact hsame _
  by_cases h5 : a.toNat = 0x4016
  · rw [memRead_port1 h5, Port.read_snd]
    exact ⟨s.ppu.vblank, s.ppu.v, s.ppu.t, s.ppu.w, s.ppu.readBuf, s.ppu.liveLine, _, s.pad.port2.shift, rfl, id⟩
  by_cases h6 : a.toNat = 0x4017
  · rw [memRead_port2 h6, Port.read_snd]
    exact ⟨s.ppu.vblank, s.ppu.v, s.ppu.t, s.ppu.w, s.ppu.readBuf, s.ppu.liveLine, s.pad.port1.shift, _, rfl, id⟩
  by_cases h7 : a.toNat < 0x6000
  · rw [memRead_open (.inr ⟨by omega, h7⟩)]; exact hsame _
  · rw [memRead_memory (.inr (by omega))]; exact hsame _

section
variable (a : Addr) (s : State)

@[simp] theorem memRead_cpu : (memRead a s).2.cpu = s.cpu := by
  obtain ⟨_, _, _, _, _, _, _, _, h, _⟩ := memRead_frame a s; rw [h]
@[simp] theorem memRead_ram' : (memRead a s).2.ram = s.ram := by
  obtain ⟨_, _, _, _, _, _, _, _, h, _⟩ := memRead_frame a s; rw [h]
@[simp] theorem memRead_prgRam' : (memRead a s).2.prgRam = s.prgRam := by
  obtain ⟨_, _, _, _, _, _, _, _, h, _⟩ := memRead_frame a s; rw [h]
@[simp] theorem memRead_bus : (memRead a s).2.bus = ⟨(memRead a s).1⟩ := rfl
@[simp] theorem memRead_apuReg : (memRead a s).2.apuReg = s.apuReg := by
  obtain ⟨_, _, _, _, _, _, _, _, h, _⟩ := memRead_frame a s; rw [h]
@[simp] theorem memRead_mapper : (memRead a s).2.mapper = s.mapper := by
  obtain ⟨_, _, _, _, _, _, _, _, h, _⟩ := memRead_frame a s; rw [h]
@[simp] theorem memRead_console : (memRead a s).2.console = s.console := by
  obtain ⟨_, _, _, _, _, _, _, _, h, _⟩ := memRead_frame a s; rw [h]
@[simp] theorem memRead_cart : (memRead a s).2.cart = s.cart := by
  obtain ⟨_, _, _, _, _, _, _, _, h, _⟩ := memRead_frame a s; rw [h]
@[simp] theorem memRead_cfg : (memRead a s).2.cfg = s.cfg := by
  obtain ⟨_, _, _, _, _, _, _, _, h, _⟩ := memRead_frame a s; rw [h]
@[simp] theorem memRead_nextQ : (memRead a s).2.ppu.nextQ = s.ppu.nextQ := by
  obtain ⟨_, _, _, _, _, _, _, _, h, _⟩ := memRead_frame a s; rw [h]
@[simp] theorem memRead_oam : (memRead a s).2.ppu.oam = s.ppu.oam := by
  obtain ⟨_, _, _, _, _, _, _, _, h, _⟩ := memRead_frame a s; rw [h]
@[simp] theorem memRead_oamAddr : (memRead a s).2.ppu.oamAddr = s.ppu.oamAddr := by
  obtain ⟨_, _, _, _, _, _, _, _, h, _⟩ := memRead_frame a s; rw [h]

end

/-- What a memory address reads as depends on the memories and the mapping alone. -/
theorem peek_eq_of {s t : State} (hr : t.ram = s.ram) (hp : t.prgRam = s.prgRam) (hc : t.cart = s.cart)
    (hm : t.mapper = s.mapper) {a : Addr} (h : isMemory a) : t.peek a = s.peek a := by
  unfold State.peek
  rcases h with h | h
  · rw [memRead_ram h, memRead_ram h, hr]
  · by_cases h8 : a.toNat < 0x8000
    · rw [memRead_prgRam h h8, memRead_prgRam h h8, hp]
    · rw [memRead_prg (by omega), memRead_prg (by omega), hc, hm]

/-- Changing anything but the memories and the mapping leaves what a memory address reads as. -/
theorem peek_mk (s : State) (c : Cpu) (b : Bus) (pd : Pad) (ap : Memory) (p : Ppu) (k : Console) (g : Config) {a : Addr}
    (h : isMemory a) : State.peek ⟨c, s.ram, s.prgRam, b, pd, ap, s.mapper, p, k, s.cart, g⟩ a = s.peek a :=
  peek_eq_of (s := s) (t := ⟨c, s.ram, s.prgRam, b, pd, ap, s.mapper, p, k, s.cart, g⟩) rfl rfl rfl rfl h

theorem peek_withCpu (s : State) (c : Cpu) {a : Addr} (h : isMemory a) : (s.withCpu c).peek a = s.peek a :=
  peek_mk s c s.bus s.pad s.apuReg s.ppu s.console s.cfg h

theorem peek_ram {a : Addr} (h : a.toNat < 0x2000) (s : State) : s.peek a = Memory.read s.ram (a.toNat % 0x800) := by
  simp [State.peek, memRead_ram h]

theorem peek_prgRam {a : Addr} (h1 : 0x6000 ≤ a.toNat) (h2 : a.toNat < 0x8000) (s : State) :
    s.peek a = Memory.read s.prgRam (a.toNat - 0x6000) := by
  simp [State.peek, memRead_prgRam h1 h2]

theorem peek_prg {a : Addr} (h : 0x8000 ≤ a.toNat) (s : State) :
    s.peek a = Memory.read s.cart.prg (prgIndex s.mapper a) := by
  simp [State.peek, memRead_prg h]

/-! ## Two-byte reads -/

/-- A pointer in page zero is read from work RAM: only the latch changes (40_addressing.md R147). -/
theorem readPointer_eq (z : Byte) (s : State) :
    readPointer z s = (wordOf (s.peek (zext16 (z + 1))) (s.peek (zext16 z)), { s with bus := ⟨s.peek (zext16 (z + 1))⟩ }) := by
  simp only [readPointer, memRead_memory (.inl (zext16_lt _))]
  rw [peek_mk _ _ _ _ _ _ _ _ (.inl (zext16_lt _))]

/-- A vector is read from PRG: only the latch changes (60_exceptions.md R506). -/
theorem read16_eq {a : Addr} (h1 : isMemory a) (h2 : isMemory (a + 1)) (s : State) :
    read16 a s = (wordOf (s.peek (a + 1)) (s.peek a), { s with bus := ⟨s.peek (a + 1)⟩ }) := by
  simp only [read16, memRead_memory h1, memRead_memory h2]
  rw [peek_mk _ _ _ _ _ _ _ _ h2]

/-! ## The stack (10_state.md R23) -/

/-- The state after one push: the byte in page 1 of work RAM, the stack pointer one lower. -/
def pushed (v : Byte) (s : State) : State :=
  { s with
    ram := Memory.write s.ram (256 + s.cpu.sp.toNat) v
    cpu := { s.cpu with sp := s.cpu.sp - 1 } }

/-- A push never stops: the stack lies in work RAM. -/
theorem push_eq (v : Byte) (s : State) : push v s = .ok (pushed v s) := by
  have h := stackAddr_lt s.cpu.sp
  have h' := toNat_stackAddr s.cpu.sp
  have := s.cpu.sp.isLt
  have hmod : (stackAddr s.cpu.sp).toNat % 0x800 = 256 + s.cpu.sp.toNat := by omega
  simp only [push, memWrite, if_pos h, hmod]
  rfl

theorem push16_eq (v : Addr) (s : State) : push16 v s = .ok (pushed (loByte v) (pushed (hiByte v) s)) := by
  simp only [push16, push_eq]
  rfl

/-- A pull reads work RAM: the stack pointer moves first, then only the latch changes. -/
theorem pull_eq (s : State) : pull s = (s.peek (stackAddr (s.cpu.sp + 1)),
    { s with cpu := { s.cpu with sp := s.cpu.sp + 1 }, bus := ⟨s.peek (stackAddr (s.cpu.sp + 1))⟩ }) := by
  simp only [pull, withCpu_cpu, memRead_memory (.inl (stackAddr_lt _))]
  rw [peek_withCpu _ _ (.inl (stackAddr_lt _))]
  rfl

theorem pull16_eq (s : State) : pull16 s =
    (wordOf (s.peek (stackAddr (s.cpu.sp + 1 + 1))) (s.peek (stackAddr (s.cpu.sp + 1))),
      { s with
        cpu := { s.cpu with sp := s.cpu.sp + 1 + 1 }
        bus := ⟨s.peek (stackAddr (s.cpu.sp + 1 + 1))⟩ }) := by
  simp only [pull16, pull_eq]
  rw [peek_mk _ _ _ _ _ _ _ _ (.inl (stackAddr_lt _))]

/-! ## Entering a handler and returning (60_exceptions.md R507, R509) -/

theorem isMemory_of_ge {a : Addr} (h : 0x6000 ≤ a.toNat) : isMemory a := .inr h

/-- The state after a handler is entered: three bytes pushed, I set, PC read from the vector. -/
def entered (vec ret : Addr) (b : Bool) (s : State) : State :=
  let t := pushed (statusByte b s.cpu) (pushed (loByte ret) (pushed (hiByte ret) s))
  { t with
    cpu := { t.cpu with i := true, pc := wordOf (t.peek (vec + 1)) (t.peek vec) }
    bus := ⟨t.peek (vec + 1)⟩ }

/-- Entering a handler through one of the vectors at the top of the address space never stops. -/
theorem enterVector_eq {vec : Addr} (h1 : isMemory vec) (h2 : isMemory (vec + 1)) (ret : Addr) (b : Bool) (s : State) :
    enterVector vec ret b s = .ok (entered vec ret b s) := by
  simp only [enterVector, push16_eq, bind, Except.bind, push_eq, pure, Except.pure, read16_eq h1 h2]
  rw [peek_withCpu _ _ h1, peek_withCpu _ _ h2]
  rfl

/-- The state after a return from an interrupt. -/
theorem returnFromInterrupt_eq (s : State) : returnFromInterrupt s =
    { s with
      cpu := { setStatus (s.peek (stackAddr (s.cpu.sp + 1))) s.cpu with
        sp := s.cpu.sp + 1 + 1 + 1
        pc := wordOf (s.peek (stackAddr (s.cpu.sp + 1 + 1 + 1))) (s.peek (stackAddr (s.cpu.sp + 1 + 1))) }
      bus := ⟨s.peek (stackAddr (s.cpu.sp + 1 + 1 + 1))⟩ } := by
  simp only [returnFromInterrupt, pull_eq, pull16_eq]
  simp only [State.withCpu, setPc, setStatus_sp, peek_mk _ _ _ _ _ _ _ _ (.inl (stackAddr_lt _))]
  rfl

/-! ## Operand forms (40_addressing.md) -/

/-- Forming an effective address changes nothing but the latch. -/
theorem effAddr_state (m : Mem) (s : State) : ∃ b, (effAddr m s).state = { s with bus := b } := by
  cases m with
  | indx o => simp only [effAddr, readPointer_eq]; exact ⟨_, rfl⟩
  | indy o => simp only [effAddr, readPointer_eq, indexed]; exact ⟨_, rfl⟩
  | _ => exact ⟨s.bus, rfl⟩

section
variable (m : Mem) (s : State)

@[simp] theorem effAddr_cpu : (effAddr m s).state.cpu = s.cpu := by obtain ⟨b, h⟩ := effAddr_state m s; rw [h]
@[simp] theorem effAddr_ram : (effAddr m s).state.ram = s.ram := by obtain ⟨b, h⟩ := effAddr_state m s; rw [h]
@[simp] theorem effAddr_prgRam : (effAddr m s).state.prgRam = s.prgRam := by obtain ⟨b, h⟩ := effAddr_state m s; rw [h]
@[simp] theorem effAddr_pad : (effAddr m s).state.pad = s.pad := by obtain ⟨b, h⟩ := effAddr_state m s; rw [h]
@[simp] theorem effAddr_apuReg : (effAddr m s).state.apuReg = s.apuReg := by obtain ⟨b, h⟩ := effAddr_state m s; rw [h]
@[simp] theorem effAddr_mapper : (effAddr m s).state.mapper = s.mapper := by obtain ⟨b, h⟩ := effAddr_state m s; rw [h]
@[simp] theorem effAddr_ppu : (effAddr m s).state.ppu = s.ppu := by obtain ⟨b, h⟩ := effAddr_state m s; rw [h]
@[simp] theorem effAddr_console : (effAddr m s).state.console = s.console := by
  obtain ⟨b, h⟩ := effAddr_state m s; rw [h]
@[simp] theorem effAddr_cart : (effAddr m s).state.cart = s.cart := by obtain ⟨b, h⟩ := effAddr_state m s; rw [h]
@[simp] theorem effAddr_cfg : (effAddr m s).state.cfg = s.cfg := by obtain ⟨b, h⟩ := effAddr_state m s; rw [h]

end

/-- Reading an operand changes no register of the CPU. -/
@[simp] theorem readSrc_cpu (src : Src) (s : State) : (readSrc src s).state.cpu = s.cpu := by
  cases src <;> simp [readSrc]

/-! ## Fetching -/

@[simp] theorem fetchByte_fst (s : State) : (fetchByte s).1 = s.peek s.cpu.pc := rfl

/-- A byte fetched from memory: PC moves past it, and the latch takes it. -/
theorem fetchByte_memory {s : State} (h : isMemory s.cpu.pc) :
    fetchByte s = (s.peek s.cpu.pc,
      { s with cpu := { s.cpu with pc := s.cpu.pc + 1 }, bus := ⟨s.peek s.cpu.pc⟩ }) := by
  simp only [fetchByte, memRead_memory h]
  rfl

end Sys2Proof.Machine
end

