-- ==== Sys2Proof/Laws/Writes.lean ====
section
/-! SUPPORT. What a write can do: the register file, the mapper, and the bus. With a legal configuration and a queue as
53_ppu_timing_events.md R414 says, none of them fails. -/

namespace Sys2Proof.Machine

/-! ## Recording into a PPU -/

/-- What one or more recorded events leave unchanged. -/
structure Ppu.Kept (p q : Ppu) : Prop where
  vblank     : q.vblank = p.vblank
  hit        : q.hit = p.hit
  chrOff     : q.chrOff = p.chrOff
  mirroring  : q.mirroring = p.mirroring
  mirrorMask : q.mirrorMask = p.mirrorMask
  dots       : q.dots = p.dots
  line       : q.line = p.line
  frame      : q.frame = p.frame
  curQ       : q.curQ = p.curQ
  frameBase  : q.frameBase = p.frameBase
  renderBase : q.renderBase = p.renderBase
  index      : q.index = p.index
  frameOut   : q.frameOut = p.frameOut

theorem Ppu.Kept.refl (p : Ppu) : Ppu.Kept p p := ⟨rfl, rfl, rfl, rfl, rfl, rfl, rfl, rfl, rfl, rfl, rfl, rfl, rfl⟩

theorem Ppu.Kept.trans {p q r : Ppu} (h : Ppu.Kept p q) (k : Ppu.Kept q r) : Ppu.Kept p r :=
  ⟨k.1.trans h.1, k.2.trans h.2, k.3.trans h.3, k.4.trans h.4, k.5.trans h.5, k.6.trans h.6, k.7.trans h.7, k.8.trans h.8,
    k.9.trans h.9, k.10.trans h.10, k.11.trans h.11, k.12.trans h.12, k.13.trans h.13⟩

theorem catchUpIfVisible_kept (p : Ppu) : Ppu.Kept p (catchUpIfVisible p) := by
  obtain ⟨v, t, l, h, _⟩ := catchUpIfVisible_eq p
  rw [h]; exact ⟨rfl, rfl, rfl, rfl, rfl, rfl, rfl, rfl, rfl, rfl, rfl, rfl, rfl⟩

theorem catchUpIfVisible_timing {p : Ppu} (h : p.TimingOk) : (catchUpIfVisible p).TimingOk := by
  obtain ⟨v, t, l, hc, hl⟩ := catchUpIfVisible_eq p
  rw [hc]; exact ⟨h.position, hl h.live, h.nextQ, h.curQ⟩

@[simp] theorem catchUpIfVisible_nextQ (p : Ppu) : (catchUpIfVisible p).nextQ = p.nextQ := by
  obtain ⟨v, t, l, hc, _⟩ := catchUpIfVisible_eq p; rw [hc]
@[simp] theorem catchUpIfVisible_vram (p : Ppu) : (catchUpIfVisible p).vram = p.vram := by
  obtain ⟨v, t, l, hc, _⟩ := catchUpIfVisible_eq p; rw [hc]
@[simp] theorem catchUpIfVisible_oam (p : Ppu) : (catchUpIfVisible p).oam = p.oam := by
  obtain ⟨v, t, l, hc, _⟩ := catchUpIfVisible_eq p; rw [hc]
@[simp] theorem catchUpIfVisible_line (p : Ppu) : (catchUpIfVisible p).line = p.line := (catchUpIfVisible_kept p).line

/-- A recording keeps the queue as it should be, and everything else. -/
theorem record_timing {capacity : Nat} (hcap : Config.minEventCapacity ≤ capacity) {c : Change} (hc : c ≠ .stop) {p : Ppu}
    (h : p.TimingOk) : ∃ es, record capacity c p = .ok { p with nextQ := es } ∧ Ppu.TimingOk { p with nextQ := es } := by
  obtain ⟨es, he, hq⟩ := record_queueOk hcap hc h.nextQ
  exact ⟨es, he, h.position, h.live, hq, h.curQ⟩

/-! ## The register file -/

/-- The PPU `q` after a register access to `p` that may record events. -/
structure Ppu.Written (p q : Ppu) : Prop where
  kept   : Ppu.Kept p q
  timing : q.TimingOk
  vram   : Memory.Ok Config.vramSize p.vram → Memory.Ok Config.vramSize q.vram
  oam    : Memory.Ok Config.oamSize p.oam → Memory.Ok Config.oamSize q.oam

theorem Ppu.write_kept (cart : Cart) (p : Ppu) (a : PAddr) (d : Byte) : ∃ m, p.write cart a d = { p with vram := m } ∧
    (Memory.Ok Config.vramSize p.vram → Memory.Ok Config.vramSize m) := by
  unfold Ppu.write
  split
  · split
    · exact ⟨p.vram, rfl, id⟩
    · exact ⟨_, rfl, fun h => h.write (by unfold Config.vramSize; omega) d⟩
  · exact ⟨_, rfl, fun h => h.write (fold_lt _ _) d⟩

/-- A register write succeeds, and what it may change (52_ppu_registers.md R370). -/
theorem writeReg_written {cart : Cart} {capacity : Nat} (hcap : Config.minEventCapacity ≤ capacity) (r : BitVec 3) (d : Byte)
    {p : Ppu} (h : p.TimingOk) : ∃ q, p.writeReg cart capacity r d = .ok q ∧ Ppu.Written p q := by
  obtain ⟨v, t, l, hc, hl⟩ := catchUpIfVisible_eq p
  have hl := hl h.live
  unfold Ppu.writeReg
  rw [hc]
  split
  · unfold Ppu.writeCtrl
    simp only [bind, Except.bind]
    generalize hq : (if Ppu.inFrame _ = true then _ else _ : Ppu) = q
    have hq' : ∃ v', q = { p with ctrl := d, v := v', t := Loopy.setNametable t (d.setWidth 2), liveLine := l } := by
      subst hq
      split <;> exact ⟨_, rfl⟩
    obtain ⟨v', rfl⟩ := hq'
    obtain ⟨es, he, ht⟩ := record_timing hcap (c := .ctrl d) (by simp)
      (p := { p with ctrl := d, v := v', t := Loopy.setNametable t (d.setWidth 2), liveLine := l })
      ⟨h.position, hl, h.nextQ, h.curQ⟩
    rw [he]
    obtain ⟨es', he', ht'⟩ := record_timing hcap (c := .scroll (scrollValue v' p.x)) (by simp) ht
    exact ⟨_, he', ⟨rfl, rfl, rfl, rfl, rfl, rfl, rfl, rfl, rfl, rfl, rfl, rfl, rfl⟩, ht', id, id⟩
  · obtain ⟨es, he, ht⟩ := record_timing hcap (c := .mask d) (by simp)
      (p := { p with mask := d, v := v, t := t, liveLine := l }) ⟨h.position, hl, h.nextQ, h.curQ⟩
    exact ⟨_, he, ⟨rfl, rfl, rfl, rfl, rfl, rfl, rfl, rfl, rfl, rfl, rfl, rfl, rfl⟩, ht, id, id⟩
  · exact ⟨_, rfl, Ppu.Kept.refl p, h, id, id⟩
  · exact ⟨_, rfl, ⟨rfl, rfl, rfl, rfl, rfl, rfl, rfl, rfl, rfl, rfl, rfl, rfl, rfl⟩,
      ⟨h.position, h.live, h.nextQ, h.curQ⟩, id, id⟩
  · exact ⟨_, rfl, ⟨rfl, rfl, rfl, rfl, rfl, rfl, rfl, rfl, rfl, rfl, rfl, rfl, rfl⟩,
      ⟨h.position, h.live, h.nextQ, h.curQ⟩, id, fun ho => ho.write p.oamAddr.isLt d⟩
  · unfold Ppu.writeScroll
    dsimp only
    generalize hq : (if p.w = true then _ else _ : Ppu) = q
    have hq' : ∃ v' t' x' w', q = { p with v := v', t := t', x := x', w := w', liveLine := l } := by
      subst hq
      split
      · exact ⟨_, _, _, _, rfl⟩
      · split <;> exact ⟨_, _, _, _, rfl⟩
    obtain ⟨v', t', x', w', rfl⟩ := hq'
    obtain ⟨es, he, ht⟩ := record_timing hcap (c := .scroll (scrollValue v' x')) (by simp)
      (p := { p with v := v', t := t', x := x', w := w', liveLine := l }) ⟨h.position, hl, h.nextQ, h.curQ⟩
    exact ⟨_, he, ⟨rfl, rfl, rfl, rfl, rfl, rfl, rfl, rfl, rfl, rfl, rfl, rfl, rfl⟩, ht, id, id⟩
  · unfold Ppu.writeAddr
    dsimp only
    split
    · obtain ⟨es, he, ht⟩ := record_timing hcap (c := .scroll (scrollValue (Loopy.setLow t d) p.x)) (by simp)
        (p := { p with v := Loopy.setLow t d, t := Loopy.setLow t d, w := false, liveLine := l })
        ⟨h.position, hl, h.nextQ, h.curQ⟩
      exact ⟨_, he, ⟨rfl, rfl, rfl, rfl, rfl, rfl, rfl, rfl, rfl, rfl, rfl, rfl, rfl⟩, ht, id, id⟩
    · exact ⟨_, rfl, ⟨rfl, rfl, rfl, rfl, rfl, rfl, rfl, rfl, rfl, rfl, rfl, rfl, rfl⟩,
        ⟨h.position, hl, h.nextQ, h.curQ⟩, id, id⟩
  · unfold Ppu.writeData
    obtain ⟨m, hm, hok⟩ := Ppu.write_kept cart { p with v := v, t := t, liveLine := l } (Loopy.address v) d
    dsimp only
    rw [hm]
    exact ⟨_, rfl, ⟨rfl, rfl, rfl, rfl, rfl, rfl, rfl, rfl, rfl, rfl, rfl, rfl, rfl⟩,
      ⟨h.position, hl, h.nextQ, h.curQ⟩, hok, id⟩

end Sys2Proof.Machine
end

