-- ==== Sys2Proof/Laws/Mapper.lean ====
section
/-! SUPPORT. The invariant under the operations of the bus and the mapper: each keeps it, and none fails. -/

namespace Sys2Proof.Machine

/-! ## Small changes -/

/-- Changing the CPU, but for the MAPPER line, keeps the invariant. -/
theorem State.Inv.withCpu {s : State} (h : s.Inv) {c : Cpu} (hc : c.irqLines.mapper = s.cpu.irqLines.mapper) :
    (s.withCpu c).Inv :=
  ⟨⟨h.memories.ram, h.memories.prgRam, h.memories.apuReg, h.memories.vram, h.memories.oam, h.memories.index,
      h.memories.frameOut, h.memories.prg, h.memories.chr⟩,
    ⟨h.mapper.regs, h.mapper.prgOff, h.mapper.chrOff, h.mapper.chrCopy, h.mapper.mirrorCopy, h.mapper.mirrorMask,
      h.mapper.irqLine.trans hc.symm⟩,
    h.timing, ⟨h.cart.someP, h.cart.byteP, h.cart.byteC, h.cart.header⟩, h.config⟩

theorem State.Inv.charge {s : State} (h : s.Inv) (n : Nat) : (charge n s).Inv := h.withCpu rfl

theorem State.Inv.setPc {s : State} (h : s.Inv) (a : Addr) : (setPc a s).Inv := h.withCpu rfl

theorem State.Inv.withBus {s : State} (h : s.Inv) (b : Bus) : State.Inv { s with bus := b } :=
  ⟨⟨h.memories.ram, h.memories.prgRam, h.memories.apuReg, h.memories.vram, h.memories.oam, h.memories.index,
      h.memories.frameOut, h.memories.prg, h.memories.chr⟩,
    ⟨h.mapper.regs, h.mapper.prgOff, h.mapper.chrOff, h.mapper.chrCopy, h.mapper.mirrorCopy, h.mapper.mirrorMask,
      h.mapper.irqLine⟩,
    h.timing, ⟨h.cart.someP, h.cart.byteP, h.cart.byteC, h.cart.header⟩, h.config⟩

/-- Changing the CPU, but for the MAPPER line, and the latch keeps the invariant. -/
theorem State.Inv.withCpuBus {s : State} (h : s.Inv) (c : Cpu) (b : Bus) (hc : c.irqLines.mapper = s.cpu.irqLines.mapper) :
    State.Inv { s with cpu := c, bus := b } := (h.withBus b).withCpu (c := c) hc

theorem State.Inv.withPad {s : State} (h : s.Inv) (p : Pad) : State.Inv { s with pad := p } :=
  ⟨⟨h.memories.ram, h.memories.prgRam, h.memories.apuReg, h.memories.vram, h.memories.oam, h.memories.index,
      h.memories.frameOut, h.memories.prg, h.memories.chr⟩,
    ⟨h.mapper.regs, h.mapper.prgOff, h.mapper.chrOff, h.mapper.chrCopy, h.mapper.mirrorCopy, h.mapper.mirrorMask,
      h.mapper.irqLine⟩,
    h.timing, ⟨h.cart.someP, h.cart.byteP, h.cart.byteC, h.cart.header⟩, h.config⟩

theorem State.Inv.withRam {s : State} (h : s.Inv) {m : Memory} (hm : Memory.Ok Config.ramSize m) :
    State.Inv { s with ram := m } :=
  ⟨⟨hm, h.memories.prgRam, h.memories.apuReg, h.memories.vram, h.memories.oam, h.memories.index,
      h.memories.frameOut, h.memories.prg, h.memories.chr⟩,
    ⟨h.mapper.regs, h.mapper.prgOff, h.mapper.chrOff, h.mapper.chrCopy, h.mapper.mirrorCopy, h.mapper.mirrorMask,
      h.mapper.irqLine⟩,
    h.timing, ⟨h.cart.someP, h.cart.byteP, h.cart.byteC, h.cart.header⟩, h.config⟩

theorem State.Inv.withPrgRam {s : State} (h : s.Inv) {m : Memory} (hm : Memory.Ok Config.prgRamSize m) :
    State.Inv { s with prgRam := m } :=
  ⟨⟨h.memories.ram, hm, h.memories.apuReg, h.memories.vram, h.memories.oam, h.memories.index,
      h.memories.frameOut, h.memories.prg, h.memories.chr⟩,
    ⟨h.mapper.regs, h.mapper.prgOff, h.mapper.chrOff, h.mapper.chrCopy, h.mapper.mirrorCopy, h.mapper.mirrorMask,
      h.mapper.irqLine⟩,
    h.timing, ⟨h.cart.someP, h.cart.byteP, h.cart.byteC, h.cart.header⟩, h.config⟩

theorem State.Inv.withApuReg {s : State} (h : s.Inv) {m : Memory} (hm : Memory.Ok Config.apuRegs m) :
    State.Inv { s with apuReg := m } :=
  ⟨⟨h.memories.ram, h.memories.prgRam, hm, h.memories.vram, h.memories.oam, h.memories.index,
      h.memories.frameOut, h.memories.prg, h.memories.chr⟩,
    ⟨h.mapper.regs, h.mapper.prgOff, h.mapper.chrOff, h.mapper.chrCopy, h.mapper.mirrorCopy, h.mapper.mirrorMask,
      h.mapper.irqLine⟩,
    h.timing, ⟨h.cart.someP, h.cart.byteP, h.cart.byteC, h.cart.header⟩, h.config⟩

/-- A PPU after a register access keeps the invariant. -/
theorem State.Inv.withPpu {s : State} (h : s.Inv) {p : Ppu} (w : Ppu.Written s.ppu p) : (s.withPpu p).Inv :=
  ⟨⟨h.memories.ram, h.memories.prgRam, h.memories.apuReg, w.vram h.memories.vram, w.oam h.memories.oam,
      show Memory.Ok _ p.index from w.kept.index ▸ h.memories.index,
      show Memory.Ok _ p.frameOut from w.kept.frameOut ▸ h.memories.frameOut, h.memories.prg, h.memories.chr⟩,
    ⟨h.mapper.regs, h.mapper.prgOff, h.mapper.chrOff, w.kept.chrOff.trans h.mapper.chrCopy,
      w.kept.mirroring.trans h.mapper.mirrorCopy,
      show p.mirrorMask = p.mirroring.mask by rw [w.kept.mirrorMask, w.kept.mirroring, h.mapper.mirrorMask],
      h.mapper.irqLine⟩,
    w.timing, ⟨h.cart.someP, h.cart.byteP, h.cart.byteC, h.cart.header⟩, h.config⟩

/-- A read keeps the invariant. -/
theorem State.Inv.memRead {s : State} (h : s.Inv) (a : Addr) : (memRead a s).2.Inv := by
  obtain ⟨vb, v, t, w, rb, l, sh1, sh2, heq, hl⟩ := memRead_frame a s
  rw [heq]
  have h1 := h.withPpu (p := { s.ppu with vblank := vb, v := v, t := t, w := w, readBuf := rb, liveLine := l })
  exact ⟨⟨h.memories.ram, h.memories.prgRam, h.memories.apuReg, h.memories.vram, h.memories.oam, h.memories.index,
      h.memories.frameOut, h.memories.prg, h.memories.chr⟩,
    ⟨h.mapper.regs, h.mapper.prgOff, h.mapper.chrOff, h.mapper.chrCopy, h.mapper.mirrorCopy, h.mapper.mirrorMask,
      h.mapper.irqLine⟩,
    ⟨h.timing.position, hl h.timing.live, h.timing.nextQ, h.timing.curQ⟩,
    ⟨h.cart.someP, h.cart.byteP, h.cart.byteC, h.cart.header⟩, h.config⟩

/-! ## The mapper

The setters are used both by a mapper write and by the power-on of a reset, so what they keep is stated of the part of the
invariant that holds in both places. -/

/-- The part of the invariant that the mapper's setters need. -/
structure State.Core (s : State) : Prop where
  memories   : s.MemoriesOk
  regs       : s.mapper.regs.okFor s.cart.variant
  prgOff     : s.console.loaded = true → ∀ j : Fin 4, s.cart.prgOffOk (s.mapper.prgOff.get j)
  chrOff     : ∀ j : Fin 8, s.cart.chrOffOk (s.mapper.chrOff.get j)
  chrCopy    : s.ppu.chrOff = s.mapper.chrOff
  mirrorCopy : s.ppu.mirroring = s.mapper.mirroring
  mirrorMask : s.ppu.mirrorMask = s.ppu.mirroring.mask
  keys       : QueueKeys s.ppu.nextQ
  cart       : s.CartOk
  config     : s.cfg.Legal

theorem State.Inv.core {s : State} (h : s.Inv) : s.Core :=
  ⟨h.memories, h.mapper.regs, h.mapper.prgOff, h.mapper.chrOff, h.mapper.chrCopy, h.mapper.mirrorCopy, h.mapper.mirrorMask,
    h.timing.nextQ.keys (targetLine_le _), h.cart, h.config⟩

theorem State.Core.inv {s : State} (h : s.Core) (ht : s.ppu.TimingOk) (hi : s.mapper.irq = s.cpu.irqLines.mapper) : s.Inv :=
  ⟨h.memories, ⟨h.regs, h.prgOff, h.chrOff, h.chrCopy, h.mirrorCopy, h.mirrorMask, hi⟩, ht, h.cart, h.config⟩

/-- What a mapper write may not change. -/
structure State.Outside (s t : State) : Prop where
  cpu     : t.cpu = { s.cpu with irqLines := ⟨t.cpu.irqLines.mapper, s.cpu.irqLines.external⟩ }
  ram     : t.ram = s.ram
  prgRam  : t.prgRam = s.prgRam
  bus     : t.bus = s.bus
  pad     : t.pad = s.pad
  apuReg  : t.apuReg = s.apuReg
  vram    : t.ppu.vram = s.ppu.vram
  oam     : t.ppu.oam = s.ppu.oam
  console : t.console = s.console
  cart    : t.cart = s.cart
  cfg     : t.cfg = s.cfg
  dots    : t.ppu.dots = s.ppu.dots
  timing  : s.ppu.TimingOk → t.ppu.TimingOk
  irqLine : s.mapper.irq = s.cpu.irqLines.mapper → t.mapper.irq = t.cpu.irqLines.mapper

theorem State.Outside.refl (s : State) : State.Outside s s :=
  ⟨rfl, rfl, rfl, rfl, rfl, rfl, rfl, rfl, rfl, rfl, rfl, rfl, id, id⟩

theorem State.Outside.trans {s t u : State} (h : State.Outside s t) (k : State.Outside t u) : State.Outside s u :=
  ⟨by rw [k.cpu, h.cpu], k.2.trans h.2, k.3.trans h.3, k.4.trans h.4, k.5.trans h.5, k.6.trans h.6, k.7.trans h.7,
    k.8.trans h.8, k.9.trans h.9, k.10.trans h.10, k.11.trans h.11, k.12.trans h.12, fun x => k.13 (h.13 x),
    fun x => k.14 (h.14 x)⟩

/-- The mapper's setters succeed and keep the core; beside the offsets, the mirroring and the recorded events they change the
PPU's scroll only, by a catch-up. -/
structure State.Set (s t : State) : Prop where
  core    : t.Core
  outside : State.Outside s t
  regs    : t.mapper.regs = s.mapper.regs
  irq     : t.mapper.irq = s.mapper.irq
  cpu     : t.cpu = s.cpu
  ppu     : ∃ v ti l o m k q, t.ppu = { s.ppu with
              v := v, t := ti, liveLine := l, chrOff := o, mirroring := m, mirrorMask := k, nextQ := q }
  still   : s.ppu.rendering = false → t.ppu.v = s.ppu.v ∧ t.ppu.t = s.ppu.t

theorem State.Set.refl {s : State} (h : s.Core) : State.Set s s :=
  ⟨h, .refl s, rfl, rfl, rfl, ⟨s.ppu.v, s.ppu.t, s.ppu.liveLine, s.ppu.chrOff, s.ppu.mirroring, s.ppu.mirrorMask,
    s.ppu.nextQ, rfl⟩, fun _ => ⟨rfl, rfl⟩⟩

theorem State.Set.trans {s t u : State} (h : State.Set s t) (k : State.Set t u) : State.Set s u := by
  refine ⟨k.core, h.outside.trans k.outside, k.regs.trans h.regs, k.irq.trans h.irq, k.cpu.trans h.cpu, ?_, ?_⟩
  · obtain ⟨v, ti, l, o, m, j, q, e⟩ := h.ppu
    obtain ⟨v', ti', l', o', m', j', q', e'⟩ := k.ppu
    exact ⟨v', ti', l', o', m', j', q', by rw [e', e]⟩
  · intro hr
    have hrt : t.ppu.rendering = false := by
      obtain ⟨v, ti, l, o, m, j, q, e⟩ := h.ppu
      rw [e]; exact hr
    exact ⟨(k.still hrt).1.trans (h.still hr).1, (k.still hrt).2.trans (h.still hr).2⟩

/-- A mapper operation that succeeds and only sets. -/
def State.Maps (s : State) (r : Except Fault State) : Prop := ∃ t, r = .ok t ∧ State.Set s t

theorem State.Maps.ok {s t : State} (h : State.Set s t) : State.Maps s (.ok t) := ⟨t, rfl, h⟩

/-- Two mapper operations in a row. -/
theorem State.Maps.bind {s : State} {r : Except Fault State} (h : State.Maps s r) {f : State → Except Fault State}
    (hf : ∀ t, t.Core → State.Maps t (f t)) : State.Maps s (r.bind f) := by
  obtain ⟨t, rfl, hs⟩ := h
  obtain ⟨u, hu, hs'⟩ := hf t hs.core
  exact ⟨u, hu, hs.trans hs'⟩

theorem State.Maps.of_set {s t : State} {r : Except Fault State} (h : State.Set s t) (k : State.Maps t r) :
    State.Maps s r := by
  obtain ⟨u, hu, hs⟩ := k
  exact ⟨u, hu, h.trans hs⟩

theorem State.Core.setRegs {s : State} (h : s.Core) {r : MapperRegs} (hr : r.okFor s.cart.variant) : (setRegs r s).Core :=
  ⟨⟨h.memories.ram, h.memories.prgRam, h.memories.apuReg, h.memories.vram, h.memories.oam, h.memories.index,
      h.memories.frameOut, h.memories.prg, h.memories.chr⟩,
    hr, h.prgOff, h.chrOff, h.chrCopy, h.mirrorCopy, h.mirrorMask, h.keys,
    ⟨h.cart.someP, h.cart.byteP, h.cart.byteC, h.cart.header⟩, h.config⟩

theorem setRegs_outside (r : MapperRegs) (s : State) : State.Outside s (setRegs r s) :=
  ⟨rfl, rfl, rfl, rfl, rfl, rfl, rfl, rfl, rfl, rfl, rfl, rfl, id, id⟩

theorem State.Inv.setRegs {s : State} (h : s.Inv) {r : MapperRegs} (hr : r.okFor s.cart.variant) : (setRegs r s).Inv :=
  (h.core.setRegs hr).inv h.timing h.mapper.irqLine

theorem Vector.get_setIfInBounds {α : Type} {n : Nat} (v : Vector α n) (i : Nat) (x : α) (j : Fin n) :
    (v.setIfInBounds i x).get j = if i = j.1 then x else v.get j := by
  simp only [Vector.get_eq_getElem]
  by_cases h : i = j.1
  · subst h; simp
  · simp [h, Vector.getElem_setIfInBounds_ne]

theorem prgBase_dvd (c : Cart) {size b k : Nat} (hs : size % 0x2000 = 0) : (c.prgBase size b + k * 0x2000) % 0x2000 = 0 := by
  unfold Cart.prgBase
  obtain ⟨q, rfl⟩ := Nat.dvd_of_mod_eq_zero hs
  rw [show (b &&& (c.countP (8192 * q) - 1)) * (8192 * q) + k * 8192 = 8192 * ((b &&& (c.countP (8192 * q) - 1)) * q + k) by
    ring]
  simp

theorem chrBase_dvd (c : Cart) {size b k : Nat} (hs : size % 0x400 = 0) : (c.chrBase size b + k * 0x400) % 0x400 = 0 := by
  unfold Cart.chrBase
  obtain ⟨q, rfl⟩ := Nat.dvd_of_mod_eq_zero hs
  rw [show (b &&& (c.countC (1024 * q) - 1)) * (1024 * q) + k * 1024 = 1024 * ((b &&& (c.countC (1024 * q) - 1)) * q + k) by
    ring]
  simp

/-- Mapping a bank gives offsets that are multiples of 8KB inside the data (51_mappers.md R333). -/
theorem mapPrgOff_ok {c : Cart} (hc : 0 < c.nPrg) {size : Nat} (hs : size % 0x2000 = 0) (j0 b : Nat) {off : Vector Nat 4}
    (h : ∀ j, c.prgOffOk (off.get j)) (j : Fin 4) : c.prgOffOk ((mapPrgOff c size j0 b off).get j) := by
  have hpos : 0 < c.prgSize := by unfold Cart.prgSize; omega
  have hdvd : c.prgSize % 0x2000 = 0 := by unfold Cart.prgSize; omega
  have hval : ∀ k, c.prgOffOk ((c.prgBase size b + k * 0x2000) % c.prgSize) := fun k =>
    ⟨by rw [Nat.mod_mod_of_dvd _ (Nat.dvd_of_mod_eq_zero hdvd)]; exact prgBase_dvd c hs, Nat.mod_lt _ hpos⟩
  unfold mapPrgOff
  generalize List.range (size / 0x2000) = l
  induction l generalizing off with
  | nil => exact h j
  | cons k rest ih =>
    refine ih fun j => ?_
    rw [Vector.get_setIfInBounds]
    split
    · exact hval k
    · exact h j

theorem mapPrg_set {s : State} (h : s.Core) {size : Nat} (hs : size % 0x2000 = 0) (j0 b : Nat) :
    State.Set s (mapPrg size j0 b s) :=
  ⟨⟨⟨h.memories.ram, h.memories.prgRam, h.memories.apuReg, h.memories.vram, h.memories.oam, h.memories.index,
      h.memories.frameOut, h.memories.prg, h.memories.chr⟩,
    h.regs, fun hl => mapPrgOff_ok (h.cart.someP hl) hs j0 b (h.prgOff hl), h.chrOff, h.chrCopy, h.mirrorCopy, h.mirrorMask,
    h.keys, ⟨h.cart.someP, h.cart.byteP, h.cart.byteC, h.cart.header⟩, h.config⟩,
    ⟨rfl, rfl, rfl, rfl, rfl, rfl, rfl, rfl, rfl, rfl, rfl, rfl, id, id⟩, rfl, rfl, rfl,
    ⟨s.ppu.v, s.ppu.t, s.ppu.liveLine, s.ppu.chrOff, s.ppu.mirroring, s.ppu.mirrorMask, s.ppu.nextQ, rfl⟩,
    fun _ => ⟨rfl, rfl⟩⟩

theorem setChrSlot_maps {s : State} (h : s.Core) (slot : Fin 8) {off : Nat} (ho : s.cart.chrOffOk off) :
    State.Maps s (setChrSlot slot off s) := by
  obtain ⟨v, t, l, hc, hl⟩ := catchUpIfVisible_eq s.ppu
  obtain ⟨es, he, hk, hq⟩ := record_keys h.config.1 (c := .chrBank slot off) (by simp)
    (p := { s.ppu with v := v, t := t, liveLine := l, chrOff := s.ppu.chrOff.set slot.1 off slot.2 }) h.keys
  simp only [State.Maps, setChrSlot, Ppu.setChrBank, hc, he, bind, Except.bind, pure, Except.pure]
  refine ⟨_, rfl, ?_, ⟨rfl, rfl, rfl, rfl, rfl, rfl, rfl, rfl, rfl, rfl, rfl, rfl, ?_, id⟩, rfl, rfl, rfl, ?_, ?_⟩
  · exact ⟨⟨h.memories.ram, h.memories.prgRam, h.memories.apuReg, h.memories.vram, h.memories.oam, h.memories.index,
        h.memories.frameOut, h.memories.prg, h.memories.chr⟩,
      h.regs, h.prgOff, fun j => by
        rw [Vector.get_eq_getElem, Vector.getElem_set]
        split
        · exact ho
        · exact h.chrOff j,
      by rw [h.chrCopy], h.mirrorCopy, h.mirrorMask, hk,
      ⟨h.cart.someP, h.cart.byteP, h.cart.byteC, h.cart.header⟩, h.config⟩
  · exact fun ht => ⟨ht.position, hl ht.live, hq ht.nextQ, ht.curQ⟩
  · exact ⟨_, _, _, _, s.ppu.mirroring, s.ppu.mirrorMask, _, rfl⟩
  · intro hr
    have := catchUpIfVisible_still hr
    rw [hc] at this
    exact this

theorem setMirror_maps {s : State} (h : s.Core) (m : Mirroring) : State.Maps s (setMirror m s) := by
  obtain ⟨v, t, l, hc, hl⟩ := catchUpIfVisible_eq s.ppu
  obtain ⟨es, he, hk, hq⟩ := record_keys h.config.1 (c := .mirroring m) (by simp)
    (p := { s.ppu with v := v, t := t, liveLine := l, mirroring := m, mirrorMask := m.mask }) h.keys
  simp only [State.Maps, setMirror, Ppu.setMirroring, hc, he, bind, Except.bind, pure, Except.pure]
  refine ⟨_, rfl, ?_, ⟨rfl, rfl, rfl, rfl, rfl, rfl, rfl, rfl, rfl, rfl, rfl, rfl, ?_, id⟩, rfl, rfl, rfl, ?_, ?_⟩
  · exact ⟨⟨h.memories.ram, h.memories.prgRam, h.memories.apuReg, h.memories.vram, h.memories.oam, h.memories.index,
        h.memories.frameOut, h.memories.prg, h.memories.chr⟩,
      h.regs, h.prgOff, h.chrOff, h.chrCopy, rfl, rfl, hk, ⟨h.cart.someP, h.cart.byteP, h.cart.byteC, h.cart.header⟩,
      h.config⟩
  · exact fun ht => ⟨ht.position, hl ht.live, hq ht.nextQ, ht.curQ⟩
  · exact ⟨_, _, _, s.ppu.chrOff, _, _, _, rfl⟩
  · intro hr
    have := catchUpIfVisible_still hr
    rw [hc] at this
    exact this

theorem mapChr_maps {s : State} (h : s.Core) {size : Nat} (hs : size % 0x400 = 0) (j0 b : Nat) :
    State.Maps s (mapChr size j0 b s) := by
  unfold mapChr
  split
  · next hrom =>
    have hpos : 0 < s.cart.chrSize := by
      unfold Cart.chrSize
      simp only [Cart.hasChrRom, decide_eq_true_eq] at hrom
      omega
    have hdvd : s.cart.chrSize % 0x400 = 0 := by unfold Cart.chrSize; omega
    have hval : ∀ k, s.cart.chrOffOk ((s.cart.chrBase size b + k * 0x400) % s.cart.chrSize) := fun k => by
      have hlt := Nat.mod_lt (s.cart.chrBase size b + k * 0x400) hpos
      refine ⟨fun _ => ⟨?_, hlt⟩, ?_⟩
      · rw [Nat.mod_mod_of_dvd _ (Nat.dvd_of_mod_eq_zero hdvd)]
        exact chrBase_dvd _ hs
      · have := h.cart.byteC
        have : s.cart.chrSize < 8192 * 256 := by unfold Cart.chrSize; omega
        omega
    generalize List.range (size / 0x400) = l
    generalize hcart : s.cart = c at hval
    clear hrom hpos hdvd
    induction l generalizing s with
    | nil => exact .ok (.refl h)
    | cons k rest ih =>
      obtain ⟨t, ht, hset⟩ := setChrSlot_maps h (Fin.ofNat 8 (j0 + k)) (off := (c.chrBase size b + k * 0x400) % c.chrSize)
        (by rw [hcart]; exact hval k)
      have hct : t.cart = c := hset.outside.cart.trans hcart
      have := State.Maps.of_set hset (ih hset.core hct)
      simpa only [List.foldlM_cons, hcart, ht, hct, Except.bind, Bind.bind] using this
  · exact .ok (.refl h)

theorem State.Inv.raiseMapperIrq {s : State} (h : s.Inv) : (raiseMapperIrq s).Inv :=
  ⟨⟨h.memories.ram, h.memories.prgRam, h.memories.apuReg, h.memories.vram, h.memories.oam, h.memories.index,
      h.memories.frameOut, h.memories.prg, h.memories.chr⟩,
    ⟨h.mapper.regs, h.mapper.prgOff, h.mapper.chrOff, h.mapper.chrCopy, h.mapper.mirrorCopy, h.mapper.mirrorMask, rfl⟩,
    h.timing, ⟨h.cart.someP, h.cart.byteP, h.cart.byteC, h.cart.header⟩, h.config⟩

theorem State.Core.ackMapperIrq {s : State} (h : s.Core) : (ackMapperIrq s).Core :=
  ⟨⟨h.memories.ram, h.memories.prgRam, h.memories.apuReg, h.memories.vram, h.memories.oam, h.memories.index,
      h.memories.frameOut, h.memories.prg, h.memories.chr⟩,
    h.regs, h.prgOff, h.chrOff, h.chrCopy, h.mirrorCopy, h.mirrorMask, h.keys,
    ⟨h.cart.someP, h.cart.byteP, h.cart.byteC, h.cart.header⟩, h.config⟩

theorem ackMapperIrq_outside (s : State) : State.Outside s (ackMapperIrq s) :=
  ⟨rfl, rfl, rfl, rfl, rfl, rfl, rfl, rfl, rfl, rfl, rfl, rfl, id, fun _ => rfl⟩

/-- A mapper write succeeds, keeps the core and what lies outside the mapper; its registers may change. -/
def State.Switches (s : State) (r : Except Fault State) : Prop := ∃ t, r = .ok t ∧ t.Core ∧ State.Outside s t

theorem State.Maps.switches {s t : State} (ho : State.Outside s t) {r : Except Fault State} (h : State.Maps t r) :
    State.Switches s r := by
  obtain ⟨u, hu, hs⟩ := h
  exact ⟨u, hu, hs.core, ho.trans hs.outside⟩

theorem mmc1Prg_set {s : State} (h : s.Core) (r : Mmc1) : State.Set s (mmc1Prg r s) := by
  unfold mmc1Prg
  dsimp only
  split
  · exact mapPrg_set h rfl _ _
  · exact mapPrg_set h rfl _ _
  · exact (mapPrg_set h rfl _ _).trans (mapPrg_set (mapPrg_set h rfl _ _).core rfl _ _)
  · exact (mapPrg_set h rfl _ _).trans (mapPrg_set (mapPrg_set h rfl _ _).core rfl _ _)

theorem mmc1Chr_maps {s : State} (h : s.Core) (r : Mmc1) : State.Maps s (mmc1Chr r s) := by
  unfold mmc1Chr
  split
  · refine (mapChr_maps h rfl _ _).bind fun t ht => ?_
    exact mapChr_maps ht rfl _ _
  · exact mapChr_maps h rfl _ _

theorem mmc1Apply_maps {s : State} (h : s.Core) (hv : s.cart.variant = .mmc1) {r : Mmc1} (hr : r.shift ≠ 0) :
    State.Maps (setRegs (.mmc1 r) s) (mmc1Apply r s) := by
  unfold mmc1Apply
  refine (setMirror_maps (h.setRegs (by rw [hv]; exact hr)) _).bind fun t ht => ?_
  exact .of_set (mmc1Prg_set ht r) (mmc1Chr_maps (mmc1Prg_set ht r).core r)

theorem mmc1Load_shift (r : Mmc1) (a : Addr) (v : BitVec 5) : (mmc1Load r a v).shift = r.shift := by
  unfold mmc1Load; split <;> rfl

/-- The serial register keeps its marker: a value in 1..$1F with bit 0 clear stays non-zero when shifted right. -/
theorem mmc1_shift_ne_zero (b : BitVec 1) {sh : BitVec 5} (h : sh ≠ 0) (h0 : sh.getLsbD 0 = false) :
    ((b ++ (sh.extractLsb' 1 4 : BitVec 4) : BitVec 5)) ≠ 0 := by
  revert b sh
  decide

theorem mmc1Write_switches {s : State} (h : s.Core) (hv : s.cart.variant = .mmc1) {r : Mmc1} (hr : r.shift ≠ 0) (a : Addr)
    (d : Byte) : State.Switches s (mmc1Write r a d s) := by
  unfold mmc1Write
  split
  · exact (mmc1Apply_maps h hv (by simp)).switches (setRegs_outside _ s)
  · dsimp only
    split
    · exact (mmc1Apply_maps h hv (by simp)).switches (setRegs_outside _ s)
    · next h0 =>
      exact ⟨_, rfl, h.setRegs (by rw [hv]; exact mmc1_shift_ne_zero _ hr (by simpa using h0)), setRegs_outside _ _⟩

theorem mmc3Prg_set {s : State} (h : s.Core) (r : Mmc3) : State.Set s (mmc3Prg r s) := by
  unfold mmc3Prg
  dsimp only
  have four : ∀ j0 b0 j1 b1 j2 b2 j3 b3 : Nat, State.Set s
      (mapPrg 0x2000 j3 b3 (mapPrg 0x2000 j2 b2 (mapPrg 0x2000 j1 b1 (mapPrg 0x2000 j0 b0 s)))) := by
    intro j0 b0 j1 b1 j2 b2 j3 b3
    have h0 := mapPrg_set h (size := 0x2000) rfl j0 b0
    have h1 := mapPrg_set h0.core (size := 0x2000) rfl j1 b1
    have h2 := mapPrg_set h1.core (size := 0x2000) rfl j2 b2
    exact ((h0.trans h1).trans h2).trans (mapPrg_set h2.core rfl j3 b3)
  split <;> exact four _ _ _ _ _ _ _ _

theorem mmc3Chr_maps {s : State} (h : s.Core) (r : Mmc3) : State.Maps s (mmc3Chr r s) := by
  unfold mmc3Chr
  refine (mapChr_maps h rfl _ _).bind fun s h => ?_
  refine (mapChr_maps h rfl _ _).bind fun s h => ?_
  refine (mapChr_maps h rfl _ _).bind fun s h => ?_
  refine (mapChr_maps h rfl _ _).bind fun s h => ?_
  refine (mapChr_maps h rfl _ _).bind fun s h => ?_
  refine (mapChr_maps h rfl _ _).bind fun s h => ?_
  refine (mapChr_maps h rfl _ _).bind fun s h => ?_
  exact mapChr_maps h rfl _ _

theorem mmc3Apply_maps {s : State} (h : s.Core) (hv : s.cart.variant = .mmc3) (r : Mmc3) :
    State.Maps (setRegs (.mmc3 r) s) (mmc3Apply r s) := by
  unfold mmc3Apply
  refine (mmc3Chr_maps (h.setRegs (r := .mmc3 r) (by rw [hv]; trivial)) r).bind fun t ht => ?_
  exact .ok (mmc3Prg_set ht r)

theorem mmc3Write_switches {s : State} (h : s.Core) (hv : s.cart.variant = .mmc3) (r : Mmc3) (a : Addr) (d : Byte) :
    State.Switches s (mmc3Write r a d s) := by
  have hset : ∀ r' : Mmc3, (setRegs (.mmc3 r') s).Core := fun r' => h.setRegs (by rw [hv]; trivial)
  unfold mmc3Write
  split
  · exact (mmc3Apply_maps h hv _).switches (setRegs_outside _ s)
  · exact (mmc3Apply_maps h hv _).switches (setRegs_outside _ s)
  · exact (setMirror_maps h _).switches (.refl s)
  · exact ⟨_, rfl, h, .refl s⟩
  · exact ⟨_, rfl, hset _, setRegs_outside _ _⟩
  · exact ⟨_, rfl, hset _, setRegs_outside _ _⟩
  · exact ⟨_, rfl, (hset _).ackMapperIrq, (setRegs_outside _ _).trans (ackMapperIrq_outside _)⟩
  · exact ⟨_, rfl, hset _, setRegs_outside _ _⟩

/-- A mapper write succeeds and keeps the core of the invariant, whatever the variant. -/
theorem mapperWrite_core {s : State} (h : s.Core) (a : Addr) (d : Byte) : State.Switches s (mapperWrite a d s) := by
  have hreg := h.regs
  unfold mapperWrite
  cases hv : s.cart.variant <;> cases hr : s.mapper.regs <;> rw [hv, hr] at hreg <;> simp only [MapperRegs.okFor] at hreg
  · exact ⟨_, rfl, h, .refl s⟩
  · exact mmc1Write_switches h hv hreg a d
  · have hs := mapPrg_set (h.setRegs (r := .uxrom d) (by rw [hv]; trivial)) (size := 0x4000) rfl 0 d.toNat
    exact ⟨_, rfl, hs.core, (setRegs_outside _ _).trans hs.outside⟩
  · exact (mapChr_maps (h.setRegs (by rw [hv]; trivial)) rfl _ _).switches (setRegs_outside _ _)
  · exact mmc3Write_switches h hv _ a d
  · have hs := mapPrg_set h (size := 0x8000) rfl 0 d.toNat
    exact (setMirror_maps hs.core _).switches hs.outside

/-- A mapper write succeeds and keeps the invariant, whatever the variant: it "must never throw" (51_mappers.md R331). -/
theorem mapperWrite_spec {s : State} (h : s.Inv) (a : Addr) (d : Byte) :
    ∃ t, mapperWrite a d s = .ok t ∧ t.Inv ∧ State.Outside s t := by
  obtain ⟨t, ht, hc, ho⟩ := mapperWrite_core h.core a d
  exact ⟨t, ht, hc.inv (ho.timing h.timing) (ho.irqLine h.mapper.irqLine), ho⟩

/-- The MMC3 clock keeps the invariant (51_mappers.md R360). -/
theorem State.Inv.mmc3Clock {s : State} (h : s.Inv) : (mmc3Clock s).Inv := by
  unfold Machine.mmc3Clock
  split
  · next r hr =>
    have hv : MapperRegs.okFor (.mmc3 r.clocked) s.cart.variant := by
      have := h.mapper.regs
      rw [hr] at this
      cases hv : s.cart.variant <;> rw [hv] at this <;> simp_all [MapperRegs.okFor]
    dsimp only
    split
    · exact (h.setRegs hv).raiseMapperIrq
    · exact h.setRegs hv
  · exact h

theorem mmc3Clock_outside (s : State) : State.Outside s (mmc3Clock s) := by
  unfold mmc3Clock
  split
  · dsimp only
    split
    · exact ⟨rfl, rfl, rfl, rfl, rfl, rfl, rfl, rfl, rfl, rfl, rfl, rfl, id, fun _ => rfl⟩
    · exact setRegs_outside _ _
  · exact .refl s

end Sys2Proof.Machine
end

