-- ==== Sys2Proof/Laws/Step.lean ====
section
/-! SUPPORT. The invariant under bus writes, the shapes of instruction, interrupt entry, and the PPU's clocking: each keeps it,
and none fails. -/

namespace Sys2Proof.Machine

/-! ## Writes by region (50_bus_devices.md R300) -/

theorem memWrite_ram {a : Addr} (h : a.toNat < 0x2000) (d : Byte) (s : State) :
    memWrite a d s = .ok { s with ram := Memory.write s.ram (a.toNat % 0x800) d } := by
  simp only [memWrite, if_pos h]

theorem memWrite_ppu {a : Addr} (h1 : 0x2000 ≤ a.toNat) (h2 : a.toNat < 0x4000) (d : Byte) (s : State) :
    memWrite a d s = (s.ppu.writeReg s.cart s.cfg.eventCapacity (a.setWidth 3) d).map s.withPpu := by
  simp only [memWrite, if_neg (show ¬ a.toNat < 0x2000 by omega), if_pos h2]
  cases s.ppu.writeReg s.cart s.cfg.eventCapacity (a.setWidth 3) d <;> rfl

theorem memWrite_prgRam {a : Addr} (h1 : 0x6000 ≤ a.toNat) (h2 : a.toNat < 0x8000) (d : Byte) (s : State) :
    memWrite a d s = .ok { s with prgRam := Memory.write s.prgRam (a.toNat - 0x6000) d } := by
  simp only [memWrite, if_neg (show ¬ a.toNat < 0x2000 by omega), if_neg (show ¬ a.toNat < 0x4000 by omega),
    if_neg (show ¬ a.toNat < 0x4014 by omega), if_neg (show ¬ a.toNat = 0x4014 by omega),
    if_neg (show ¬ a.toNat = 0x4015 by omega), if_neg (show ¬ a.toNat = 0x4016 by omega),
    if_neg (show ¬ a.toNat = 0x4017 by omega), if_neg (show ¬ a.toNat < 0x6000 by omega), if_pos h2]

theorem memWrite_mapper {a : Addr} (h : 0x8000 ≤ a.toNat) (d : Byte) (s : State) :
    memWrite a d s = mapperWrite a d s := by
  simp only [memWrite, if_neg (show ¬ a.toNat < 0x2000 by omega), if_neg (show ¬ a.toNat < 0x4000 by omega),
    if_neg (show ¬ a.toNat < 0x4014 by omega), if_neg (show ¬ a.toNat = 0x4014 by omega),
    if_neg (show ¬ a.toNat = 0x4015 by omega), if_neg (show ¬ a.toNat = 0x4016 by omega),
    if_neg (show ¬ a.toNat = 0x4017 by omega), if_neg (show ¬ a.toNat < 0x6000 by omega),
    if_neg (show ¬ a.toNat < 0x8000 by omega)]

theorem memWrite_dma {a : Addr} (h : a.toNat = 0x4014) (d : Byte) (s : State) :
    memWrite a d s = .ok (oamDma d s) := by
  simp only [memWrite, h]
  rfl

/-! ## Object-memory DMA (50_bus_devices.md R315) -/

/-- What a run of bus accesses may not change: the memories of the CPU side, the cartridge, the registers but for the cycle
counter and the MAPPER line. -/
structure State.Ran (s t : State) : Prop where
  cpu     : t.cpu = { s.cpu with irqLines := ⟨t.cpu.irqLines.mapper, s.cpu.irqLines.external⟩, cycles := t.cpu.cycles }
  console : t.console = s.console
  cart    : t.cart = s.cart
  cfg     : t.cfg = s.cfg
  dots    : t.ppu.dots = s.ppu.dots

theorem State.Ran.refl (s : State) : State.Ran s s := ⟨rfl, rfl, rfl, rfl, rfl⟩

theorem State.Ran.trans {s t u : State} (h : State.Ran s t) (k : State.Ran t u) : State.Ran s u :=
  ⟨by rw [k.cpu, h.cpu], k.2.trans h.2, k.3.trans h.3, k.4.trans h.4, k.5.trans h.5⟩

theorem memRead_ran (a : Addr) (s : State) : State.Ran s (memRead a s).2 := by
  obtain ⟨_, _, _, _, _, _, _, _, h, _⟩ := memRead_frame a s
  rw [h]; exact ⟨rfl, rfl, rfl, rfl, rfl⟩

theorem dmaByte_spec (page : Byte) {s : State} (h : s.Inv) (i : Nat) :
    (dmaByte page s i).Inv ∧ (dmaByte page s i).cpu = s.cpu ∧ (dmaByte page s i).console = s.console ∧
      (dmaByte page s i).cart = s.cart ∧ (dmaByte page s i).cfg = s.cfg ∧ (dmaByte page s i).ppu.dots = s.ppu.dots := by
  have hi := h.memRead (wordOf page (BitVec.ofNat 8 i))
  refine ⟨?_, by simp [dmaByte], by simp [dmaByte], by simp [dmaByte], by simp [dmaByte], (memRead_ran _ s).dots⟩
  exact hi.withPpu ⟨⟨rfl, rfl, rfl, rfl, rfl, rfl, rfl, rfl, rfl, rfl, rfl, rfl, rfl⟩,
    ⟨hi.timing.position, hi.timing.live, hi.timing.nextQ, hi.timing.curQ⟩, id, fun ho => ho.write (by
      unfold Config.oamSize; exact BitVec.isLt _) _⟩

theorem dmaFold_spec (page : Byte) (l : List Nat) {s : State} (h : s.Inv) :
    (l.foldl (dmaByte page) s).Inv ∧ (l.foldl (dmaByte page) s).cpu = s.cpu ∧
      (l.foldl (dmaByte page) s).console = s.console ∧ (l.foldl (dmaByte page) s).cart = s.cart ∧
      (l.foldl (dmaByte page) s).cfg = s.cfg ∧ (l.foldl (dmaByte page) s).ppu.dots = s.ppu.dots := by
  induction l generalizing s with
  | nil => exact ⟨h, rfl, rfl, rfl, rfl, rfl⟩
  | cons i rest ih =>
    obtain ⟨hi, h1, h2, h3, h4, h5⟩ := dmaByte_spec page h i
    obtain ⟨hi', h1', h2', h3', h4', h5'⟩ := ih hi
    exact ⟨hi', h1'.trans h1, h2'.trans h2, h3'.trans h3, h4'.trans h4, h5'.trans h5⟩

/-! ## Every write -/

/-- The cycles a write adds to its step (50_bus_devices.md R316). -/
def writeCost (a : Addr) : Nat := if a.toNat = 0x4014 then 513 else 0

/-- A write succeeds and keeps the invariant; of the CPU it changes only the MAPPER line and, for the DMA, the cycle
counter. -/
theorem memWrite_spec {s : State} (h : s.Inv) (a : Addr) (d : Byte) :
    ∃ t, memWrite a d s = .ok t ∧ t.Inv ∧ State.Ran s t ∧ t.cpu.cycles = s.cpu.cycles + writeCost a := by
  by_cases h1 : a.toNat < 0x2000
  · rw [memWrite_ram h1]
    exact ⟨_, rfl, h.withRam (h.memories.ram.write (by unfold Config.ramSize; omega) d), ⟨rfl, rfl, rfl, rfl, rfl⟩,
      by simp [writeCost]; omega⟩
  by_cases h2 : a.toNat < 0x4000
  · rw [memWrite_ppu (by omega) h2]
    obtain ⟨q, hq, hw⟩ := writeReg_written (cart := s.cart) h.config.1 (a.setWidth 3) d h.timing
    rw [hq]
    exact ⟨_, rfl, h.withPpu hw, ⟨rfl, rfl, rfl, rfl, hw.kept.dots⟩, by simp [writeCost]; omega⟩
  by_cases h3 : a.toNat < 0x4014
  · refine ⟨{ s with apuReg := Memory.write s.apuReg (a.toNat - 0x4000) d }, ?_, ?_, ⟨rfl, rfl, rfl, rfl, rfl⟩, ?_⟩
    · simp only [memWrite, if_neg h1, if_neg h2, if_pos h3]
    · exact h.withApuReg (h.memories.apuReg.write (by unfold Config.apuRegs; omega) d)
    · simp [writeCost]; omega
  by_cases h4 : a.toNat = 0x4014
  · rw [memWrite_dma h4]
    obtain ⟨hi, hc, hk, hcart, hcfg, hdots⟩ := dmaFold_spec d (List.range 256) h
    exact ⟨_, rfl, hi.charge 513, ⟨by simp [oamDma, charge, hc], hk, hcart, hcfg, hdots⟩, by simp [oamDma, hc, writeCost, h4]⟩
  by_cases h5 : a.toNat = 0x4015
  · refine ⟨{ s with apuReg := Memory.write s.apuReg 0x15 d }, ?_, ?_, ⟨rfl, rfl, rfl, rfl, rfl⟩, by simp [writeCost, h4]⟩
    · simp only [memWrite, if_neg h1, if_neg h2, if_neg h3, if_neg h4, if_pos h5]
    · exact h.withApuReg (h.memories.apuReg.write (by unfold Config.apuRegs; omega) d)
  by_cases h6 : a.toNat = 0x4016
  · refine ⟨{ s with pad := s.pad.write d }, ?_, h.withPad _, ⟨rfl, rfl, rfl, rfl, rfl⟩, by simp [writeCost, h4]⟩
    simp only [memWrite, if_neg h1, if_neg h2, if_neg h3, if_neg h4, if_neg h5, if_pos h6]
  by_cases h7 : a.toNat = 0x4017
  · refine ⟨{ s with apuReg := Memory.write s.apuReg 0x17 d }, ?_, ?_, ⟨rfl, rfl, rfl, rfl, rfl⟩, by simp [writeCost, h4]⟩
    · simp only [memWrite, if_neg h1, if_neg h2, if_neg h3, if_neg h4, if_neg h5, if_neg h6, if_pos h7]
    · exact h.withApuReg (h.memories.apuReg.write (by unfold Config.apuRegs; omega) d)
  by_cases h8 : a.toNat < 0x6000
  · refine ⟨s, ?_, h, .refl s, by simp [writeCost, h4]⟩
    simp only [memWrite, if_neg h1, if_neg h2, if_neg h3, if_neg h4, if_neg h5, if_neg h6, if_neg h7, if_pos h8]
  by_cases h9 : a.toNat < 0x8000
  · rw [memWrite_prgRam (by omega) h9]
    exact ⟨_, rfl, h.withPrgRam (h.memories.prgRam.write (by unfold Config.prgRamSize; omega) d), ⟨rfl, rfl, rfl, rfl, rfl⟩,
      by simp [writeCost, h4]⟩
  · rw [memWrite_mapper (by omega)]
    obtain ⟨t, ht, hi, ho⟩ := mapperWrite_spec h a d
    refine ⟨t, ht, hi, ⟨?_, ho.console, ho.cart, ho.cfg, ho.dots⟩, ?_⟩
    · rw [ho.cpu]
    · rw [ho.cpu]; simp [writeCost, h4]

/-! ## The stack and the handlers -/

theorem State.Inv.pushed {s : State} (h : s.Inv) (v : Byte) : (pushed v s).Inv := by
  have := s.cpu.sp.isLt
  exact (h.withRam (h.memories.ram.write (a := 256 + s.cpu.sp.toNat) (by unfold Config.ramSize; omega) v)).withCpu
    (c := { s.cpu with sp := s.cpu.sp - 1 }) rfl

theorem State.Inv.entered {s : State} (h : s.Inv) (vec ret : Addr) (b : Bool) : (entered vec ret b s).Inv :=
  (((h.pushed (hiByte ret)).pushed (loByte ret)).pushed (statusByte b s.cpu)).withCpuBus _ _ rfl

/-! ## The shapes of instruction -/

/-- A result that is a next state with the invariant, the same cartridge, configuration and PPU position, and a cycle counter at
least `k` higher. -/
def State.Goes (k : Nat) (s : State) (r : Result) : Prop :=
  ∃ t, r = .next t ∧ t.Inv ∧ t.console = s.console ∧ t.cart = s.cart ∧ t.cfg = s.cfg ∧
    t.ppu.dots = s.ppu.dots ∧ s.cpu.cycles + k ≤ t.cpu.cycles

theorem State.Inv.effAddr {s : State} (h : s.Inv) (m : Mem) : (effAddr m s).state.Inv := by
  obtain ⟨b, hb⟩ := effAddr_state m s
  rw [hb]; exact h.withBus b

theorem State.Inv.readSrc {s : State} (h : s.Inv) (src : Src) : (readSrc src s).state.Inv := by
  cases src with
  | imm o => exact h
  | mem m => exact (h.effAddr m).memRead _

theorem readSrc_ran (src : Src) (s : State) : State.Ran s (readSrc src s).state := by
  cases src with
  | imm o => exact .refl s
  | mem m =>
    obtain ⟨b, hb⟩ := effAddr_state m s
    refine State.Ran.trans (t := (effAddr m s).state) ?_ (memRead_ran _ _)
    rw [hb]; exact ⟨rfl, rfl, rfl, rfl, rfl⟩

theorem two_le_readCycles (src : Src) (c : Bool) : 2 ≤ readCycles src c := by
  unfold readCycles; split <;> omega

theorem two_le_storeCycles (m : Mem) : 2 ≤ storeCycles m := by unfold storeCycles; split <;> omega

theorem two_le_modifyCycles (m : Mem) : 2 ≤ modifyCycles m := by unfold modifyCycles; split <;> omega

theorem readInstr_goes {s : State} (h : s.Inv) (src : Src) {f : Byte → Cpu → Cpu}
    (hf : ∀ b c, (f b c).irqLines = c.irqLines ∧ (f b c).cycles = c.cycles) : State.Goes 2 s (readInstr src f s) := by
  have hr := readSrc_ran src s
  refine ⟨_, rfl, ((h.readSrc src).withCpu (by rw [(hf _ _).1])).charge _, hr.console, hr.cart, hr.cfg, hr.dots, ?_⟩
  have := two_le_readCycles src (readSrc src s).crossed
  simp [(hf _ _).2]
  omega

theorem storeInstr_goes {s : State} (h : s.Inv) (m : Mem) (reg : Cpu → Byte) : State.Goes 2 s (storeInstr m reg s) := by
  obtain ⟨t, ht, hi, hr, hc⟩ := memWrite_spec (h.effAddr m) (effAddr m s).addr (reg (effAddr m s).state.cpu)
  simp only [storeInstr, ht]
  refine ⟨_, rfl, hi.charge _, by simpa using hr.console, by simpa using hr.cart, by simpa using hr.cfg,
    hr.dots.trans (by simp), ?_⟩
  have := two_le_storeCycles m
  simp [hc]
  omega

theorem modifyInstr_goes {s : State} (h : s.Inv) (m : Mem) (result : Byte → Bool → Byte) {flags : Byte → Cpu → Cpu}
    (hf : ∀ b c, (flags b c).irqLines = c.irqLines ∧ (flags b c).cycles = c.cycles) :
    State.Goes 2 s (modifyInstr m result flags s) := by
  have hm := (h.effAddr m).memRead (effAddr m s).addr
  obtain ⟨t, ht, hi, hr, hc⟩ := memWrite_spec hm (effAddr m s).addr
    (result (memRead (effAddr m s).addr (effAddr m s).state).1 (memRead (effAddr m s).addr (effAddr m s).state).2.cpu.c)
  simp only [modifyInstr, ht]
  refine ⟨_, rfl, (hi.withCpu (by rw [(hf _ _).1])).charge _, by simpa using hr.console, by simpa using hr.cart,
    by simpa using hr.cfg,
    hr.dots.trans ((memRead_ran _ _).dots.trans (by simp)), ?_⟩
  have := two_le_modifyCycles m
  simp [hc, (hf _ _).2]
  omega

theorem shiftInstr_goes {s : State} (h : s.Inv) (dst : Rmw) (result : Byte → Bool → Byte) (out : Byte → Bool) :
    State.Goes 2 s (shiftInstr dst result out s) := by
  cases dst with
  | acc =>
    refine ⟨_, rfl, ?_, rfl, rfl, rfl, rfl, by simp [shiftFlags]⟩
    exact (h.withCpu (c := { shiftFlags result out s.cpu.a s.cpu with a := result s.cpu.a s.cpu.c }) rfl).charge 2
  | mem m => exact modifyInstr_goes h m _ fun b c => ⟨rfl, rfl⟩

theorem branchInstr_goes {s : State} (h : s.Inv) (cond : Bool) (rel : Byte) : State.Goes 2 s (branchInstr cond rel s) := by
  unfold branchInstr
  dsimp only
  split
  · exact ⟨_, rfl, (h.setPc _).charge _, rfl, rfl, rfl, rfl, by simp; omega⟩
  · exact ⟨_, rfl, h.charge _, rfl, rfl, rfl, rfl, by simp⟩

theorem impliedInstr_goes {s : State} (h : s.Inv) {n : Nat} (hn : 2 ≤ n) {f : Cpu → Cpu}
    (hf : ∀ c, (f c).irqLines = c.irqLines ∧ (f c).cycles = c.cycles) : State.Goes 2 s (impliedInstr n f s) :=
  ⟨_, rfl, (h.withCpu (by rw [(hf _).1])).charge _, rfl, rfl, rfl, rfl, by simp [(hf _).2]; omega⟩

theorem undefinedInstr_goes {s : State} (h : s.Inv) (hp : s.cfg.undefinedOpcode = .nop) (op : Byte) (length : Nat)
    {cost : Nat} (hc : 2 ≤ cost) : State.Goes 2 s (undefinedInstr op length cost s) := by
  unfold undefinedInstr
  rw [hp]
  exact ⟨_, rfl, h.charge _, rfl, rfl, rfl, rfl, by simp; omega⟩

theorem push_goes {s : State} (h : s.Inv) (v : Byte) : State.Goes 2 s (complete ((push v s).map (charge 3))) := by
  rw [push_eq]
  exact ⟨_, rfl, (h.pushed v).charge 3, rfl, rfl, rfl, rfl, by simp [pushed]⟩

theorem pull_goes {s : State} (h : s.Inv) {f : Byte → Cpu → Cpu}
    (hf : ∀ b c, (f b c).irqLines = c.irqLines ∧ (f b c).cycles = c.cycles) :
    State.Goes 2 s (.next (charge 4 ((pull s).2.withCpu (f (pull s).1 (pull s).2.cpu)))) := by
  rw [pull_eq]
  have hi : State.Inv { s with cpu := { s.cpu with sp := s.cpu.sp + 1 }, bus := ⟨s.peek (stackAddr (s.cpu.sp + 1))⟩ } :=
    h.withCpuBus _ _ rfl
  exact ⟨_, rfl, (hi.withCpu (by rw [(hf _ _).1])).charge 4, rfl, rfl, rfl, rfl, by simp [(hf _ _).2]⟩

theorem entered_goes {s : State} (h : s.Inv) {vec : Addr} (h1 : isMemory vec) (h2 : isMemory (vec + 1)) (ret : Addr)
    (b : Bool) : State.Goes 2 s (complete ((enterVector vec ret b s).map (charge 7))) := by
  rw [enterVector_eq h1 h2]
  exact ⟨_, rfl, (h.entered vec ret b).charge 7, rfl, rfl, rfl, rfl, by simp [entered, pushed]⟩

/-! ## Fetching -/

theorem State.Inv.fetchByte {s : State} (h : s.Inv) : (fetchByte s).2.Inv := (h.memRead _).setPc _

theorem fetchByte_kept (s : State) : (fetchByte s).2.console = s.console ∧ (fetchByte s).2.cart = s.cart ∧
    (fetchByte s).2.cfg = s.cfg ∧ (fetchByte s).2.cpu.cycles = s.cpu.cycles := by
  simp [fetchByte]

/-- Fetching an instruction keeps the invariant and costs nothing by itself. -/
theorem State.Inv.fetchInstr {s : State} (h : s.Inv) : (fetchInstr s).2.Inv ∧ (fetchInstr s).2.console = s.console ∧
    (fetchInstr s).2.cart = s.cart ∧ (fetchInstr s).2.cfg = s.cfg ∧ (fetchInstr s).2.cpu.cycles = s.cpu.cycles := by
  have k1 := fetchByte_kept s
  have k2 := fetchByte_kept (Machine.fetchByte s).2
  have k3 := fetchByte_kept (Machine.fetchByte (Machine.fetchByte s).2).2
  unfold Machine.fetchInstr
  dsimp only
  split
  · exact ⟨h.fetchByte, k1⟩
  · exact ⟨h.fetchByte.fetchByte, k2.1.trans k1.1, k2.2.1.trans k1.2.1, k2.2.2.1.trans k1.2.2.1, k2.2.2.2.trans k1.2.2.2⟩
  · exact ⟨h.fetchByte.fetchByte.fetchByte, k3.1.trans (k2.1.trans k1.1), k3.2.1.trans (k2.2.1.trans k1.2.1),
      k3.2.2.1.trans (k2.2.2.1.trans k1.2.2.1), k3.2.2.2.trans (k2.2.2.2.trans k1.2.2.2)⟩

/-! ## The PPU's clocking (53_ppu_timing_events.md R401-R403) -/

theorem spriteZeroCheck_timing (cart : Cart) (line : Nat) {p : Ppu} (h : p.TimingOk) : (spriteZeroCheck cart line p).TimingOk :=
  ⟨h.position, h.live, h.nextQ, h.curQ⟩

theorem CallbackAction.run_spec {s : State} (h : s.Inv) (a : CallbackAction) :
    (CallbackAction.run s a).Inv ∧ (CallbackAction.run s a).cart = s.cart ∧ (CallbackAction.run s a).cfg = s.cfg ∧
      (CallbackAction.run s a).console = s.console ∧ (CallbackAction.run s a).cpu.cycles = s.cpu.cycles ∧
      (CallbackAction.run s a).ppu = s.ppu := by
  cases a with
  | setButtons1 m => exact ⟨h.withPad _, rfl, rfl, rfl, rfl, rfl⟩
  | setButtons2 m => exact ⟨h.withPad _, rfl, rfl, rfl, rfl, rfl⟩
  | pause b => exact ⟨h.withCpu rfl, rfl, rfl, rfl, rfl, rfl⟩

theorem State.Inv.withConsole {s : State} (h : s.Inv) {k : Console} (hk : k.loaded = s.console.loaded) :
    State.Inv { s with console := k } :=
  ⟨⟨h.memories.ram, h.memories.prgRam, h.memories.apuReg, h.memories.vram, h.memories.oam, h.memories.index,
      h.memories.frameOut, h.memories.prg, h.memories.chr⟩,
    ⟨h.mapper.regs, fun hl => h.mapper.prgOff (hk.symm.trans hl), h.mapper.chrOff, h.mapper.chrCopy, h.mapper.mirrorCopy,
      h.mapper.mirrorMask, h.mapper.irqLine⟩,
    h.timing, ⟨fun hl => h.cart.someP (hk.symm.trans hl), h.cart.byteP, h.cart.byteC, h.cart.header⟩, h.config⟩

/-- The vblank callback keeps the invariant; it can change only the buttons, the pause bit and its own remaining calls
(55_console_host.md R472). -/
theorem callVblank_spec {s : State} (h : s.Inv) : (callVblank s).Inv ∧ (callVblank s).cart = s.cart ∧
    (callVblank s).cfg = s.cfg ∧ (callVblank s).console.loaded = s.console.loaded ∧
    (callVblank s).cpu.cycles = s.cpu.cycles ∧ (callVblank s).ppu = s.ppu := by
  unfold callVblank
  split
  · next actions rest _ =>
    have hfold : ∀ (l : List CallbackAction) {t : State}, t.Inv → (l.foldl CallbackAction.run t).Inv ∧
        (l.foldl CallbackAction.run t).cart = t.cart ∧ (l.foldl CallbackAction.run t).cfg = t.cfg ∧
        (l.foldl CallbackAction.run t).console.loaded = t.console.loaded ∧
        (l.foldl CallbackAction.run t).cpu.cycles = t.cpu.cycles ∧ (l.foldl CallbackAction.run t).ppu = t.ppu := by
      intro l
      induction l with
      | nil => intro t ht; exact ⟨ht, rfl, rfl, rfl, rfl, rfl⟩
      | cons a l ih =>
        intro t ht
        obtain ⟨h1, h2, h3, h4, h5, h6⟩ := CallbackAction.run_spec ht a
        obtain ⟨k1, k2, k3, k4, k5, k6⟩ := ih h1
        exact ⟨k1, k2.trans h2, k3.trans h3, k4.trans (by rw [h4]), k5.trans h5, k6.trans h6⟩
    exact hfold actions (h.withConsole (k := { s.console with vblankCallback := some ⟨rest⟩ }) rfl)
  · exact ⟨h, rfl, rfl, rfl, rfl, rfl⟩

theorem mmc3Clock_withPpu (s : State) (p : Ppu) : mmc3Clock (s.withPpu p) = (mmc3Clock s).withPpu p := by
  unfold mmc3Clock
  simp only [withPpu_mapper]
  split
  · split <;> rfl
  · rfl

theorem mmc3Clock_ppu (s : State) : (mmc3Clock s).ppu = s.ppu := by
  unfold mmc3Clock
  split
  · dsimp only
    split <;> rfl
  · rfl

/-- The invariant after a new PPU: what must be shown of it. -/
theorem State.Inv.newPpu {s : State} (h : s.Inv) {p : Ppu} (hv : p.vram = s.ppu.vram) (ho : p.oam = s.ppu.oam)
    (hi : Memory.Ok (Config.screenH * Config.screenW) p.index) (hf : Memory.Ok (Config.screenH * Config.screenW) p.frameOut)
    (hc : p.chrOff = s.ppu.chrOff) (hm : p.mirroring = s.ppu.mirroring) (hk : p.mirrorMask = s.ppu.mirrorMask)
    (ht : p.TimingOk) : (s.withPpu p).Inv :=
  ⟨⟨h.memories.ram, h.memories.prgRam, h.memories.apuReg, show Memory.Ok _ p.vram from hv ▸ h.memories.vram,
      show Memory.Ok _ p.oam from ho ▸ h.memories.oam, hi, hf, h.memories.prg, h.memories.chr⟩,
    ⟨h.mapper.regs, h.mapper.prgOff, h.mapper.chrOff, hc.trans h.mapper.chrCopy, hm.trans h.mapper.mirrorCopy,
      show p.mirrorMask = p.mirroring.mask by rw [hk, hm, h.mapper.mirrorMask], h.mapper.irqLine⟩,
    ht, ⟨h.cart.someP, h.cart.byteP, h.cart.byteC, h.cart.header⟩, h.config⟩

theorem QueueOk.nil (last : Nat) : QueueOk last [] := ⟨.nil, by simp, .nil, by simp⟩

theorem QueueOk.mono {a b : Nat} (h : a ≤ b) {q : List Event} (hq : QueueOk a q) : QueueOk b q :=
  ⟨hq.sorted, hq.noStop, hq.distinct, fun e he => (hq.targets e he).trans h⟩

theorem render_index_ok (cart : Cart) (p : Ppu) : Memory.Ok (Config.screenH * Config.screenW) (render cart p).index := by
  unfold render drawLines
  generalize Config.screenH * Config.screenW = n
  exact Memory.ok_tabulate n _

theorem render_frameOut_ok (cart : Cart) (p : Ppu) :
    Memory.Ok (Config.screenH * Config.screenW) (render cart p).frameOut := by
  unfold render palettePass
  generalize Config.screenH * Config.screenW = n
  exact Memory.ok_tabulate n _

/-- `setVBlank()` on a PPU whose position is already that of line 240 (R402). -/
theorem setVblank_spec {s : State} (h : s.Inv) {p : Ppu} (hv : p.vram = s.ppu.vram) (ho : p.oam = s.ppu.oam)
    (hc : p.chrOff = s.ppu.chrOff) (hm : p.mirroring = s.ppu.mirroring) (hk : p.mirrorMask = s.ppu.mirrorMask)
    (hpos : p.line = p.dots / Config.dotsPerLine % Config.linesPerFrame) (hq : QueueOk Config.vblankLine p.nextQ) :
    (setVblank (s.withPpu p)).Inv ∧ (setVblank (s.withPpu p)).cart = s.cart ∧ (setVblank (s.withPpu p)).cfg = s.cfg ∧
      (setVblank (s.withPpu p)).console.loaded = s.console.loaded ∧
      (setVblank (s.withPpu p)).cpu.cycles = s.cpu.cycles ∧ (setVblank (s.withPpu p)).ppu.line = p.line ∧
      (setVblank (s.withPpu p)).ppu.dots = p.dots ∧ (setVblank (s.withPpu p)).ppu.frame = p.frame + 1 := by
  have key : ∀ t : State, t.Inv → ∀ q : Ppu, q = render t.cart p.enterVblank → t.ppu.vram = p.vram → t.ppu.oam = p.oam →
      t.ppu.chrOff = p.chrOff → t.ppu.mirroring = p.mirroring → t.ppu.mirrorMask = p.mirrorMask →
      (callVblank (t.withPpu q)).Inv ∧ (callVblank (t.withPpu q)).cart = t.cart ∧ (callVblank (t.withPpu q)).cfg = t.cfg ∧
      (callVblank (t.withPpu q)).console.loaded = t.console.loaded ∧
      (callVblank (t.withPpu q)).cpu.cycles = t.cpu.cycles ∧ (callVblank (t.withPpu q)).ppu.line = p.line ∧
      (callVblank (t.withPpu q)).ppu.dots = p.dots ∧ (callVblank (t.withPpu q)).ppu.frame = p.frame + 1 := by
    intro t ht q hq' h1 h2 h3 h4 h5
    have hinv : (t.withPpu q).Inv := by
      subst hq'
      refine ht.newPpu h1.symm h2.symm (render_index_ok _ _) (render_frameOut_ok _ _) h3.symm h4.symm h5.symm ?_
      exact ⟨hpos, Nat.zero_le _, QueueOk.nil _, .inr ⟨p.nextQ, hq, rfl⟩⟩
    obtain ⟨k1, k2, k3, k4, k5, k6⟩ := callVblank_spec hinv
    refine ⟨k1, k2, k3, k4, k5, ?_, ?_, ?_⟩ <;> rw [k6] <;> subst hq' <;> rfl
  unfold setVblank
  dsimp only
  split
  · exact key (raiseNmi s) (h.withCpu rfl) _ rfl hv.symm ho.symm hc.symm hm.symm hk.symm
  · exact key s h _ rfl hv.symm ho.symm hc.symm hm.symm hk.symm

/-- One dot of the PPU's advance succeeds and keeps the invariant; it moves the dot counter by one and touches neither the
cycle counter nor the cartridge. -/
theorem tickDot_spec {s : State} (h : s.Inv) : ∃ t, tickDot s = .ok t ∧ t.Inv ∧ t.cart = s.cart ∧ t.cfg = s.cfg ∧
    t.console.loaded = s.console.loaded ∧ t.cpu.cycles = s.cpu.cycles ∧ t.ppu.dots = s.ppu.dots + 1 ∧
    t.ppu.frame = s.ppu.frame + (if (s.ppu.dots + 1) % 341 = 0 ∧ (s.ppu.dots + 1) / 341 % 262 = 240 then 1 else 0) := by
  have hpos := h.timing.position
  have hlive := h.timing.live
  unfold tickDot
  simp only [Config.dotsPerLine, Config.linesPerFrame] at *
  by_cases hb : (s.ppu.dots + 1) % 341 = 0
  · simp only [hb, if_true]
    unfold lineBoundary
    have hcl : clocksMapper (s.withPpu { s.ppu with dots := s.ppu.dots + 1 }).ppu = clocksMapper s.ppu := rfl
    rw [hcl, mmc3Clock_withPpu]
    obtain ⟨u, hu, hui, hucart, hucfg, huk, hucyc, hup⟩ : ∃ u : State,
        (if clocksMapper s.ppu = true then (mmc3Clock s).withPpu { s.ppu with dots := s.ppu.dots + 1 }
          else s.withPpu { s.ppu with dots := s.ppu.dots + 1 }) = u.withPpu { s.ppu with dots := s.ppu.dots + 1 } ∧
        u.Inv ∧ u.cart = s.cart ∧ u.cfg = s.cfg ∧ u.console = s.console ∧ u.cpu.cycles = s.cpu.cycles ∧ u.ppu = s.ppu := by
      split
      · have ho := mmc3Clock_outside s
        exact ⟨mmc3Clock s, rfl, h.mmc3Clock, ho.cart, ho.cfg, ho.console, by rw [ho.cpu], mmc3Clock_ppu s⟩
      · exact ⟨s, rfl, h, rfl, rfl, rfl, rfl, rfl⟩
    rw [hu]
    obtain ⟨L, hL⟩ : ∃ L, L = (s.ppu.dots + 1) / 341 % 262 := ⟨_, rfl⟩
    rw [← hL]
    have hnext : L = (s.ppu.line + 1) % 262 := by omega
    have hl262 : s.ppu.line < 262 := by omega
    obtain ⟨p, hp⟩ : ∃ p : Ppu, p = { s.ppu with dots := s.ppu.dots + 1, line := L } := ⟨_, rfl⟩
    have hsp : State.withPpu (u.withPpu { s.ppu with dots := s.ppu.dots + 1 })
        { (u.withPpu { s.ppu with dots := s.ppu.dots + 1 }).ppu with line := L } = u.withPpu p := by rw [hp]; rfl
    unfold setHcount
    rw [hsp]
    have e1 : p.vram = u.ppu.vram := by rw [hp, hup]
    have e2 : p.oam = u.ppu.oam := by rw [hp, hup]
    have e3 : p.chrOff = u.ppu.chrOff := by rw [hp, hup]
    have e4 : p.mirroring = u.ppu.mirroring := by rw [hp, hup]
    have e5 : p.mirrorMask = u.ppu.mirrorMask := by rw [hp, hup]
    have e6 : p.line = p.dots / 341 % 262 := by rw [hp]; exact hL
    have e7 : p.line = L := by rw [hp]
    have e8 : p.dots = s.ppu.dots + 1 := by rw [hp]
    have e9 : p.nextQ = s.ppu.nextQ := by rw [hp]
    have e10 : p.curQ = s.ppu.curQ := by rw [hp]
    have e11 : p.liveLine = s.ppu.liveLine := by rw [hp]
    have e12 : p.frame = s.ppu.frame := by rw [hp]
    have e13 : p.index = u.ppu.index := by rw [hp, hup]
    have e14 : p.frameOut = u.ppu.frameOut := by rw [hp, hup]
    clear hp hsp
    by_cases h240 : L = 240
    · obtain ⟨k1, k2, k3, k4, k5, k6, k7, k8⟩ := setVblank_spec hui e1 e2 e3 e4 e5 e6
        (by rw [e9]; exact h.timing.nextQ.mono (targetLine_le _))
      simp only [h240, Config.vblankLine, Config.prerenderLine]
      refine ⟨setVblank (u.withPpu p), rfl, k1, k2.trans hucart, k3.trans hucfg, k4.trans (by rw [huk]), k5.trans hucyc,
        k7.trans e8, ?_⟩
      rw [k8, e12]; simp
    · have htl : targetLine s.ppu.line ≤ targetLine L := by unfold targetLine; split <;> split <;> omega
      have htim : p.TimingOk := ⟨e6, by rw [e11, e7]; exact hlive.trans htl,
        by rw [e9, e7]; exact h.timing.nextQ.mono htl, by rw [e10]; exact h.timing.curQ⟩
      have hinv : (u.withPpu p).Inv := hui.newPpu e1 e2 (e13 ▸ hui.memories.index) (e14 ▸ hui.memories.frameOut) e3 e4 e5 htim
      have hfr : ¬ (True ∧ L = 240) := by tauto
      simp only [if_neg (show ¬ L = Config.vblankLine from h240), if_neg hfr, Nat.add_zero]
      by_cases h261 : L = 261
      · obtain ⟨q, hq⟩ : ∃ q : Ppu, q = { p with
          vblank := false
          hit := false
          v := if p.rendering then p.t else p.v
          liveLine := 0 } := ⟨_, rfl⟩
        have hqt : q.TimingOk := by
          rw [hq]; exact ⟨htim.position, Nat.zero_le _, htim.nextQ, htim.curQ⟩
        obtain ⟨es, he, ht⟩ := record_timing hui.config.1 (c := q.scrollChange) (by simp [Ppu.scrollChange]) hqt
        have hcv : (u.withPpu p).ppu.clearVblank (u.withPpu p).cfg.eventCapacity = .ok { q with nextQ := es } := by
          rw [← he, hq]; rfl
        simp only [h261, Config.prerenderLine, if_true, hcv]
        subst hq
        exact ⟨_, rfl, hinv.newPpu rfl rfl (e13 ▸ hui.memories.index) (e14 ▸ hui.memories.frameOut) rfl rfl rfl ht,
          hucart, hucfg, by rw [← huk]; rfl, hucyc, e8, e12⟩
      · simp only [if_neg (show ¬ L = Config.prerenderLine from h261)]
        simp only [bind, Except.bind, pure, Except.pure]
        split
        · exact ⟨_, rfl, hinv.newPpu rfl rfl (e13 ▸ hui.memories.index) (e14 ▸ hui.memories.frameOut) rfl rfl rfl
            (spriteZeroCheck_timing _ _ htim), hucart, hucfg, by rw [← huk]; rfl, hucyc, e8, e12⟩
        · exact ⟨_, rfl, hinv, hucart, hucfg, by rw [← huk]; rfl, hucyc, e8, e12⟩
  · simp only [hb, if_false, false_and]
    refine ⟨_, rfl, ?_, rfl, rfl, rfl, rfl, rfl, rfl⟩
    exact h.newPpu rfl rfl h.memories.index h.memories.frameOut rfl rfl rfl
      ⟨by simp only [Config.dotsPerLine, Config.linesPerFrame]; omega, hlive, h.timing.nextQ, h.timing.curQ⟩

/-- Any number of dots: the advance succeeds, keeps the invariant, and counts every dot. -/
theorem advanceDots_spec (n : Nat) {s : State} (h : s.Inv) : ∃ t, advanceDots n s = .ok t ∧ t.Inv ∧ t.cart = s.cart ∧
    t.cfg = s.cfg ∧ t.console.loaded = s.console.loaded ∧ t.cpu.cycles = s.cpu.cycles ∧
    t.ppu.dots = s.ppu.dots + n := by
  induction n generalizing s with
  | zero => exact ⟨s, rfl, h, rfl, rfl, rfl, rfl, rfl⟩
  | succ n ih =>
    obtain ⟨u, hu, hi, h1, h2, h3, h4, h5, _⟩ := tickDot_spec h
    obtain ⟨t, ht, hi', k1, k2, k3, k4, k5⟩ := ih hi
    refine ⟨t, ?_, hi', k1.trans h1, k2.trans h2, k3.trans h3, k4.trans h4, by omega⟩
    simp only [advanceDots, hu]
    exact ht

/-- An NMI or IRQ entry never stops. -/
theorem takeInterrupt_goes {s : State} (h : s.Inv) (i : Interrupt) : State.Goes 2 s (takeInterrupt i s) := by
  cases i with
  | nmi =>
    have h' : (s.withCpu { s.cpu with nmiPending := false }).Inv := h.withCpu rfl
    exact entered_goes h' (vec := nmiVector) (by decide) (by decide) _ false
  | irq => exact entered_goes h (vec := irqVector) (by decide) (by decide) _ false

end Sys2Proof.Machine
end

