-- ==== Sys2Proof/Laws/Banks.lean ====
section
/-! SUPPORT. Bank mapping by its result: the offset of each slot after `mapPrg` and `mapChr` (51_mappers.md R332). -/

namespace Sys2Proof.Machine

/-- Folding `setIfInBounds` over consecutive slots. -/
theorem foldl_setSlots {n : Nat} (f : Nat → Nat) (j0 m : Nat) (off : Vector Nat n) (j : Fin n) :
    ((List.range m).foldl (fun o k => o.setIfInBounds (j0 + k) (f k)) off).get j =
      if j0 ≤ j.1 ∧ j.1 < j0 + m then f (j.1 - j0) else off.get j := by
  induction m with
  | zero => simp only [List.range_zero, List.foldl_nil]; rw [if_neg (by omega)]
  | succ m ih =>
    rw [List.range_succ, List.foldl_append]
    simp only [List.foldl_cons, List.foldl_nil]
    rw [Vector.get_setIfInBounds, ih]
    by_cases h : j0 + m = j.1
    · rw [if_pos h, if_pos (by omega), show j.1 - j0 = m by omega]
    · rw [if_neg h]
      by_cases h' : j0 ≤ j.1 ∧ j.1 < j0 + m
      · rw [if_pos h', if_pos (by omega)]
      · rw [if_neg h', if_neg (by omega)]

/-- The slots of `mapPrg`. -/
theorem mapPrgOff_get (c : Cart) (size j0 b : Nat) (off : Vector Nat 4) (j : Fin 4) :
    (mapPrgOff c size j0 b off).get j =
      if j0 ≤ j.1 ∧ j.1 < j0 + size / 0x2000 then (c.prgBase size b + (j.1 - j0) * 0x2000) % c.prgSize else off.get j := by
  unfold mapPrgOff
  rw [foldl_setSlots (fun k => (c.prgBase size b + k * 0x2000) % c.prgSize)]

/-- The CHR offsets after `mapChr` with CHR ROM. -/
def mapChrOff (c : Cart) (size j0 b : Nat) (off : Vector Nat 8) : Vector Nat 8 :=
  (List.range (size / 0x400)).foldl (fun o k => o.setIfInBounds (j0 + k) ((c.chrBase size b + k * 0x400) % c.chrSize)) off

theorem mapChrOff_get (c : Cart) (size j0 b : Nat) (off : Vector Nat 8) (j : Fin 8) :
    (mapChrOff c size j0 b off).get j =
      if j0 ≤ j.1 ∧ j.1 < j0 + size / 0x400 then (c.chrBase size b + (j.1 - j0) * 0x400) % c.chrSize else off.get j := by
  unfold mapChrOff
  rw [foldl_setSlots (fun k => (c.chrBase size b + k * 0x400) % c.chrSize)]

theorem setChrSlot_mapper {s t : State} {slot : Fin 8} {off : Nat} (h : setChrSlot slot off s = .ok t) :
    t.mapper = { s.mapper with chrOff := s.mapper.chrOff.set slot.1 off slot.2 } ∧ t.cart = s.cart := by
  unfold setChrSlot at h
  cases hp : s.ppu.setChrBank s.cfg.eventCapacity slot off with
  | error e => rw [hp] at h; cases h
  | ok p => rw [hp] at h; cases h; exact ⟨rfl, rfl⟩

theorem setMirror_mapper {s t : State} {m : Mirroring} (h : setMirror m s = .ok t) :
    t.mapper = { s.mapper with mirroring := m } ∧ t.cart = s.cart := by
  unfold setMirror at h
  cases hp : s.ppu.setMirroring s.cfg.eventCapacity m with
  | error e => rw [hp] at h; cases h
  | ok p => rw [hp] at h; cases h; exact ⟨rfl, rfl⟩

/-- What `mapChr` leaves of the mapper, by its result. -/
theorem mapChr_mapper {s : State} (h : s.Core) {size : Nat} (hs : size % 0x400 = 0) {j0 : Nat}
    (hj : j0 + size / 0x400 ≤ 8) (b : Nat) : ∃ t, mapChr size j0 b s = .ok t ∧ State.Set s t ∧ t.mapper = { s.mapper with
      chrOff := if 0 < s.cart.nChr then mapChrOff s.cart size j0 b s.mapper.chrOff else s.mapper.chrOff } := by
  obtain ⟨t, ht, hset⟩ := mapChr_maps h hs j0 b
  refine ⟨t, ht, hset, ?_⟩
  unfold mapChr at ht
  by_cases hrom : 0 < s.cart.nChr
  · rw [if_pos hrom]
    rw [if_pos (by simpa [Cart.hasChrRom] using hrom)] at ht
    unfold mapChrOff
    have key : ∀ (n : Nat), j0 + n ≤ 8 → ∀ u : State, u.cart = s.cart → ∀ t, (List.range n).foldlM
        (fun s k => setChrSlot (Fin.ofNat 8 (j0 + k)) ((s.cart.chrBase size b + k * 0x400) % s.cart.chrSize) s) u = .ok t →
        t.mapper = { u.mapper with chrOff := (List.range n).foldl (fun o k => o.setIfInBounds (j0 + k)
          ((s.cart.chrBase size b + k * 0x400) % s.cart.chrSize)) u.mapper.chrOff } ∧ t.cart = s.cart := by
      intro n
      induction n with
      | zero => intro _ u hu t ht; cases ht; exact ⟨rfl, hu⟩
      | succ n ih =>
        intro hn u hu t ht
        rw [List.range_succ, List.foldlM_append] at ht
        cases hm : (List.range n).foldlM
            (fun s k => setChrSlot (Fin.ofNat 8 (j0 + k)) ((s.cart.chrBase size b + k * 0x400) % s.cart.chrSize) s) u with
        | error e => rw [hm] at ht; cases ht
        | ok v =>
          rw [hm] at ht
          obtain ⟨k1, k2⟩ := ih (by omega) u hu v hm
          have ht' : setChrSlot (Fin.ofNat 8 (j0 + n)) ((v.cart.chrBase size b + n * 0x400) % v.cart.chrSize) v = .ok t := by
            simp only [List.foldlM_cons, List.foldlM_nil, bind, Except.bind, pure, Except.pure] at ht
            split at ht
            · cases ht
            · next w hw => cases ht; exact hw
          obtain ⟨e1, e2⟩ := setChrSlot_mapper ht'
          refine ⟨?_, e2.trans k2⟩
          rw [e1, k1, k2, List.range_succ, List.foldl_append]
          simp only [List.foldl_cons, List.foldl_nil]
          congr 1
          apply Vector.ext
          intro i hi
          have hv : (Fin.ofNat 8 (j0 + n)).1 = j0 + n := by simp [Fin.ofNat]; omega
          rw [Vector.getElem_set, Vector.getElem_setIfInBounds]
          simp only [hv]
    exact (key _ hj s rfl t ht).1
  · rw [if_neg hrom]
    rw [if_neg (by simpa [Cart.hasChrRom] using hrom)] at ht
    cases ht; rfl

theorem setMirror_spec {s : State} (h : s.Core) (m : Mirroring) : ∃ t, setMirror m s = .ok t ∧ State.Set s t ∧
    t.mapper = { s.mapper with mirroring := m } := by
  obtain ⟨t, ht, hs⟩ := setMirror_maps h m
  exact ⟨t, ht, hs, (setMirror_mapper ht).1⟩

/-- Four 8KB slots, or eight 1KB slots, are equal when each is. -/
theorem Vector.ext_get {n : Nat} {u v : Vector Nat n} (h : ∀ j : Fin n, u.get j = v.get j) : u = v := by
  apply Vector.ext
  intro i hi
  exact h ⟨i, hi⟩

/-! ## The windows as vectors -/

theorem vec4_ext {u v : Vector Nat 4} (h0 : u.get 0 = v.get 0) (h1 : u.get 1 = v.get 1) (h2 : u.get 2 = v.get 2)
    (h3 : u.get 3 = v.get 3) : u = v := by
  apply Vector.ext_get
  intro j
  match j with
  | 0 => exact h0
  | 1 => exact h1
  | 2 => exact h2
  | 3 => exact h3

theorem vec8_ext {u v : Vector Nat 8} (h0 : u.get 0 = v.get 0) (h1 : u.get 1 = v.get 1) (h2 : u.get 2 = v.get 2)
    (h3 : u.get 3 = v.get 3) (h4 : u.get 4 = v.get 4) (h5 : u.get 5 = v.get 5) (h6 : u.get 6 = v.get 6)
    (h7 : u.get 7 = v.get 7) : u = v := by
  apply Vector.ext_get
  intro j
  match j with
  | 0 => exact h0
  | 1 => exact h1
  | 2 => exact h2
  | 3 => exact h3
  | 4 => exact h4
  | 5 => exact h5
  | 6 => exact h6
  | 7 => exact h7

/-- The offset of the `k`-th 8KB of a PRG bank, as `mapPrg` computes it. -/
def prgSlot (c : Cart) (size b k : Nat) : Nat := (c.prgBase size b + k * 0x2000) % c.prgSize

/-- The offset of the `k`-th 1KB of a CHR bank, as `mapChr` computes it. -/
def chrSlot (c : Cart) (size b k : Nat) : Nat := (c.chrBase size b + k * 0x400) % c.chrSize

section
variable (c : Cart) (b : Nat)

theorem mapPrgOff_32 (o : Vector Nat 4) : mapPrgOff c 0x8000 0 b o =
    #v[prgSlot c 0x8000 b 0, prgSlot c 0x8000 b 1, prgSlot c 0x8000 b 2, prgSlot c 0x8000 b 3] := by
  unfold prgSlot
  apply vec4_ext <;> rw [mapPrgOff_get] <;> simp

theorem mapPrgOff_16_low (o : Vector Nat 4) : mapPrgOff c 0x4000 0 b o =
    #v[prgSlot c 0x4000 b 0, prgSlot c 0x4000 b 1, o[2], o[3]] := by
  unfold prgSlot
  apply vec4_ext <;> rw [mapPrgOff_get] <;> simp <;> rfl

theorem mapPrgOff_16_high (o : Vector Nat 4) : mapPrgOff c 0x4000 2 b o =
    #v[o[0], o[1], prgSlot c 0x4000 b 0, prgSlot c 0x4000 b 1] := by
  unfold prgSlot
  apply vec4_ext <;> rw [mapPrgOff_get] <;> simp <;> rfl

theorem mapPrgOff_8 (j : Nat) (hj : j < 4) (o : Vector Nat 4) : mapPrgOff c 0x2000 j b o = o.set j (prgSlot c 0x2000 b 0) := by
  apply Vector.ext_get
  intro i
  rw [mapPrgOff_get, Vector.get_eq_getElem, Vector.get_eq_getElem, Vector.getElem_set]
  by_cases h : j = i.1
  · rw [if_pos (by omega), if_pos h, h]
    simp [prgSlot]
  · rw [if_neg (by omega), if_neg h]

theorem mapChrOff_8 (o : Vector Nat 8) : mapChrOff c 0x2000 0 b o =
    #v[chrSlot c 0x2000 b 0, chrSlot c 0x2000 b 1, chrSlot c 0x2000 b 2, chrSlot c 0x2000 b 3,
      chrSlot c 0x2000 b 4, chrSlot c 0x2000 b 5, chrSlot c 0x2000 b 6, chrSlot c 0x2000 b 7] := by
  unfold chrSlot
  apply vec8_ext <;> rw [mapChrOff_get] <;> simp

theorem mapChrOff_4_low (o : Vector Nat 8) : mapChrOff c 0x1000 0 b o =
    #v[chrSlot c 0x1000 b 0, chrSlot c 0x1000 b 1, chrSlot c 0x1000 b 2, chrSlot c 0x1000 b 3, o[4], o[5], o[6], o[7]] := by
  unfold chrSlot
  apply vec8_ext <;> rw [mapChrOff_get] <;> simp <;> rfl

theorem mapChrOff_4_high (o : Vector Nat 8) : mapChrOff c 0x1000 4 b o =
    #v[o[0], o[1], o[2], o[3], chrSlot c 0x1000 b 0, chrSlot c 0x1000 b 1, chrSlot c 0x1000 b 2, chrSlot c 0x1000 b 3] := by
  unfold chrSlot
  apply vec8_ext <;> rw [mapChrOff_get] <;> simp <;> rfl

theorem mapChrOff_1 (j : Nat) (hj : j < 8) (o : Vector Nat 8) : mapChrOff c 0x400 j b o = o.set j (chrSlot c 0x400 b 0) := by
  apply Vector.ext_get
  intro i
  rw [mapChrOff_get, Vector.get_eq_getElem, Vector.get_eq_getElem, Vector.getElem_set]
  by_cases h : j = i.1
  · rw [if_pos (by omega), if_pos h, h]
    simp [chrSlot]
  · rw [if_neg (by omega), if_neg h]

end

end Sys2Proof.Machine
end

