-- ==== Sys2Proof/Laws/Exec.lean ====
section
/-! SUPPORT. What the shapes of instruction do, in the terms of the statements: stores, read-modify-writes, the stack, the status
byte, and the arithmetic of overflow. -/

namespace Sys2Proof.Machine

/-! ## Stores and read-modify-writes -/

/-- A store: one write of the register at the effective address, and no register or flag changes. -/
theorem storeInstr_spec {s : State} (h : s.Inv) (m : Mem) (reg : Cpu → Byte) : ∃ t,
    memWrite (effAddr m s).addr (reg s.cpu) (effAddr m s).state = .ok t ∧ sameRegisters s t ∧ t.console = s.console ∧
      t.cart = s.cart ∧ t.cfg = s.cfg ∧ storeInstr m reg s = .next (charge (storeCycles m) t) := by
  obtain ⟨t, ht, _, hr, _⟩ := memWrite_spec (h.effAddr m) (effAddr m s).addr (reg s.cpu)
  have hcpu := hr.cpu
  have hc := effAddr_cpu m s
  rw [hc] at hcpu
  refine ⟨t, ht, hcpu, by rw [hr.console, effAddr_console], by rw [hr.cart, effAddr_cart], by rw [hr.cfg, effAddr_cfg], ?_⟩
  simp only [storeInstr, hc, ht]
  rfl

/-- A read-modify-write of memory: one read, one write of the result of the byte and the carry, then the flags; no other register
changes. -/
theorem modifyInstr_spec {s : State} (h : s.Inv) (m : Mem) (result : Byte → Bool → Byte) (flags : Byte → Cpu → Cpu) : ∃ t,
    memWrite (effAddr m s).addr (result (memRead (effAddr m s).addr (effAddr m s).state).1 s.cpu.c)
      (memRead (effAddr m s).addr (effAddr m s).state).2 = .ok t ∧ sameRegisters s t ∧ t.console = s.console ∧
      t.cart = s.cart ∧ t.cfg = s.cfg ∧ modifyInstr m result flags s = .next
        (charge (modifyCycles m) (t.withCpu (flags (memRead (effAddr m s).addr (effAddr m s).state).1 t.cpu))) := by
  have hc : (memRead (effAddr m s).addr (effAddr m s).state).2.cpu = s.cpu := by simp
  obtain ⟨t, ht, _, hr, _⟩ := memWrite_spec ((h.effAddr m).memRead (effAddr m s).addr) (effAddr m s).addr
    (result (memRead (effAddr m s).addr (effAddr m s).state).1 s.cpu.c)
  have hcpu := hr.cpu
  rw [hc] at hcpu
  refine ⟨t, ht, hcpu, by rw [hr.console]; simp, by rw [hr.cart]; simp, by rw [hr.cfg]; simp, ?_⟩
  simp only [modifyInstr, hc, ht]
  rfl

/-! ## What a write leaves of memory (50_bus_devices.md R302, R306, R307) -/

theorem memWrite_io {a : Addr} (h1 : 0x4000 ≤ a.toNat) (h2 : a.toNat < 0x6000) (h3 : a.toNat ≠ 0x4014) (d : Byte) (s : State) :
    ∃ r p, memWrite a d s = .ok { s with apuReg := r, pad := p } := by
  unfold memWrite
  rw [if_neg (by omega), if_neg (by omega)]
  simp only [if_neg h3, if_pos h2]
  split
  · exact ⟨_, s.pad, rfl⟩
  · split
    · exact ⟨_, s.pad, rfl⟩
    · split
      · exact ⟨s.apuReg, _, rfl⟩
      · split
        · exact ⟨_, s.pad, rfl⟩
        · exact ⟨s.apuReg, s.pad, rfl⟩

/-- The DMA changes nothing but the latch, the ports' shift registers, what a read of the PPU changes, object memory and the cycle
counter. -/
theorem dmaFold_frame (page : Byte) (l : List Nat) (s : State) :
    (l.foldl (dmaByte page) s).ram = s.ram ∧ (l.foldl (dmaByte page) s).prgRam = s.prgRam ∧
      (l.foldl (dmaByte page) s).mapper = s.mapper ∧ (l.foldl (dmaByte page) s).cart = s.cart ∧
      (l.foldl (dmaByte page) s).cpu = s.cpu ∧ (l.foldl (dmaByte page) s).apuReg = s.apuReg ∧
      (l.foldl (dmaByte page) s).ppu.oamAddr = s.ppu.oamAddr := by
  induction l generalizing s with
  | nil => exact ⟨rfl, rfl, rfl, rfl, rfl, rfl, rfl⟩
  | cons i rest ih =>
    obtain ⟨h1, h2, h3, h4, h5, h6, h7⟩ := ih (dmaByte page s i)
    refine ⟨h1.trans ?_, h2.trans ?_, h3.trans ?_, h4.trans ?_, h5.trans ?_, h6.trans ?_, h7.trans ?_⟩ <;> simp [dmaByte]

/-- A write below the PRG window changes no other byte of memory, and a write of RAM changes that cell and nothing else. -/
theorem memWrite_memory {s t : State} (hr : Memory.wf s.ram = true) (hp : Memory.wf s.prgRam = true) {a : Addr} {d : Byte}
    (h : memWrite a d s = .ok t) :
    (a.toNat < 0x8000 → (∀ b, isMemory b → ¬ sameCell b a → t.peek b = s.peek b) ∧ t.cpu.irqLines = s.cpu.irqLines) ∧
      (isRam a → (∀ b, sameCell b a → t.peek b = d) ∧ t = { s with ram := t.ram, prgRam := t.prgRam }) := by
  by_cases h1 : a.toNat < 0x2000
  · rw [memWrite_ram h1] at h
    cases h
    refine ⟨fun _ => ⟨fun b hb hne => ?_, rfl⟩, fun _ => ⟨fun b hb => ?_, rfl⟩⟩
    · rcases hb with hb | hb
      · rw [peek_ram hb, peek_ram hb]
        exact Memory.read_write_ne hr (fun he => hne (.inr ⟨hb, h1, he⟩)) d
      · by_cases h8 : b.toNat < 0x8000
        · rw [peek_prgRam hb h8, peek_prgRam hb h8]
        · rw [peek_prg (by omega), peek_prg (by omega)]
    · rcases hb with rfl | ⟨hb, _, he⟩
      · rw [peek_ram h1]; exact Memory.read_write_self hr _ d
      · rw [peek_ram hb, he]; exact Memory.read_write_self hr _ d
  by_cases h2 : a.toNat < 0x4000
  · rw [memWrite_ppu (by omega) h2] at h
    refine ⟨fun _ => ?_, fun ha => by omega⟩
    cases hw : s.ppu.writeReg s.cart s.cfg.eventCapacity (a.setWidth 3) d with
    | error e => rw [hw] at h; cases h
    | ok p =>
      rw [hw] at h
      cases h
      exact ⟨fun b hb _ => peek_eq_of (s := s) (t := s.withPpu p) rfl rfl rfl rfl hb, rfl⟩
  by_cases h3 : a.toNat < 0x6000
  · refine ⟨fun _ => ?_, fun ha => by omega⟩
    by_cases h4 : a.toNat = 0x4014
    · rw [memWrite_dma h4] at h
      cases h
      unfold oamDma
      generalize List.range 256 = l
      obtain ⟨k1, k2, k3, k4, k5, _⟩ := dmaFold_frame d l s
      exact ⟨fun b hb _ => peek_eq_of (s := s) (t := charge 513 (l.foldl (dmaByte d) s)) k1 k2 k4 k3 hb,
        show (l.foldl (dmaByte d) s).cpu.irqLines = _ by rw [k5]⟩
    · obtain ⟨r, p, hw⟩ := memWrite_io (by omega) h3 h4 d s
      rw [hw] at h
      cases h
      exact ⟨fun b hb _ => peek_eq_of (s := s) (t := { s with apuReg := r, pad := p }) rfl rfl rfl rfl hb, rfl⟩
  by_cases h5 : a.toNat < 0x8000
  · rw [memWrite_prgRam (by omega) h5] at h
    cases h
    refine ⟨fun _ => ⟨fun b hb hne => ?_, rfl⟩, fun _ => ⟨fun b hb => ?_, rfl⟩⟩
    · rcases hb with hb | hb
      · rw [peek_ram hb, peek_ram hb]
      · by_cases h8 : b.toNat < 0x8000
        · rw [peek_prgRam hb h8, peek_prgRam hb h8]
          exact Memory.read_write_ne hp (fun he => hne (.inl (BitVec.eq_of_toNat_eq (by omega)))) d
        · rw [peek_prg (by omega), peek_prg (by omega)]
    · rcases hb with rfl | hb
      · rw [peek_prgRam (by omega) h5]; exact Memory.read_write_self hp _ d
      · omega
  · exact ⟨fun ha => absurd ha h5, fun ha => by omega⟩

/-- A write, wherever it goes, changes work and cartridge RAM only in the cell it writes. -/
theorem memWrite_ramFrame {s t : State} (hi : s.Inv) {a : Addr} {d : Byte} (h : memWrite a d s = .ok t) :
    ∀ b, isRam b → ¬ sameCell b a → t.peek b = s.peek b := by
  intro b hb hne
  by_cases h8 : a.toNat < 0x8000
  · exact ((memWrite_memory hi.memories.ram.canonical hi.memories.prgRam.canonical h).1 h8).1 b (by omega) hne
  · rw [memWrite_mapper (by omega)] at h
    obtain ⟨u, hu, _, ho⟩ := mapperWrite_spec hi a d
    rw [hu] at h
    cases h
    rcases hb with hb | ⟨hb, hb8⟩
    · rw [peek_ram hb, peek_ram hb, ho.ram]
    · rw [peek_prgRam hb hb8, peek_prgRam hb hb8, ho.prgRam]

/-! ## The stack and the status byte -/

theorem stackAddr_mod (sp : Byte) : (stackAddr sp).toNat % 0x800 = 0x100 + sp.toNat := by
  rw [toNat_stackAddr]; have := sp.isLt; omega

theorem peek_stackAddr (s : State) (sp : Byte) : s.peek (stackAddr sp) = Memory.read s.ram (0x100 + sp.toNat) := by
  rw [peek_ram (stackAddr_lt _), stackAddr_mod]

/-- The six stored flags are the bits of the status byte, whatever its B bit (10_state.md R24). -/
theorem statusByte_bits (b : Bool) (c : Cpu) : (statusByte b c).getLsbD 7 = c.n ∧ (statusByte b c).getLsbD 6 = c.v ∧
    (statusByte b c).getLsbD 3 = c.d ∧ (statusByte b c).getLsbD 2 = c.i ∧ (statusByte b c).getLsbD 1 = c.z ∧
    (statusByte b c).getLsbD 0 = c.c := by
  unfold statusByte bitByte
  generalize c.n = n; generalize c.v = v; generalize c.d = d; generalize c.i = i; generalize c.z = z; generalize c.c = k
  revert b n v d i z k; decide

/-- Bit 4 of the status byte is the B it was made with, and bit 5 is 1 (10_state.md R24). -/
theorem statusByte_b (b : Bool) (c : Cpu) : (statusByte b c).getLsbD 4 = b ∧ (statusByte b c).getLsbD 5 = true := by
  unfold statusByte bitByte
  generalize c.n = n; generalize c.v = v; generalize c.d = d; generalize c.i = i; generalize c.z = z; generalize c.c = k
  revert b n v d i z k; decide

/-- Three pushes hold their bytes: the cells of page 1 are distinct, wherever the stack pointer stands. -/
theorem read_three_pushes {m : Memory} (h : Memory.wf m = true) (sp : Byte) (x y z : Byte) :
    let r := Memory.write (Memory.write (Memory.write m (0x100 + sp.toNat) x) (0x100 + (sp - 1).toNat) y) (0x100 + (sp - 2).toNat) z
    Memory.read r (0x100 + sp.toNat) = x ∧ Memory.read r (0x100 + (sp - 1).toNat) = y ∧
      Memory.read r (0x100 + (sp - 2).toNat) = z := by
  have h1 : sp.toNat ≠ (sp - 1).toNat := by bv_omega
  have h2 : sp.toNat ≠ (sp - 2).toNat := by bv_omega
  have h3 : (sp - 1).toNat ≠ (sp - 2).toNat := by bv_omega
  have w1 := Memory.wf_write h (0x100 + sp.toNat) x
  have w2 := Memory.wf_write w1 (0x100 + (sp - 1).toNat) y
  refine ⟨?_, ?_, ?_⟩
  · rw [Memory.read_write_ne w2 (by omega), Memory.read_write_ne w1 (by omega), Memory.read_write_self h]
  · rw [Memory.read_write_ne w2 (by omega), Memory.read_write_self w1]
  · rw [Memory.read_write_self w2]

/-- The pushes of an entry change no byte from $6000 on, the vectors among them. -/
theorem peek_afterPushes (ret : Addr) (b : Bool) (s : State) {a : Addr} (h : 0x6000 ≤ a.toNat) :
    (pushed (statusByte b s.cpu) (pushed (loByte ret) (pushed (hiByte ret) s))).peek a = s.peek a := by
  by_cases h8 : a.toNat < 0x8000
  · rw [peek_prgRam h h8, peek_prgRam h h8]; rfl
  · rw [peek_prg (by omega), peek_prg (by omega)]; rfl

/-- A push changes no byte of memory but its own cell of page 1. -/
theorem peek_pushed (v : Byte) {s : State} (h : Memory.wf s.ram = true) {a : Addr} (ha : isMemory a)
    (hne : ¬ sameCell a (stackAddr s.cpu.sp)) : (pushed v s).peek a = s.peek a := by
  rcases ha with ha | ha
  · rw [peek_ram ha, peek_ram ha]
    refine Memory.read_write_ne h (fun he => hne (.inr ⟨ha, stackAddr_lt _, ?_⟩)) v
    rw [he, stackAddr_mod]
  · by_cases h8 : a.toNat < 0x8000
    · rw [peek_prgRam ha h8, peek_prgRam ha h8]; rfl
    · rw [peek_prg (by omega), peek_prg (by omega)]; rfl

theorem wf_pushed (v : Byte) {s : State} (h : Memory.wf s.ram = true) : Memory.wf (pushed v s).ram = true :=
  Memory.wf_write h _ _

/-! ## Signed overflow (42_arith_logic.md R181, R182) -/

theorem bit7_iff (x : Byte) : x &&& 0x80 ≠ 0 ↔ 128 ≤ x.toNat := by revert x; decide

theorem bit7_getLsbD (x : Byte) : 128 ≤ x.toNat ↔ x.getLsbD 7 = true := by revert x; decide

theorem bit7_xor (x y : Byte) : 128 ≤ (x ^^^ y).toNat ↔ ¬ (128 ≤ x.toNat ↔ 128 ≤ y.toNat) := by
  rw [bit7_getLsbD, bit7_getLsbD, bit7_getLsbD, BitVec.getLsbD_xor]
  cases x.getLsbD 7 <;> cases y.getLsbD 7 <;> simp

theorem bit7_and (x y : Byte) : 128 ≤ (x &&& y).toNat ↔ (128 ≤ x.toNat ∧ 128 ≤ y.toNat) := by
  rw [bit7_getLsbD, bit7_getLsbD, bit7_getLsbD, BitVec.getLsbD_and]
  cases x.getLsbD 7 <;> cases y.getLsbD 7 <;> simp

theorem toInt_byte (x : Byte) : x.toInt = if 128 ≤ x.toNat then (x.toNat : Int) - 256 else x.toNat := by
  rw [BitVec.toInt_eq_toNat_cond]; have := x.isLt; split <;> split <;> omega

/-- Subtraction is addition of the complemented operand: the result and the carry as the rule's equivalent form gives them. -/
theorem carrySum_complement (a m : Byte) (k : Bool) :
    BitVec.ofNat 8 (carrySum a (m ^^^ 0xFF) k) = a - m - (if k then 0 else 1) ∧
      (255 < carrySum a (m ^^^ 0xFF) k ↔ m.toNat + (1 - k.toNat) ≤ a.toNat) := by
  have hx : m ^^^ 0xFF = ~~~m := by revert m; decide
  have hm : (~~~m).toNat = 255 - m.toNat := by rw [BitVec.toNat_not]
  have := a.isLt; have := m.isLt
  rw [hx]
  refine ⟨BitVec.eq_of_toNat_eq ?_, ?_⟩
  · cases k <;> simp [carrySum, *] <;> omega
  · cases k <;> simp [carrySum, *] <;> omega

/-! ## The registers after each shape of instruction (10_state.md R20-R25) -/

theorem readInstr_cpu {src : Src} {f : Byte → Cpu → Cpu} {s t : State} (h : readInstr src f s = .next t) :
    ∃ v k, t.cpu = { f v s.cpu with cycles := k } := by
  cases h
  exact ⟨(readSrc src s).value, (f (readSrc src s).value s.cpu).cycles + readCycles src (readSrc src s).crossed, by
    simp only [charge, withCpu_cpu, readSrc_cpu]⟩

theorem storeInstr_cpu {s t : State} (hi : s.Inv) {m : Mem} {reg : Cpu → Byte} (h : storeInstr m reg s = .next t) :
    ∃ l k, t.cpu = { s.cpu with irqLines := ⟨l, s.cpu.irqLines.external⟩, cycles := k } := by
  obtain ⟨u, _, hr, _, _, _, he⟩ := storeInstr_spec hi m reg
  rw [he] at h
  cases h
  exact ⟨_, _, by simp only [charge]; rw [hr]⟩

theorem modifyInstr_cpu {s t : State} (hi : s.Inv) {m : Mem} {result : Byte → Bool → Byte} {flags : Byte → Cpu → Cpu}
    (h : modifyInstr m result flags s = .next t) : ∃ v l c k,
      t.cpu = { flags v { s.cpu with irqLines := ⟨l, s.cpu.irqLines.external⟩, cycles := c } with cycles := k } := by
  obtain ⟨u, _, hr, _, _, _, he⟩ := modifyInstr_spec hi m result flags
  rw [he] at h
  cases h
  exact ⟨_, _, _, _, by simp only [charge, withCpu_cpu]; rw [hr]⟩

theorem impliedInstr_cpu {n : Nat} {f : Cpu → Cpu} {s t : State} (h : impliedInstr n f s = .next t) :
    ∃ k, t.cpu = { f s.cpu with cycles := k } := by
  cases h; exact ⟨_, rfl⟩

theorem undefinedInstr_cpu {op : Byte} {length cost : Nat} {s t : State} (h : undefinedInstr op length cost s = .next t) :
    ∃ k, t.cpu = { s.cpu with cycles := k } := by
  unfold undefinedInstr at h
  split at h
  · cases h; exact ⟨_, rfl⟩
  · cases h

theorem branchInstr_cpu {cond : Bool} {rel : Byte} {s t : State} (h : branchInstr cond rel s = .next t) :
    ∃ p k, t.cpu = { s.cpu with pc := p, cycles := k } := by
  unfold branchInstr at h
  dsimp only at h
  split at h
  · cases h; exact ⟨_, _, rfl⟩
  · cases h; exact ⟨s.cpu.pc, _, rfl⟩

theorem shiftInstr_acc_cpu {result : Byte → Bool → Byte} {out : Byte → Bool} {s t : State}
    (h : shiftInstr .acc result out s = .next t) :
    ∃ r k, t.cpu = { setNZ r { s.cpu with c := out s.cpu.a } with a := r, cycles := k } := by
  cases h; exact ⟨_, _, rfl⟩

theorem execJmp_cpu {target : JmpTarget} {s t : State} (h : execJmp target s = .next t) :
    ∃ p k, t.cpu = { s.cpu with pc := p, cycles := k } := by
  cases target with
  | abs a => cases h; exact ⟨_, _, rfl⟩
  | ind a =>
    simp only [execJmp, readIndirect] at h
    cases h
    exact ⟨wordOf (memRead (wordOf (hiByte a) (loByte a + 1)) (memRead a s).2).1 (memRead a s).1, s.cpu.cycles + 5, by
      simp only [charge, setPc, withCpu_cpu]; simp⟩

/-! ## Jumps, calls and returns complete -/

theorem execJsr_goes {s : State} (h : s.Inv) (target : Addr) : State.Goes 2 s (execJsr target s) := by
  unfold execJsr
  rw [push16_eq]
  exact ⟨_, rfl, (((h.pushed _).pushed _).setPc target).charge 6, rfl, rfl, rfl, rfl, by simp [pushed]⟩

theorem execRts_goes {s : State} (h : s.Inv) : State.Goes 2 s (execRts s) := by
  unfold execRts
  rw [pull16_eq]
  refine ⟨_, rfl, State.Inv.charge (State.Inv.setPc ?_ _) 6, rfl, rfl, rfl, rfl, by simp⟩
  exact h.withCpuBus { s.cpu with sp := s.cpu.sp + 1 + 1 } _ rfl

theorem execRti_goes {s : State} (h : s.Inv) : State.Goes 2 s (execRti s) := by
  unfold execRti
  rw [returnFromInterrupt_eq]
  refine ⟨_, rfl, State.Inv.charge ?_ 6, rfl, rfl, rfl, rfl, by simp [setStatus]⟩
  exact h.withCpuBus { setStatus (s.peek (stackAddr (s.cpu.sp + 1))) s.cpu with
    sp := s.cpu.sp + 1 + 1 + 1
    pc := wordOf (s.peek (stackAddr (s.cpu.sp + 1 + 1 + 1))) (s.peek (stackAddr (s.cpu.sp + 1 + 1))) } _ rfl

theorem execJmp_goes {s : State} (h : s.Inv) (target : JmpTarget) : State.Goes 2 s (execJmp target s) := by
  cases target with
  | abs a => exact ⟨_, rfl, (h.setPc a).charge 3, rfl, rfl, rfl, rfl, by simp⟩
  | ind p =>
    exact ⟨_, rfl, (((h.memRead _).memRead _).setPc _).charge 5, by simp [readIndirect], by simp [readIndirect],
      by simp [readIndirect], (memRead_ran _ _).dots.trans (memRead_ran _ _).dots, by simp [readIndirect]⟩

theorem execBrk_goes {s : State} (h : s.Inv) : State.Goes 2 s (execBrk s) := entered_goes h (by decide) (by decide) _ _

end Sys2Proof.Machine
end

