-- ==== Sys2Proof/Laws/Lines.lean ====
section
/-! SUPPORT. What the start of each kind of line does, and what the vblank callback and the PPU advance leave alone. -/

namespace Sys2Proof.Machine

/-- The scanline counter changes the registers of MMC3, the request and the MAPPER line only. -/
theorem mmc3Clock_shape (s : State) : ∃ r irq line, mmc3Clock s = { s with mapper := { s.mapper with regs := r, irq := irq }, cpu := { s.cpu with irqLines := ⟨line, s.cpu.irqLines.external⟩ } } := by
  unfold mmc3Clock
  split
  · dsimp only
    split
    · exact ⟨_, _, _, rfl⟩
    · exact ⟨_, s.mapper.irq, s.cpu.irqLines.mapper, rfl⟩
  · exact ⟨s.mapper.regs, s.mapper.irq, s.cpu.irqLines.mapper, rfl⟩

theorem setHcount_240 (s : State) : setHcount 240 s = .ok (setVblank (s.withPpu { s.ppu with line := 240 })) := rfl

theorem setHcount_261 (s : State) : setHcount 261 s = (Ppu.clearVblank s.cfg.eventCapacity { s.ppu with line := 261 }).map s.withPpu := by
  unfold setHcount
  dsimp only
  rw [if_pos (show 261 = Config.prerenderLine from rfl)]
  rw [if_neg (show ¬ 261 = Config.vblankLine by decide)]
  change (Except.map _ (Ppu.clearVblank s.cfg.eventCapacity { s.ppu with line := 261 }) >>= _) = _
  cases Ppu.clearVblank s.cfg.eventCapacity { s.ppu with line := 261 } <;> rfl

theorem setHcount_visible {L : Nat} (h : L ≤ 239) (s : State) : setHcount L s = .ok (s.withPpu (spriteZeroCheck s.cart L { s.ppu with line := L })) := by
  unfold setHcount
  dsimp only
  simp only [if_neg (show ¬ L = Config.vblankLine by unfold Config.vblankLine; omega), if_neg (show ¬ L = Config.prerenderLine by unfold Config.prerenderLine; omega), bind, Except.bind, pure, Except.pure, if_pos h]
  rfl

theorem setHcount_blank {L : Nat} (h : 240 < L) (h' : L < 261) (s : State) : setHcount L s = .ok (s.withPpu { s.ppu with line := L }) := by
  unfold setHcount
  dsimp only
  simp only [if_neg (show ¬ L = Config.vblankLine by unfold Config.vblankLine; omega), if_neg (show ¬ L = Config.prerenderLine by unfold Config.prerenderLine; omega), bind, Except.bind, pure, Except.pure, if_neg (show ¬ L ≤ 239 by omega)]

/-- A callback changes the buttons, `paused` and its own script only. -/
theorem callVblank_shape (s : State) : (s.console.vblankCallback = none → callVblank s = s) ∧ callVblank s = { s with
          cpu := { s.cpu with paused := (callVblank s).cpu.paused }
          pad := ⟨⟨(callVblank s).pad.port1.buttons, s.pad.port1.shift⟩, ⟨(callVblank s).pad.port2.buttons, s.pad.port2.shift⟩, s.pad.strobe⟩
          console := { s.console with vblankCallback := (callVblank s).console.vblankCallback } } := by
  refine ⟨fun h => by unfold callVblank; rw [h], ?_⟩
  have fold : ∀ (l : List CallbackAction) (u : State), ∃ b b1 b2, l.foldl CallbackAction.run u = { u with cpu := { u.cpu with paused := b }, pad := ⟨⟨b1, u.pad.port1.shift⟩, ⟨b2, u.pad.port2.shift⟩, u.pad.strobe⟩ } := by
    intro l
    induction l with
    | nil => intro u; exact ⟨u.cpu.paused, u.pad.port1.buttons, u.pad.port2.buttons, rfl⟩
    | cons a l ih =>
      intro u
      obtain ⟨b, b1, b2, hh⟩ := ih (CallbackAction.run u a)
      rw [List.foldl_cons, hh]
      cases a <;> exact ⟨b, b1, b2, rfl⟩
  unfold callVblank
  split
  · next actions rest _ =>
    obtain ⟨b, b1, b2, hh⟩ := fold actions { s with console := { s.console with vblankCallback := some ⟨rest⟩ } }
    rw [hh]
  · rfl

theorem callVblank_bp (s : State) : (callVblank s).console.breakpointCallback = s.console.breakpointCallback := by
  have fold : ∀ (l : List CallbackAction) (u : State), (l.foldl CallbackAction.run u).console = u.console := by
    intro l
    induction l with
    | nil => intro u; rfl
    | cons a l ih => intro u; rw [List.foldl_cons, ih]; cases a <;> rfl
  unfold callVblank
  split
  · rw [fold]
  · rfl

theorem setHcount_bp {L : Nat} {s t : State} (h : setHcount L s = .ok t) : t.console.breakpointCallback = s.console.breakpointCallback := by
  unfold setHcount at h
  have hv : ∀ u : State, (setVblank u).console.breakpointCallback = u.console.breakpointCallback := by
    intro u
    unfold setVblank
    dsimp only
    rw [callVblank_bp]
    split <;> rfl
  have h1 : (if L = Config.vblankLine then setVblank (s.withPpu { s.ppu with line := L }) else s.withPpu { s.ppu with line := L }).console.breakpointCallback = s.console.breakpointCallback := by
    split
    · rw [hv]; rfl
    · rfl
  dsimp only at h
  generalize (if L = Config.vblankLine then setVblank (s.withPpu { s.ppu with line := L }) else s.withPpu { s.ppu with line := L }) = u at h h1
  rw [← h1]
  split at h
  · cases hc : Ppu.clearVblank u.cfg.eventCapacity u.ppu with
    | error e => rw [hc] at h; cases h
    | ok p =>
      rw [hc] at h
      dsimp only [Except.map, bind, Except.bind, pure, Except.pure] at h
      cases h
      split <;> rfl
  · dsimp only [bind, Except.bind, pure, Except.pure] at h
    cases h
    split <;> rfl

theorem tickDot_bp {s t : State} (h : s.Inv) (ht : tickDot s = .ok t) : t.console.breakpointCallback = s.console.breakpointCallback := by
  unfold tickDot at ht
  dsimp only at ht
  split at ht
  · unfold lineBoundary at ht
    rw [setHcount_bp ht]
    split
    · rw [(mmc3Clock_outside _).console]; rfl
    · rfl
  · cases ht; rfl

/-- No dot calls the breakpoint callback. -/
theorem advanceDots_bp (n : Nat) {s t : State} (h : s.Inv) (ht : advanceDots n s = .ok t) : t.console.breakpointCallback = s.console.breakpointCallback := by
  induction n generalizing s with
  | zero => cases ht; rfl
  | succ n ih =>
    obtain ⟨u, hu, hi, _⟩ := tickDot_spec h
    simp only [advanceDots, hu, bind, Except.bind] at ht
    rw [ih hi ht, tickDot_bp h hu]

/-- A fetch moves no dot. -/
theorem fetchInstr_dots (s : State) : (Machine.fetchInstr s).2.ppu.dots = s.ppu.dots := by
  have k : ∀ s, (Machine.fetchByte s).2.ppu.dots = s.ppu.dots := fun s => (memRead_ran s.cpu.pc s).dots
  unfold Machine.fetchInstr
  dsimp only
  split
  · exact k _
  · exact (k _).trans (k _)
  · exact (k _).trans ((k _).trans (k _))

/-- The PPU advance after an instruction succeeds. -/
theorem advanceAfter_goes {s u : State} (h : u.Inv) (hc : s.cpu.cycles ≤ u.cpu.cycles) (hk : u.console = s.console) : ∃ t, advanceAfter s.cpu.cycles u = .next t ∧ t.Inv ∧ t.cart = u.cart ∧ t.cfg = u.cfg ∧ t.console.loaded = u.console.loaded ∧ t.cpu.cycles = u.cpu.cycles ∧ t.ppu.dots = u.ppu.dots + 3 * (u.cpu.cycles - s.cpu.cycles) ∧ t.console.breakpointCallback = u.console.breakpointCallback := by
  obtain ⟨t, ht, h1, h2, h3, h4, h5, h6⟩ := advanceDots_spec (Config.dotsPerCycle * (u.cpu.cycles - s.cpu.cycles)) h
  refine ⟨t, ?_, h1, h2, h3, h4, h5, h6, advanceDots_bp _ h ht⟩
  unfold advanceAfter
  rw [ht]; rfl

end Sys2Proof.Machine
end

