-- ==== Sys2Proof/Laws/MapperWrites.lean ====
section
/-! SUPPORT. MMC1 and MMC3 by their results: what a load of a register leaves in the mapper, and a clock of the MMC3 counter
(51_mappers.md R352-R361). -/

namespace Sys2Proof.Machine

/-! ## MMC1 -/

theorem mmc1Mirroring_val (k : BitVec 5) : mmc1Mirroring k = (match k.toNat % 4 with
    | 0 => .single0
    | 1 => .single1
    | 2 => .vertical
    | _ => .horizontal) := by revert k; decide

theorem control_bit4 (k : BitVec 5) : k.getLsbD 4 = true ↔ ¬ k.toNat < 16 := by revert k; decide

theorem toNat_bank (k : BitVec 5) : (k.setWidth 4 : BitVec 4).toNat = k.toNat % 16 := by simp

/-- The PRG offsets that MMC1's registers map (51_mappers.md R353). -/
def mmc1PrgOff (c : Cart) (r : Mmc1) : Vector Nat 4 :=
  let bank := r.prgReg.toNat % 16
  let last := c.countP 0x4000 - 1
  match r.control.toNat / 4 % 4 with
  | 2 => #v[prgSlot c 0x4000 0 0, prgSlot c 0x4000 0 1, prgSlot c 0x4000 bank 0, prgSlot c 0x4000 bank 1]
  | 3 => #v[prgSlot c 0x4000 bank 0, prgSlot c 0x4000 bank 1, prgSlot c 0x4000 last 0, prgSlot c 0x4000 last 1]
  | _ => #v[prgSlot c 0x8000 (bank / 2) 0, prgSlot c 0x8000 (bank / 2) 1, prgSlot c 0x8000 (bank / 2) 2,
    prgSlot c 0x8000 (bank / 2) 3]

/-- The CHR offsets that MMC1's registers map, with CHR ROM (51_mappers.md R353). -/
def mmc1ChrOff (c : Cart) (r : Mmc1) : Vector Nat 8 :=
  let b0 := r.chr0.toNat
  let b1 := r.chr1.toNat
  if r.control.toNat < 16 then
    #v[chrSlot c 0x2000 (b0 / 2) 0, chrSlot c 0x2000 (b0 / 2) 1, chrSlot c 0x2000 (b0 / 2) 2, chrSlot c 0x2000 (b0 / 2) 3,
      chrSlot c 0x2000 (b0 / 2) 4, chrSlot c 0x2000 (b0 / 2) 5, chrSlot c 0x2000 (b0 / 2) 6, chrSlot c 0x2000 (b0 / 2) 7]
  else
    #v[chrSlot c 0x1000 b0 0, chrSlot c 0x1000 b0 1, chrSlot c 0x1000 b0 2, chrSlot c 0x1000 b0 3,
      chrSlot c 0x1000 b1 0, chrSlot c 0x1000 b1 1, chrSlot c 0x1000 b1 2, chrSlot c 0x1000 b1 3]

theorem mmc1Prg_off (r : Mmc1) (s : State) :
    mmc1Prg r s = { s with mapper := { s.mapper with prgOff := mmc1PrgOff s.cart r } } := by
  have hk : (r.control.extractLsb' 2 2 : BitVec 2).toNat = r.control.toNat / 4 % 4 := by rw [toNat_extract_eq]; norm_num
  unfold mmc1Prg mmc1PrgOff
  dsimp only
  rw [toNat_bank, ← hk]
  generalize (r.control.extractLsb' 2 2 : BitVec 2) = k
  match k with
  | 0 => simp only [mapPrg, mapPrgOff_32]; rfl
  | 1 => simp only [mapPrg, mapPrgOff_32]; rfl
  | 2 => simp only [mapPrg, mapPrgOff_16_low, mapPrgOff_16_high]; rfl
  | 3 => simp only [mapPrg, mapPrgOff_16_low, mapPrgOff_16_high]; rfl

theorem mmc1Chr_off {s : State} (h : s.Core) (r : Mmc1) : ∃ t, mmc1Chr r s = .ok t ∧ State.Set s t ∧
    t.mapper = { s.mapper with chrOff := if 0 < s.cart.nChr then mmc1ChrOff s.cart r else s.mapper.chrOff } := by
  unfold mmc1Chr mmc1ChrOff
  by_cases hc : r.control.toNat < 16
  · rw [if_neg (by rw [control_bit4]; simpa using hc)]
    obtain ⟨t, ht, hs, hm⟩ := mapChr_mapper h (size := 0x2000) rfl (j0 := 0) (by decide) (r.chr0.toNat / 2)
    refine ⟨t, ht, hs, ?_⟩
    rw [hm, mapChrOff_8, if_pos hc]
  · rw [if_pos (by rw [control_bit4]; exact hc)]
    obtain ⟨t, ht, hs, hm⟩ := mapChr_mapper h (size := 0x1000) rfl (j0 := 0) (by decide) r.chr0.toNat
    obtain ⟨u, hu, hs', hm'⟩ := mapChr_mapper hs.core (size := 0x1000) rfl (j0 := 4) (by decide) r.chr1.toNat
    refine ⟨u, by rw [ht]; exact hu, hs.trans hs', ?_⟩
    rw [hm', hs.outside.cart, hm]
    dsimp only
    rw [if_neg hc, mapChrOff_4_low, mapChrOff_4_high]
    split <;> rfl

/-- Loading MMC1's registers: the whole mapper after it, and the PPU's copies (51_mappers.md R353). -/
theorem mmc1Apply_off {s : State} (h : s.Core) (hv : s.cart.variant = .mmc1) {r : Mmc1} (hr : r.shift ≠ 0) :
    ∃ t, mmc1Apply r s = .ok t ∧ t.ppu.mirroring = t.mapper.mirroring ∧ t.ppu.chrOff = t.mapper.chrOff ∧
      t.mapper = { s.mapper with
        regs := .mmc1 r
        mirroring := mmc1Mirroring r.control
        prgOff := mmc1PrgOff s.cart r
        chrOff := if 0 < s.cart.nChr then mmc1ChrOff s.cart r else s.mapper.chrOff } := by
  have hc := h.setRegs (r := .mmc1 r) (by rw [hv]; exact hr)
  obtain ⟨t, ht, hs, hm⟩ := setMirror_spec hc (mmc1Mirroring r.control)
  have hp := mmc1Prg_set hs.core r
  obtain ⟨u, hu, hs', hm'⟩ := mmc1Chr_off hp.core r
  have hcart : t.cart = s.cart := hs.outside.cart
  have hcart' : (mmc1Prg r t).cart = s.cart := hp.outside.cart.trans hcart
  refine ⟨u, by unfold mmc1Apply; rw [ht]; exact hu, hs'.core.mirrorCopy, hs'.core.chrCopy, ?_⟩
  rw [hm', hcart', mmc1Prg_off, hm, hcart]
  rfl

theorem mmc1Load_eq (r : Mmc1) (a : Addr) (v : BitVec 5) : mmc1Load r a v = (match a.toNat / 0x2000 % 4 with
    | 0 => { r with control := v }
    | 1 => { r with chr0 := v }
    | 2 => { r with chr1 := v }
    | _ => { r with prgReg := v }) := by
  have hk : (a.extractLsb' 13 2 : BitVec 2).toNat = a.toNat / 0x2000 % 4 := by rw [toNat_extract_eq]; norm_num
  unfold mmc1Load
  rw [← hk]
  generalize (a.extractLsb' 13 2 : BitVec 2) = k
  match k with
  | 0 => rfl
  | 1 => rfl
  | 2 => rfl
  | 3 => rfl

theorem extract_bit0 (d : Byte) : (d.extractLsb' 0 1 : BitVec 1) = BitVec.ofBool (d.getLsbD 0) := by revert d; decide

/-- The serial register after one bit. -/
def mmc1Shift (b : BitVec 1) (x : BitVec 5) : BitVec 5 := b ++ (x.extractLsb' 1 4 : BitVec 4)

/-- From the marker alone, the marker reaches bit 0 with the fourth bit, and the fifth completes the value. -/
theorem mmc1Shift_five (b1 b2 b3 b4 b5 : BitVec 1) :
    (0x10 : BitVec 5).getLsbD 0 = false ∧ (mmc1Shift b1 0x10).getLsbD 0 = false ∧
      (mmc1Shift b2 (mmc1Shift b1 0x10)).getLsbD 0 = false ∧
      (mmc1Shift b3 (mmc1Shift b2 (mmc1Shift b1 0x10))).getLsbD 0 = false ∧
      (mmc1Shift b4 (mmc1Shift b3 (mmc1Shift b2 (mmc1Shift b1 0x10)))).getLsbD 0 = true ∧
      mmc1Shift b5 (mmc1Shift b4 (mmc1Shift b3 (mmc1Shift b2 (mmc1Shift b1 0x10)))) = b5 ++ b4 ++ b3 ++ b2 ++ b1 := by
  revert b1 b2 b3 b4 b5; decide

theorem mmc1_shiftWrite {s : State} {r : Mmc1} (hq : s.mapper.regs = .mmc1 r) {a : Addr} (ha : 0x8000 ≤ a.toNat) {d : Byte}
    (hd : d.getLsbD 7 = false) (h0 : r.shift.getLsbD 0 = false) : memWrite a d s =
      .ok (setRegs (.mmc1 { r with shift := mmc1Shift (BitVec.ofBool (d.getLsbD 0)) r.shift }) s) := by
  rw [memWrite_mapper ha]
  simp only [mapperWrite, hq, mmc1Write, hd, h0, extract_bit0]
  rfl

/-! ## MMC3 -/

/-- A clock of the counter: the registers, and the request when the counter is at 0 and enabled (51_mappers.md R360). -/
theorem mmc3Clock_eq {u : State} {q : Mmc3} (hq : u.mapper.regs = .mmc3 q) :
    let fire := q.clocked.irqEnable && decide (q.clocked.irqCounter = 0)
    mmc3Clock u = { u with
      mapper := { u.mapper with regs := .mmc3 q.clocked, irq := u.mapper.irq || fire }
      cpu := { u.cpu with irqLines := { u.cpu.irqLines with mapper := u.cpu.irqLines.mapper || fire } } } := by
  unfold mmc3Clock
  rw [hq]
  dsimp only
  by_cases hz : q.clocked.irqCounter = 0#8 <;> cases he : q.clocked.irqEnable <;> simp [hz, setRegs, raiseMapperIrq]

/-- The row of the register table that an address selects, by its bits 14:13 and 0 (51_mappers.md R355). -/
theorem mmc3_row (a : Addr) (h : 0x8000 ≤ a.toNat) (k : BitVec 2) (b : Bool) (hk : (a.extractLsb' 13 2 : BitVec 2) = k)
    (hb : a.getLsbD 0 = b) : a &&& 0xE001 = ((1 : BitVec 1) ++ k ++ (0 : BitVec 12) ++ BitVec.ofBool b : BitVec 16) := by
  subst hk hb
  have h15 : a.getLsbD 15 = true := by
    rw [BitVec.getLsbD, Nat.testBit_eq_decide_div_mod_eq]
    have := a.isLt
    simp; omega
  apply BitVec.eq_of_getLsbD_eq
  intro i hi
  simp only [BitVec.getLsbD_and, BitVec.getLsbD_append, BitVec.getLsbD_extractLsb']
  have : i < 16 := hi
  interval_cases i <;> simp [h15]

theorem set_bankReg (v : Vector Byte 8) (b d : Byte) :
    v.set ((b.setWidth 3 : BitVec 3).toFin : Fin 8).1 d ((b.setWidth 3 : BitVec 3).toFin : Fin 8).2 =
      v.setIfInBounds (b.toNat % 8) d := by
  apply Vector.ext
  intro i hi
  rw [Vector.getElem_set, Vector.getElem_setIfInBounds]
  simp

theorem sets_four (o : Vector Nat 4) (a b c d : Nat) : (((o.set 0 a).set 2 c).set 1 b).set 3 d = #v[a, b, c, d] := by
  apply Vector.ext
  intro i hi
  interval_cases i <;> simp

theorem sets_eight (o : Vector Nat 8) (a b c d e f g h : Nat) :
    (((((((o.set 0 a).set 1 b).set 2 c).set 3 d).set 4 e).set 5 f).set 6 g).set 7 h = #v[a, b, c, d, e, f, g, h] := by
  apply Vector.ext
  intro i hi
  interval_cases i <;> simp

theorem sets_eight_high (o : Vector Nat 8) (a b c d e f g h : Nat) :
    (((((((o.set 4 a).set 5 b).set 6 c).set 7 d).set 0 e).set 1 f).set 2 g).set 3 h = #v[e, f, g, h, a, b, c, d] := by
  apply Vector.ext
  intro i hi
  interval_cases i <;> simp

theorem mapChr_one {s : State} (h : s.Core) (j : Nat) (hj : j < 8) (b : Nat) :
    ∃ t, mapChr 0x400 j b s = .ok t ∧ State.Set s t ∧ t.cart = s.cart ∧ t.mapper = { s.mapper with
      chrOff := if 0 < s.cart.nChr then s.mapper.chrOff.set j (chrSlot s.cart 0x400 b 0) else s.mapper.chrOff } := by
  obtain ⟨t, ht, hs, hm⟩ := mapChr_mapper h (size := 0x400) rfl (j0 := j) (by omega) b
  refine ⟨t, ht, hs, hs.outside.cart, ?_⟩
  rw [hm, mapChrOff_1 _ _ _ hj]

theorem chrOff_chain (m : Mapper) (P : Prop) [Decidable P] (o : Vector Nat 8) (j : Nat) (hj : j < 8) (x : Nat) :
    ({ { m with chrOff := if P then o else m.chrOff } with
        chrOff := if P then (if P then o else m.chrOff).set j x else (if P then o else m.chrOff) } : Mapper) =
      { m with chrOff := if P then o.set j x else m.chrOff } := by
  split <;> rfl

/-- The byte offset of the 1KB CHR bank that a bank register names. -/
def mmc3Bank (c : Cart) (b : Byte) : Nat := chrSlot c 0x400 b.toNat 0

/-- The eight mappings of `mmc3Apply()`, with the pairs at window `c` and the singles at the other half. -/
theorem mmc3Chr_at {s : State} (h : s.Core) (r : Mmc3) (c : Nat) (hc4 : c = 0 ∨ c = 4) : ∃ t, (do
      let s ← mapChr 0x400 (c + 0) (r.r[0] &&& 0xFE).toNat s
      let s ← mapChr 0x400 (c + 1) (r.r[0] ||| 1).toNat s
      let s ← mapChr 0x400 (c + 2) (r.r[1] &&& 0xFE).toNat s
      let s ← mapChr 0x400 (c + 3) (r.r[1] ||| 1).toNat s
      let s ← mapChr 0x400 (4 - c + 0) r.r[2].toNat s
      let s ← mapChr 0x400 (4 - c + 1) r.r[3].toNat s
      let s ← mapChr 0x400 (4 - c + 2) r.r[4].toNat s
      mapChr 0x400 (4 - c + 3) r.r[5].toNat s) = .ok t ∧ State.Set s t ∧ t.cart = s.cart ∧ t.mapper = { s.mapper with
    chrOff := if 0 < s.cart.nChr then
      (((((((s.mapper.chrOff.set (c + 0) (mmc3Bank s.cart (r.r[0] &&& 0xFE)) (by omega)).set (c + 1)
        (mmc3Bank s.cart (r.r[0] ||| 1)) (by omega)).set (c + 2) (mmc3Bank s.cart (r.r[1] &&& 0xFE)) (by omega)).set (c + 3)
        (mmc3Bank s.cart (r.r[1] ||| 1)) (by omega)).set (4 - c + 0) (mmc3Bank s.cart r.r[2]) (by omega)).set (4 - c + 1)
        (mmc3Bank s.cart r.r[3]) (by omega)).set (4 - c + 2) (mmc3Bank s.cart r.r[4]) (by omega)).set (4 - c + 3)
        (mmc3Bank s.cart r.r[5]) (by omega)
      else s.mapper.chrOff } := by
  obtain ⟨t1, e1, s1, c1, m1⟩ := mapChr_one h (c + 0) (by omega) (r.r[0] &&& 0xFE).toNat
  obtain ⟨t2, e2, s2, c2, m2⟩ := mapChr_one s1.core (c + 1) (by omega) (r.r[0] ||| 1).toNat
  obtain ⟨t3, e3, s3, c3, m3⟩ := mapChr_one s2.core (c + 2) (by omega) (r.r[1] &&& 0xFE).toNat
  obtain ⟨t4, e4, s4, c4, m4⟩ := mapChr_one s3.core (c + 3) (by omega) (r.r[1] ||| 1).toNat
  obtain ⟨t5, e5, s5, c5, m5⟩ := mapChr_one s4.core (4 - c + 0) (by omega) r.r[2].toNat
  obtain ⟨t6, e6, s6, c6, m6⟩ := mapChr_one s5.core (4 - c + 1) (by omega) r.r[3].toNat
  obtain ⟨t7, e7, s7, c7, m7⟩ := mapChr_one s6.core (4 - c + 2) (by omega) r.r[4].toNat
  obtain ⟨t8, e8, s8, c8, m8⟩ := mapChr_one s7.core (4 - c + 3) (by omega) r.r[5].toNat
  rw [c1] at c2 m2; rw [c2] at c3 m3; rw [c3] at c4 m4; rw [c4] at c5 m5; rw [c5] at c6 m6; rw [c6] at c7 m7
  rw [c7] at c8 m8
  rw [m1, chrOff_chain _ _ _ _ (by omega)] at m2
  rw [m2, chrOff_chain _ _ _ _ (by omega)] at m3
  rw [m3, chrOff_chain _ _ _ _ (by omega)] at m4
  rw [m4, chrOff_chain _ _ _ _ (by omega)] at m5
  rw [m5, chrOff_chain _ _ _ _ (by omega)] at m6
  rw [m6, chrOff_chain _ _ _ _ (by omega)] at m7
  rw [m7, chrOff_chain _ _ _ _ (by omega)] at m8
  refine ⟨t8, ?_, s1.trans (s2.trans (s3.trans (s4.trans (s5.trans (s6.trans (s7.trans s8)))))), c8, m8⟩
  simp only [e1, e2, e3, e4, e5, e6, e7, e8, bind, Except.bind]

/-- The CHR offsets that MMC3's registers map, with CHR ROM (51_mappers.md R356). -/
def mmc3ChrOff (c : Cart) (r : Mmc3) : Vector Nat 8 :=
  if r.bankSelect.getLsbD 7 then
    #v[mmc3Bank c r.r[2], mmc3Bank c r.r[3], mmc3Bank c r.r[4], mmc3Bank c r.r[5], mmc3Bank c (r.r[0] &&& 0xFE),
      mmc3Bank c (r.r[0] ||| 1), mmc3Bank c (r.r[1] &&& 0xFE), mmc3Bank c (r.r[1] ||| 1)]
  else
    #v[mmc3Bank c (r.r[0] &&& 0xFE), mmc3Bank c (r.r[0] ||| 1), mmc3Bank c (r.r[1] &&& 0xFE), mmc3Bank c (r.r[1] ||| 1),
      mmc3Bank c r.r[2], mmc3Bank c r.r[3], mmc3Bank c r.r[4], mmc3Bank c r.r[5]]

/-- The PRG offsets that MMC3's registers map (51_mappers.md R356). -/
def mmc3PrgOff (c : Cart) (r : Mmc3) : Vector Nat 4 :=
  let fixed := prgSlot c 0x2000 (c.countP 0x2000 - 2) 0
  let r6 := prgSlot c 0x2000 r.r[6].toNat 0
  let swapped := r.bankSelect.getLsbD 6
  #v[if swapped then fixed else r6, prgSlot c 0x2000 r.r[7].toNat 0, if swapped then r6 else fixed,
    prgSlot c 0x2000 (c.countP 0x2000 - 1) 0]

theorem mmc3Chr_off {s : State} (h : s.Core) (r : Mmc3) : ∃ t, mmc3Chr r s = .ok t ∧ State.Set s t ∧ t.cart = s.cart ∧
    t.mapper = { s.mapper with chrOff := if 0 < s.cart.nChr then mmc3ChrOff s.cart r else s.mapper.chrOff } := by
  unfold mmc3ChrOff
  cases hb : r.bankSelect.getLsbD 7
  · obtain ⟨t, e, u, c, m⟩ := mmc3Chr_at h r 0 (.inl rfl)
    refine ⟨t, by unfold mmc3Chr; rw [hb]; exact e, u, c, ?_⟩
    rw [m]
    simp only [Bool.false_eq_true, if_false]
    congr 2
    exact sets_eight _ _ _ _ _ _ _ _ _
  · obtain ⟨t, e, u, c, m⟩ := mmc3Chr_at h r 4 (.inr rfl)
    refine ⟨t, by unfold mmc3Chr; rw [hb]; exact e, u, c, ?_⟩
    rw [m]
    simp only [if_true]
    congr 2
    exact sets_eight_high _ _ _ _ _ _ _ _ _

theorem mmc3Prg_off (r : Mmc3) (s : State) :
    mmc3Prg r s = { s with mapper := { s.mapper with prgOff := mmc3PrgOff s.cart r } } := by
  have four : ∀ a b c d : Nat, mapPrg 0x2000 3 d (mapPrg 0x2000 1 b (mapPrg 0x2000 2 c (mapPrg 0x2000 0 a s))) =
      { s with mapper := { s.mapper with prgOff :=
        #v[prgSlot s.cart 0x2000 a 0, prgSlot s.cart 0x2000 b 0, prgSlot s.cart 0x2000 c 0, prgSlot s.cart 0x2000 d 0] } } := by
    intro a b c d
    simp only [mapPrg]
    rw [mapPrgOff_8 _ _ 3 (by omega), mapPrgOff_8 _ _ 1 (by omega), mapPrgOff_8 _ _ 2 (by omega),
      mapPrgOff_8 _ _ 0 (by omega), sets_four]
  cases hb : r.bankSelect.getLsbD 6
  · have e : mmc3PrgOff s.cart r = #v[prgSlot s.cart 0x2000 r.r[6].toNat 0, prgSlot s.cart 0x2000 r.r[7].toNat 0,
        prgSlot s.cart 0x2000 (s.cart.countP 0x2000 - 2) 0, prgSlot s.cart 0x2000 (s.cart.countP 0x2000 - 1) 0] := by
      simp only [mmc3PrgOff, hb, Bool.false_eq_true, if_false]
    rw [e, ← four]
    simp only [mmc3Prg, hb, Bool.false_eq_true, if_false]
  · have e : mmc3PrgOff s.cart r = #v[prgSlot s.cart 0x2000 (s.cart.countP 0x2000 - 2) 0,
        prgSlot s.cart 0x2000 r.r[7].toNat 0, prgSlot s.cart 0x2000 r.r[6].toNat 0,
        prgSlot s.cart 0x2000 (s.cart.countP 0x2000 - 1) 0] := by
      simp only [mmc3PrgOff, hb, if_true]
    rw [e, ← four]
    simp only [mmc3Prg, hb, if_true]

/-- Loading MMC3's bank registers: the whole mapper after it, and the PPU's copy (51_mappers.md R356). -/
theorem mmc3Apply_off {s : State} (h : s.Core) (hv : s.cart.variant = .mmc3) (r : Mmc3) : ∃ t, mmc3Apply r s = .ok t ∧
    State.Set (setRegs (.mmc3 r) s) t ∧ t.ppu.chrOff = t.mapper.chrOff ∧ t.mapper = { s.mapper with
      regs := .mmc3 r
      prgOff := mmc3PrgOff s.cart r
      chrOff := if 0 < s.cart.nChr then mmc3ChrOff s.cart r else s.mapper.chrOff } := by
  have hc := h.setRegs (r := .mmc3 r) (by rw [hv]; trivial)
  obtain ⟨t, ht, hs, hcart, hm⟩ := mmc3Chr_off hc r
  have hp := mmc3Prg_set hs.core r
  refine ⟨mmc3Prg r t, by unfold mmc3Apply; rw [ht]; rfl, hs.trans hp, hp.core.chrCopy, ?_⟩
  rw [mmc3Prg_off, hm, hcart]
  rfl

end Sys2Proof.Machine
end

