-- ==== Sys2Proof/Laws/PerInstr.lean ====
section
/-! SUPPORT. The encoding law of each instruction: a well-formed instruction has words, and its words decode to it
(30_encoding.md R110, R113, R114). -/

namespace Sys2Proof.Laws.Encoded

/-- Decoding the words of a well-formed instruction gives it back, with whatever bytes follow. -/
def Statement (i : Instr) : Prop :=
  WellFormed i → ∃ ws, encode i = some ws ∧ ∀ rest, decode (ws ++ rest) = .ok (i, rest)

theorem lda (src : Src) : Statement (.lda src) := by
  cases src with
  | imm o => exact fun _ => ⟨_, rfl, fun _ => rfl⟩
  | mem m =>
    cases m with
    | zp o => exact fun _ => ⟨_, rfl, fun _ => rfl⟩
    | zpx o => exact fun _ => ⟨_, rfl, fun _ => rfl⟩
    | zpy o => exact fun h => absurd h (by simp [WellFormed, Instr.wellFormed, Src.mode, Rmw.mode, Mem.mode])
    | abs a => exact fun _ => ⟨_, rfl, fun rest => by
      show Except.ok (Instr.lda (.mem (.abs (wordOf (hiByte a) (loByte a)))), rest) = _
      rw [wordOf_hiByte_loByte]⟩
    | absx a => exact fun _ => ⟨_, rfl, fun rest => by
      show Except.ok (Instr.lda (.mem (.absx (wordOf (hiByte a) (loByte a)))), rest) = _
      rw [wordOf_hiByte_loByte]⟩
    | absy a => exact fun _ => ⟨_, rfl, fun rest => by
      show Except.ok (Instr.lda (.mem (.absy (wordOf (hiByte a) (loByte a)))), rest) = _
      rw [wordOf_hiByte_loByte]⟩
    | indx o => exact fun _ => ⟨_, rfl, fun _ => rfl⟩
    | indy o => exact fun _ => ⟨_, rfl, fun _ => rfl⟩

theorem ldx (src : Src) : Statement (.ldx src) := by
  cases src with
  | imm o => exact fun _ => ⟨_, rfl, fun _ => rfl⟩
  | mem m =>
    cases m with
    | zp o => exact fun _ => ⟨_, rfl, fun _ => rfl⟩
    | zpx o => exact fun h => absurd h (by simp [WellFormed, Instr.wellFormed, Src.mode, Rmw.mode, Mem.mode])
    | zpy o => exact fun _ => ⟨_, rfl, fun _ => rfl⟩
    | abs a => exact fun _ => ⟨_, rfl, fun rest => by
      show Except.ok (Instr.ldx (.mem (.abs (wordOf (hiByte a) (loByte a)))), rest) = _
      rw [wordOf_hiByte_loByte]⟩
    | absx a => exact fun h => absurd h (by simp [WellFormed, Instr.wellFormed, Src.mode, Rmw.mode, Mem.mode])
    | absy a => exact fun _ => ⟨_, rfl, fun rest => by
      show Except.ok (Instr.ldx (.mem (.absy (wordOf (hiByte a) (loByte a)))), rest) = _
      rw [wordOf_hiByte_loByte]⟩
    | indx o => exact fun h => absurd h (by simp [WellFormed, Instr.wellFormed, Src.mode, Rmw.mode, Mem.mode])
    | indy o => exact fun h => absurd h (by simp [WellFormed, Instr.wellFormed, Src.mode, Rmw.mode, Mem.mode])

theorem ldy (src : Src) : Statement (.ldy src) := by
  cases src with
  | imm o => exact fun _ => ⟨_, rfl, fun _ => rfl⟩
  | mem m =>
    cases m with
    | zp o => exact fun _ => ⟨_, rfl, fun _ => rfl⟩
    | zpx o => exact fun _ => ⟨_, rfl, fun _ => rfl⟩
    | zpy o => exact fun h => absurd h (by simp [WellFormed, Instr.wellFormed, Src.mode, Rmw.mode, Mem.mode])
    | abs a => exact fun _ => ⟨_, rfl, fun rest => by
      show Except.ok (Instr.ldy (.mem (.abs (wordOf (hiByte a) (loByte a)))), rest) = _
      rw [wordOf_hiByte_loByte]⟩
    | absx a => exact fun _ => ⟨_, rfl, fun rest => by
      show Except.ok (Instr.ldy (.mem (.absx (wordOf (hiByte a) (loByte a)))), rest) = _
      rw [wordOf_hiByte_loByte]⟩
    | absy a => exact fun h => absurd h (by simp [WellFormed, Instr.wellFormed, Src.mode, Rmw.mode, Mem.mode])
    | indx o => exact fun h => absurd h (by simp [WellFormed, Instr.wellFormed, Src.mode, Rmw.mode, Mem.mode])
    | indy o => exact fun h => absurd h (by simp [WellFormed, Instr.wellFormed, Src.mode, Rmw.mode, Mem.mode])

theorem sta (m : Mem) : Statement (.sta m) := by
  cases m with
  | zp o => exact fun _ => ⟨_, rfl, fun _ => rfl⟩
  | zpx o => exact fun _ => ⟨_, rfl, fun _ => rfl⟩
  | zpy o => exact fun h => absurd h (by simp [WellFormed, Instr.wellFormed, Src.mode, Rmw.mode, Mem.mode])
  | abs a => exact fun _ => ⟨_, rfl, fun rest => by
      show Except.ok (Instr.sta (.abs (wordOf (hiByte a) (loByte a))), rest) = _
      rw [wordOf_hiByte_loByte]⟩
  | absx a => exact fun _ => ⟨_, rfl, fun rest => by
      show Except.ok (Instr.sta (.absx (wordOf (hiByte a) (loByte a))), rest) = _
      rw [wordOf_hiByte_loByte]⟩
  | absy a => exact fun _ => ⟨_, rfl, fun rest => by
      show Except.ok (Instr.sta (.absy (wordOf (hiByte a) (loByte a))), rest) = _
      rw [wordOf_hiByte_loByte]⟩
  | indx o => exact fun _ => ⟨_, rfl, fun _ => rfl⟩
  | indy o => exact fun _ => ⟨_, rfl, fun _ => rfl⟩

theorem stx (m : Mem) : Statement (.stx m) := by
  cases m with
  | zp o => exact fun _ => ⟨_, rfl, fun _ => rfl⟩
  | zpx o => exact fun h => absurd h (by simp [WellFormed, Instr.wellFormed, Src.mode, Rmw.mode, Mem.mode])
  | zpy o => exact fun _ => ⟨_, rfl, fun _ => rfl⟩
  | abs a => exact fun _ => ⟨_, rfl, fun rest => by
      show Except.ok (Instr.stx (.abs (wordOf (hiByte a) (loByte a))), rest) = _
      rw [wordOf_hiByte_loByte]⟩
  | absx a => exact fun h => absurd h (by simp [WellFormed, Instr.wellFormed, Src.mode, Rmw.mode, Mem.mode])
  | absy a => exact fun h => absurd h (by simp [WellFormed, Instr.wellFormed, Src.mode, Rmw.mode, Mem.mode])
  | indx o => exact fun h => absurd h (by simp [WellFormed, Instr.wellFormed, Src.mode, Rmw.mode, Mem.mode])
  | indy o => exact fun h => absurd h (by simp [WellFormed, Instr.wellFormed, Src.mode, Rmw.mode, Mem.mode])

theorem sty (m : Mem) : Statement (.sty m) := by
  cases m with
  | zp o => exact fun _ => ⟨_, rfl, fun _ => rfl⟩
  | zpx o => exact fun _ => ⟨_, rfl, fun _ => rfl⟩
  | zpy o => exact fun h => absurd h (by simp [WellFormed, Instr.wellFormed, Src.mode, Rmw.mode, Mem.mode])
  | abs a => exact fun _ => ⟨_, rfl, fun rest => by
      show Except.ok (Instr.sty (.abs (wordOf (hiByte a) (loByte a))), rest) = _
      rw [wordOf_hiByte_loByte]⟩
  | absx a => exact fun h => absurd h (by simp [WellFormed, Instr.wellFormed, Src.mode, Rmw.mode, Mem.mode])
  | absy a => exact fun h => absurd h (by simp [WellFormed, Instr.wellFormed, Src.mode, Rmw.mode, Mem.mode])
  | indx o => exact fun h => absurd h (by simp [WellFormed, Instr.wellFormed, Src.mode, Rmw.mode, Mem.mode])
  | indy o => exact fun h => absurd h (by simp [WellFormed, Instr.wellFormed, Src.mode, Rmw.mode, Mem.mode])

theorem tax : Statement .tax := fun _ => ⟨_, rfl, fun _ => rfl⟩

theorem tay : Statement .tay := fun _ => ⟨_, rfl, fun _ => rfl⟩

theorem txa : Statement .txa := fun _ => ⟨_, rfl, fun _ => rfl⟩

theorem tya : Statement .tya := fun _ => ⟨_, rfl, fun _ => rfl⟩

theorem tsx : Statement .tsx := fun _ => ⟨_, rfl, fun _ => rfl⟩

theorem txs : Statement .txs := fun _ => ⟨_, rfl, fun _ => rfl⟩

theorem adc (src : Src) : Statement (.adc src) := by
  cases src with
  | imm o => exact fun _ => ⟨_, rfl, fun _ => rfl⟩
  | mem m =>
    cases m with
    | zp o => exact fun _ => ⟨_, rfl, fun _ => rfl⟩
    | zpx o => exact fun _ => ⟨_, rfl, fun _ => rfl⟩
    | zpy o => exact fun h => absurd h (by simp [WellFormed, Instr.wellFormed, Src.mode, Rmw.mode, Mem.mode])
    | abs a => exact fun _ => ⟨_, rfl, fun rest => by
      show Except.ok (Instr.adc (.mem (.abs (wordOf (hiByte a) (loByte a)))), rest) = _
      rw [wordOf_hiByte_loByte]⟩
    | absx a => exact fun _ => ⟨_, rfl, fun rest => by
      show Except.ok (Instr.adc (.mem (.absx (wordOf (hiByte a) (loByte a)))), rest) = _
      rw [wordOf_hiByte_loByte]⟩
    | absy a => exact fun _ => ⟨_, rfl, fun rest => by
      show Except.ok (Instr.adc (.mem (.absy (wordOf (hiByte a) (loByte a)))), rest) = _
      rw [wordOf_hiByte_loByte]⟩
    | indx o => exact fun _ => ⟨_, rfl, fun _ => rfl⟩
    | indy o => exact fun _ => ⟨_, rfl, fun _ => rfl⟩

theorem sbc (src : Src) : Statement (.sbc src) := by
  cases src with
  | imm o => exact fun _ => ⟨_, rfl, fun _ => rfl⟩
  | mem m =>
    cases m with
    | zp o => exact fun _ => ⟨_, rfl, fun _ => rfl⟩
    | zpx o => exact fun _ => ⟨_, rfl, fun _ => rfl⟩
    | zpy o => exact fun h => absurd h (by simp [WellFormed, Instr.wellFormed, Src.mode, Rmw.mode, Mem.mode])
    | abs a => exact fun _ => ⟨_, rfl, fun rest => by
      show Except.ok (Instr.sbc (.mem (.abs (wordOf (hiByte a) (loByte a)))), rest) = _
      rw [wordOf_hiByte_loByte]⟩
    | absx a => exact fun _ => ⟨_, rfl, fun rest => by
      show Except.ok (Instr.sbc (.mem (.absx (wordOf (hiByte a) (loByte a)))), rest) = _
      rw [wordOf_hiByte_loByte]⟩
    | absy a => exact fun _ => ⟨_, rfl, fun rest => by
      show Except.ok (Instr.sbc (.mem (.absy (wordOf (hiByte a) (loByte a)))), rest) = _
      rw [wordOf_hiByte_loByte]⟩
    | indx o => exact fun _ => ⟨_, rfl, fun _ => rfl⟩
    | indy o => exact fun _ => ⟨_, rfl, fun _ => rfl⟩

theorem and (src : Src) : Statement (.and src) := by
  cases src with
  | imm o => exact fun _ => ⟨_, rfl, fun _ => rfl⟩
  | mem m =>
    cases m with
    | zp o => exact fun _ => ⟨_, rfl, fun _ => rfl⟩
    | zpx o => exact fun _ => ⟨_, rfl, fun _ => rfl⟩
    | zpy o => exact fun h => absurd h (by simp [WellFormed, Instr.wellFormed, Src.mode, Rmw.mode, Mem.mode])
    | abs a => exact fun _ => ⟨_, rfl, fun rest => by
      show Except.ok (Instr.and (.mem (.abs (wordOf (hiByte a) (loByte a)))), rest) = _
      rw [wordOf_hiByte_loByte]⟩
    | absx a => exact fun _ => ⟨_, rfl, fun rest => by
      show Except.ok (Instr.and (.mem (.absx (wordOf (hiByte a) (loByte a)))), rest) = _
      rw [wordOf_hiByte_loByte]⟩
    | absy a => exact fun _ => ⟨_, rfl, fun rest => by
      show Except.ok (Instr.and (.mem (.absy (wordOf (hiByte a) (loByte a)))), rest) = _
      rw [wordOf_hiByte_loByte]⟩
    | indx o => exact fun _ => ⟨_, rfl, fun _ => rfl⟩
    | indy o => exact fun _ => ⟨_, rfl, fun _ => rfl⟩

theorem ora (src : Src) : Statement (.ora src) := by
  cases src with
  | imm o => exact fun _ => ⟨_, rfl, fun _ => rfl⟩
  | mem m =>
    cases m with
    | zp o => exact fun _ => ⟨_, rfl, fun _ => rfl⟩
    | zpx o => exact fun _ => ⟨_, rfl, fun _ => rfl⟩
    | zpy o => exact fun h => absurd h (by simp [WellFormed, Instr.wellFormed, Src.mode, Rmw.mode, Mem.mode])
    | abs a => exact fun _ => ⟨_, rfl, fun rest => by
      show Except.ok (Instr.ora (.mem (.abs (wordOf (hiByte a) (loByte a)))), rest) = _
      rw [wordOf_hiByte_loByte]⟩
    | absx a => exact fun _ => ⟨_, rfl, fun rest => by
      show Except.ok (Instr.ora (.mem (.absx (wordOf (hiByte a) (loByte a)))), rest) = _
      rw [wordOf_hiByte_loByte]⟩
    | absy a => exact fun _ => ⟨_, rfl, fun rest => by
      show Except.ok (Instr.ora (.mem (.absy (wordOf (hiByte a) (loByte a)))), rest) = _
      rw [wordOf_hiByte_loByte]⟩
    | indx o => exact fun _ => ⟨_, rfl, fun _ => rfl⟩
    | indy o => exact fun _ => ⟨_, rfl, fun _ => rfl⟩

theorem eor (src : Src) : Statement (.eor src) := by
  cases src with
  | imm o => exact fun _ => ⟨_, rfl, fun _ => rfl⟩
  | mem m =>
    cases m with
    | zp o => exact fun _ => ⟨_, rfl, fun _ => rfl⟩
    | zpx o => exact fun _ => ⟨_, rfl, fun _ => rfl⟩
    | zpy o => exact fun h => absurd h (by simp [WellFormed, Instr.wellFormed, Src.mode, Rmw.mode, Mem.mode])
    | abs a => exact fun _ => ⟨_, rfl, fun rest => by
      show Except.ok (Instr.eor (.mem (.abs (wordOf (hiByte a) (loByte a)))), rest) = _
      rw [wordOf_hiByte_loByte]⟩
    | absx a => exact fun _ => ⟨_, rfl, fun rest => by
      show Except.ok (Instr.eor (.mem (.absx (wordOf (hiByte a) (loByte a)))), rest) = _
      rw [wordOf_hiByte_loByte]⟩
    | absy a => exact fun _ => ⟨_, rfl, fun rest => by
      show Except.ok (Instr.eor (.mem (.absy (wordOf (hiByte a) (loByte a)))), rest) = _
      rw [wordOf_hiByte_loByte]⟩
    | indx o => exact fun _ => ⟨_, rfl, fun _ => rfl⟩
    | indy o => exact fun _ => ⟨_, rfl, fun _ => rfl⟩

theorem bit (m : Mem) : Statement (.bit m) := by
  cases m with
  | zp o => exact fun _ => ⟨_, rfl, fun _ => rfl⟩
  | zpx o => exact fun h => absurd h (by simp [WellFormed, Instr.wellFormed, Src.mode, Rmw.mode, Mem.mode])
  | zpy o => exact fun h => absurd h (by simp [WellFormed, Instr.wellFormed, Src.mode, Rmw.mode, Mem.mode])
  | abs a => exact fun _ => ⟨_, rfl, fun rest => by
      show Except.ok (Instr.bit (.abs (wordOf (hiByte a) (loByte a))), rest) = _
      rw [wordOf_hiByte_loByte]⟩
  | absx a => exact fun h => absurd h (by simp [WellFormed, Instr.wellFormed, Src.mode, Rmw.mode, Mem.mode])
  | absy a => exact fun h => absurd h (by simp [WellFormed, Instr.wellFormed, Src.mode, Rmw.mode, Mem.mode])
  | indx o => exact fun h => absurd h (by simp [WellFormed, Instr.wellFormed, Src.mode, Rmw.mode, Mem.mode])
  | indy o => exact fun h => absurd h (by simp [WellFormed, Instr.wellFormed, Src.mode, Rmw.mode, Mem.mode])

theorem cmp (src : Src) : Statement (.cmp src) := by
  cases src with
  | imm o => exact fun _ => ⟨_, rfl, fun _ => rfl⟩
  | mem m =>
    cases m with
    | zp o => exact fun _ => ⟨_, rfl, fun _ => rfl⟩
    | zpx o => exact fun _ => ⟨_, rfl, fun _ => rfl⟩
    | zpy o => exact fun h => absurd h (by simp [WellFormed, Instr.wellFormed, Src.mode, Rmw.mode, Mem.mode])
    | abs a => exact fun _ => ⟨_, rfl, fun rest => by
      show Except.ok (Instr.cmp (.mem (.abs (wordOf (hiByte a) (loByte a)))), rest) = _
      rw [wordOf_hiByte_loByte]⟩
    | absx a => exact fun _ => ⟨_, rfl, fun rest => by
      show Except.ok (Instr.cmp (.mem (.absx (wordOf (hiByte a) (loByte a)))), rest) = _
      rw [wordOf_hiByte_loByte]⟩
    | absy a => exact fun _ => ⟨_, rfl, fun rest => by
      show Except.ok (Instr.cmp (.mem (.absy (wordOf (hiByte a) (loByte a)))), rest) = _
      rw [wordOf_hiByte_loByte]⟩
    | indx o => exact fun _ => ⟨_, rfl, fun _ => rfl⟩
    | indy o => exact fun _ => ⟨_, rfl, fun _ => rfl⟩

theorem cpx (src : Src) : Statement (.cpx src) := by
  cases src with
  | imm o => exact fun _ => ⟨_, rfl, fun _ => rfl⟩
  | mem m =>
    cases m with
    | zp o => exact fun _ => ⟨_, rfl, fun _ => rfl⟩
    | zpx o => exact fun h => absurd h (by simp [WellFormed, Instr.wellFormed, Src.mode, Rmw.mode, Mem.mode])
    | zpy o => exact fun h => absurd h (by simp [WellFormed, Instr.wellFormed, Src.mode, Rmw.mode, Mem.mode])
    | abs a => exact fun _ => ⟨_, rfl, fun rest => by
      show Except.ok (Instr.cpx (.mem (.abs (wordOf (hiByte a) (loByte a)))), rest) = _
      rw [wordOf_hiByte_loByte]⟩
    | absx a => exact fun h => absurd h (by simp [WellFormed, Instr.wellFormed, Src.mode, Rmw.mode, Mem.mode])
    | absy a => exact fun h => absurd h (by simp [WellFormed, Instr.wellFormed, Src.mode, Rmw.mode, Mem.mode])
    | indx o => exact fun h => absurd h (by simp [WellFormed, Instr.wellFormed, Src.mode, Rmw.mode, Mem.mode])
    | indy o => exact fun h => absurd h (by simp [WellFormed, Instr.wellFormed, Src.mode, Rmw.mode, Mem.mode])

theorem cpy (src : Src) : Statement (.cpy src) := by
  cases src with
  | imm o => exact fun _ => ⟨_, rfl, fun _ => rfl⟩
  | mem m =>
    cases m with
    | zp o => exact fun _ => ⟨_, rfl, fun _ => rfl⟩
    | zpx o => exact fun h => absurd h (by simp [WellFormed, Instr.wellFormed, Src.mode, Rmw.mode, Mem.mode])
    | zpy o => exact fun h => absurd h (by simp [WellFormed, Instr.wellFormed, Src.mode, Rmw.mode, Mem.mode])
    | abs a => exact fun _ => ⟨_, rfl, fun rest => by
      show Except.ok (Instr.cpy (.mem (.abs (wordOf (hiByte a) (loByte a)))), rest) = _
      rw [wordOf_hiByte_loByte]⟩
    | absx a => exact fun h => absurd h (by simp [WellFormed, Instr.wellFormed, Src.mode, Rmw.mode, Mem.mode])
    | absy a => exact fun h => absurd h (by simp [WellFormed, Instr.wellFormed, Src.mode, Rmw.mode, Mem.mode])
    | indx o => exact fun h => absurd h (by simp [WellFormed, Instr.wellFormed, Src.mode, Rmw.mode, Mem.mode])
    | indy o => exact fun h => absurd h (by simp [WellFormed, Instr.wellFormed, Src.mode, Rmw.mode, Mem.mode])

theorem inc (m : Mem) : Statement (.inc m) := by
  cases m with
  | zp o => exact fun _ => ⟨_, rfl, fun _ => rfl⟩
  | zpx o => exact fun _ => ⟨_, rfl, fun _ => rfl⟩
  | zpy o => exact fun h => absurd h (by simp [WellFormed, Instr.wellFormed, Src.mode, Rmw.mode, Mem.mode])
  | abs a => exact fun _ => ⟨_, rfl, fun rest => by
      show Except.ok (Instr.inc (.abs (wordOf (hiByte a) (loByte a))), rest) = _
      rw [wordOf_hiByte_loByte]⟩
  | absx a => exact fun _ => ⟨_, rfl, fun rest => by
      show Except.ok (Instr.inc (.absx (wordOf (hiByte a) (loByte a))), rest) = _
      rw [wordOf_hiByte_loByte]⟩
  | absy a => exact fun h => absurd h (by simp [WellFormed, Instr.wellFormed, Src.mode, Rmw.mode, Mem.mode])
  | indx o => exact fun h => absurd h (by simp [WellFormed, Instr.wellFormed, Src.mode, Rmw.mode, Mem.mode])
  | indy o => exact fun h => absurd h (by simp [WellFormed, Instr.wellFormed, Src.mode, Rmw.mode, Mem.mode])

theorem dec (m : Mem) : Statement (.dec m) := by
  cases m with
  | zp o => exact fun _ => ⟨_, rfl, fun _ => rfl⟩
  | zpx o => exact fun _ => ⟨_, rfl, fun _ => rfl⟩
  | zpy o => exact fun h => absurd h (by simp [WellFormed, Instr.wellFormed, Src.mode, Rmw.mode, Mem.mode])
  | abs a => exact fun _ => ⟨_, rfl, fun rest => by
      show Except.ok (Instr.dec (.abs (wordOf (hiByte a) (loByte a))), rest) = _
      rw [wordOf_hiByte_loByte]⟩
  | absx a => exact fun _ => ⟨_, rfl, fun rest => by
      show Except.ok (Instr.dec (.absx (wordOf (hiByte a) (loByte a))), rest) = _
      rw [wordOf_hiByte_loByte]⟩
  | absy a => exact fun h => absurd h (by simp [WellFormed, Instr.wellFormed, Src.mode, Rmw.mode, Mem.mode])
  | indx o => exact fun h => absurd h (by simp [WellFormed, Instr.wellFormed, Src.mode, Rmw.mode, Mem.mode])
  | indy o => exact fun h => absurd h (by simp [WellFormed, Instr.wellFormed, Src.mode, Rmw.mode, Mem.mode])

theorem inx : Statement .inx := fun _ => ⟨_, rfl, fun _ => rfl⟩

theorem iny : Statement .iny := fun _ => ⟨_, rfl, fun _ => rfl⟩

theorem dex : Statement .dex := fun _ => ⟨_, rfl, fun _ => rfl⟩

theorem dey : Statement .dey := fun _ => ⟨_, rfl, fun _ => rfl⟩

theorem asl (dst : Rmw) : Statement (.asl dst) := by
  cases dst with
  | acc => exact fun _ => ⟨_, rfl, fun _ => rfl⟩
  | mem m =>
    cases m with
    | zp o => exact fun _ => ⟨_, rfl, fun _ => rfl⟩
    | zpx o => exact fun _ => ⟨_, rfl, fun _ => rfl⟩
    | zpy o => exact fun h => absurd h (by simp [WellFormed, Instr.wellFormed, Src.mode, Rmw.mode, Mem.mode])
    | abs a => exact fun _ => ⟨_, rfl, fun rest => by
      show Except.ok (Instr.asl (.mem (.abs (wordOf (hiByte a) (loByte a)))), rest) = _
      rw [wordOf_hiByte_loByte]⟩
    | absx a => exact fun _ => ⟨_, rfl, fun rest => by
      show Except.ok (Instr.asl (.mem (.absx (wordOf (hiByte a) (loByte a)))), rest) = _
      rw [wordOf_hiByte_loByte]⟩
    | absy a => exact fun h => absurd h (by simp [WellFormed, Instr.wellFormed, Src.mode, Rmw.mode, Mem.mode])
    | indx o => exact fun h => absurd h (by simp [WellFormed, Instr.wellFormed, Src.mode, Rmw.mode, Mem.mode])
    | indy o => exact fun h => absurd h (by simp [WellFormed, Instr.wellFormed, Src.mode, Rmw.mode, Mem.mode])

theorem lsr (dst : Rmw) : Statement (.lsr dst) := by
  cases dst with
  | acc => exact fun _ => ⟨_, rfl, fun _ => rfl⟩
  | mem m =>
    cases m with
    | zp o => exact fun _ => ⟨_, rfl, fun _ => rfl⟩
    | zpx o => exact fun _ => ⟨_, rfl, fun _ => rfl⟩
    | zpy o => exact fun h => absurd h (by simp [WellFormed, Instr.wellFormed, Src.mode, Rmw.mode, Mem.mode])
    | abs a => exact fun _ => ⟨_, rfl, fun rest => by
      show Except.ok (Instr.lsr (.mem (.abs (wordOf (hiByte a) (loByte a)))), rest) = _
      rw [wordOf_hiByte_loByte]⟩
    | absx a => exact fun _ => ⟨_, rfl, fun rest => by
      show Except.ok (Instr.lsr (.mem (.absx (wordOf (hiByte a) (loByte a)))), rest) = _
      rw [wordOf_hiByte_loByte]⟩
    | absy a => exact fun h => absurd h (by simp [WellFormed, Instr.wellFormed, Src.mode, Rmw.mode, Mem.mode])
    | indx o => exact fun h => absurd h (by simp [WellFormed, Instr.wellFormed, Src.mode, Rmw.mode, Mem.mode])
    | indy o => exact fun h => absurd h (by simp [WellFormed, Instr.wellFormed, Src.mode, Rmw.mode, Mem.mode])

theorem rol (dst : Rmw) : Statement (.rol dst) := by
  cases dst with
  | acc => exact fun _ => ⟨_, rfl, fun _ => rfl⟩
  | mem m =>
    cases m with
    | zp o => exact fun _ => ⟨_, rfl, fun _ => rfl⟩
    | zpx o => exact fun _ => ⟨_, rfl, fun _ => rfl⟩
    | zpy o => exact fun h => absurd h (by simp [WellFormed, Instr.wellFormed, Src.mode, Rmw.mode, Mem.mode])
    | abs a => exact fun _ => ⟨_, rfl, fun rest => by
      show Except.ok (Instr.rol (.mem (.abs (wordOf (hiByte a) (loByte a)))), rest) = _
      rw [wordOf_hiByte_loByte]⟩
    | absx a => exact fun _ => ⟨_, rfl, fun rest => by
      show Except.ok (Instr.rol (.mem (.absx (wordOf (hiByte a) (loByte a)))), rest) = _
      rw [wordOf_hiByte_loByte]⟩
    | absy a => exact fun h => absurd h (by simp [WellFormed, Instr.wellFormed, Src.mode, Rmw.mode, Mem.mode])
    | indx o => exact fun h => absurd h (by simp [WellFormed, Instr.wellFormed, Src.mode, Rmw.mode, Mem.mode])
    | indy o => exact fun h => absurd h (by simp [WellFormed, Instr.wellFormed, Src.mode, Rmw.mode, Mem.mode])

theorem ror (dst : Rmw) : Statement (.ror dst) := by
  cases dst with
  | acc => exact fun _ => ⟨_, rfl, fun _ => rfl⟩
  | mem m =>
    cases m with
    | zp o => exact fun _ => ⟨_, rfl, fun _ => rfl⟩
    | zpx o => exact fun _ => ⟨_, rfl, fun _ => rfl⟩
    | zpy o => exact fun h => absurd h (by simp [WellFormed, Instr.wellFormed, Src.mode, Rmw.mode, Mem.mode])
    | abs a => exact fun _ => ⟨_, rfl, fun rest => by
      show Except.ok (Instr.ror (.mem (.abs (wordOf (hiByte a) (loByte a)))), rest) = _
      rw [wordOf_hiByte_loByte]⟩
    | absx a => exact fun _ => ⟨_, rfl, fun rest => by
      show Except.ok (Instr.ror (.mem (.absx (wordOf (hiByte a) (loByte a)))), rest) = _
      rw [wordOf_hiByte_loByte]⟩
    | absy a => exact fun h => absurd h (by simp [WellFormed, Instr.wellFormed, Src.mode, Rmw.mode, Mem.mode])
    | indx o => exact fun h => absurd h (by simp [WellFormed, Instr.wellFormed, Src.mode, Rmw.mode, Mem.mode])
    | indy o => exact fun h => absurd h (by simp [WellFormed, Instr.wellFormed, Src.mode, Rmw.mode, Mem.mode])

theorem bcc (rel : Byte) : Statement (.bcc rel) := fun _ => ⟨_, rfl, fun _ => rfl⟩

theorem bcs (rel : Byte) : Statement (.bcs rel) := fun _ => ⟨_, rfl, fun _ => rfl⟩

theorem beq (rel : Byte) : Statement (.beq rel) := fun _ => ⟨_, rfl, fun _ => rfl⟩

theorem bne (rel : Byte) : Statement (.bne rel) := fun _ => ⟨_, rfl, fun _ => rfl⟩

theorem bmi (rel : Byte) : Statement (.bmi rel) := fun _ => ⟨_, rfl, fun _ => rfl⟩

theorem bpl (rel : Byte) : Statement (.bpl rel) := fun _ => ⟨_, rfl, fun _ => rfl⟩

theorem bvc (rel : Byte) : Statement (.bvc rel) := fun _ => ⟨_, rfl, fun _ => rfl⟩

theorem bvs (rel : Byte) : Statement (.bvs rel) := fun _ => ⟨_, rfl, fun _ => rfl⟩

theorem jmp (target : JmpTarget) : Statement (.jmp target) := by
  cases target with
  | abs a =>
    exact fun _ => ⟨_, rfl, fun rest => by
      show Except.ok (Instr.jmp (.abs (wordOf (hiByte a) (loByte a))), rest) = _
      rw [wordOf_hiByte_loByte]⟩
  | ind a =>
    exact fun _ => ⟨_, rfl, fun rest => by
      show Except.ok (Instr.jmp (.ind (wordOf (hiByte a) (loByte a))), rest) = _
      rw [wordOf_hiByte_loByte]⟩

theorem jsr (target : Addr) : Statement (.jsr target) := fun _ =>
  ⟨_, rfl, fun rest => by
    show Except.ok (Instr.jsr (wordOf (hiByte target) (loByte target)), rest) = _
    rw [wordOf_hiByte_loByte]⟩

theorem rts : Statement .rts := fun _ => ⟨_, rfl, fun _ => rfl⟩

theorem rti : Statement .rti := fun _ => ⟨_, rfl, fun _ => rfl⟩

theorem brk : Statement .brk := fun _ => ⟨_, rfl, fun _ => rfl⟩

theorem pha : Statement .pha := fun _ => ⟨_, rfl, fun _ => rfl⟩

theorem php : Statement .php := fun _ => ⟨_, rfl, fun _ => rfl⟩

theorem pla : Statement .pla := fun _ => ⟨_, rfl, fun _ => rfl⟩

theorem plp : Statement .plp := fun _ => ⟨_, rfl, fun _ => rfl⟩

theorem clc : Statement .clc := fun _ => ⟨_, rfl, fun _ => rfl⟩

theorem cld : Statement .cld := fun _ => ⟨_, rfl, fun _ => rfl⟩

theorem cli : Statement .cli := fun _ => ⟨_, rfl, fun _ => rfl⟩

theorem clv : Statement .clv := fun _ => ⟨_, rfl, fun _ => rfl⟩

theorem sec : Statement .sec := fun _ => ⟨_, rfl, fun _ => rfl⟩

theorem sed : Statement .sed := fun _ => ⟨_, rfl, fun _ => rfl⟩

theorem sei : Statement .sei := fun _ => ⟨_, rfl, fun _ => rfl⟩

theorem nop : Statement .nop := fun _ => ⟨_, rfl, fun _ => rfl⟩

theorem und02 : Statement .und02 := fun _ => ⟨_, rfl, fun _ => rfl⟩

theorem und03 (o : Byte) : Statement (.und03 o) := fun _ => ⟨_, rfl, fun _ => rfl⟩

theorem und04 (o : Byte) : Statement (.und04 o) := fun _ => ⟨_, rfl, fun _ => rfl⟩

theorem und07 (o : Byte) : Statement (.und07 o) := fun _ => ⟨_, rfl, fun _ => rfl⟩

theorem und0B (o : Byte) : Statement (.und0B o) := fun _ => ⟨_, rfl, fun _ => rfl⟩

theorem und0C (o : Addr) : Statement (.und0C o) := fun _ =>
  ⟨_, rfl, fun rest => by
    show Except.ok (Instr.und0C (wordOf (hiByte o) (loByte o)), rest) = _
    rw [wordOf_hiByte_loByte]⟩

theorem und0F (o : Addr) : Statement (.und0F o) := fun _ =>
  ⟨_, rfl, fun rest => by
    show Except.ok (Instr.und0F (wordOf (hiByte o) (loByte o)), rest) = _
    rw [wordOf_hiByte_loByte]⟩

theorem und12 : Statement .und12 := fun _ => ⟨_, rfl, fun _ => rfl⟩

theorem und13 (o : Byte) : Statement (.und13 o) := fun _ => ⟨_, rfl, fun _ => rfl⟩

theorem und14 (o : Byte) : Statement (.und14 o) := fun _ => ⟨_, rfl, fun _ => rfl⟩

theorem und17 (o : Byte) : Statement (.und17 o) := fun _ => ⟨_, rfl, fun _ => rfl⟩

theorem und1A : Statement .und1A := fun _ => ⟨_, rfl, fun _ => rfl⟩

theorem und1B (o : Addr) : Statement (.und1B o) := fun _ =>
  ⟨_, rfl, fun rest => by
    show Except.ok (Instr.und1B (wordOf (hiByte o) (loByte o)), rest) = _
    rw [wordOf_hiByte_loByte]⟩

theorem und1C (o : Addr) : Statement (.und1C o) := fun _ =>
  ⟨_, rfl, fun rest => by
    show Except.ok (Instr.und1C (wordOf (hiByte o) (loByte o)), rest) = _
    rw [wordOf_hiByte_loByte]⟩

theorem und1F (o : Addr) : Statement (.und1F o) := fun _ =>
  ⟨_, rfl, fun rest => by
    show Except.ok (Instr.und1F (wordOf (hiByte o) (loByte o)), rest) = _
    rw [wordOf_hiByte_loByte]⟩

theorem und22 : Statement .und22 := fun _ => ⟨_, rfl, fun _ => rfl⟩

theorem und23 (o : Byte) : Statement (.und23 o) := fun _ => ⟨_, rfl, fun _ => rfl⟩

theorem und27 (o : Byte) : Statement (.und27 o) := fun _ => ⟨_, rfl, fun _ => rfl⟩

theorem und2B (o : Byte) : Statement (.und2B o) := fun _ => ⟨_, rfl, fun _ => rfl⟩

theorem und2F (o : Addr) : Statement (.und2F o) := fun _ =>
  ⟨_, rfl, fun rest => by
    show Except.ok (Instr.und2F (wordOf (hiByte o) (loByte o)), rest) = _
    rw [wordOf_hiByte_loByte]⟩

theorem und32 : Statement .und32 := fun _ => ⟨_, rfl, fun _ => rfl⟩

theorem und33 (o : Byte) : Statement (.und33 o) := fun _ => ⟨_, rfl, fun _ => rfl⟩

theorem und34 (o : Byte) : Statement (.und34 o) := fun _ => ⟨_, rfl, fun _ => rfl⟩

theorem und37 (o : Byte) : Statement (.und37 o) := fun _ => ⟨_, rfl, fun _ => rfl⟩

theorem und3A : Statement .und3A := fun _ => ⟨_, rfl, fun _ => rfl⟩

theorem und3B (o : Addr) : Statement (.und3B o) := fun _ =>
  ⟨_, rfl, fun rest => by
    show Except.ok (Instr.und3B (wordOf (hiByte o) (loByte o)), rest) = _
    rw [wordOf_hiByte_loByte]⟩

theorem und3C (o : Addr) : Statement (.und3C o) := fun _ =>
  ⟨_, rfl, fun rest => by
    show Except.ok (Instr.und3C (wordOf (hiByte o) (loByte o)), rest) = _
    rw [wordOf_hiByte_loByte]⟩

theorem und3F (o : Addr) : Statement (.und3F o) := fun _ =>
  ⟨_, rfl, fun rest => by
    show Except.ok (Instr.und3F (wordOf (hiByte o) (loByte o)), rest) = _
    rw [wordOf_hiByte_loByte]⟩

theorem und42 : Statement .und42 := fun _ => ⟨_, rfl, fun _ => rfl⟩

theorem und43 (o : Byte) : Statement (.und43 o) := fun _ => ⟨_, rfl, fun _ => rfl⟩

theorem und44 (o : Byte) : Statement (.und44 o) := fun _ => ⟨_, rfl, fun _ => rfl⟩

theorem und47 (o : Byte) : Statement (.und47 o) := fun _ => ⟨_, rfl, fun _ => rfl⟩

theorem und4B (o : Byte) : Statement (.und4B o) := fun _ => ⟨_, rfl, fun _ => rfl⟩

theorem und4F (o : Addr) : Statement (.und4F o) := fun _ =>
  ⟨_, rfl, fun rest => by
    show Except.ok (Instr.und4F (wordOf (hiByte o) (loByte o)), rest) = _
    rw [wordOf_hiByte_loByte]⟩

theorem und52 : Statement .und52 := fun _ => ⟨_, rfl, fun _ => rfl⟩

theorem und53 (o : Byte) : Statement (.und53 o) := fun _ => ⟨_, rfl, fun _ => rfl⟩

theorem und54 (o : Byte) : Statement (.und54 o) := fun _ => ⟨_, rfl, fun _ => rfl⟩

theorem und57 (o : Byte) : Statement (.und57 o) := fun _ => ⟨_, rfl, fun _ => rfl⟩

theorem und5A : Statement .und5A := fun _ => ⟨_, rfl, fun _ => rfl⟩

theorem und5B (o : Addr) : Statement (.und5B o) := fun _ =>
  ⟨_, rfl, fun rest => by
    show Except.ok (Instr.und5B (wordOf (hiByte o) (loByte o)), rest) = _
    rw [wordOf_hiByte_loByte]⟩

theorem und5C (o : Addr) : Statement (.und5C o) := fun _ =>
  ⟨_, rfl, fun rest => by
    show Except.ok (Instr.und5C (wordOf (hiByte o) (loByte o)), rest) = _
    rw [wordOf_hiByte_loByte]⟩

theorem und5F (o : Addr) : Statement (.und5F o) := fun _ =>
  ⟨_, rfl, fun rest => by
    show Except.ok (Instr.und5F (wordOf (hiByte o) (loByte o)), rest) = _
    rw [wordOf_hiByte_loByte]⟩

theorem und62 : Statement .und62 := fun _ => ⟨_, rfl, fun _ => rfl⟩

theorem und63 (o : Byte) : Statement (.und63 o) := fun _ => ⟨_, rfl, fun _ => rfl⟩

theorem und64 (o : Byte) : Statement (.und64 o) := fun _ => ⟨_, rfl, fun _ => rfl⟩

theorem und67 (o : Byte) : Statement (.und67 o) := fun _ => ⟨_, rfl, fun _ => rfl⟩

theorem und6B (o : Byte) : Statement (.und6B o) := fun _ => ⟨_, rfl, fun _ => rfl⟩

theorem und6F (o : Addr) : Statement (.und6F o) := fun _ =>
  ⟨_, rfl, fun rest => by
    show Except.ok (Instr.und6F (wordOf (hiByte o) (loByte o)), rest) = _
    rw [wordOf_hiByte_loByte]⟩

theorem und72 : Statement .und72 := fun _ => ⟨_, rfl, fun _ => rfl⟩

theorem und73 (o : Byte) : Statement (.und73 o) := fun _ => ⟨_, rfl, fun _ => rfl⟩

theorem und74 (o : Byte) : Statement (.und74 o) := fun _ => ⟨_, rfl, fun _ => rfl⟩

theorem und77 (o : Byte) : Statement (.und77 o) := fun _ => ⟨_, rfl, fun _ => rfl⟩

theorem und7A : Statement .und7A := fun _ => ⟨_, rfl, fun _ => rfl⟩

theorem und7B (o : Addr) : Statement (.und7B o) := fun _ =>
  ⟨_, rfl, fun rest => by
    show Except.ok (Instr.und7B (wordOf (hiByte o) (loByte o)), rest) = _
    rw [wordOf_hiByte_loByte]⟩

theorem und7C (o : Addr) : Statement (.und7C o) := fun _ =>
  ⟨_, rfl, fun rest => by
    show Except.ok (Instr.und7C (wordOf (hiByte o) (loByte o)), rest) = _
    rw [wordOf_hiByte_loByte]⟩

theorem und7F (o : Addr) : Statement (.und7F o) := fun _ =>
  ⟨_, rfl, fun rest => by
    show Except.ok (Instr.und7F (wordOf (hiByte o) (loByte o)), rest) = _
    rw [wordOf_hiByte_loByte]⟩

theorem und80 (o : Byte) : Statement (.und80 o) := fun _ => ⟨_, rfl, fun _ => rfl⟩

theorem und82 (o : Byte) : Statement (.und82 o) := fun _ => ⟨_, rfl, fun _ => rfl⟩

theorem und83 (o : Byte) : Statement (.und83 o) := fun _ => ⟨_, rfl, fun _ => rfl⟩

theorem und87 (o : Byte) : Statement (.und87 o) := fun _ => ⟨_, rfl, fun _ => rfl⟩

theorem und89 (o : Byte) : Statement (.und89 o) := fun _ => ⟨_, rfl, fun _ => rfl⟩

theorem und8B (o : Byte) : Statement (.und8B o) := fun _ => ⟨_, rfl, fun _ => rfl⟩

theorem und8F (o : Addr) : Statement (.und8F o) := fun _ =>
  ⟨_, rfl, fun rest => by
    show Except.ok (Instr.und8F (wordOf (hiByte o) (loByte o)), rest) = _
    rw [wordOf_hiByte_loByte]⟩

theorem und92 : Statement .und92 := fun _ => ⟨_, rfl, fun _ => rfl⟩

theorem und93 (o : Byte) : Statement (.und93 o) := fun _ => ⟨_, rfl, fun _ => rfl⟩

theorem und97 (o : Byte) : Statement (.und97 o) := fun _ => ⟨_, rfl, fun _ => rfl⟩

theorem und9B (o : Addr) : Statement (.und9B o) := fun _ =>
  ⟨_, rfl, fun rest => by
    show Except.ok (Instr.und9B (wordOf (hiByte o) (loByte o)), rest) = _
    rw [wordOf_hiByte_loByte]⟩

theorem und9C (o : Addr) : Statement (.und9C o) := fun _ =>
  ⟨_, rfl, fun rest => by
    show Except.ok (Instr.und9C (wordOf (hiByte o) (loByte o)), rest) = _
    rw [wordOf_hiByte_loByte]⟩

theorem und9E (o : Addr) : Statement (.und9E o) := fun _ =>
  ⟨_, rfl, fun rest => by
    show Except.ok (Instr.und9E (wordOf (hiByte o) (loByte o)), rest) = _
    rw [wordOf_hiByte_loByte]⟩

theorem und9F (o : Addr) : Statement (.und9F o) := fun _ =>
  ⟨_, rfl, fun rest => by
    show Except.ok (Instr.und9F (wordOf (hiByte o) (loByte o)), rest) = _
    rw [wordOf_hiByte_loByte]⟩

theorem undA3 (o : Byte) : Statement (.undA3 o) := fun _ => ⟨_, rfl, fun _ => rfl⟩

theorem undA7 (o : Byte) : Statement (.undA7 o) := fun _ => ⟨_, rfl, fun _ => rfl⟩

theorem undAB (o : Byte) : Statement (.undAB o) := fun _ => ⟨_, rfl, fun _ => rfl⟩

theorem undAF (o : Addr) : Statement (.undAF o) := fun _ =>
  ⟨_, rfl, fun rest => by
    show Except.ok (Instr.undAF (wordOf (hiByte o) (loByte o)), rest) = _
    rw [wordOf_hiByte_loByte]⟩

theorem undB2 : Statement .undB2 := fun _ => ⟨_, rfl, fun _ => rfl⟩

theorem undB3 (o : Byte) : Statement (.undB3 o) := fun _ => ⟨_, rfl, fun _ => rfl⟩

theorem undB7 (o : Byte) : Statement (.undB7 o) := fun _ => ⟨_, rfl, fun _ => rfl⟩

theorem undBB (o : Addr) : Statement (.undBB o) := fun _ =>
  ⟨_, rfl, fun rest => by
    show Except.ok (Instr.undBB (wordOf (hiByte o) (loByte o)), rest) = _
    rw [wordOf_hiByte_loByte]⟩

theorem undBF (o : Addr) : Statement (.undBF o) := fun _ =>
  ⟨_, rfl, fun rest => by
    show Except.ok (Instr.undBF (wordOf (hiByte o) (loByte o)), rest) = _
    rw [wordOf_hiByte_loByte]⟩

theorem undC2 (o : Byte) : Statement (.undC2 o) := fun _ => ⟨_, rfl, fun _ => rfl⟩

theorem undC3 (o : Byte) : Statement (.undC3 o) := fun _ => ⟨_, rfl, fun _ => rfl⟩

theorem undC7 (o : Byte) : Statement (.undC7 o) := fun _ => ⟨_, rfl, fun _ => rfl⟩

theorem undCB (o : Byte) : Statement (.undCB o) := fun _ => ⟨_, rfl, fun _ => rfl⟩

theorem undCF (o : Addr) : Statement (.undCF o) := fun _ =>
  ⟨_, rfl, fun rest => by
    show Except.ok (Instr.undCF (wordOf (hiByte o) (loByte o)), rest) = _
    rw [wordOf_hiByte_loByte]⟩

theorem undD2 : Statement .undD2 := fun _ => ⟨_, rfl, fun _ => rfl⟩

theorem undD3 (o : Byte) : Statement (.undD3 o) := fun _ => ⟨_, rfl, fun _ => rfl⟩

theorem undD4 (o : Byte) : Statement (.undD4 o) := fun _ => ⟨_, rfl, fun _ => rfl⟩

theorem undD7 (o : Byte) : Statement (.undD7 o) := fun _ => ⟨_, rfl, fun _ => rfl⟩

theorem undDA : Statement .undDA := fun _ => ⟨_, rfl, fun _ => rfl⟩

theorem undDB (o : Addr) : Statement (.undDB o) := fun _ =>
  ⟨_, rfl, fun rest => by
    show Except.ok (Instr.undDB (wordOf (hiByte o) (loByte o)), rest) = _
    rw [wordOf_hiByte_loByte]⟩

theorem undDC (o : Addr) : Statement (.undDC o) := fun _ =>
  ⟨_, rfl, fun rest => by
    show Except.ok (Instr.undDC (wordOf (hiByte o) (loByte o)), rest) = _
    rw [wordOf_hiByte_loByte]⟩

theorem undDF (o : Addr) : Statement (.undDF o) := fun _ =>
  ⟨_, rfl, fun rest => by
    show Except.ok (Instr.undDF (wordOf (hiByte o) (loByte o)), rest) = _
    rw [wordOf_hiByte_loByte]⟩

theorem undE2 (o : Byte) : Statement (.undE2 o) := fun _ => ⟨_, rfl, fun _ => rfl⟩

theorem undE3 (o : Byte) : Statement (.undE3 o) := fun _ => ⟨_, rfl, fun _ => rfl⟩

theorem undE7 (o : Byte) : Statement (.undE7 o) := fun _ => ⟨_, rfl, fun _ => rfl⟩

theorem undEB (o : Byte) : Statement (.undEB o) := fun _ => ⟨_, rfl, fun _ => rfl⟩

theorem undEF (o : Addr) : Statement (.undEF o) := fun _ =>
  ⟨_, rfl, fun rest => by
    show Except.ok (Instr.undEF (wordOf (hiByte o) (loByte o)), rest) = _
    rw [wordOf_hiByte_loByte]⟩

theorem undF2 : Statement .undF2 := fun _ => ⟨_, rfl, fun _ => rfl⟩

theorem undF3 (o : Byte) : Statement (.undF3 o) := fun _ => ⟨_, rfl, fun _ => rfl⟩

theorem undF4 (o : Byte) : Statement (.undF4 o) := fun _ => ⟨_, rfl, fun _ => rfl⟩

theorem undF7 (o : Byte) : Statement (.undF7 o) := fun _ => ⟨_, rfl, fun _ => rfl⟩

theorem undFA : Statement .undFA := fun _ => ⟨_, rfl, fun _ => rfl⟩

theorem undFB (o : Addr) : Statement (.undFB o) := fun _ =>
  ⟨_, rfl, fun rest => by
    show Except.ok (Instr.undFB (wordOf (hiByte o) (loByte o)), rest) = _
    rw [wordOf_hiByte_loByte]⟩

theorem undFC (o : Addr) : Statement (.undFC o) := fun _ =>
  ⟨_, rfl, fun rest => by
    show Except.ok (Instr.undFC (wordOf (hiByte o) (loByte o)), rest) = _
    rw [wordOf_hiByte_loByte]⟩

theorem undFF (o : Addr) : Statement (.undFF o) := fun _ =>
  ⟨_, rfl, fun rest => by
    show Except.ok (Instr.undFF (wordOf (hiByte o) (loByte o)), rest) = _
    rw [wordOf_hiByte_loByte]⟩

end Sys2Proof.Laws.Encoded
end

