-- ==== Sys2Proof/Laws/Render.lean ====
section
/-! SUPPORT. The spans a replay draws, the fold of PPU addresses in numbers, and the two buffers a rendering fills. -/

namespace Sys2Proof.Machine

/-- The palette entry of an address. -/
theorem paletteEntry_toNat (a : PAddr) : (paletteEntry a).toNat = (if a.toNat % 0x20 % 4 = 0 then a.toNat % 0x20 % 16 else a.toNat % 0x20) := by
  have key : ∀ i : BitVec 5, (if i &&& 0x13 = 0x10 then i &&& 0x0F else i : BitVec 5).toNat = if i.toNat % 4 = 0 then i.toNat % 16 else i.toNat := by decide
  have := key (a.setWidth 5)
  unfold paletteEntry
  simp only [BitVec.toNat_setWidth] at this
  exact this

/-- The cell of an address at or above $2000. -/
theorem fold_eq (m : Mirroring) (a : PAddr) : fold m.mask a = if 0x3F00 ≤ a.toNat then 0x3F00 + (if a.toNat % 0x20 % 4 = 0 then a.toNat % 0x20 % 16 else a.toNat % 0x20) else 0x2000 + 0x400 * (match m with
      | .horizontal => (a.toNat / 0x400 % 4) / 2
      | .vertical => (a.toNat / 0x400 % 4) % 2
      | .single0 => 0
      | .single1 => 1) + a.toNat % 0x400 := by
  unfold fold
  rw [paletteEntry_toNat]
  have hq : (quadrant a).toNat = a.toNat / 0x400 % 4 := by
    unfold quadrant; rw [toNat_extract_eq]; norm_num
  have key : ∀ q : BitVec 2, (quadrantPage m.mask q).toNat = (match m with
      | .horizontal => q.toNat / 2
      | .vertical => q.toNat % 2
      | .single0 => 0
      | .single1 => 1) := by cases m <;> decide
  rw [key, hq]
  simp only [BitVec.toNat_setWidth]

theorem fold_ge (mask : Byte) (a : PAddr) : 0x2000 ≤ fold mask a := by unfold fold; split <;> omega

theorem bg_index : ∀ (pal c : BitVec 2), c ≠ 0 → ((0 : BitVec 1) ++ pal ++ c : BitVec 5).toNat < 16 ∧ ((0 : BitVec 1) ++ pal ++ c : BitVec 5).toNat % 4 ≠ 0 := by decide

theorem spr_index : ∀ (pal c : BitVec 2), c ≠ 0 → 17 ≤ ((1 : BitVec 1) ++ pal ++ c : BitVec 5).toNat ∧ ((1 : BitVec 1) ++ pal ++ c : BitVec 5).toNat % 4 ≠ 0 := by decide

/-- A background index is 0 or one of the 12 opaque ones. -/
theorem background_range (cart : Cart) (vram : Memory) (w : Snapshot) (px : Nat) : (background cart vram w px).toNat < 16 ∧ ((background cart vram w px).toNat % 4 = 0 → (background cart vram w px).toNat = 0) := by
  unfold background
  split
  · decide
  · split
    · decide
    · dsimp only
      split
      · decide
      · next hc =>
        exact ⟨(bg_index _ _ hc).1, fun h => absurd h (bg_index _ _ hc).2⟩

theorem spritePixel_range {cart : Cart} {vram oam : Memory} {w : Snapshot} {line px i : Nat} {r : BitVec 5 × Bool} (h : spritePixel cart vram oam w line px i = some r) : 17 ≤ r.1.toNat ∧ r.1.toNat % 4 ≠ 0 := by
  unfold spritePixel at h
  dsimp only at h
  generalize planeColour _ _ _ = c at h
  split at h
  · by_cases hc : c = 0
    · rw [if_pos hc] at h; cases h
    · rw [if_neg hc] at h
      injection h with h
      rw [← h]
      exact spr_index _ _ hc
  · cases h

/-- A candidate is opaque. -/
theorem spriteCandidate_range {cart : Cart} {vram oam : Memory} {w : Snapshot} {line px : Nat} {r : BitVec 5 × Bool} (h : spriteCandidate cart vram oam w line px = some r) : w.mask.getLsbD 4 = true ∧ 17 ≤ r.1.toNat ∧ r.1.toNat % 4 ≠ 0 := by
  unfold spriteCandidate at h
  split at h
  · cases h
  · next hm =>
    split at h
    · cases h
    · obtain ⟨i, _, hi⟩ := List.exists_of_findSome?_eq_some h
      exact ⟨by simpa using hm, spritePixel_range hi⟩

theorem drawnWith_append (a b : List (Nat × Snapshot)) (l : Nat) : drawnWith (a ++ b) l = (drawnWith b l).or (drawnWith a l) := by
  unfold drawnWith
  rw [List.reverse_append, List.find?_append]
  cases List.find? (fun d => decide (d.1 = l)) b.reverse <;> rfl

theorem drawSpan_snd (n cur : Nat) (w : Snapshot) : (drawSpan cur n w).2 = Snapshot.nextLine^[n] w := by
  induction n generalizing cur w with
  | zero => rfl
  | succ n ih => rw [Function.iterate_succ_apply, ← ih (cur + 1)]; rfl

/-- A span draws each of its lines with the increments before it. -/
theorem drawSpan_drawn (n cur : Nat) (w : Snapshot) (l : Nat) : drawnWith (drawSpan cur n w).1 l = if cur ≤ l ∧ l < cur + n then some (Snapshot.nextLine^[l - cur] w) else none := by
  induction n generalizing cur w with
  | zero => rw [if_neg (by omega)]; rfl
  | succ n ih =>
    change drawnWith ([(cur, w)] ++ (drawSpan (cur + 1) n w.nextLine).1) l = _
    rw [drawnWith_append, ih]
    by_cases h : cur = l
    · rw [if_neg (by omega), if_pos (by omega), h]
      simp [drawnWith]
    · by_cases h' : cur + 1 ≤ l ∧ l < cur + 1 + n
      · rw [if_pos h', if_pos (by omega), Option.some_or, show l - cur = (l - (cur + 1)) + 1 by omega, Function.iterate_succ_apply]
      · rw [if_neg h', if_neg (by omega)]
        simp [drawnWith, h]

theorem nextLine_iter (n : Nat) (w : Snapshot) : Snapshot.nextLine^[n] w = if w.mask.getLsbD 3 ∨ w.mask.getLsbD 4 then { w with v := Loopy.incY^[n] w.v } else w := by
  induction n with
  | zero => split <;> rfl
  | succ n ih =>
    rw [Function.iterate_succ_apply', ih]
    unfold Snapshot.nextLine
    by_cases h : (w.mask.getLsbD 3 = true ∨ w.mask.getLsbD 4 = true)
    · rw [if_pos h, if_pos h, if_pos (by simpa [maskRendering] using h), Function.iterate_succ_apply']
    · rw [if_neg h, if_neg h, if_neg (by simpa [maskRendering] using h)]

theorem render_index (cart : Cart) (p : Ppu) : (render cart p).index = drawLines cart p.vram p.oam (replay 0 p.renderBase p.curQ) p.index := by
  unfold render
  generalize drawLines cart p.vram p.oam (replay 0 p.renderBase p.curQ) p.index = d
  dsimp only

theorem render_frameOut (cart : Cart) (p : Ppu) : (render cart p).frameOut = palettePass p.vram p.mirrorMask (render cart p).index := by
  unfold render
  generalize drawLines cart p.vram p.oam (replay 0 p.renderBase p.curQ) p.index = d
  dsimp only

/-- A rendering fills the two buffers and nothing else. -/
theorem render_rest (cart : Cart) (p : Ppu) : render cart p = { p with index := (render cart p).index, frameOut := (render cart p).frameOut } := by
  unfold render
  generalize drawLines cart p.vram p.oam (replay 0 p.renderBase p.curQ) p.index = d
  generalize palettePass p.vram p.mirrorMask d = e
  dsimp only

/-- A cell of the index buffer. -/
theorem drawLines_read (cart : Cart) (vram oam : Memory) (drawn : List (Nat × Snapshot)) (old : Cells 5) (k : Nat) : Memory.read (drawLines cart vram oam drawn old) k = if k < 61440 then (match drawnWith drawn (k / 256) with
    | some w => pixel cart vram oam w (k / 256) (k % 256)
    | none => Memory.read old k) else 0 := by
  unfold drawLines
  have e : Config.screenH * Config.screenW = 61440 := rfl
  rw [e]
  generalize 61440 = n
  exact Memory.read_tabulate n _ k

/-- A cell of the frame. -/
theorem palettePass_read (vram : Memory) (m : Byte) (index : Cells 5) (k : Nat) : Memory.read (palettePass vram m index) k = if k < 61440 then (Memory.read vram (fold m (0x3F00 + (Memory.read index k).setWidth 14))).setWidth 6 else 0 := by
  unfold palettePass
  have e : Config.screenH * Config.screenW = 61440 := rfl
  rw [e]
  generalize 61440 = n
  exact Memory.read_tabulate n _ k

theorem drawLines_ok (cart : Cart) (vram oam : Memory) (drawn : List (Nat × Snapshot)) (old : Cells 5) : Memory.wf (drawLines cart vram oam drawn old) = true := by
  unfold drawLines
  generalize Config.screenH * Config.screenW = n
  exact (Memory.ok_tabulate n _).canonical

/-- The events of one line, applied in order. -/
def applyAt (queue : List Event) (l : Nat) (w : Snapshot) : Snapshot :=
  (queue.filter fun e => e.line = l).foldl (fun w e => w.apply e.change) w

theorem applyAt_below {queue : List Event} {l : Nat} (h : ∀ e ∈ queue, l < e.line) (w : Snapshot) : applyAt queue l w = w := by
  unfold applyAt
  rw [List.filter_eq_nil_iff.2 fun e he => by have := h e he; simp; omega]
  rfl

theorem applyAt_cons (e : Event) (rest : List Event) (l : Nat) (w : Snapshot) :
    applyAt (e :: rest) l w = applyAt rest l (if e.line = l then w.apply e.change else w) := by
  unfold applyAt
  by_cases h : e.line = l
  · rw [List.filter_cons_of_pos (by simpa using h), if_pos h]; rfl
  · rw [List.filter_cons_of_neg (by simpa using h), if_neg h]

/-- One event of the replay: the span above its line, and the replay from there with its change applied. -/
theorem replay_cons (e : Event) (rest : List Event) (cur : Nat) (w : Snapshot) (h : e.change ≠ .stop) :
    replay cur w (e :: rest) = (drawSpan cur (e.line - cur) w).1 ++ replay e.line ((drawSpan cur (e.line - cur) w).2.apply e.change) rest := by
  rw [replay]
  cases hc : e.change <;> first | rfl | exact absurd hc h

/-- A replay draws nothing above the line it starts from. -/
theorem replay_above (queue : List Event) (cur : Nat) (w : Snapshot) (l : Nat) (hl : l < cur) (hq : ∀ e ∈ queue, l < e.line) :
    drawnWith (replay cur w queue) l = none := by
  induction queue generalizing cur w with
  | nil => rfl
  | cons e rest ih =>
    have span : drawnWith (drawSpan cur (e.line - cur) w).1 l = none := by rw [drawSpan_drawn, if_neg (by omega)]
    by_cases hc : e.change = .stop
    · rw [replay, hc]; exact span
    · rw [replay_cons _ _ _ _ hc, drawnWith_append, span, ih _ _ (hq e (by simp)) fun f hf => hq f (by simp [hf])]; rfl

/-- Each visible line is drawn with the working copy after the events of its line (54_ppu_renderer.md R441). -/
theorem replay_drawn (queue : List Event) : ∀ (cur : Nat) (w : Snapshot) (working : Nat → Snapshot),
    queue.Pairwise (fun e f => e.line ≤ f.line) → (∀ e ∈ queue, e.change ≠ .stop) → (∀ e ∈ queue, cur ≤ e.line ∧ e.line ≤ 240) →
    working cur = applyAt queue cur w → (∀ l, cur ≤ l → working (l + 1) = applyAt queue (l + 1) (working l).nextLine) →
    ∀ l, cur ≤ l → l < 240 → drawnWith (replay cur w (queue ++ [⟨240, .stop⟩])) l = some (working l) := by
  have plain (queue : List Event) (cur last : Nat) (w : Snapshot) (working : Nat → Snapshot) (h0 : working cur = applyAt queue cur w)
      (h1 : ∀ l, cur ≤ l → working (l + 1) = applyAt queue (l + 1) (working l).nextLine) (hb : ∀ e ∈ queue, last ≤ e.line) :
      ∀ n, cur + n < last → working (cur + n) = Snapshot.nextLine^[n] w := by
    intro n
    induction n with
    | zero => intro h; rw [Nat.add_zero, h0, applyAt_below fun e he => by have := hb e he; omega]; rfl
    | succ n ih =>
      intro h
      rw [← Nat.add_assoc, h1 _ (by omega), applyAt_below (fun e he => by have := hb e he; omega), ih (by omega), Function.iterate_succ_apply']
  induction queue with
  | nil =>
    intro cur w working _ _ _ h0 h1 l hl h240
    change drawnWith (drawSpan cur (240 - cur) w).1 l = _
    rw [drawSpan_drawn, if_pos (by omega)]
    have := plain [] cur 240 w working h0 h1 (fun e he => nomatch he) (l - cur) (by omega)
    rw [← this, show cur + (l - cur) = l by omega]
  | cons e rest ih =>
    intro cur w working hs hn hc h0 h1 l hl h240
    rw [List.pairwise_cons] at hs
    have hce := hc e (by simp)
    have hge : ∀ f ∈ e :: rest, e.line ≤ f.line := by
      intro f hf
      rcases List.mem_cons.1 hf with rfl | hf
      · exact Nat.le_refl _
      · exact hs.1 f hf
    rw [List.cons_append, replay_cons e _ _ _ (hn e (by simp)), drawnWith_append, drawSpan_snd, drawSpan_drawn]
    have step := ih e.line ((Snapshot.nextLine^[e.line - cur] w).apply e.change) working hs.2 (fun f hf => hn f (by simp [hf]))
      (fun f hf => ⟨hs.1 f hf, (hc f (by simp [hf])).2⟩)
    by_cases hlt : l < e.line
    · have : drawnWith (replay e.line ((Snapshot.nextLine^[e.line - cur] w).apply e.change) (rest ++ [⟨240, .stop⟩])) l = none :=
        by
        refine replay_above _ _ _ _ hlt fun f hf => ?_
        rcases List.mem_append.1 hf with hf | hf
        · exact Nat.lt_of_lt_of_le hlt (hs.1 f hf)
        · rw [List.mem_singleton.1 hf]; exact h240
      rw [this, if_pos (by omega), Option.none_or]
      have := plain (e :: rest) cur e.line w working h0 h1 hge (l - cur) (by omega)
      rw [← this, show cur + (l - cur) = l by omega]
    · rw [step ?_ ?_ l (by omega) h240, Option.some_or]
      · rcases Nat.eq_or_lt_of_le hce.1 with h | h
        · rw [← h, h0, applyAt_cons, if_pos h.symm, Nat.sub_self]; rfl
        · have hp := plain (e :: rest) cur e.line w working h0 h1 hge (e.line - cur - 1) (by omega)
          have := h1 (e.line - 1) (by omega)
          rw [show cur + (e.line - cur - 1) = e.line - 1 by omega] at hp
          rw [show e.line - 1 + 1 = e.line by omega, hp, applyAt_cons, if_pos rfl, ← Function.iterate_succ_apply' Snapshot.nextLine,
            show (e.line - cur - 1).succ = e.line - cur by omega] at this
          exact this
      · intro k hk
        rw [h1 k (by omega), applyAt_cons, if_neg (by omega)]

end Sys2Proof.Machine
end

