-- ==== Sys2Proof/Laws/Pixel.lean ====
section
/-! SUPPORT. The pixels of a line in numbers: the addresses and colours of the background and of each sprite, and their composition
(54_ppu_renderer.md R444-R447). -/

namespace Sys2Proof.Machine

/-! ## Addresses and colours -/

/-- The colour number of a column of two bit planes. -/
def colourOf (lo hi : Byte) (b : Nat) : Nat := 2 * (hi.getLsbD b).toNat + (lo.getLsbD b).toNat

theorem planeColour_toNat (lo hi : Byte) (b : Nat) : (planeColour lo hi b).toNat = colourOf lo hi b := by
  unfold planeColour colourOf
  cases hi.getLsbD b <;> cases lo.getLsbD b <;> rfl

theorem planeColour_eq_zero (lo hi : Byte) (b : Nat) : planeColour lo hi b = 0 ↔ colourOf lo hi b = 0 := by
  rw [← BitVec.toNat_inj, planeColour_toNat]
  rfl

theorem tileAddr_eq (ny nx : BitVec 1) (cy cx : BitVec 5) :
    tileAddr ny nx cy cx = BitVec.ofNat 14 (0x2000 + 0x800 * ny.toNat + 0x400 * nx.toNat + 32 * cy.toNat + cx.toNat) := by
  apply BitVec.eq_of_toNat_eq
  unfold tileAddr
  have := ny.isLt; have := nx.isLt; have := cy.isLt; have := cx.isLt
  simp only [toNat_append_eq, BitVec.toNat_ofNat, show (0b10 : BitVec 2).toNat = 2 from rfl]
  omega

theorem attributeAddr_eq (ny nx : BitVec 1) (cy cx : BitVec 5) : attributeAddr ny nx cy cx =
    BitVec.ofNat 14 (0x23C0 + 0x800 * ny.toNat + 0x400 * nx.toNat + 8 * (cy.toNat / 4) + cx.toNat / 4) := by
  apply BitVec.eq_of_toNat_eq
  unfold attributeAddr
  have := ny.isLt; have := nx.isLt; have := cy.isLt; have := cx.isLt
  simp only [toNat_append_eq, toNat_extract_eq, BitVec.toNat_ofNat, show (0b10 : BitVec 2).toNat = 2 from rfl,
    show (0b1111 : BitVec 4).toNat = 15 from rfl]
  omega

theorem attributeBits_toNat (a : Byte) (cx cy : BitVec 5) :
    (attributeBits a cx cy).toNat = a.toNat / 2 ^ (4 * (cy.toNat / 2 % 2) + 2 * (cx.toNat / 2 % 2)) % 4 := by
  have bit (c : BitVec 5) (k : Nat) : (if c.getLsbD 1 then k else 0) = k * (c.toNat / 2 % 2) := by
    have : c.getLsbD 1 = decide (c.toNat / 2 % 2 = 1) := by
      rw [BitVec.getLsbD, Nat.testBit_eq_decide_div_mod_eq]
    rw [this]
    rcases Nat.mod_two_eq_zero_or_one (c.toNat / 2) with h | h <;> simp [h]
  unfold attributeBits
  rw [bit, bit]
  simp only [BitVec.toNat_setWidth, BitVec.toNat_ushiftRight, Nat.shiftRight_eq_div_pow]

/-- The two planes of a pattern row stand eight bytes apart. -/
theorem patternAddr_eq (table : BitVec 1) (tile : Byte) (row : BitVec 3) :
    patternAddr table tile 0 row = BitVec.ofNat 13 (0x1000 * table.toNat + 16 * tile.toNat + row.toNat) ∧
      patternAddr table tile 1 row = BitVec.ofNat 13 (0x1000 * table.toNat + 16 * tile.toNat + row.toNat + 8) := by
  have := table.isLt; have := tile.isLt; have := row.isLt
  unfold patternAddr
  constructor <;> apply BitVec.eq_of_toNat_eq <;> 
    simp only [toNat_append_eq, BitVec.toNat_ofNat, show (0 : BitVec 1).toNat = 0 from rfl, show (1 : BitVec 1).toNat = 1 from rfl] <;> omega

theorem table_toNat (d : Byte) (i : Nat) : 0x1000 * (d.extractLsb' i 1 : BitVec 1).toNat = if d.getLsbD i then 0x1000 else 0 := by
  have : d.getLsbD i = decide (d.toNat / 2 ^ i % 2 = 1) := by rw [BitVec.getLsbD, Nat.testBit_eq_decide_div_mod_eq]
  rw [toNat_extract_eq, this]
  rcases Nat.mod_two_eq_zero_or_one (d.toNat / 2 ^ i) with h | h <;> simp [h]

/-! ## The background -/

section
variable (cart : Cart) (vram oam : Memory) (w : Snapshot) (line px : Nat)

/-- The nametable column of a pixel, before it wraps into the next table. -/
def bgColumn : Nat := w.v.toNat % 32 + (w.x.toNat + px) / 8

/-- A byte of the nametables under the working copy's mirroring (54_ppu_renderer.md R442). -/
def bgCell (address : Nat) : Nat := (Memory.read vram (fold w.mirroring.mask (BitVec.ofNat 14 address))).toNat

/-- The base of the nametable of a pixel. -/
def bgTable : Nat := 0x800 * (w.v.toNat / 0x800 % 2) + 0x400 * ((w.v.toNat / 0x400 + bgColumn w px / 32) % 2)

def bgTile : Nat := bgCell vram w (0x2000 + bgTable w px + 32 * (w.v.toNat / 32 % 32) + bgColumn w px % 32)

def bgPalette : Nat :=
  bgCell vram w (0x23C0 + bgTable w px + 8 * (w.v.toNat / 32 % 32 / 4) + bgColumn w px % 32 / 4) /
    2 ^ (4 * (w.v.toNat / 32 % 32 / 2 % 2) + 2 * (bgColumn w px % 32 / 2 % 2)) % 4

def bgPattern : Nat := (if w.ctrl.getLsbD 4 then 0x1000 else 0) + 16 * bgTile vram w px + w.v.toNat / 0x1000

/-- The colour of the background at a pixel, 0 where it is transparent. -/
def bgColour : Nat :=
  colourOf (patRead cart vram w.chrOff (BitVec.ofNat 13 (bgPattern vram w px)))
    (patRead cart vram w.chrOff (BitVec.ofNat 13 (bgPattern vram w px + 8))) (7 - (w.x.toNat + px) % 8)

/-- The background index (54_ppu_renderer.md R444, R445). -/
theorem background_toNat : (background cart vram w px).toNat =
    if w.mask.getLsbD 3 = false ∨ (px < 8 ∧ w.mask.getLsbD 1 = false) ∨ bgColour cart vram w px = 0 then 0
    else 4 * bgPalette vram w px + bgColour cart vram w px := by
  unfold background
  by_cases h3 : w.mask.getLsbD 3 = false
  · rw [if_pos (by rw [h3]; rfl), if_pos (.inl h3)]; rfl
  rw [if_neg (by simpa using h3)]
  by_cases h1 : px < 8 ∧ w.mask.getLsbD 1 = false
  · rw [if_pos (by simpa using h1), if_pos (.inr (.inl h1))]; rfl
  rw [if_neg (by simpa using h1)]
  dsimp only
  have hcx : (BitVec.ofNat 5 ((Loopy.cx w.v).toNat + (w.x.toNat + px) / 8)).toNat = bgColumn w px % 32 := by
    rw [BitVec.toNat_ofNat, Loopy.toNat_cx]; rfl
  have hnx : (Loopy.nx w.v ^^^ BitVec.ofNat 1 (((Loopy.cx w.v).toNat + (w.x.toNat + px) / 8) / 32)).toNat =
      (w.v.toNat / 0x400 + bgColumn w px / 32) % 2 := by
    rw [Loopy.toNat_cx]
    change (Loopy.nx w.v ^^^ BitVec.ofNat 1 (bgColumn w px / 32)).toNat = _
    have key : ∀ a b : BitVec 1, (a ^^^ b).toNat = (a.toNat + b.toNat) % 2 := by decide
    rw [key, Loopy.toNat_nx, BitVec.toNat_ofNat]
    omega
  have hcy := Loopy.toNat_cy (u := w.v)
  have hny := Loopy.toNat_ny (u := w.v)
  have hfy := Loopy.toNat_fy (u := w.v)
  generalize hgx : BitVec.ofNat 5 ((Loopy.cx w.v).toNat + (w.x.toNat + px) / 8) = cx at hcx ⊢
  generalize hgn : Loopy.nx w.v ^^^ BitVec.ofNat 1 (((Loopy.cx w.v).toNat + (w.x.toNat + px) / 8) / 32) = nx at hnx ⊢
  rw [tileAddr_eq, attributeAddr_eq, (patternAddr_eq _ _ _).1, (patternAddr_eq _ _ _).2]
  have ht : ∀ k, 0x2000 + 0x800 * (Loopy.ny w.v).toNat + 0x400 * nx.toNat + k = 0x2000 + bgTable w px + k := by
    intro k; rw [hny, hnx]; unfold bgTable; omega
  have ha : ∀ k, 0x23C0 + 0x800 * (Loopy.ny w.v).toNat + 0x400 * nx.toNat + k = 0x23C0 + bgTable w px + k := by
    intro k; rw [hny, hnx]; unfold bgTable; omega
  have etile : (Memory.read vram (fold w.mirroring.mask (BitVec.ofNat 14
      (0x2000 + 0x800 * (Loopy.ny w.v).toNat + 0x400 * nx.toNat + 32 * (Loopy.cy w.v).toNat + cx.toNat)))).toNat = bgTile vram w px := by
    rw [ht, hcy, hcx]; rfl
  have epal : (attributeBits (Memory.read vram (fold w.mirroring.mask (BitVec.ofNat 14
      (0x23C0 + 0x800 * (Loopy.ny w.v).toNat + 0x400 * nx.toNat + 8 * ((Loopy.cy w.v).toNat / 4) + cx.toNat / 4)))) cx
      (Loopy.cy w.v)).toNat = bgPalette vram w px := by
    rw [attributeBits_toNat, ha, hcy, hcx]; rfl
  have ebase : 0x1000 * (w.ctrl.extractLsb' 4 1 : BitVec 1).toNat + 16 * (Memory.read vram (fold w.mirroring.mask (BitVec.ofNat 14
      (0x2000 + 0x800 * (Loopy.ny w.v).toNat + 0x400 * nx.toNat + 32 * (Loopy.cy w.v).toNat + cx.toNat)))).toNat +
      (Loopy.fy w.v).toNat = bgPattern vram w px := by
    rw [table_toNat, etile, hfy]; rfl
  rw [ebase]
  have hzero := planeColour_eq_zero (patRead cart vram w.chrOff (BitVec.ofNat 13 (bgPattern vram w px)))
    (patRead cart vram w.chrOff (BitVec.ofNat 13 (bgPattern vram w px + 8))) (7 - (w.x.toNat + px) % 8)
  by_cases hc : bgColour cart vram w px = 0
  · rw [if_pos (hzero.2 hc), if_pos (.inr (.inr hc))]; rfl
  · rw [if_neg (mt hzero.1 hc), if_neg (by rintro (h | h | h) <;> contradiction)]
    rw [toNat_append_eq, toNat_append_eq, epal, planeColour_toNat]
    change (0 * 2 ^ 2 + bgPalette vram w px) * 2 ^ 2 + bgColour cart vram w px = _
    omega

/-! ## The sprites -/

/-- The colour of sprite `i` at a pixel of a line, 0 where it is transparent or does not cover it (54_ppu_renderer.md R446). -/
def spriteColour (i : Nat) : Nat :=
  let attr := Memory.read oam (4 * i + 2)
  let top := (Memory.read oam (4 * i)).toNat + 1
  let left := (Memory.read oam (4 * i + 3)).toNat
  let height := if w.ctrl.getLsbD 5 then 16 else 8
  if top ≤ line ∧ line < top + height ∧ left ≤ px ∧ px ≤ left + 7 then
    let row := spriteRow cart vram w.chrOff w.ctrl (Memory.read oam (4 * i + 1)) attr height (line - top)
    colourOf row.1 row.2 (if attr.getLsbD 6 then px - left else 7 - (px - left))
  else 0

theorem spritePixel_eq (i : Nat) : spritePixel cart vram oam w line px i =
    if spriteColour cart vram oam w line px i = 0 then none
    else some ((1 : BitVec 1) ++ ((Memory.read oam (4 * i + 2)).setWidth 2 : BitVec 2) ++
      BitVec.ofNat 2 (spriteColour cart vram oam w line px i), (Memory.read oam (4 * i + 2)).getLsbD 5) := by
  unfold spritePixel spriteColour
  dsimp only
  rw [show spriteHeight w.ctrl = if w.ctrl.getLsbD 5 then 16 else 8 from rfl]
  by_cases h : (Memory.read oam (4 * i)).toNat + 1 ≤ line ∧
      line < (Memory.read oam (4 * i)).toNat + 1 + (if w.ctrl.getLsbD 5 then 16 else 8) ∧
      (Memory.read oam (4 * i + 3)).toNat ≤ px ∧ px ≤ (Memory.read oam (4 * i + 3)).toNat + 7
  · rw [if_pos (by simpa only [Bool.and_eq_true, decide_eq_true_eq, and_assoc] using h), if_pos h]
    generalize spriteRow cart vram w.chrOff w.ctrl (Memory.read oam (4 * i + 1)) (Memory.read oam (4 * i + 2)) _ _ = row
    generalize (if (Memory.read oam (4 * i + 2)).getLsbD 6 then _ else _) = b
    simp only [planeColour_eq_zero, ← planeColour_toNat, BitVec.ofNat_toNat, BitVec.setWidth_eq]
  · rw [if_neg (by simpa only [Bool.and_eq_true, decide_eq_true_eq, and_assoc] using h), if_neg h, if_pos rfl]

end

end Sys2Proof.Machine
end

