-- ==== Sys2Proof/Laws/Reset.lean ====
section
/-! SUPPORT. The power-on of a mapper and the system reset: they succeed, and what they leave. -/

namespace Sys2Proof.Machine

theorem powerOnRegs_ok (v : Variant) (m : Mirroring) : (powerOnRegs v m).okFor v := by
  cases v <;> simp [powerOnRegs, MapperRegs.okFor]

/-- The mapper binding as the power-on finds it. -/
def reboundMapper (s : State) : State :=
  { s with mapper := { Mapper.none with regs := powerOnRegs s.cart.variant s.cart.headerMode } }

theorem uxromApply_set {s : State} (h : s.Core) (bank : Byte) : State.Set s (uxromApply bank s) := by
  have h1 := mapPrg_set h (size := 0x4000) rfl 0 bank.toNat
  exact h1.trans (mapPrg_set h1.core (size := 0x4000) rfl 2 (s.cart.countP 0x4000 - 1))

/-- The power-on of a variant succeeds; beside the mapper binding it changes what a setter may change (51_mappers.md
R335). -/
theorem mapperPowerOn_maps {s : State} (h : (reboundMapper s).Core) : State.Maps (reboundMapper s) (mapperPowerOn s) := by
  obtain ⟨r, hr⟩ : ∃ r, r = reboundMapper s := ⟨_, rfl⟩
  have hreg : r.mapper.regs = powerOnRegs s.cart.variant s.cart.headerMode := by rw [hr]; rfl
  have hcart : r.cart = s.cart := by rw [hr]; rfl
  have hpow : mapperPowerOn s = (match r.mapper.regs with
      | .nrom => (mapChr 0x2000 0 0 (mapPrg 0x8000 0 0 r)).bind fun s' => setMirror s'.cart.headerMode s'
      | .mmc1 q => mmc1Apply q r
      | .uxrom bank => (mapChr 0x2000 0 0 (uxromApply bank r)).bind fun s' => setMirror s'.cart.headerMode s'
      | .cnrom _ => (mapChr 0x2000 0 0 (mapPrg 0x8000 0 0 r)).bind fun s' => setMirror s'.cart.headerMode s'
      | .mmc3 q => (mmc3Apply q r).bind fun s' => setMirror s'.cart.headerMode s'
      | .axrom => (mapChr 0x2000 0 0 (mapPrg 0x8000 0 0 r)).bind fun s' => setMirror .single0 s') := by
    rw [hr]; rfl
  rw [hpow]
  rw [← hr] at h ⊢
  have h1 := mapPrg_set h (size := 0x8000) rfl 0 0
  cases hv : s.cart.variant <;> rw [hv] at hreg <;> simp only [powerOnRegs] at hreg <;> rw [hreg] <;> dsimp only
  · refine .of_set h1 ((mapChr_maps h1.core rfl _ _).bind fun t ht => ?_)
    exact setMirror_maps ht _
  · have := mmc1Apply_maps h (by rw [hcart]; exact hv)
      (r := ⟨0x10, 0x0C ||| (if s.cart.headerMode = .vertical then 2 else 3), 0, 0, 0⟩) (by simp)
    rwa [show setRegs (.mmc1 ⟨0x10, 0x0C ||| (if s.cart.headerMode = .vertical then 2 else 3), 0, 0, 0⟩) r = r by
      rw [← hreg]; rfl] at this
  · have h2 := uxromApply_set h 0
    refine .of_set h2 ((mapChr_maps h2.core rfl _ _).bind fun t ht => ?_)
    exact setMirror_maps ht _
  · refine .of_set h1 ((mapChr_maps h1.core rfl _ _).bind fun t ht => ?_)
    exact setMirror_maps ht _
  · have := mmc3Apply_maps h (by rw [hcart]; exact hv) (⟨0, #v[0, 2, 4, 5, 6, 7, 0, 1], 0, 0, false, false⟩)
    rw [show setRegs (.mmc3 ⟨0, #v[0, 2, 4, 5, 6, 7, 0, 1], 0, 0, false, false⟩) r = r by rw [← hreg]; rfl] at this
    refine this.bind fun t ht => ?_
    exact setMirror_maps ht _
  · refine .of_set h1 ((mapChr_maps h1.core rfl _ _).bind fun t ht => ?_)
    exact setMirror_maps ht _

/-- The CPU reset: the register values, and PC and the latch from the reset vector (70_reset_and_hazards.md R530). -/
theorem cpuReset_eq (s : State) : cpuReset s = { s with
    cpu := { Cpu.reset with paused := s.cpu.paused, pc := wordOf (s.peek 0xFFFD) (s.peek 0xFFFC) }
    bus := ⟨s.peek 0xFFFD⟩ } := by
  have h1 : isMemory resetVector := by decide
  have h2 : isMemory (resetVector + 1) := by decide
  simp only [cpuReset, read16_eq h1 h2, peek_withCpu _ _ h1, peek_withCpu _ _ h2]
  rfl

theorem clearForReset_core {s : State} (h : s.Core) : (reboundMapper (clearForReset s)).Core := by
  have hkeys : QueueKeys (clearForReset s).ppu.nextQ := h.keys
  refine ⟨⟨.nil _, .nil _, .nil _, .nil _, .nil _, .nil _, .nil _, h.memories.prg, h.memories.chr⟩, powerOnRegs_ok _ _,
    fun hl j => ?_, fun j => ?_, rfl, rfl, rfl, hkeys, ⟨h.cart.someP, h.cart.byteP, h.cart.byteC, h.cart.header⟩,
    h.config⟩
  · have := h.cart.someP hl
    have hz : (reboundMapper (clearForReset s)).mapper.prgOff.get j = 0 := by
      change Mapper.none.prgOff.get j = 0
      revert j; decide
    rw [hz]
    exact ⟨rfl, by change 0 < 16384 * s.cart.nPrg; omega⟩
  · have hz : (reboundMapper (clearForReset s)).mapper.chrOff.get j = 0 := by
      change Mapper.none.chrOff.get j = 0
      revert j; decide
    rw [hz]
    refine ⟨fun hrom => ?_, by decide⟩
    change s.cart.hasChrRom = true at hrom
    simp only [Cart.hasChrRom, decide_eq_true_eq] at hrom
    exact ⟨rfl, by change 0 < 8192 * s.cart.nChr; omega⟩

/-- The system reset succeeds, the invariant holds after it, and every field but the mapper's has the value of 10_state.md
R60. -/
theorem systemReset_spec {s : State} (h : s.Core) : ∃ t, systemReset s = .ok t ∧ t.Inv ∧
    t.cpu = { Cpu.reset with paused := s.cpu.paused, pc := wordOf (t.peek 0xFFFD) (t.peek 0xFFFC) } ∧
    t.ram = [] ∧ t.prgRam = [] ∧ t.apuReg = [] ∧ t.bus = ⟨t.peek 0xFFFD⟩ ∧
    t.pad = ⟨⟨s.pad.port1.buttons, 0⟩, ⟨s.pad.port2.buttons, 0⟩, false⟩ ∧
    t.ppu = { Ppu.reset with
      mirroring := t.mapper.mirroring
      mirrorMask := t.mapper.mirroring.mask
      chrOff := t.mapper.chrOff
      frameBase := { Snapshot.reset with mirroring := t.mapper.mirroring, chrOff := t.mapper.chrOff }
      renderBase := { Snapshot.reset with mirroring := t.mapper.mirroring, chrOff := t.mapper.chrOff } } ∧
    t.mapper.regs = powerOnRegs s.cart.variant s.cart.headerMode ∧ t.mapper.irq = false ∧
    t.console = s.console ∧ t.cart = s.cart ∧ t.cfg = s.cfg := by
  obtain ⟨u, hu, hset⟩ := mapperPowerOn_maps (clearForReset_core h)
  have ho := hset.outside
  obtain ⟨v, ti, l, o, m, k, q, hp⟩ := hset.ppu
  have hstill := hset.still (show maskRendering 0 = false by decide)
  have hcore := hset.core
  have hchr : u.ppu.chrOff = u.mapper.chrOff := hcore.chrCopy
  have hmir : u.ppu.mirroring = u.mapper.mirroring := hcore.mirrorCopy
  have hmask : u.ppu.mirrorMask = u.mapper.mirroring.mask := by rw [hcore.mirrorMask, hmir]
  have hppu : u.ppu.startFrame = { Ppu.reset with
      mirroring := u.mapper.mirroring
      mirrorMask := u.mapper.mirroring.mask
      chrOff := u.mapper.chrOff
      frameBase := { Snapshot.reset with mirroring := u.mapper.mirroring, chrOff := u.mapper.chrOff }
      renderBase := { Snapshot.reset with mirroring := u.mapper.mirroring, chrOff := u.mapper.chrOff } } := by
    rw [← hmask, ← hmir, ← hchr]
    rw [hp] at hstill ⊢
    obtain ⟨rfl, rfl⟩ := hstill
    rfl
  have hpaused : u.cpu.paused = s.cpu.paused := by rw [hset.cpu]; rfl
  have hcont : systemReset s = .ok (cpuReset (u.withPpu u.ppu.startFrame)) := by
    unfold systemReset
    rw [hu]
    rfl
  have hpeek0 : ∀ a : Addr, isMemory a → (u.withPpu u.ppu.startFrame).peek a = u.peek a := fun a ha =>
    peek_mk u _ _ _ _ _ _ _ ha
  rw [hcont, cpuReset_eq, hpeek0 0xFFFD (by decide), hpeek0 0xFFFC (by decide)]
  have hpeek : ∀ (c : Cpu) (b : Bus) (a : Addr), isMemory a →
      State.peek { u.withPpu u.ppu.startFrame with cpu := c, bus := b } a = u.peek a := fun c b a ha =>
    peek_mk u _ _ _ _ _ _ _ ha
  refine ⟨_, rfl, ?_, ?_, ho.ram, ho.prgRam, ho.apuReg, ?_, ho.pad, hppu, hset.regs, hset.irq, ho.console, ho.cart, ho.cfg⟩
  · have htim : u.ppu.startFrame.TimingOk := by
      rw [hppu]; exact ⟨by simp [Ppu.reset], Nat.zero_le _, QueueOk.nil _, .inl rfl⟩
    have hmem := hcore.memories
    refine ⟨⟨hmem.ram, hmem.prgRam, hmem.apuReg, hmem.vram, hmem.oam, hmem.index, hmem.frameOut, hmem.prg, hmem.chr⟩,
      ⟨hcore.regs, hcore.prgOff, hcore.chrOff, hcore.chrCopy, hcore.mirrorCopy, hcore.mirrorMask, hset.irq⟩, htim,
      ⟨hcore.cart.someP, hcore.cart.byteP, hcore.cart.byteC, hcore.cart.header⟩, hcore.config⟩
  · rw [hpeek _ _ 0xFFFD (by decide), hpeek _ _ 0xFFFC (by decide), ← hpaused]
    rfl
  · rw [hpeek _ _ 0xFFFD (by decide)]

end Sys2Proof.Machine
end

