-- ==== Sys2Proof/Laws/PowerOn.lean ====
section
/-! SUPPORT. The mapper after power-on, the whole state after a system reset, and the installation of a cartridge. -/

namespace Sys2Proof.Machine

theorem prgSlot0 (c : Cart) (size k : Nat) : prgSlot c size 0 k = (k * 0x2000) % c.prgSize := by
  unfold prgSlot Cart.prgBase; simp
theorem chrSlot0 (c : Cart) (size k : Nat) (h : 0 < c.nChr) (hk : k < 8) : chrSlot c size 0 k = k * 0x400 := by
  unfold chrSlot Cart.chrBase; simp only [Nat.zero_and, Nat.zero_mul, Nat.zero_add]
  apply Nat.mod_eq_of_lt
  unfold Cart.chrSize; omega
theorem chrSlot1 (c : Cart) (k : Nat) (h : 0 < c.nChr) (hk : k < 8) : chrSlot c 0x400 k 0 = k * 0x400 := by
  unfold chrSlot Cart.chrBase
  have hc : c.countC 0x400 = 8 * c.nChr := by unfold Cart.countC Cart.chrSize; omega
  rw [hc]
  have hand : k &&& (8 * c.nChr - 1) = k := by
    have e : 8 * c.nChr - 1 = 2 ^ 3 * (c.nChr - 1) + 7 := by omega
    rw [e]
    apply Nat.eq_of_testBit_eq
    intro i
    rw [Nat.testBit_and, Nat.testBit_two_pow_mul_add _ (by decide)]
    by_cases hi : i < 3
    · rw [if_pos hi]
      have : Nat.testBit 7 i = true := by interval_cases i <;> rfl
      rw [this, Bool.and_true]
    · have : k.testBit i = false := Nat.testBit_lt_two_pow (by
        calc k < 2 ^ 3 := hk
          _ ≤ 2 ^ i := Nat.pow_le_pow_right (by omega) (by omega))
      rw [this, Bool.false_and]
  rw [hand, Nat.zero_mul, Nat.add_zero]
  apply Nat.mod_eq_of_lt
  unfold Cart.chrSize; omega
theorem prgLast (c : Cart) (h : 0 < c.nPrg) (k : Nat) (hk : k < 2) : prgSlot c 0x4000 (c.countP 0x4000 - 1) k = 0x4000 * (c.nPrg - 1) + k * 0x2000 := by
  unfold prgSlot Cart.prgBase
  have hc : c.countP 0x4000 = c.nPrg := by unfold Cart.countP Cart.prgSize; omega
  rw [hc, Nat.and_self, Nat.mul_comm]
  apply Nat.mod_eq_of_lt
  unfold Cart.prgSize; omega
theorem prg3 (c : Cart) (h : 0 < c.nPrg) : prgSlot c 0x2000 1 0 = 0x2000 ∧ prgSlot c 0x2000 (c.countP 0x2000 - 2) 0 = 0x4000 * (c.nPrg - 1) ∧ prgSlot c 0x2000 (c.countP 0x2000 - 1) 0 = 0x4000 * (c.nPrg - 1) + 0x2000 := by
  have hc : c.countP 0x2000 = 2 * c.nPrg := by unfold Cart.countP Cart.prgSize; omega
  have odd : ∀ k, (2 * c.nPrg - 1).testBit k = if k = 0 then true else (c.nPrg - 1).testBit (k - 1) := by
    intro k
    have e : 2 * c.nPrg - 1 = 2 ^ 1 * (c.nPrg - 1) + 1 := by omega
    rw [e, Nat.testBit_two_pow_mul_add _ (by decide)]
    by_cases h : k = 0
    · subst h; rfl
    · rw [if_neg (by omega), if_neg h]
  have a1 : 1 &&& (2 * c.nPrg - 1) = 1 := by
    rw [Nat.and_comm, Nat.and_one_is_mod]; omega
  have a2 : (2 * c.nPrg - 2) &&& (2 * c.nPrg - 1) = 2 * c.nPrg - 2 := by
    apply Nat.eq_of_testBit_eq
    intro k
    rw [Nat.testBit_and, odd]
    have e : 2 * c.nPrg - 2 = 2 ^ 1 * (c.nPrg - 1) + 0 := by omega
    rw [e, Nat.testBit_two_pow_mul_add _ (by decide)]
    by_cases h : k = 0
    · subst h; rfl
    · rw [if_neg (by omega), if_neg h, Bool.and_self]
  unfold prgSlot Cart.prgBase
  rw [hc, a1, a2, Nat.and_self]
  unfold Cart.prgSize
  refine ⟨?_, ?_, ?_⟩
  · apply Nat.mod_eq_of_lt; omega
  · rw [Nat.mod_eq_of_lt (by omega)]; omega
  · rw [Nat.mod_eq_of_lt (by omega)]; omega
/-- the mapper after power-on -/
def powered (c : Cart) : Mapper where
  regs := powerOnRegs c.variant c.headerMode
  prgOff := (match c.variant with
        | .mmc1 | .uxrom | .mmc3 => #v[0, 0x2000, 0x4000 * (c.nPrg - 1), 0x4000 * (c.nPrg - 1) + 0x2000]
        | _ => #v[0, 0x2000, 0x4000 % c.prgSize, 0x6000 % c.prgSize])
  chrOff := if 0 < c.nChr then #v[0, 0x400, 0x800, 0xC00, 0x1000, 0x1400, 0x1800, 0x1C00] else #v[0, 0, 0, 0, 0, 0, 0, 0]
  mirroring := if c.variant = .axrom then .single0 else c.headerMode
  irq := false
theorem mapPrgM (s : State) (size j b : Nat) : (mapPrg size j b s).mapper = { s.mapper with prgOff := mapPrgOff s.cart size j b s.mapper.prgOff } := rfl
theorem powerOn_mapper {s : State} (h : (reboundMapper s).Core) (hp : 0 < s.cart.nPrg) (hh : s.cart.headerMode = .horizontal ∨ s.cart.headerMode = .vertical) : ∃ u, mapperPowerOn s = .ok u ∧ u.mapper = powered s.cart := by
  obtain ⟨r, hr⟩ : ∃ r, r = reboundMapper s := ⟨_, rfl⟩
  have hreg : r.mapper.regs = powerOnRegs s.cart.variant s.cart.headerMode := by rw [hr]; rfl
  have hm : r.mapper = { Mapper.none with regs := powerOnRegs s.cart.variant s.cart.headerMode } := by rw [hr]; rfl
  have hcart : r.cart = s.cart := by rw [hr]; rfl
  have hpow : mapperPowerOn s = (match r.mapper.regs with
      | .nrom => (mapChr 0x2000 0 0 (mapPrg 0x8000 0 0 r)).bind fun s' => setMirror s'.cart.headerMode s'
      | .mmc1 q => mmc1Apply q r
      | .uxrom bank => (mapChr 0x2000 0 0 (uxromApply bank r)).bind fun s' => setMirror s'.cart.headerMode s'
      | .cnrom _ => (mapChr 0x2000 0 0 (mapPrg 0x8000 0 0 r)).bind fun s' => setMirror s'.cart.headerMode s'
      | .mmc3 q => (mmc3Apply q r).bind fun s' => setMirror s'.cart.headerMode s'
      | .axrom => (mapChr 0x2000 0 0 (mapPrg 0x8000 0 0 r)).bind fun s' => setMirror .single0 s') := by
    rw [hr]; rfl
  rw [hpow]
  rw [← hr] at h
  have h1 := mapPrg_set h (size := 0x8000) rfl 0 0
  have hp0 : 0 % s.cart.prgSize = 0 ∧ 0x2000 % s.cart.prgSize = 0x2000 := by
    unfold Cart.prgSize
    exact ⟨Nat.zero_mod _, Nat.mod_eq_of_lt (by omega)⟩
  have c8 : ∀ o : Vector Nat 8, 0 < s.cart.nChr → mapChrOff s.cart 0x2000 0 0 o = #v[0, 0x400, 0x800, 0xC00, 0x1000, 0x1400, 0x1800, 0x1C00] := by
    intro o hc
    rw [mapChrOff_8]
    simp only [chrSlot0 _ _ _ hc (show 0 < 8 by omega), chrSlot0 _ _ _ hc (show 1 < 8 by omega), chrSlot0 _ _ _ hc (show 2 < 8 by omega), chrSlot0 _ _ _ hc (show 3 < 8 by omega), chrSlot0 _ _ _ hc (show 4 < 8 by omega), chrSlot0 _ _ _ hc (show 5 < 8 by omega), chrSlot0 _ _ _ hc (show 6 < 8 by omega), chrSlot0 _ _ _ hc (show 7 < 8 by omega)]
  have p32 : ∀ o : Vector Nat 4, mapPrgOff s.cart 0x8000 0 0 o = #v[0, 0x2000, 0x4000 % s.cart.prgSize, 0x6000 % s.cart.prgSize] := by
    intro o
    rw [mapPrgOff_32, prgSlot0, prgSlot0, prgSlot0, prgSlot0]
    norm_num [hp0]
  have simple : ∀ (m : Mirroring), ∃ u, ((mapChr 0x2000 0 0 (mapPrg 0x8000 0 0 r)).bind fun s' => setMirror m s') = .ok u ∧ u.mapper = { r.mapper with
      prgOff := #v[0, 0x2000, 0x4000 % s.cart.prgSize, 0x6000 % s.cart.prgSize]
      chrOff := if 0 < s.cart.nChr then #v[0, 0x400, 0x800, 0xC00, 0x1000, 0x1400, 0x1800, 0x1C00] else r.mapper.chrOff
      mirroring := m } ∧ ∀ t, mapChr 0x2000 0 0 (mapPrg 0x8000 0 0 r) = .ok t → t.cart = s.cart := by
    intro m
    obtain ⟨t, ht, hs, hm1⟩ := mapChr_mapper h1.core (size := 0x2000) rfl (j0 := 0) (by decide) 0
    obtain ⟨u, hu, _, hm2⟩ := setMirror_spec hs.core m
    refine ⟨u, by rw [ht]; exact hu, ?_, fun t' ht' => ?_⟩
    · rw [hm2, hm1, mapPrgM, hcart, p32]
      have e : (mapPrg 0x8000 0 0 r).cart = s.cart := hcart
      rw [e]
      by_cases hc : 0 < s.cart.nChr
      · rw [if_pos hc, if_pos hc, c8 _ hc]
      · rw [if_neg hc, if_neg hc]
    · rw [ht] at ht'; cases ht'
      exact hs.outside.cart.trans hcart
  cases hv : s.cart.variant <;> rw [hv] at hreg <;> simp only [powerOnRegs] at hreg <;> rw [hreg] <;> dsimp only
  · obtain ⟨u, hu, hum, hc⟩ := simple s.cart.headerMode
    refine ⟨u, ?_, ?_⟩
    · rw [← hu]
      cases hmc : mapChr 0x2000 0 0 (mapPrg 0x8000 0 0 r) with
      | error e => rfl
      | ok t => simp only [Except.bind]; rw [hc t hmc]
    · rw [hum, hm]; simp [powered, hv, Mapper.none]
  · obtain ⟨u, hu, k1, k2, k3⟩ := mmc1Apply_off h (by rw [hcart]; exact hv)
      (r := ⟨0x10, 0x0C ||| (if s.cart.headerMode = .vertical then 2 else 3), 0, 0, 0⟩) (by simp)
    refine ⟨u, hu, ?_⟩
    rw [k3, hm, hcart]
    have e1 : mmc1ChrOff s.cart ⟨0x10, 0x0C ||| (if s.cart.headerMode = .vertical then 2 else 3), 0, 0, 0⟩ = mapChrOff s.cart 0x2000 0 0 #v[0,0,0,0,0,0,0,0] := by
      rw [mapChrOff_8]
      unfold mmc1ChrOff
      dsimp only
      rw [if_pos]
      · rfl
      · split <;> decide
    have e2 : mmc1PrgOff s.cart ⟨0x10, 0x0C ||| (if s.cart.headerMode = .vertical then 2 else 3), 0, 0, 0⟩ = #v[0, 0x2000, 0x4000 * (s.cart.nPrg - 1), 0x4000 * (s.cart.nPrg - 1) + 0x2000] := by
      have : mmc1PrgOff s.cart ⟨0x10, 0x0C ||| (if s.cart.headerMode = .vertical then 2 else 3), 0, 0, 0⟩ = #v[prgSlot s.cart 0x4000 0 0, prgSlot s.cart 0x4000 0 1, prgSlot s.cart 0x4000 (s.cart.countP 0x4000 - 1) 0, prgSlot s.cart 0x4000 (s.cart.countP 0x4000 - 1) 1] := by
        split <;> rfl
      rw [this, prgSlot0, prgSlot0, prgLast _ hp _ (by omega), prgLast _ hp _ (by omega)]
      norm_num [hp0]
    have e3 : mmc1Mirroring (0x0C ||| (if s.cart.headerMode = .vertical then 2 else 3)) = s.cart.headerMode := by
      rcases hh with h | h <;> rw [h] <;> rfl
    dsimp only
    rw [e2, e3]
    by_cases hc : 0 < s.cart.nChr
    · rw [if_pos hc, e1, c8 _ hc]
      simp [powered, hv, hc, powerOnRegs, Mapper.none]
    · rw [if_neg hc]
      simp [powered, hv, hc, powerOnRegs, Mapper.none]
  · have h2 := uxromApply_set h 0
    obtain ⟨t, ht, hs, hm1⟩ := mapChr_mapper h2.core (size := 0x2000) rfl (j0 := 0) (by decide) 0
    have htc : t.cart = s.cart := hs.outside.cart.trans hcart
    obtain ⟨u, hu, _, hm2⟩ := setMirror_spec hs.core s.cart.headerMode
    refine ⟨u, ?_, ?_⟩
    · rw [ht]; simp only [Except.bind]; rw [htc]; exact hu
    · have e : (uxromApply 0 r).cart = s.cart := hcart
      have e2 : (uxromApply 0 r).mapper = { r.mapper with prgOff := #v[0, 0x2000, 0x4000 * (s.cart.nPrg - 1), 0x4000 * (s.cart.nPrg - 1) + 0x2000] } := by
        have : (uxromApply 0 r).mapper = { r.mapper with prgOff := mapPrgOff r.cart 0x4000 2 (r.cart.countP 0x4000 - 1) (mapPrgOff r.cart 0x4000 0 0 r.mapper.prgOff) } := rfl
        rw [this, hcart, mapPrgOff_16_low, mapPrgOff_16_high, prgSlot0, prgSlot0, prgLast _ hp _ (by omega), prgLast _ hp _ (by omega)]
        norm_num [hp0]
      rw [hm2, hm1, e, e2, hm]
      by_cases hc : 0 < s.cart.nChr
      · rw [if_pos hc, c8 _ hc]
        simp [powered, hv, hc, powerOnRegs, Mapper.none]
      · rw [if_neg hc]
        simp [powered, hv, hc, powerOnRegs, Mapper.none]
  · obtain ⟨u, hu, hum, hc⟩ := simple s.cart.headerMode
    refine ⟨u, ?_, ?_⟩
    · rw [← hu]
      cases hmc : mapChr 0x2000 0 0 (mapPrg 0x8000 0 0 r) with
      | error e => rfl
      | ok t => simp only [Except.bind]; rw [hc t hmc]
    · rw [hum, hm]; simp [powered, hv, Mapper.none]
  · obtain ⟨t, ht, hs, _, hm1⟩ := mmc3Apply_off h (by rw [hcart]; exact hv) ⟨0, #v[0, 2, 4, 5, 6, 7, 0, 1], 0, 0, false, false⟩
    have htc : t.cart = s.cart := hs.outside.cart.trans hcart
    obtain ⟨u, hu, _, hm2⟩ := setMirror_spec hs.core s.cart.headerMode
    refine ⟨u, ?_, ?_⟩
    · rw [ht]; simp only [Except.bind]; rw [htc]; exact hu
    · obtain ⟨q1, q2, q3⟩ := prg3 s.cart hp
      have e1 : mmc3PrgOff s.cart ⟨0, #v[0, 2, 4, 5, 6, 7, 0, 1], 0, 0, false, false⟩ = #v[0, 0x2000, 0x4000 * (s.cart.nPrg - 1), 0x4000 * (s.cart.nPrg - 1) + 0x2000] := by
        have : mmc3PrgOff s.cart ⟨0, #v[0, 2, 4, 5, 6, 7, 0, 1], 0, 0, false, false⟩ = #v[prgSlot s.cart 0x2000 0 0, prgSlot s.cart 0x2000 1 0, prgSlot s.cart 0x2000 (s.cart.countP 0x2000 - 2) 0, prgSlot s.cart 0x2000 (s.cart.countP 0x2000 - 1) 0] := rfl
        rw [this, q1, q2, q3, prgSlot0]
        norm_num
      have e2 : 0 < s.cart.nChr → mmc3ChrOff s.cart ⟨0, #v[0, 2, 4, 5, 6, 7, 0, 1], 0, 0, false, false⟩ = #v[0, 0x400, 0x800, 0xC00, 0x1000, 0x1400, 0x1800, 0x1C00] := by
        intro hc
        have : mmc3ChrOff s.cart ⟨0, #v[0, 2, 4, 5, 6, 7, 0, 1], 0, 0, false, false⟩ = #v[chrSlot s.cart 0x400 0 0, chrSlot s.cart 0x400 1 0, chrSlot s.cart 0x400 2 0, chrSlot s.cart 0x400 3 0, chrSlot s.cart 0x400 4 0, chrSlot s.cart 0x400 5 0, chrSlot s.cart 0x400 6 0, chrSlot s.cart 0x400 7 0] := rfl
        rw [this]
        simp only [chrSlot1 _ _ hc (show 0 < 8 by omega), chrSlot1 _ _ hc (show 1 < 8 by omega), chrSlot1 _ _ hc (show 2 < 8 by omega), chrSlot1 _ _ hc (show 3 < 8 by omega), chrSlot1 _ _ hc (show 4 < 8 by omega), chrSlot1 _ _ hc (show 5 < 8 by omega), chrSlot1 _ _ hc (show 6 < 8 by omega), chrSlot1 _ _ hc (show 7 < 8 by omega)]
      rw [hm2, hm1, hcart, e1, hm]
      by_cases hc : 0 < s.cart.nChr
      · rw [if_pos hc, e2 hc]
        simp [powered, hv, hc, powerOnRegs, Mapper.none]
      · rw [if_neg hc]
        simp [powered, hv, hc, powerOnRegs, Mapper.none]
  · obtain ⟨u, hu, hum, hc⟩ := simple .single0
    exact ⟨u, hu, by rw [hum, hm]; simp [powered, hv, Mapper.none]⟩
/-- The state after the system reset of a machine with a cartridge. -/
def afterReset (s : State) : State :=
  let m := powered s.cart
  let base : Snapshot := { Snapshot.reset with mirroring := m.mirroring, chrOff := m.chrOff }
  let r : State := { s with mapper := m }
  { s with
    cpu := { Cpu.reset with paused := s.cpu.paused, pc := wordOf (r.peek 0xFFFD) (r.peek 0xFFFC) }
    ram := []
    prgRam := []
    bus := ⟨r.peek 0xFFFD⟩
    pad := ⟨⟨s.pad.port1.buttons, 0⟩, ⟨s.pad.port2.buttons, 0⟩, false⟩
    apuReg := []
    mapper := m
    ppu := { Ppu.reset with
      mirroring := m.mirroring, mirrorMask := m.mirroring.mask, chrOff := m.chrOff, frameBase := base, renderBase := base } }
theorem peek_rom {s t : State} (hm : t.mapper = s.mapper) (hc : t.cart = s.cart) : t.peek 0xFFFD = s.peek 0xFFFD ∧ t.peek 0xFFFC = s.peek 0xFFFC := by
  rcases s with ⟨cpu, ram, prg, bus, pad, apu, mapper, ppu, console, cart, cfg⟩
  rcases t with ⟨cpu', ram', prg', bus', pad', apu', mapper', ppu', console', cart', cfg'⟩
  cases hm; cases hc
  exact ⟨rfl, rfl⟩
/-- What a system reset finds: the memories of the cartridge, its header, the parameters and the keys of the queue. -/
theorem systemReset_eq {s : State} (h : (reboundMapper (clearForReset s)).Core) (hp : 0 < s.cart.nPrg) :
    systemReset s = .ok (afterReset s) ∧ (afterReset s).Inv := by
  have e : systemReset s = systemReset (reboundMapper (clearForReset s)) := rfl
  obtain ⟨t, ht, hi, hcpu, hram, hprg, hapu, hbus, hpad, hppu, hregs, hirq, hcons, hcart, hcfg⟩ := systemReset_spec h
  obtain ⟨u, hu, hum⟩ := powerOn_mapper (s := clearForReset s) h hp h.cart.header
  have hmap : t.mapper = powered s.cart := by
    have : systemReset s = .ok (cpuReset (u.withPpu u.ppu.startFrame)) := by
      unfold systemReset; rw [hu]; rfl
    rw [← e, this, cpuReset_eq] at ht
    cases ht
    exact hum
  have ht2 : t = afterReset s := by
    obtain ⟨p1, p2⟩ := peek_rom (s := { s with mapper := powered s.cart }) (t := t) hmap hcart
    rcases t with ⟨cpu, ram, prg, bus, pad, apu, mapper, ppu, console, cart, cfg⟩
    dsimp only at *
    rw [p1, p2] at hcpu
    rw [p1] at hbus
    subst hram hprg hapu hcons hcart hcfg hmap hcpu hbus hpad hppu
    rfl
  rw [e, ht, ← ht2]
  exact ⟨rfl, hi⟩
theorem afterReset_idem (s : State) : afterReset (afterReset s) = afterReset s := by
  obtain ⟨p1, p2⟩ := peek_rom (s := { s with mapper := powered s.cart }) (t := { afterReset s with mapper := powered s.cart }) rfl rfl
  have : afterReset (afterReset s) = { afterReset s with
      cpu := { Cpu.reset with paused := s.cpu.paused, pc := wordOf (({ afterReset s with mapper := powered s.cart } : State).peek 0xFFFD) (({ afterReset s with mapper := powered s.cart } : State).peek 0xFFFC) }
      bus := ⟨({ afterReset s with mapper := powered s.cart } : State).peek 0xFFFD⟩ } := rfl
  rw [this, p1, p2]
  rfl
theorem afterReset_pc (s : State) : (afterReset s).cpu.pc = wordOf ((afterReset s).peek 0xFFFD) ((afterReset s).peek 0xFFFC) := by
  obtain ⟨p1, p2⟩ := peek_rom (s := { s with mapper := powered s.cart }) (t := afterReset s) rfl rfl
  rw [p1, p2]; rfl
/-- What the power-on of a mapper needs of a machine whose cartridge was just exchanged. -/
theorem exchanged_core {r : State} (hk : QueueKeys r.ppu.nextQ) (hprg : Memory.Ok r.cart.prgSize r.cart.prg)
    (hchr : Memory.Ok r.cart.chrSize r.cart.chr) (hc : r.CartOk) (hg : r.cfg.Legal) : (reboundMapper (clearForReset r)).Core := by
  refine ⟨⟨.nil _, .nil _, .nil _, .nil _, .nil _, .nil _, .nil _, hprg, hchr⟩, powerOnRegs_ok _ _,
    fun hl j => ?_, fun j => ?_, rfl, rfl, rfl, hk, ⟨hc.someP, hc.byteP, hc.byteC, hc.header⟩, hg⟩
  · have hz : (reboundMapper (clearForReset r)).mapper.prgOff.get j = 0 := by
      change Mapper.none.prgOff.get j = 0
      revert j; decide
    have := hc.someP hl
    rw [hz]
    exact ⟨rfl, by change 0 < 16384 * r.cart.nPrg; omega⟩
  · have hz : (reboundMapper (clearForReset r)).mapper.chrOff.get j = 0 := by
      change Mapper.none.chrOff.get j = 0
      revert j; decide
    rw [hz]
    refine ⟨fun hrom => ?_, by decide⟩
    change r.cart.hasChrRom = true at hrom
    simp only [Cart.hasChrRom, decide_eq_true_eq] at hrom
    exact ⟨rfl, by change 0 < 8192 * r.cart.nChr; omega⟩

/-- A cartridge with canonical data, installed into a machine at a step boundary. -/
theorem installCart_eq {s : State} (h : s.Inv) {c : Cart} (hprg : Memory.Ok c.prgSize c.prg) (hchr : Memory.Ok c.chrSize c.chr)
    (hp : 0 < c.nPrg) (hp2 : c.nPrg < 256) (hc2 : c.nChr < 256) (hh : c.headerMode = .horizontal ∨ c.headerMode = .vertical) :
    ∃ t, installCart c s = .ok t ∧ t.Inv ∧ t.cart = c ∧ t.console = { s.console with loaded := true } ∧ t.cpu.paused = false ∧ t.cfg = s.cfg ∧
      t.pad = ⟨⟨s.pad.port1.buttons, 0⟩, ⟨s.pad.port2.buttons, 0⟩, false⟩ ∧
      t.cpu.pc = wordOf (t.peek 0xFFFD) (t.peek 0xFFFC) ∧ systemReset t = .ok t := by
  obtain ⟨r, hr⟩ : ∃ r : State, r = { s with
    cart := c
    console := { s.console with loaded := true }
    cpu := { s.cpu with paused := false } } := ⟨_, rfl⟩
  have hcore : (reboundMapper (clearForReset r)).Core := by
    subst hr
    exact exchanged_core h.core.keys hprg hchr ⟨fun _ => hp, hp2, hc2, hh⟩ h.config
  obtain ⟨e, hi⟩ := systemReset_eq hcore (by rw [hr]; exact hp)
  refine ⟨afterReset r, by rw [← e, hr]; rfl, hi, by rw [hr]; rfl, by rw [hr]; rfl, by rw [hr]; rfl, by rw [hr]; rfl,
    by rw [hr]; rfl, afterReset_pc r, ?_⟩
  have := (systemReset_eq (s := afterReset r) (clearForReset_core hi.core) (by rw [hr]; exact hp)).1
  rw [this, afterReset_idem]

end Sys2Proof.Machine
end

