-- ==== Sys2Proof/Laws/Queue.lean ====
section
/-! SUPPORT. What recording an event does to the queue, and how long a queue can be. -/

namespace Sys2Proof.Machine

/-- A recording that succeeds puts exactly the one event into the queue and changes nothing else (53_ppu_timing_events.md R411). -/
theorem record_ok {capacity : Nat} {c : Change} {p q : Ppu} (he : record capacity c p = .ok q) :
    q = { p with nextQ := q.nextQ } ∧ Recorded (targetLine p.line) [c] p.nextQ q.nextQ := by
  unfold record at he
  dsimp only at he
  split at he
  · next hany =>
    cases he
    refine ⟨rfl, fun e => ?_⟩
    rw [List.mem_map]
    obtain ⟨x, hx, hxk⟩ := List.any_eq_true.1 hany
    constructor
    · rintro ⟨f, hf, rfl⟩
      split
      · exact .inl ⟨c, by simp, rfl⟩
      · next hn => exact .inr ⟨hf, by simpa using hn⟩
    · rintro (⟨c', hc', rfl⟩ | ⟨hmem, hn⟩)
      · rw [List.mem_singleton.1 hc']
        exact ⟨x, hx, by rw [if_pos hxk]⟩
      · exact ⟨e, hmem, by rw [if_neg (by simpa using hn)]⟩
  · next hany =>
    split at he
    · cases he
    · cases he
      refine ⟨rfl, fun e => ?_⟩
      rw [List.mem_append, List.mem_singleton]
      constructor
      · rintro (hm | rfl)
        · refine .inr ⟨hm, ?_⟩
          have := List.any_eq_false.1 (by simpa using hany) e hm
          simpa using this
        · exact .inl ⟨c, by simp, rfl⟩
      · rintro (⟨c', hc', rfl⟩ | ⟨hm, _⟩)
        · rw [List.mem_singleton.1 hc']; exact .inr rfl
        · exact .inl hm

/-- With room in the arena, recording succeeds, puts exactly the one event into the queue and keeps it in order. -/
theorem record_recorded {capacity : Nat} (hcap : 2893 ≤ capacity) {c : Change} (hc : c ≠ .stop) {p : Ppu} (h : QueueOk (targetLine p.line) p.nextQ) :
    ∃ es, record capacity c p = .ok { p with nextQ := es } ∧ QueueOk (targetLine p.line) es ∧ Recorded (targetLine p.line) [c] p.nextQ es := by
  obtain ⟨es, he, hq⟩ := record_queueOk hcap hc h
  exact ⟨es, he, hq, (record_ok he).2⟩

/-- Recordings of different keys, one after the other. -/
theorem Recorded.append {l : Nat} {cs ds : List Change} (hk : ∀ c ∈ cs, ∀ d ∈ ds, c.key ≠ d.key) {q r t : List Event}
    (h1 : Recorded l cs q r) (h2 : Recorded l ds r t) : Recorded l (cs ++ ds) q t := by
  intro e
  rw [h2 e, h1 e]
  simp only [List.mem_append]
  constructor
  · rintro (⟨d, hd, rfl⟩ | ⟨⟨c, hc, rfl⟩ | ⟨hm, hn⟩, hn'⟩)
    · exact .inl ⟨d, .inr hd, rfl⟩
    · exact .inl ⟨c, .inl hc, rfl⟩
    · exact .inr ⟨hm, fun c hc => hc.elim (hn c) (hn' c)⟩
  · rintro (⟨c, hc | hc, rfl⟩ | ⟨hm, hn⟩)
    · refine .inr ⟨.inl ⟨c, hc, rfl⟩, fun d hd => ?_⟩
      rw [Event.hasKey_eq_false_iff]
      exact fun h => hk c hc d hd h.2
    · exact .inl ⟨c, hc, rfl⟩
    · exact .inr ⟨.inr ⟨hm, fun c hc => hn c (.inl hc)⟩, fun d hd => hn d (.inr hd)⟩

/-- Only which changes are recorded matters. -/
theorem Recorded.congr {l : Nat} {cs ds : List Change} (h : ∀ c, c ∈ cs ↔ c ∈ ds) {q r : List Event} (hr : Recorded l cs q r) :
    Recorded l ds q r := by
  intro e
  rw [hr e]
  simp only [h]

/-- Two recordings of different keys, one after the other. -/
theorem Recorded.two {l : Nat} {c d : Change} (hk : d.key ≠ c.key) {a b e : List Event} (h1 : Recorded l [c] a b) (h2 : Recorded l [d] b e) :
    Recorded l [c, d] a e :=
  h1.append (by simpa using hk.symm) h2

/-- Twelve keys and 241 lines bound a queue (53_ppu_timing_events.md R418). -/
theorem QueueOk.length_le {q : List Event} {last : Nat} (hl : last ≤ 240) (h : QueueOk last q) : q.length ≤ 2892 := by
  let num (e : Event) : Nat := 12 * e.line + e.change.key
  have hnodup : (q.map num).Nodup := by
    rw [List.Nodup, List.pairwise_map]
    refine h.distinct.imp_of_mem fun {e f} he hf hef => ?_
    have := Change.key_lt (h.noStop e he); have := Change.key_lt (h.noStop f hf)
    rw [Event.hasKey_eq_false_iff] at hef
    simp only [num]
    omega
  have hsub : (q.map num) ⊆ List.range 2892 := by
    intro k hk
    obtain ⟨e, he, rfl⟩ := List.mem_map.1 hk
    have := Change.key_lt (h.noStop e he); have := h.targets e he
    simp [num]; omega
  have := (List.subperm_of_subset hnodup hsub).length_le
  simpa using this

end Sys2Proof.Machine
end

