-- ==== Sys2Proof/Laws/Publish.lean ====
section
/-! SUPPORT. What the mapper's setters publish: the catch-up, the PPU's copies and the events of a bank mapping and of a mirroring
change, and of the loads of MMC1 and MMC3 (51_mappers.md R334; 53_ppu_timing_events.md R412). -/

namespace Sys2Proof.Machine

/-- A caught-up PPU catches up to itself, whatever its copies and its queue are (53_ppu_timing_events.md R413). -/
theorem catchUpIfVisible_again (p : Ppu) (o : Vector Nat 8) (m : Mirroring) (k : Byte) (q : List Event) :
    catchUpIfVisible { catchUpIfVisible p with chrOff := o, mirroring := m, mirrorMask := k, nextQ := q } =
      { catchUpIfVisible p with chrOff := o, mirroring := m, mirrorMask := k, nextQ := q } := by
  unfold catchUpIfVisible
  by_cases h : p.line ≤ 239
  · simp [Ppu.visible, h, catchUp]
  · simp [Ppu.visible, h]

section
variable {s t u : State} {cs ds : List Change}

/-- The changes recorded, as a set, are what is published. -/
theorem Published.congr (h : ∀ c, c ∈ cs ↔ c ∈ ds) (hp : Published cs s t) : Published ds s t := ⟨hp.1, hp.2.congr h⟩

/-- What was published from a state that differs in the mapper alone. -/
theorem Published.before {m : Mapper} (h : Published cs { s with mapper := m } t) : Published cs s t := h

/-- A change of PRG offsets after the setters publishes nothing. -/
theorem Published.after (h : Published cs s t) (o : Vector Nat 4) :
    Published cs s { t with mapper := { t.mapper with prgOff := o } } := by
  refine ⟨?_, h.2⟩
  have := h.1
  generalize t.mapper = m at *
  rw [this]

/-- Setters of different keys, one after the other. -/
theorem Published.trans (hk : ∀ c ∈ cs, ∀ d ∈ ds, c.key ≠ d.key) (h1 : Published cs s t) (h2 : Published ds t u) :
    Published (cs ++ ds) s u := by
  obtain ⟨e1, r1⟩ := h1
  obtain ⟨e2, r2⟩ := h2
  have hp : t.ppu = { catchUpIfVisible s.ppu with
      chrOff := t.mapper.chrOff, mirroring := t.mapper.mirroring, mirrorMask := t.mapper.mirroring.mask, nextQ := t.ppu.nextQ } :=
    congrArg State.ppu e1
  have hl : t.ppu.line = s.ppu.line := by rw [hp]; exact catchUpIfVisible_line _
  rw [hl] at r2
  refine ⟨?_, r1.append hk r2⟩
  rw [hp, catchUpIfVisible_again] at e2
  generalize u.mapper = m at *
  generalize u.ppu.nextQ = q at *
  generalize t.mapper = mt at *
  generalize t.ppu.nextQ = qt at *
  rw [e2, e1]

end

/-! ## The two setters -/

theorem setChrSlot_published {s t : State} (h : s.Core) {slot : Fin 8} {off : Nat} (ht : setChrSlot slot off s = .ok t) :
    Published [.chrBank slot off] s t := by
  unfold setChrSlot Ppu.setChrBank at ht
  dsimp only at ht
  cases hr : record s.cfg.eventCapacity (.chrBank slot off)
      { catchUpIfVisible s.ppu with chrOff := (catchUpIfVisible s.ppu).chrOff.set slot.1 off slot.2 } with
  | error e => rw [hr] at ht; cases ht
  | ok q =>
    rw [hr] at ht
    cases ht
    obtain ⟨e, r⟩ := record_ok hr
    have k := catchUpIfVisible_kept s.ppu
    refine ⟨?_, ?_⟩
    · have hm : (catchUpIfVisible s.ppu).mirroring = s.mapper.mirroring := by rw [k.mirroring, h.mirrorCopy]
      have hk : (catchUpIfVisible s.ppu).mirrorMask = s.mapper.mirroring.mask := by rw [k.mirrorMask, h.mirrorMask, h.mirrorCopy]
      have hc : (catchUpIfVisible s.ppu).chrOff = s.mapper.chrOff := by rw [k.chrOff, h.chrCopy]
      dsimp only
      rw [← hk, ← hm, ← hc]
      generalize q.nextQ = n at *
      rw [e]
    · have hl : (catchUpIfVisible s.ppu).line = s.ppu.line := catchUpIfVisible_line _
      simpa [targetLine, hl] using r

theorem setMirror_published {s t : State} (h : s.Core) {m : Mirroring} (ht : setMirror m s = .ok t) :
    Published [.mirroring m] s t := by
  unfold setMirror Ppu.setMirroring at ht
  dsimp only at ht
  cases hr : record s.cfg.eventCapacity (.mirroring m) { catchUpIfVisible s.ppu with mirroring := m, mirrorMask := m.mask } with
  | error e => rw [hr] at ht; cases ht
  | ok q =>
    rw [hr] at ht
    cases ht
    obtain ⟨e, r⟩ := record_ok hr
    refine ⟨?_, ?_⟩
    · have hc : (catchUpIfVisible s.ppu).chrOff = s.mapper.chrOff := by rw [(catchUpIfVisible_kept s.ppu).chrOff, h.chrCopy]
      dsimp only
      rw [← hc]
      generalize q.nextQ = n at *
      rw [e]
    · have hl : (catchUpIfVisible s.ppu).line = s.ppu.line := catchUpIfVisible_line _
      simpa [targetLine, hl] using r

/-! ## Bank mappings -/

theorem mem_bankChanges {j0 n : Nat} {off : Vector Nat 8} {c : Change} :
    c ∈ bankChanges j0 n off ↔ ∃ j : Fin 8, (j0 ≤ j.1 ∧ j.1 < j0 + n) ∧ c = .chrBank j (off.get j) := by
  simp only [bankChanges, List.mem_map, List.mem_filter, List.mem_finRange, true_and, decide_eq_true_eq]
  exact ⟨fun ⟨j, h, e⟩ => ⟨j, h, e.symm⟩, fun ⟨j, h, e⟩ => ⟨j, h, e.symm⟩⟩

/-- Offsets that agree on the window give the same changes. -/
theorem bankChanges_congr {j0 n : Nat} {o o' : Vector Nat 8} (h : ∀ j : Fin 8, j0 ≤ j.1 → j.1 < j0 + n → o.get j = o'.get j) :
    bankChanges j0 n o = bankChanges j0 n o' := by
  unfold bankChanges
  refine List.map_congr_left fun j hj => ?_
  simp only [List.mem_filter, List.mem_finRange, true_and, decide_eq_true_eq] at hj
  rw [h j hj.1 hj.2]

/-- Two windows side by side. -/
theorem mem_bankChanges_add {j0 m n : Nat} {o : Vector Nat 8} (c : Change) :
    c ∈ bankChanges j0 m o ++ bankChanges (j0 + m) n o ↔ c ∈ bankChanges j0 (m + n) o := by
  rw [List.mem_append, mem_bankChanges, mem_bankChanges, mem_bankChanges]
  constructor
  · rintro (⟨j, h, e⟩ | ⟨j, h, e⟩) <;> exact ⟨j, by omega, e⟩
  · rintro ⟨j, h, e⟩
    by_cases hj : j.1 < j0 + m
    · exact .inl ⟨j, by omega, e⟩
    · exact .inr ⟨j, by omega, e⟩

theorem bankChanges_keys {i m j n : Nat} {o o' : Vector Nat 8} (h : i + m ≤ j ∨ j + n ≤ i) :
    ∀ c ∈ bankChanges i m o, ∀ d ∈ bankChanges j n o', c.key ≠ d.key := by
  intro c hc d hd
  obtain ⟨a, ha, rfl⟩ := mem_bankChanges.1 hc
  obtain ⟨b, hb, rfl⟩ := mem_bankChanges.1 hd
  simp only [Change.key]
  omega

/-- What `mapChr` publishes with CHR ROM (51_mappers.md R332, R334). -/
theorem mapChr_published {s t : State} (h : s.Core) (hrom : 0 < s.cart.nChr) {size : Nat} (hs : size % 0x400 = 0)
    (hpos : 0x400 ≤ size) {j0 : Nat} (hj : j0 + size / 0x400 ≤ 8) {b : Nat} (ht : mapChr size j0 b s = .ok t) :
    Published (bankChanges j0 (size / 0x400) t.mapper.chrOff) s t := by
  have hoff : ∀ k, s.cart.chrOffOk ((s.cart.chrBase size b + k * 0x400) % s.cart.chrSize) := fun k => by
    have hp : 0 < s.cart.chrSize := by unfold Cart.chrSize; omega
    have hdvd : s.cart.chrSize % 0x400 = 0 := by unfold Cart.chrSize; omega
    have hlt := Nat.mod_lt (s.cart.chrBase size b + k * 0x400) hp
    have := h.cart.byteC
    have : s.cart.chrSize < 8192 * 256 := by unfold Cart.chrSize; omega
    exact ⟨fun _ => ⟨by rw [Nat.mod_mod_of_dvd _ (Nat.dvd_of_mod_eq_zero hdvd)]; exact chrBase_dvd _ hs, hlt⟩, by omega⟩
  obtain ⟨t', ht', hset, hm⟩ := mapChr_mapper h hs hj b
  rw [ht] at ht'
  cases ht'
  unfold mapChr at ht
  rw [if_pos (by simpa [Cart.hasChrRom] using hrom)] at ht
  have key : ∀ n, 0 < n → j0 + n ≤ 8 → ∀ t, (List.range n).foldlM
      (fun s k => setChrSlot (Fin.ofNat 8 (j0 + k)) ((s.cart.chrBase size b + k * 0x400) % s.cart.chrSize) s) s = .ok t →
      t.Core ∧ t.cart = s.cart ∧ Published ((List.range n).map fun k =>
        .chrBank (Fin.ofNat 8 (j0 + k)) ((s.cart.chrBase size b + k * 0x400) % s.cart.chrSize)) s t := by
    intro n
    induction n with
    | zero => omega
    | succ n ih =>
      intro _ hn t ht
      have step : ∀ {v : State}, v.Core → v.cart = s.cart → (List.foldlM
          (fun s k => setChrSlot (Fin.ofNat 8 (j0 + k)) ((s.cart.chrBase size b + k * 0x400) % s.cart.chrSize) s) v [n]) = .ok t →
          t.Core ∧ t.cart = s.cart ∧
            Published [.chrBank (Fin.ofNat 8 (j0 + n)) ((s.cart.chrBase size b + n * 0x400) % s.cart.chrSize)] v t := by
        intro v hv hc hf
        have hf' : setChrSlot (Fin.ofNat 8 (j0 + n)) ((s.cart.chrBase size b + n * 0x400) % s.cart.chrSize) v = .ok t := by
          simp only [List.foldlM_cons, List.foldlM_nil, bind, Except.bind, pure, Except.pure, hc] at hf
          split at hf
          · cases hf
          · next w hw => cases hf; exact hw
        obtain ⟨t', ht', hset⟩ := setChrSlot_maps hv (Fin.ofNat 8 (j0 + n)) (by rw [hc]; exact hoff n)
        rw [hf'] at ht'
        cases ht'
        exact ⟨hset.core, hset.outside.cart.trans hc, setChrSlot_published hv hf'⟩
      rw [List.range_succ, List.foldlM_append] at ht
      rw [List.range_succ, List.map_append]
      by_cases h0 : n = 0
      · subst h0
        exact step h rfl ht
      · cases hm : (List.range n).foldlM
            (fun s k => setChrSlot (Fin.ofNat 8 (j0 + k)) ((s.cart.chrBase size b + k * 0x400) % s.cart.chrSize) s) s with
        | error e => rw [hm] at ht; cases ht
        | ok v =>
          rw [hm] at ht
          obtain ⟨k1, k2, k3⟩ := ih (by omega) (by omega) v hm
          obtain ⟨m1, m2, m3⟩ := step k1 k2 ht
          refine ⟨m1, m2, k3.trans ?_ m3⟩
          intro c hc d hd
          obtain ⟨i, hi, rfl⟩ := List.mem_map.1 hc
          obtain rfl : d = _ := List.mem_singleton.1 hd
          have := List.mem_range.1 hi
          simp only [Change.key, Fin.ofNat]
          omega
  refine (key _ (by omega) hj t ht).2.2.congr fun c => ?_
  rw [mem_bankChanges, hm, if_pos hrom]
  dsimp only
  constructor
  · intro hc
    obtain ⟨k, hk, rfl⟩ := List.mem_map.1 hc
    have hk := List.mem_range.1 hk
    have hv : (Fin.ofNat 8 (j0 + k)).1 = j0 + k := by simp only [Fin.ofNat]; omega
    refine ⟨Fin.ofNat 8 (j0 + k), by omega, ?_⟩
    rw [mapChrOff_get, if_pos (by omega), hv, show j0 + k - j0 = k by omega]
  · rintro ⟨j, hjj, rfl⟩
    refine List.mem_map.2 ⟨j.1 - j0, List.mem_range.2 (by omega), ?_⟩
    rw [mapChrOff_get, if_pos (by omega)]
    congr 1
    apply Fin.ext
    simp only [Fin.ofNat]
    omega

theorem mapChr_published_window {s : State} (h : s.Core) (hrom : 0 < s.cart.nChr) {size : Nat} (hs : size % 0x400 = 0)
    (hpos : 0x400 ≤ size) {j0 : Nat} (hj : j0 + size / 0x400 ≤ 8) (b : Nat) : ∃ t, mapChr size j0 b s = .ok t ∧ State.Set s t ∧
      t.cart = s.cart ∧ t.mapper = { s.mapper with chrOff := mapChrOff s.cart size j0 b s.mapper.chrOff } ∧
      Published (bankChanges j0 (size / 0x400) t.mapper.chrOff) s t := by
  obtain ⟨t, ht, hset, hm⟩ := mapChr_mapper h hs hj b
  rw [if_pos hrom] at hm
  exact ⟨t, ht, hset, hset.outside.cart, hm, mapChr_published h hrom hs hpos hj ht⟩

/-- Two windows one after the other: the second leaves the first's offsets. -/
theorem Published.windows {s t u : State} {i m j n : Nat} (hd : i + m ≤ j ∨ j + n ≤ i)
    (h1 : Published (bankChanges i m t.mapper.chrOff) s t) (h2 : Published (bankChanges j n u.mapper.chrOff) t u)
    (hk : ∀ k : Fin 8, i ≤ k.1 → k.1 < i + m → t.mapper.chrOff.get k = u.mapper.chrOff.get k) :
    Published (bankChanges i m u.mapper.chrOff ++ bankChanges j n u.mapper.chrOff) s u := by
  rw [bankChanges_congr hk] at h1
  exact h1.trans (bankChanges_keys hd) h2

/-! ## MMC1 and MMC3 -/

/-- With CHR RAM no mapping does anything (51_mappers.md R332). -/
theorem mapChr_ram {s : State} (h : s.cart.nChr = 0) (size j0 b : Nat) : mapChr size j0 b s = .ok s := by
  unfold mapChr
  rw [if_neg (by simp [Cart.hasChrRom, h])]

theorem mmc1Chr_published {s t : State} (h : s.Core) (r : Mmc1) (ht : mmc1Chr r s = .ok t) :
    (0 < s.cart.nChr → Published (bankChanges 0 8 t.mapper.chrOff) s t) ∧ (s.cart.nChr = 0 → t = s) := by
  unfold mmc1Chr at ht
  refine ⟨fun hrom => ?_, fun hram => ?_⟩
  · split at ht
    · obtain ⟨v, hv, hs, hc, hm, hp⟩ := mapChr_published_window h hrom (size := 0x1000) rfl (by decide) (j0 := 0) (by decide) r.chr0.toNat
      obtain ⟨w, hw, _, _, hm', hp'⟩ := mapChr_published_window hs.core (by rw [hc]; exact hrom) (size := 0x1000) rfl (by decide)
        (j0 := 4) (by decide) r.chr1.toNat
      rw [hv] at ht
      change mapChr 0x1000 4 r.chr1.toNat v = .ok t at ht
      rw [hw] at ht
      cases ht
      refine (hp.windows (by decide) hp' fun k _ hk => ?_).congr mem_bankChanges_add
      rw [hm']
      dsimp only
      rw [mapChrOff_get, if_neg (by omega)]
    · exact mapChr_published h hrom rfl (by decide) (by decide) ht
  · split at ht
    · rw [mapChr_ram hram] at ht
      change mapChr 0x1000 4 r.chr1.toNat s = .ok t at ht
      rw [mapChr_ram hram] at ht
      cases ht; rfl
    · rw [mapChr_ram hram] at ht
      cases ht; rfl

/-- What a load of MMC1's registers publishes. -/
theorem mmc1Apply_published {s t : State} (h : s.Core) (hv : s.cart.variant = .mmc1) {r : Mmc1} (hr : r.shift ≠ 0)
    (ht : mmc1Apply r s = .ok t) :
    Published (.mirroring t.mapper.mirroring :: if 0 < s.cart.nChr then bankChanges 0 8 t.mapper.chrOff else []) s t := by
  have hc := h.setRegs (r := .mmc1 r) (by rw [hv]; exact hr)
  obtain ⟨u, hu, hs, hm⟩ := setMirror_spec hc (mmc1Mirroring r.control)
  have hp := mmc1Prg_set hs.core r
  have hcart : (mmc1Prg r u).cart = s.cart := hp.outside.cart.trans hs.outside.cart
  obtain ⟨w, hw, hs', hm'⟩ := mmc1Chr_off hp.core r
  unfold mmc1Apply at ht
  rw [hu] at ht
  change mmc1Chr r (mmc1Prg r u) = .ok t at ht
  rw [hw] at ht
  cases ht
  have h1 : Published [.mirroring (mmc1Mirroring r.control)] s (mmc1Prg r u) := by
    rw [mmc1Prg_off]
    exact (Published.before (m := { s.mapper with regs := .mmc1 r }) (setMirror_published hc hu)).after _
  have hmode : t.mapper.mirroring = mmc1Mirroring r.control := by rw [hm', mmc1Prg_off, hm]
  obtain ⟨k1, k2⟩ := mmc1Chr_published hp.core r hw
  rw [hcart] at k1 k2
  rw [hmode]
  split
  · next hrom =>
    refine h1.trans ?_ (k1 hrom)
    intro c hc d hd
    obtain ⟨j, _, rfl⟩ := mem_bankChanges.1 hd
    rw [List.mem_singleton.1 hc]
    simp only [Change.key]
    omega
  · next hram =>
    rw [k2 (by omega)]
    exact h1

/-- A single slot of a mapping. -/
theorem mapChr_slot {s : State} (h : s.Core) (hrom : 0 < s.cart.nChr) (j : Nat) (hj : j < 8) (b : Nat) :
    ∃ t, mapChr 0x400 j b s = .ok t ∧ t.Core ∧ t.cart = s.cart ∧ (∀ k : Fin 8, k.1 ≠ j → t.mapper.chrOff.get k = s.mapper.chrOff.get k) ∧
      Published (bankChanges j 1 t.mapper.chrOff) s t := by
  obtain ⟨t, ht, hs, hc, hm, hp⟩ := mapChr_published_window h hrom (size := 0x400) rfl (by decide) (j0 := j) (by omega) b
  refine ⟨t, ht, hs.core, hc, fun k hk => ?_, hp⟩
  rw [hm]
  dsimp only
  rw [mapChrOff_get, if_neg (by omega)]

/-- One more slot beside the window already mapped. -/
theorem Published.slot {s t u : State} {i m j : Nat} (hj : j = i + m) (h1 : Published (bankChanges i m t.mapper.chrOff) s t)
    (hk : ∀ k : Fin 8, k.1 ≠ j → u.mapper.chrOff.get k = t.mapper.chrOff.get k)
    (h2 : Published (bankChanges j 1 u.mapper.chrOff) t u) : Published (bankChanges i (m + 1) u.mapper.chrOff) s u := by
  subst hj
  exact (h1.windows (.inl (by omega)) h2 fun k _ h => (hk k (by omega)).symm).congr mem_bankChanges_add

/-- Four slots from `i` on, mapped in turn. -/
theorem mapChr_four {s : State} (h : s.Core) (hrom : 0 < s.cart.nChr) (i : Nat) (hi : i + 3 < 8) (b0 b1 b2 b3 : Nat) :
    ∃ t, (do
        let s ← mapChr 0x400 (i + 0) b0 s
        let s ← mapChr 0x400 (i + 1) b1 s
        let s ← mapChr 0x400 (i + 2) b2 s
        mapChr 0x400 (i + 3) b3 s) = .ok t ∧ t.Core ∧ t.cart = s.cart ∧
      (∀ k : Fin 8, k.1 < i ∨ i + 4 ≤ k.1 → t.mapper.chrOff.get k = s.mapper.chrOff.get k) ∧
      Published (bankChanges i 4 t.mapper.chrOff) s t := by
  obtain ⟨t0, e0, h0, c0, k0, p0⟩ := mapChr_slot h hrom (i + 0) (by omega) b0
  obtain ⟨t1, e1, h1, c1, k1, p1⟩ := mapChr_slot h0 (by rw [c0]; exact hrom) (i + 1) (by omega) b1
  obtain ⟨t2, e2, h2, c2, k2, p2⟩ := mapChr_slot h1 (by rw [c1, c0]; exact hrom) (i + 2) (by omega) b2
  obtain ⟨t3, e3, h3, c3, k3, p3⟩ := mapChr_slot h2 (by rw [c2, c1, c0]; exact hrom) (i + 3) (by omega) b3
  refine ⟨t3, ?_, h3, by rw [c3, c2, c1, c0], fun k hk => ?_, ?_⟩
  · simp only [e0, e1, e2, bind, Except.bind]; exact e3
  · rw [k3 k (by omega), k2 k (by omega), k1 k (by omega), k0 k (by omega)]
  · exact ((p0.slot (by omega) k1 p1).slot (by omega) k2 p2).slot (by omega) k3 p3

/-- What a load of MMC3's bank registers publishes. -/
theorem mmc3Chr_published {s t : State} (h : s.Core) (r : Mmc3) (ht : mmc3Chr r s = .ok t) :
    (0 < s.cart.nChr → Published (bankChanges 0 8 t.mapper.chrOff) s t) ∧ (s.cart.nChr = 0 → t = s) := by
  unfold mmc3Chr at ht
  refine ⟨fun hrom => ?_, fun hram => ?_⟩
  · have both : ∀ c, c = 0 ∨ c = 4 → ∀ b0 b1 b2 b3 b4 b5 b6 b7 : Nat, ∃ u, (do
        let s ← mapChr 0x400 (c + 0) b0 s
        let s ← mapChr 0x400 (c + 1) b1 s
        let s ← mapChr 0x400 (c + 2) b2 s
        let s ← mapChr 0x400 (c + 3) b3 s
        let s ← mapChr 0x400 (4 - c + 0) b4 s
        let s ← mapChr 0x400 (4 - c + 1) b5 s
        let s ← mapChr 0x400 (4 - c + 2) b6 s
        mapChr 0x400 (4 - c + 3) b7 s) = .ok u ∧ Published (bankChanges 0 8 u.mapper.chrOff) s u := by
      intro c hc b0 b1 b2 b3 b4 b5 b6 b7
      obtain ⟨v, ev, hv, cv, _, pv⟩ := mapChr_four h hrom c (by omega) b0 b1 b2 b3
      obtain ⟨w, ew, _, _, kw, pw⟩ := mapChr_four hv (by rw [cv]; exact hrom) (4 - c) (by omega) b4 b5 b6 b7
      refine ⟨w, ?_, (pv.windows (by omega) pw fun k _ hk => (kw k (by omega)).symm).congr fun x => ?_⟩
      · have split4 : ∀ (f : State → Except Fault State) (g : State → Except Fault State), g v = .ok w → f s = .ok v →
            (f s >>= g) = .ok w := fun f g hg hf => by rw [hf]; exact hg
        have := split4 (fun s => do
            let s ← mapChr 0x400 (c + 0) b0 s
            let s ← mapChr 0x400 (c + 1) b1 s
            let s ← mapChr 0x400 (c + 2) b2 s
            mapChr 0x400 (c + 3) b3 s) (fun s => do
            let s ← mapChr 0x400 (4 - c + 0) b4 s
            let s ← mapChr 0x400 (4 - c + 1) b5 s
            let s ← mapChr 0x400 (4 - c + 2) b6 s
            mapChr 0x400 (4 - c + 3) b7 s) ew ev
        simpa only [bind_assoc] using this
      · rcases hc with rfl | rfl
        · exact mem_bankChanges_add x
        · rw [List.mem_append, or_comm, ← List.mem_append]
          exact mem_bankChanges_add (j0 := 0) x
    obtain ⟨u, hu, hp⟩ := both (if r.bankSelect.getLsbD 7 then 4 else 0) (by split <;> simp) (r.r[0] &&& 0xFE).toNat
      (r.r[0] ||| 1).toNat (r.r[1] &&& 0xFE).toNat (r.r[1] ||| 1).toNat r.r[2].toNat r.r[3].toNat r.r[4].toNat r.r[5].toNat
    have := ht.symm.trans hu
    cases this
    exact hp
  · simp only [mapChr_ram hram, bind, Except.bind] at ht
    cases ht
    rfl

theorem mmc3Apply_published {s t : State} (h : s.Core) (hv : s.cart.variant = .mmc3) (r : Mmc3) (ht : mmc3Apply r s = .ok t) :
    (0 < s.cart.nChr → Published (bankChanges 0 8 t.mapper.chrOff) s t) ∧
      (s.cart.nChr = 0 → t = { s with mapper := t.mapper }) := by
  have hc := h.setRegs (r := .mmc3 r) (by rw [hv]; trivial)
  obtain ⟨u, hu, _, _, _⟩ := mmc3Chr_off hc r
  unfold mmc3Apply at ht
  rw [hu] at ht
  change Except.ok (mmc3Prg r u) = .ok t at ht
  obtain ⟨k1, k2⟩ := mmc3Chr_published hc r hu
  cases ht
  rw [mmc3Prg_off]
  refine ⟨fun hrom => (Published.before (m := { s.mapper with regs := .mmc3 r }) (k1 hrom)).after _, fun hram => ?_⟩
  rw [k2 hram]
  rfl

end Sys2Proof.Machine
end

