-- ==== Sys2Proof/Laws/Save.lean ====
section
/-! SUPPORT. The parts of a save state read back as they were written: base64, little-endian numbers, and each field of the blob. -/

namespace Sys2Proof.Machine

/-- Every digit has its value. -/
theorem base64Value_char (n : BitVec 6) : base64Value (base64Char n) = some n := by
  revert n; decide +kernel

/-- No digit is the padding character. -/
theorem base64Char_ne (n : BitVec 6) : base64Char n ≠ '=' := by
  revert n; decide +kernel

/-- Three bytes come back from their four digits. -/
theorem octets_sextets (a b c : Byte) : octets (sextets a b c).1 (sextets a b c).2.1 (sextets a b c).2.2.1 (sextets a b c).2.2.2 = (a, b, c) := by
  have hw : ∀ w : BitVec 24, (w.extractLsb' 18 6 ++ w.extractLsb' 12 6 ++ w.extractLsb' 6 6 ++ w.extractLsb' 0 6 : BitVec 24) = w := by
    intro w
    apply BitVec.eq_of_getLsbD_eq
    intro i hi
    simp only [BitVec.getLsbD_append, BitVec.getLsbD_extractLsb']
    by_cases h1 : i < 6
    · simp [h1]
    · by_cases h2 : i < 12
      · simp [h1, show i - 6 < 6 by omega, show 6 + (i - 6) = i by omega]
      · by_cases h3 : i < 18
        · simp [h1, show ¬ i - 6 < 6 by omega, show i - 6 - 6 < 6 by omega, show 12 + (i - 6 - 6) = i by omega]
        · simp [h1, show ¬ i - 6 < 6 by omega, show ¬ i - 6 - 6 < 6 by omega, show i - 6 - 6 - 6 < 6 by omega, show 18 + (i - 6 - 6 - 6) = i by omega]
  have happ : ∀ j, (a ++ b ++ c : BitVec 24).getLsbD j = if j < 8 then c.getLsbD j else if j - 8 < 8 then b.getLsbD (j - 8) else a.getLsbD (j - 8 - 8) := by
    intro j
    change (a ++ b ++ c : BitVec (8 + 8 + 8)).getLsbD j = _
    rw [BitVec.getLsbD_append, BitVec.getLsbD_append]
  simp only [octets, sextets, hw]
  refine Prod.ext ?_ (Prod.ext ?_ ?_) <;> dsimp only <;> apply BitVec.eq_of_getLsbD_eq <;> intro i hi <;> rw [BitVec.getLsbD_extractLsb', happ]
  · rw [if_neg (by omega), if_neg (by omega)]; simp [hi, show 16 + i - 8 - 8 = i by omega]
  · rw [if_neg (by omega), if_pos (by omega)]; simp [hi]
  · simp [hi]

/-- Decoding an encoded list of bytes gives the list. -/
theorem base64_round : ∀ l : List Byte, base64Decode (base64Encode l) = some l
  | [] => rfl
  | [a] => by
    have hz : (sextets a 0 0).2.2.1 = 0 ∧ (sextets a 0 0).2.2.2 = 0 := by revert a; decide +kernel
    have ho := octets_sextets a 0 0
    rw [hz.1, hz.2] at ho
    simp only [base64Encode, base64Decode, base64Last, base64Value_char]
    simp only [Option.bind_eq_bind, Option.bind_some, if_true, ho]
  | [a, b] => by
    have hz : (sextets a b 0).2.2.2 = 0 := by
      simp only [sextets]
      apply BitVec.eq_of_getLsbD_eq
      intro i hi
      rw [BitVec.getLsbD_extractLsb']
      have : (a ++ b ++ (0 : Byte) : BitVec (8 + 8 + 8)).getLsbD (0 + i) = false := by
        rw [BitVec.getLsbD_append, if_pos (by omega)]; simp
      erw [this]; simp
    have ho := octets_sextets a b 0
    rw [hz] at ho
    simp only [base64Encode, base64Decode, base64Last, base64Value_char, if_neg (base64Char_ne _)]
    simp only [Option.bind_eq_bind, Option.bind_some, if_true, ho]
  | a :: b :: c :: rest => by
    have ih := base64_round rest
    have ho := octets_sextets a b c
    cases hr : base64Encode rest with
    | nil =>
      have : rest = [] := by
        match rest with
        | [] => rfl
        | [_] => simp [base64Encode] at hr
        | [_, _] => simp [base64Encode] at hr
        | _ :: _ :: _ :: _ => simp [base64Encode] at hr
      subst this
      simp only [base64Encode, base64Decode, base64Last, base64Value_char, if_neg (base64Char_ne _)]
      simp only [Option.bind_eq_bind, Option.bind_some, if_true, ho]
    | cons x xs =>
      rw [hr] at ih
      simp only [base64Encode, hr]
      rw [base64Decode]
      · simp only [base64Value_char, ih]
        simp only [Option.bind_eq_bind, Option.bind_some, if_true, ho]
      · intro h; cases h

theorem length_leBytes (n v : Nat) : (leBytes n v).length = n := by
  induction n generalizing v with
  | zero => rfl
  | succ n ih => simp [leBytes, ih]

/-- A number that fits its bytes comes back from them. -/
theorem leValue_leBytes (n v : Nat) (h : v < 256 ^ n) : leValue (leBytes n v) = v := by
  induction n generalizing v with
  | zero => simp [leBytes, leValue] at *; omega
  | succ n ih =>
    simp only [leBytes, leValue]
    rw [ih _ (by rw [Nat.div_lt_iff_lt_mul (by omega)]; rwa [Nat.pow_succ] at h)]
    simp [BitVec.toNat_ofNat]
    omega

/-- A field that was encoded is read back. -/
theorem blobField_round (l : List Byte) (n : Nat) (h : l.length = n) : blobField (some (base64Encode l)) n = some l := by
  simp [blobField, base64_round, h]

theorem bitOfByte_bitByte (b : Bool) : bitOfByte (bitByte b) = some b := by cases b <;> rfl

/-- The CPU comes back from its 20 bytes. -/
theorem cpu_round (c : Cpu) (h : c.cycles < 2 ^ 64) : cpuOfBytes (cpuBytes c) = some c := by
  have hle : leValue (leBytes 8 c.cycles) = c.cycles := leValue_leBytes 8 _ (by norm_num at h ⊢; exact h)
  have hb : cpuBytes c = [c.a, c.x, c.y, c.sp, loByte c.pc, hiByte c.pc, statusByte false c, bitByte c.nmiPending,
    bitByte c.irqLines.mapper ||| (bitByte c.irqLines.external <<< 1), bitByte c.paused] ++
    leBytes 8 c.cycles ++ [0, 0] := rfl
  have h18 : (cpuBytes c).drop 18 = [0, 0] := by
    rw [hb]; exact List.drop_left' (by simp [length_leBytes])
  have h10 : ((cpuBytes c).drop 10).take 8 = leBytes 8 c.cycles := by
    rw [hb, List.append_assoc, List.drop_left' (by rfl)]; exact List.take_left' (by simp [length_leBytes])
  unfold cpuOfBytes
  dsimp only
  rw [h18, h10, hle]
  simp only [hb, List.cons_append, List.getD_cons_zero, List.getD_cons_succ, bitOfByte_bitByte]
  have hl : below 4 (bitByte c.irqLines.mapper ||| (bitByte c.irqLines.external <<< 1)).toNat = some ((if c.irqLines.mapper then 1 else 0) + (if c.irqLines.external then 2 else 0)) := by
    cases c.irqLines.mapper <;> cases c.irqLines.external <;> rfl
  rw [hl]
  simp only [Option.bind_eq_bind, Option.bind_some, if_true]
  congr 1
  rcases c with ⟨a, x, y, sp, pc, n, v, d, i, z, cc, nmi, ⟨lm, le⟩, cy, pa⟩
  have hpc : wordOf (hiByte pc) (loByte pc) = pc := by
    exact wordOf_hiByte_loByte pc
  have h2 : ∀ lm le : Bool, ((if lm then 1 else 0) + if le then 2 else 0 : Nat).testBit 0 = lm ∧ ((if lm then 1 else 0) + if le then 2 else 0 : Nat).testBit 1 = le := by decide
  obtain ⟨e1, e2, e3, e4, e5, e6⟩ := statusByte_bits false ⟨a, x, y, sp, pc, n, v, d, i, z, cc, nmi, ⟨lm, le⟩, cy, pa⟩
  simp only [setStatus, hpc, e1, e2, e3, e4, e5, e6, (h2 lm le).1, (h2 lm le).2]

/-- The stored fields of the PPU come back from their 24 bytes. -/
theorem ppu_round (p q : Ppu) (hl : p.liveLine ≤ 240) (hd : p.dots < 2 ^ 64) (hf : p.frame < 2 ^ 32) : ppuOfBytes (ppuBytes p) q = some { q with
    ctrl := p.ctrl, mask := p.mask, vblank := p.vblank, hit := p.hit, oamAddr := p.oamAddr, v := p.v, t := p.t, x := p.x, w := p.w, readBuf := p.readBuf
    liveLine := p.liveLine, dots := p.dots, frame := p.frame } := by
  have hv : leValue (leBytes 2 p.v.toNat) = p.v.toNat := leValue_leBytes 2 _ (by have := p.v.isLt; omega)
  have ht : leValue (leBytes 2 p.t.toNat) = p.t.toNat := leValue_leBytes 2 _ (by have := p.t.isLt; omega)
  have hdd : leValue (leBytes 8 p.dots) = p.dots := leValue_leBytes 8 _ (by norm_num at hd ⊢; exact hd)
  have hff : leValue (leBytes 4 p.frame) = p.frame := leValue_leBytes 4 _ (by norm_num at hf ⊢; exact hf)
  have a1 : ((ppuBytes p).drop 4).take 2 = leBytes 2 p.v.toNat := rfl
  have a2 : ((ppuBytes p).drop 6).take 2 = leBytes 2 p.t.toNat := rfl
  have a3 : ((ppuBytes p).drop 12).take 8 = leBytes 8 p.dots := rfl
  have a4 : ((ppuBytes p).drop 20).take 4 = leBytes 4 p.frame := rfl
  have b0 : (ppuBytes p).getD 0 0 = p.ctrl := rfl
  have b1 : (ppuBytes p).getD 1 0 = p.mask := rfl
  have b2 : (ppuBytes p).getD 2 0 = p.statusByte := rfl
  have b3 : (ppuBytes p).getD 3 0 = p.oamAddr := rfl
  have b8 : (ppuBytes p).getD 8 0 = p.x.setWidth 8 := rfl
  have b9 : (ppuBytes p).getD 9 0 = bitByte p.w := rfl
  have b10 : (ppuBytes p).getD 10 0 = p.readBuf := rfl
  have b11 : (ppuBytes p).getD 11 0 = BitVec.ofNat 8 p.liveLine := rfl
  unfold ppuOfBytes
  dsimp only
  simp only [a1, a2, a3, a4, b0, b1, b2, b3, b8, b9, b10, b11, hv, ht, hdd, hff, bitOfByte_bitByte]
  have c1 : below (2 ^ 15) p.v.toNat = some p.v.toNat := if_pos p.v.isLt
  have c2 : below (2 ^ 15) p.t.toNat = some p.t.toNat := if_pos p.t.isLt
  have hx : (p.x.setWidth 8).toNat = p.x.toNat := by
    rw [BitVec.toNat_setWidth]; exact Nat.mod_eq_of_lt (by have := p.x.isLt; omega)
  have c3 : below 8 (p.x.setWidth 8).toNat = some p.x.toNat := by rw [hx]; exact if_pos p.x.isLt
  have hll : (BitVec.ofNat 8 p.liveLine).toNat = p.liveLine := by
    rw [BitVec.toNat_ofNat]; omega
  have c4 : below 241 (BitVec.ofNat 8 p.liveLine).toNat = some p.liveLine := by rw [hll]; exact if_pos (by omega)
  have hst : p.statusByte &&& 0x3F = 0 ∧ p.statusByte.getLsbD 7 = p.vblank ∧ p.statusByte.getLsbD 6 = p.hit := by
    unfold Ppu.statusByte
    cases p.vblank <;> cases p.hit <;> decide
  rw [c1, c2, c3, c4, hst.2.1, hst.2.2]
  simp only [Option.bind_eq_bind, Option.bind_some, hst.1, if_true, BitVec.ofNat_toNat, BitVec.setWidth_eq]

/-- The registers of a variant come back from their bytes. -/
theorem regs_round (r old : MapperRegs) (v : Variant) (h : r.okFor v) (ho : old.okFor v) : old.size = r.bytes.length ∧ old.ofBytes r.bytes = some r := by
  have f5 : ∀ b : BitVec 5, fiveBits (b.setWidth 8) = some b := by decide +kernel
  cases v <;> cases r <;> simp only [MapperRegs.okFor] at h <;> cases old <;> simp only [MapperRegs.okFor] at ho
  · exact ⟨rfl, rfl⟩
  · rename_i r old
    refine ⟨rfl, ?_⟩
    simp only [MapperRegs.ofBytes, MapperRegs.bytes, List.getD_cons_zero, List.getD_cons_succ, f5, Option.bind_eq_bind, Option.bind_some, if_neg h]
  · exact ⟨rfl, rfl⟩
  · exact ⟨rfl, rfl⟩
  · rename_i r old
    have hr : r.r = #v[r.r[0], r.r[1], r.r[2], r.r[3], r.r[4], r.r[5], r.r[6], r.r[7]] := by
      ext i hi; interval_cases i <;> rfl
    obtain ⟨bs, rr, la, co, re, en⟩ := r
    dsimp only at hr
    generalize rr[0] = x0, rr[1] = x1, rr[2] = x2, rr[3] = x3, rr[4] = x4, rr[5] = x5, rr[6] = x6, rr[7] = x7 at hr
    subst hr
    refine ⟨?_, ?_⟩
    · simp [MapperRegs.size, MapperRegs.bytes]
    · simp [MapperRegs.ofBytes, MapperRegs.bytes, bitOfByte_bitByte]
  · exact ⟨rfl, rfl⟩

/-- Four offsets come back from their 16 bytes. -/
theorem offsets4 (v : Vector Nat 4) (h : ∀ j : Fin 4, v.get j < 2 ^ 32) : (v.toList.flatMap (leBytes 4)).length = 16 ∧ (Vector.ofFn fun i : Fin 4 => offsetAt (v.toList.flatMap (leBytes 4)) i.1) = v := by
  have hv : v = #v[v[0], v[1], v[2], v[3]] := by
    ext i hi; interval_cases i <;> rfl
  have h0 := h 0; have h1 := h 1; have h2 := h 2; have h3 := h 3
  change v[0] < _ at h0; change v[1] < _ at h1; change v[2] < _ at h2; change v[3] < _ at h3
  generalize v[0] = x0, v[1] = x1, v[2] = x2, v[3] = x3 at hv h0 h1 h2 h3
  subst hv
  refine ⟨rfl, ?_⟩
  ext i hi
  rw [Vector.getElem_ofFn]
  have key : ∀ x, x < 2 ^ 32 → leValue (leBytes 4 x) = x := fun x hx => leValue_leBytes 4 x (by norm_num at hx ⊢; exact hx)
  interval_cases i
  · exact key _ h0
  · exact key _ h1
  · exact key _ h2
  · exact key _ h3

/-- Eight offsets come back from their 32 bytes. -/
theorem offsets8 (v : Vector Nat 8) (h : ∀ j : Fin 8, v.get j < 2 ^ 32) : (v.toList.flatMap (leBytes 4)).length = 32 ∧ (Vector.ofFn fun i : Fin 8 => offsetAt (v.toList.flatMap (leBytes 4)) i.1) = v := by
  have hv : v = #v[v[0], v[1], v[2], v[3], v[4], v[5], v[6], v[7]] := by
    ext i hi; interval_cases i <;> rfl
  have h0 := h 0; have h1 := h 1; have h2 := h 2; have h3 := h 3
  have h4 := h 4; have h5 := h 5; have h6 := h 6; have h7 := h 7
  change v[0] < _ at h0; change v[1] < _ at h1; change v[2] < _ at h2; change v[3] < _ at h3
  change v[4] < _ at h4; change v[5] < _ at h5; change v[6] < _ at h6; change v[7] < _ at h7
  generalize v[0] = x0, v[1] = x1, v[2] = x2, v[3] = x3, v[4] = x4, v[5] = x5, v[6] = x6, v[7] = x7 at hv h0 h1 h2 h3 h4 h5 h6 h7
  subst hv
  refine ⟨rfl, ?_⟩
  ext i hi
  rw [Vector.getElem_ofFn]
  have key : ∀ x, x < 2 ^ 32 → leValue (leBytes 4 x) = x := fun x hx => leValue_leBytes 4 x (by norm_num at hx ⊢; exact hx)
  interval_cases i
  · exact key _ h0
  · exact key _ h1
  · exact key _ h2
  · exact key _ h3
  · exact key _ h4
  · exact key _ h5
  · exact key _ h6
  · exact key _ h7

theorem get_all4 {p : Nat → Bool} (v : Vector Nat 4) (h : ∀ j : Fin 4, p (v.get j) = true) : v.toList.all p = true := by
  rw [List.all_eq_true]
  intro x hx
  obtain ⟨i, hi, rfl⟩ := List.mem_iff_getElem.1 hx
  rw [Vector.length_toList] at hi
  exact h ⟨i, hi⟩

theorem get_all8 {p : Nat → Bool} (v : Vector Nat 8) (h : ∀ j : Fin 8, p (v.get j) = true) : v.toList.all p = true := by
  rw [List.all_eq_true]
  intro x hx
  obtain ⟨i, hi, rfl⟩ := List.mem_iff_getElem.1 hx
  rw [Vector.length_toList] at hi
  exact h ⟨i, hi⟩

/-- The mapper binding comes back from its bytes. -/
theorem mapper_round (c : Cart) (m old : Mapper) (mode : Mirroring) (h : m.regs.okFor c.variant) (ho : old.regs.okFor c.variant)
    (hp : ∀ j : Fin 4, c.prgOffOk (m.prgOff.get j)) (hc : ∀ j : Fin 8, c.chrOffOk (m.chrOff.get j)) (hb : c.nPrg < 256) (hm : m.mirroring = mode) :
    (mapperBytes m).length = old.regs.size + 49 ∧ mapperOfBytes c old mode (mapperBytes m) = some m := by
  obtain ⟨r1, r2⟩ := regs_round m.regs old.regs c.variant h ho
  obtain ⟨p1, p2⟩ := offsets4 m.prgOff (fun j => by have := (hp j).2; unfold Cart.prgSize at this; omega)
  obtain ⟨c1, c2⟩ := offsets8 m.chrOff (fun j => (hc j).2)
  have hb : mapperBytes m = m.regs.bytes ++ (m.prgOff.toList.flatMap (leBytes 4) ++ (m.chrOff.toList.flatMap (leBytes 4) ++ [bitByte m.irq])) := by
    simp only [mapperBytes, List.append_assoc]
  have t1 : (mapperBytes m).take old.regs.size = m.regs.bytes := by
    rw [hb]; exact List.take_left' r1.symm
  have d1 : (mapperBytes m).drop old.regs.size = m.prgOff.toList.flatMap (leBytes 4) ++ (m.chrOff.toList.flatMap (leBytes 4) ++ [bitByte m.irq]) := by
    rw [hb]; exact List.drop_left' r1.symm
  have d2 : (mapperBytes m).drop (old.regs.size + 16) = m.chrOff.toList.flatMap (leBytes 4) ++ [bitByte m.irq] := by
    rw [← List.drop_drop, d1]; exact List.drop_left' p1
  have d3 : (mapperBytes m).drop (old.regs.size + 48) = [bitByte m.irq] := by
    rw [show old.regs.size + 48 = old.regs.size + 16 + 32 by omega, ← List.drop_drop, d2]; exact List.drop_left' c1
  have g3 : (mapperBytes m).getD (old.regs.size + 48) 0 = bitByte m.irq := by
    have := congrArg (fun l => l.getD 0 (0 : Byte)) d3
    simp only [List.getD, List.getElem?_drop, Nat.add_zero] at this ⊢
    rw [this]; rfl
  refine ⟨by rw [hb]; simp only [List.length_append, p1, c1, r1, List.length_cons, List.length_nil], ?_⟩
  unfold mapperOfBytes
  dsimp only
  rw [t1, d1, d2, g3, r2, List.take_left' p1, List.take_left' c1, p2, c2, bitOfByte_bitByte]
  simp only [Option.bind_eq_bind, Option.bind_some]
  rw [get_all4 m.prgOff (fun j => by simp [prgOffsetOk, (hp j).1, (hp j).2]), get_all8 m.chrOff (fun j => by
    have := (hc j).1
    cases hr : c.hasChrRom
    · simp [chrOffsetOk, hr]
    · simp [chrOffsetOk, hr, (this hr).1, (this hr).2])]
  subst hm
  rfl

theorem ofValue_value (m : Mirroring) : Mirroring.ofValue m.value = some m := by cases m <;> rfl

/-- The fields of the 30 bytes of the io field. -/
theorem io_round (s : State) : (ioBytes s).length = 30 ∧ (ioBytes s).getD 0 0 = s.pad.port1.buttons ∧ (ioBytes s).getD 1 0 = s.pad.port1.shift ∧
    (ioBytes s).getD 2 0 = s.pad.port2.buttons ∧ (ioBytes s).getD 3 0 = s.pad.port2.shift ∧ (ioBytes s).getD 4 0 = bitByte s.pad.strobe ∧
    (ioBytes s).getD 5 0 = s.bus.lastRead ∧ (ioBytes s).drop 6 = Memory.toList s.apuReg 0 Config.apuRegs :=
  ⟨by simp [ioBytes, Config.apuRegs], rfl, rfl, rfl, rfl, rfl, rfl, rfl⟩

/-- Reading a memory whose cells below `n` are kept and whose cells from `n` on are given by a list. -/
theorem Memory.read_kept (m : Memory) (n : Nat) (l : List Byte) (k : Nat) : Memory.read (m.filter (fun c => c.1 < n) ++ Memory.ofList n l) k =
    if k < n then Memory.read m k else l.getD (k - n) 0 := by
  induction m with
  | nil =>
    rw [List.filter_nil, List.nil_append, Memory.read_ofList]
    by_cases h : k < n
    · rw [if_neg (by omega), if_pos h]; rfl
    · rw [if_pos (by omega), if_neg h]
  | cons c rest ih =>
    obtain ⟨j, b⟩ := c
    rw [List.filter_cons]
    by_cases hj : j < n
    · rw [if_pos (by simpa using hj)]
      simp only [List.cons_append, Memory.read]
      by_cases hk : k = j
      · subst hk; rw [if_pos rfl, if_pos rfl, if_pos hj]
      · rw [if_neg hk, if_neg hk, ih]
    · rw [if_neg (by simpa using hj), ih]
      by_cases hk : k < n
      · rw [if_pos hk, if_pos hk, Memory.read, if_neg (by omega)]
      · rw [if_neg hk, if_neg hk]

/-- A cell outside a memory reads as 0. -/
theorem Memory.read_outside {size : Nat} {m : Memory} (h : Memory.Ok size m) {k : Nat} (hk : size ≤ k) : Memory.read m k = 0 := by
  have hall := Memory.within_iff.1 h.inside
  clear h
  induction m with
  | nil => rfl
  | cons c rest ih =>
    obtain ⟨j, b⟩ := c
    have hj : j < size := hall (j, b) (by simp)
    rw [Memory.read, if_neg (by omega)]
    exact ih fun c hc => hall c (by simp [hc])

end Sys2Proof.Machine
end

