-- ==== Sys2Proof/Laws/Scroll.lean ====
section
/-! SUPPORT. The writes into `v` and `t` as masks, and the vertical increment by rows. -/

namespace Sys2Proof.Machine

/-- Nametable bits from $2000. -/
theorem Loopy.setNametable_eq (u : Loopy) (d : Byte) : Loopy.setNametable u (d.setWidth 2) = u &&& 0x73FF#15 ||| ((d.setWidth 15 : Loopy) &&& 3#15) <<< 10 := by
  apply BitVec.eq_of_getLsbD_eq
  intro i hi
  simp only [Loopy.setNametable, Loopy.ofFields, Loopy.fy, Loopy.cy, Loopy.cx, BitVec.getLsbD_append, BitVec.getLsbD_extractLsb', BitVec.getLsbD_or, BitVec.getLsbD_and, BitVec.getLsbD_shiftLeft, BitVec.getLsbD_setWidth]
  interval_cases i <;> simp

/-- The first write of $2005. -/
theorem Loopy.setCx_eq (u : Loopy) (d : Byte) : Loopy.setCx u (d.extractLsb' 3 5) = u &&& 0x7FE0#15 ||| (d.setWidth 15 : Loopy) >>> 3 := by
  apply BitVec.eq_of_getLsbD_eq
  intro i hi
  simp only [Loopy.setCx, Loopy.ofFields, Loopy.fy, Loopy.cy, Loopy.cx, Loopy.nx, Loopy.ny, BitVec.getLsbD_append, BitVec.getLsbD_extractLsb', BitVec.getLsbD_or, BitVec.getLsbD_and, BitVec.getLsbD_ushiftRight, BitVec.getLsbD_setWidth]
  interval_cases i <;> simp

/-- The second write of $2005. -/
theorem Loopy.setFyCy_eq (u : Loopy) (d : Byte) : Loopy.setCy (Loopy.setFy u (d.setWidth 3)) (d.extractLsb' 3 5) = u &&& 0x0C1F#15 ||| ((d.setWidth 15 : Loopy) &&& 7#15) <<< 12 ||| ((d.setWidth 15 : Loopy) &&& 0xF8#15) <<< 2 := by
  apply BitVec.eq_of_getLsbD_eq
  intro i hi
  simp only [Loopy.setCy, Loopy.setFy, Loopy.ofFields, Loopy.fy, Loopy.cy, Loopy.cx, Loopy.nx, Loopy.ny, BitVec.getLsbD_append, BitVec.getLsbD_extractLsb', BitVec.getLsbD_or, BitVec.getLsbD_and, BitVec.getLsbD_shiftLeft, BitVec.getLsbD_setWidth]
  interval_cases i <;> simp

/-- The first write of $2006. -/
theorem Loopy.setHigh_eq (u : Loopy) (d : Byte) : Loopy.setHigh u (d.setWidth 6) = u &&& 0x00FF#15 ||| ((d.setWidth 15 : Loopy) &&& 0x3F#15) <<< 8 := by
  apply BitVec.eq_of_getLsbD_eq
  intro i hi
  simp only [Loopy.setHigh, BitVec.getLsbD_append, BitVec.getLsbD_extractLsb', BitVec.getLsbD_or, BitVec.getLsbD_and, BitVec.getLsbD_shiftLeft, BitVec.getLsbD_setWidth]
  interval_cases i <;> simp

/-- The second write of $2006. -/
theorem Loopy.setLow_eq (u : Loopy) (d : Byte) : Loopy.setLow u d = u &&& 0x7F00#15 ||| (d.setWidth 15 : Loopy) := by
  apply BitVec.eq_of_getLsbD_eq
  intro i hi
  simp only [Loopy.setLow, BitVec.getLsbD_append, BitVec.getLsbD_extractLsb', BitVec.getLsbD_or, BitVec.getLsbD_and, BitVec.getLsbD_shiftLeft, BitVec.getLsbD_setWidth]
  interval_cases i <;> simp

/-- The horizontal copy. -/
theorem Loopy.copyHorizontal_eq (u t : Loopy) : Loopy.copyHorizontal u t = u &&& 0x7BE0#15 ||| t &&& 0x041F#15 := by
  apply BitVec.eq_of_getLsbD_eq
  intro i hi
  simp only [Loopy.copyHorizontal, Loopy.ofFields, Loopy.fy, Loopy.cy, Loopy.cx, Loopy.nx, Loopy.ny, BitVec.getLsbD_append, BitVec.getLsbD_extractLsb', BitVec.getLsbD_or, BitVec.getLsbD_and, BitVec.getLsbD_shiftLeft, BitVec.getLsbD_setWidth]
  interval_cases i <;> simp

/-- The value of a SCROLL event. -/
theorem scrollValue_eq (v : Loopy) (x : BitVec 3) : scrollValue v x = v.setWidth 18 ||| x.setWidth 18 <<< 15 := by
  apply BitVec.eq_of_getLsbD_eq
  intro i hi
  simp only [scrollValue, BitVec.getLsbD_append, BitVec.getLsbD_extractLsb', BitVec.getLsbD_or, BitVec.getLsbD_and, BitVec.getLsbD_shiftLeft, BitVec.getLsbD_setWidth]
  interval_cases i <;> simp

theorem inFrame_iff (p : Ppu) : p.inFrame = true ↔ (p.mask.getLsbD 3 ∨ p.mask.getLsbD 4) ∧ (p.line ≤ 239 ∨ p.line = 261) := by
  simp [Ppu.inFrame, Ppu.rendering, maskRendering]

/-- The four cases of the vertical increment, in numbers (52_ppu_registers.md R384). -/
theorem Loopy.incY_rows (u : Loopy) :
    (u.toNat / 0x1000 < 7 → (Loopy.incY u).toNat = u.toNat + 0x1000) ∧
    (u.toNat / 0x1000 = 7 → u.toNat / 32 % 32 = 29 → Loopy.incY u = (u ^^^ 0x0800#15) &&& 0x0C1F#15) ∧
    (u.toNat / 0x1000 = 7 → u.toNat / 32 % 32 = 31 → Loopy.incY u = u &&& 0x0C1F#15) ∧
    (u.toNat / 0x1000 = 7 → u.toNat / 32 % 32 ≠ 29 → u.toNat / 32 % 32 ≠ 31 → (Loopy.incY u).toNat + 0x7000 = u.toNat + 32) := by
  have hfy := Loopy.toNat_fy (u := u)
  have hcy := Loopy.toNat_cy (u := u)
  have hny := Loopy.toNat_ny (u := u)
  have hnx := Loopy.toNat_nx (u := u)
  have hcx := Loopy.toNat_cx (u := u)
  have hu := u.isLt
  have lt7 : Loopy.fy u < 7 ↔ u.toNat / 0x1000 < 7 := by rw [BitVec.lt_def, hfy]; rfl
  have is29 : Loopy.cy u = 29 ↔ u.toNat / 32 % 32 = 29 := by rw [← BitVec.toNat_inj, hcy]; rfl
  have is31 : Loopy.cy u = 31 ↔ u.toNat / 32 % 32 = 31 := by rw [← BitVec.toNat_inj, hcy]; rfl
  unfold Loopy.incY
  refine ⟨fun h => ?_, fun h h29 => ?_, fun h h31 => ?_, fun h h29 h31 => ?_⟩
  · rw [if_pos (lt7.2 h)]
    have : (Loopy.fy u + 1).toNat = u.toNat / 0x1000 + 1 := by rw [BitVec.toNat_add, hfy]; simp; omega
    unfold Loopy.setFy
    rw [Loopy.toNat_ofFields, this, hny, hnx, hcy, hcx]
    omega
  · rw [if_neg (fun k => by have := lt7.1 k; omega), if_pos (is29.2 h29)]
    apply BitVec.eq_of_getLsbD_eq
    intro i hi
    simp only [Loopy.ofFields, Loopy.cx, Loopy.nx, Loopy.ny, BitVec.getLsbD_append, BitVec.getLsbD_extractLsb', BitVec.getLsbD_and,
      BitVec.getLsbD_xor]
    interval_cases i <;> simp
  · rw [if_neg (fun k => by have := lt7.1 k; omega), if_neg (fun k => by have := is29.1 k; omega), if_pos (is31.2 h31)]
    apply BitVec.eq_of_getLsbD_eq
    intro i hi
    simp only [Loopy.ofFields, Loopy.cx, Loopy.nx, Loopy.ny, BitVec.getLsbD_append, BitVec.getLsbD_extractLsb', BitVec.getLsbD_and]
    interval_cases i <;> simp
  · rw [if_neg (fun k => by have := lt7.1 k; omega), if_neg (fun k => h29 (is29.1 k)), if_neg (fun k => h31 (is31.1 k))]
    have : (Loopy.cy u + 1).toNat = u.toNat / 32 % 32 + 1 := by rw [BitVec.toNat_add, hcy]; simp; omega
    rw [Loopy.toNat_ofFields, this, hny, hnx, hcx, show ((0 : BitVec 3).toNat) = 0 from rfl]
    omega

/-- The row of the 240 of a nametable at which `u` stands. -/
def Loopy.row (u : Loopy) : Nat := 8 * (Loopy.cy u).toNat + (Loopy.fy u).toNat

theorem Loopy.ofFields_fields (f : BitVec 3) (n m : BitVec 1) (c d : BitVec 5) : Loopy.fy (Loopy.ofFields f n m c d) = f ∧ Loopy.ny (Loopy.ofFields f n m c d) = n ∧ Loopy.nx (Loopy.ofFields f n m c d) = m ∧ Loopy.cy (Loopy.ofFields f n m c d) = c ∧ Loopy.cx (Loopy.ofFields f n m c d) = d := by
  refine ⟨?_, ?_, ?_, ?_, ?_⟩ <;> apply BitVec.eq_of_getLsbD_eq <;> intro i hi <;>
  simp only [Loopy.ofFields, Loopy.fy, Loopy.cy, Loopy.cx, Loopy.nx, Loopy.ny, BitVec.getLsbD_append, BitVec.getLsbD_extractLsb'] <;> interval_cases i <;> simp

/-- the loopy value at row p of table n -/
def Loopy.atRow (p : Nat) (n m : BitVec 1) (d : BitVec 5) : Loopy := Loopy.ofFields (BitVec.ofNat 3 (p % 8)) n m (BitVec.ofNat 5 (p / 8)) d

/-- The vertical increment moves one row down, and from the last row to the first of the table below. -/
theorem Loopy.incY_atRow (p : Nat) (hp : p < 240) (n m : BitVec 1) (d : BitVec 5) : Loopy.incY (Loopy.atRow p n m d) = if p = 239 then Loopy.atRow 0 (n ^^^ 1) m d else Loopy.atRow (p + 1) n m d := by
  unfold Loopy.atRow Loopy.incY
  obtain ⟨e1, e2, e3, e4, e5⟩ := Loopy.ofFields_fields (BitVec.ofNat 3 (p % 8)) n m (BitVec.ofNat 5 (p / 8)) d
  simp only [Loopy.setFy, e1, e2, e3, e4, e5]
  by_cases h7 : p % 8 = 7
  · rw [if_neg (by rw [h7]; decide)]
    by_cases h29 : p / 8 = 29
    · rw [if_pos (by rw [h29]; rfl), if_pos (by omega)]; rfl
    · have : BitVec.ofNat 5 (p / 8) ≠ 29 := by
        intro h
        have := congrArg BitVec.toNat h
        simp at this; omega
      rw [if_neg this, if_neg, if_neg (by omega)]
      · have a1 : (p + 1) % 8 = 0 := by omega
        have a2 : (p + 1) / 8 = p / 8 + 1 := by omega
        rw [a1, a2, BitVec.ofNat_add]; rfl
      · intro h
        have := congrArg BitVec.toNat h
        simp at this; omega
  · have hlt : BitVec.ofNat 3 (p % 8) < 7 := by
      rw [BitVec.lt_def]; simp; omega
    rw [if_pos hlt, if_neg (by omega)]
    have a1 : (p + 1) % 8 = p % 8 + 1 := by omega
    have a2 : (p + 1) / 8 = p / 8 := by omega
    rw [a1, a2, BitVec.ofNat_add]; rfl

theorem Loopy.incY_iter_atRow (k p : Nat) (hp : p + k < 240) (n m : BitVec 1) (d : BitVec 5) : Loopy.incY^[k] (Loopy.atRow p n m d) = Loopy.atRow (p + k) n m d := by
  induction k with
  | zero => rfl
  | succ k ih =>
    rw [Function.iterate_succ_apply', ih (by omega), Loopy.incY_atRow _ (by omega), if_neg (by omega)]
    rfl

end Sys2Proof.Machine
end

