-- ==== Sys2Proof/Tests/Slice0.lean ====
section
/-! SUPPORT. Named tests: the checks of WellFormed, words decoded by the spec's encoding, single steps with the results of the
spec's own vectors (95_test_vectors.md), and for each obligation with hypotheses a concrete state that meets them. -/

set_option Elab.async false

namespace Sys2Proof.Tests
open Sys2Proof Sys2Proof.Machine

/-! ## WellFormed: an ill-formed term for each check is refused -/

theorem test_illFormed_loads : ¬ WellFormed (.lda (.mem (.zpy 0))) ∧ ¬ WellFormed (.ldx (.mem (.zpx 0))) ∧
    ¬ WellFormed (.ldy (.mem (.absy 0))) := by decide
theorem test_illFormed_stores : ¬ WellFormed (.sta (.zpy 0)) ∧ ¬ WellFormed (.stx (.zpx 0)) ∧ ¬ WellFormed (.sty (.zpy 0)) := by decide
theorem test_illFormed_arith : ¬ WellFormed (.adc (.mem (.zpy 0))) ∧ ¬ WellFormed (.sbc (.mem (.zpy 0))) ∧
    ¬ WellFormed (.and (.mem (.zpy 0))) ∧ ¬ WellFormed (.ora (.mem (.zpy 0))) ∧ ¬ WellFormed (.eor (.mem (.zpy 0))) ∧
    ¬ WellFormed (.cmp (.mem (.zpy 0))) := by decide
theorem test_illFormed_bit : ¬ WellFormed (.bit (.zpx 0)) ∧ ¬ WellFormed (.cpx (.mem (.zpx 0))) ∧ ¬ WellFormed (.cpy (.mem (.absx 0))) := by
  decide
theorem test_illFormed_modify : ¬ WellFormed (.inc (.absy 0)) ∧ ¬ WellFormed (.dec (.indx 0)) ∧ ¬ WellFormed (.asl (.mem (.zpy 0))) ∧
    ¬ WellFormed (.lsr (.mem (.absy 0))) ∧ ¬ WellFormed (.rol (.mem (.indy 0))) ∧ ¬ WellFormed (.ror (.mem (.indx 0))) := by decide

/-! ## Decoding: words from the map of 30_encoding.md R115 -/

/-- loads and stores: 10101001 oooooooo; 10011101 llllllll hhhhhhhh -/
theorem test_decode_loads : decode [0xA9, 0x7F] = .ok (.lda (.imm 0x7F), []) ∧
    decode [0x9D, 0xFF, 0x02] = .ok (.sta (.absx 0x02FF), []) ∧ decode [0xB6, 0x10] = .ok (.ldx (.mem (.zpy 0x10)), []) := by decide
/-- transfers: 10101010; 10011010 -/
theorem test_decode_transfers : decode [0xAA] = .ok (.tax, []) ∧ decode [0x9A] = .ok (.txs, []) ∧ decode [0xBA] = .ok (.tsx, []) := by decide
/-- arithmetic: 01100001 oooooooo; 11111001 llllllll hhhhhhhh -/
theorem test_decode_arith : decode [0x61, 0x20] = .ok (.adc (.mem (.indx 0x20)), []) ∧
    decode [0xF9, 0x34, 0x12] = .ok (.sbc (.mem (.absy 0x1234)), []) ∧ decode [0x2C, 0x02, 0x20] = .ok (.bit (.abs 0x2002), []) := by decide
/-- shifts: 01001010; 01111110 llllllll hhhhhhhh -/
theorem test_decode_shifts : decode [0x4A] = .ok (.lsr .acc, []) ∧ decode [0x7E, 0xFF, 0x02] = .ok (.ror (.mem (.absx 0x02FF)), []) := by decide
/-- control transfer: 01101100 llllllll hhhhhhhh; 11010000 oooooooo; 00000000 -/
theorem test_decode_control : decode [0x6C, 0xFF, 0x02] = .ok (.jmp (.ind 0x02FF), []) ∧ decode [0xF0, 0x00] = .ok (.beq 0x00, []) ∧
    decode [0x20, 0x00, 0x90] = .ok (.jsr 0x9000, []) ∧ decode [0x40] = .ok (.rti, []) := by decide
/-- stack and flags: 01001000; 01111000 -/
theorem test_decode_stack : decode [0x48] = .ok (.pha, []) ∧ decode [0x78] = .ok (.sei, []) ∧ decode [0xEA] = .ok (.nop, []) := by decide
/-- undefined opcodes: 00000010; 10000000 oooooooo; 10011110 llllllll hhhhhhhh (95_test_vectors.md L2.1) -/
theorem test_decode_undefined : decode [0x02] = .ok (.und02, []) ∧ decode [0x80, 0x55] = .ok (.und80 0x55, []) ∧
    decode [0x9E, 0x00, 0x02] = .ok (.und9E 0x0200, []) := by decide
/-- the bits of a table word, the first byte lowest -/
theorem test_decodeTableWord : decodeTableWord 24 0x02FF6C = some (.jmp (.ind 0x02FF)) ∧ decodeTableWord 8 0x6C = some (.jmp (.ind 0)) ∧
    decodeTableWord 16 0x7FA9 = some (.lda (.imm 0x7F)) := by decide

/-! ## Single instructions, with the results of 95_test_vectors.md L2.2-L2.11 -/

/-- The state after reset with other registers and work RAM. -/
def start (f : Cpu → Cpu) (ram : Memory) : State := { State.reset with cpu := f State.reset.cpu, ram := ram }

/-- The run goes on to a state with the property. -/
def ends (r : Result) (p : State → Bool) : Bool :=
  match r with
  | .next t => p t
  | .fault _ => false
  | .refused _ => false

def flags (c : Cpu) : Bool × Bool × Bool × Bool := (c.n, c.v, c.z, c.c)

/-- L2.2: the index wraps in page 0 -/
theorem test_lda_zpx : ends (exec (.lda (.mem (.zpx 0xF0))) (start (fun c => { c with x := 0x20 }) [(0x10, 0x33)]))
    (fun t => t.cpu.a = 0x33 ∧ t.cpu.cycles = 4) = true := by decide +kernel
/-- L2.2: the pointer's high byte comes from $0000 -/
theorem test_lda_indx : ends (exec (.lda (.mem (.indx 0xFF))) (start id [(0x00, 0x03), (0x300, 0x5A)]))
    (fun t => t.cpu.a = 0x5A ∧ t.cpu.cycles = 6) = true := by decide +kernel
/-- L2.2: the sum crosses a page -/
theorem test_lda_indy : ends (exec (.lda (.mem (.indy 0x20))) (start (fun c => { c with y := 1 }) [(0x20, 0xFF), (0x21, 0x02), (0x300, 0x44)]))
    (fun t => t.cpu.a = 0x44 ∧ t.cpu.cycles = 6) = true := by decide +kernel
/-- L2.2: the address wraps to $0000, which counts as a crossing -/
theorem test_lda_absy_wrap : ends (exec (.lda (.mem (.absy 0xFFFF))) (start (fun c => { c with y := 1 }) [(0, 0x80)]))
    (fun t => t.cpu.a = 0x80 ∧ t.cpu.n ∧ t.cpu.cycles = 5) = true := by decide +kernel
/-- L2.2: a store pays no penalty -/
theorem test_sta_absx : ends (exec (.sta (.absx 0x02FF)) (start (fun c => { c with a := 0x42, x := 1 }) []))
    (fun t => t.ram = [(0x300, 0x42)] ∧ t.cpu.cycles = 5) = true := by decide +kernel
/-- L2.2: STX indexes by Y in page 0 -/
theorem test_stx_zpy : ends (exec (.stx (.zpy 0x10)) (start (fun c => { c with x := 7, y := 0xF5 }) []))
    (fun t => t.ram = [(5, 7)] ∧ t.cpu.cycles = 4) = true := by decide +kernel
/-- L2.3: TXS writes no flag -/
theorem test_txs : ends (exec .txs (start (fun c => { c with n := true }) []))
    (fun t => t.cpu.sp = 0 ∧ t.cpu.n ∧ ¬ t.cpu.z) = true := by decide +kernel
theorem test_tsx : ends (exec .tsx (start id [])) (fun t => t.cpu.x = 0xFD ∧ t.cpu.n ∧ ¬ t.cpu.z) = true := by decide +kernel
/-- L2.4 -/
theorem test_adc_overflow : ends (exec (.adc (.imm 0x50)) (start (fun c => { c with a := 0x50 }) []))
    (fun t => t.cpu.a = 0xA0 ∧ flags t.cpu = (true, true, false, false)) = true := by decide +kernel
theorem test_adc_decimal : ends (exec (.adc (.imm 0x01)) (start (fun c => { c with a := 0x09, d := true }) []))
    (fun t => t.cpu.a = 0x0A ∧ flags t.cpu = (false, false, false, false)) = true := by decide +kernel
theorem test_sbc_borrow : ends (exec (.sbc (.imm 0x00)) (start id []))
    (fun t => t.cpu.a = 0xFF ∧ flags t.cpu = (true, false, false, false)) = true := by decide +kernel
theorem test_sbc_overflow : ends (exec (.sbc (.imm 0x01)) (start (fun c => { c with a := 0x80, c := true }) []))
    (fun t => t.cpu.a = 0x7F ∧ flags t.cpu = (false, true, false, true)) = true := by decide +kernel
theorem test_bit : ends (exec (.bit (.zp 0x10)) (start (fun c => { c with a := 1 }) [(0x10, 0xC0)]))
    (fun t => t.cpu.a = 1 ∧ flags t.cpu = (true, true, true, false) ∧ t.cpu.cycles = 3) = true := by decide +kernel
theorem test_cmp : ends (exec (.cmp (.imm 0x41)) (start (fun c => { c with a := 0x40 }) []))
    (fun t => t.cpu.a = 0x40 ∧ flags t.cpu = (true, false, false, false)) = true := by decide +kernel
theorem test_inc : ends (exec (.inc (.zp 0x10)) (start id [(0x10, 0xFF)]))
    (fun t => t.ram = [] ∧ t.cpu.z ∧ t.cpu.cycles = 5) = true := by decide +kernel
theorem test_dec : ends (exec (.dec (.zp 0x10)) (start id [(0x10, 0x01)])) (fun t => t.ram = [] ∧ t.cpu.z) = true := by decide +kernel
/-- L2.5 -/
theorem test_ror_absx : ends (exec (.ror (.mem (.absx 0x02FF))) (start (fun c => { c with x := 1, c := true }) [(0x300, 0x02)]))
    (fun t => t.ram = [(0x300, 0x81)] ∧ t.cpu.n ∧ ¬ t.cpu.c ∧ t.cpu.cycles = 7) = true := by decide +kernel
theorem test_rol_acc : ends (exec (.rol .acc) (start (fun c => { c with a := 0x40, c := true }) []))
    (fun t => t.cpu.a = 0x81 ∧ t.cpu.n ∧ ¬ t.cpu.c ∧ t.cpu.cycles = 2) = true := by decide +kernel
theorem test_asl_acc : ends (exec (.asl .acc) (start (fun c => { c with a := 0x81 }) []))
    (fun t => t.cpu.a = 0x02 ∧ t.cpu.c ∧ ¬ t.cpu.n) = true := by decide +kernel
theorem test_lsr_acc : ends (exec (.lsr .acc) (start (fun c => { c with a := 0x01 }) []))
    (fun t => t.cpu.a = 0 ∧ t.cpu.c ∧ t.cpu.z ∧ ¬ t.cpu.n) = true := by decide +kernel
/-- L2.6: PC is the address after the branch -/
theorem test_bne_page : ends (exec (.bne 0xFD) (start (fun c => { c with pc := 0x8002 }) []))
    (fun t => t.cpu.pc = 0x7FFF ∧ t.cpu.cycles = 4) = true := by decide +kernel
theorem test_bcs_not_taken : ends (exec (.bcs 0x10) (start (fun c => { c with pc := 0x8002 }) []))
    (fun t => t.cpu.pc = 0x8002 ∧ t.cpu.cycles = 2) = true := by decide +kernel
theorem test_jmp_ind : ends (exec (.jmp (.ind 0x02FF)) (start id [(0x200, 0x12), (0x2FF, 0x34), (0x300, 0x56)]))
    (fun t => t.cpu.pc = 0x1234 ∧ t.cpu.cycles = 5) = true := by decide +kernel
theorem test_jsr : ends (exec (.jsr 0x9000) (start (fun c => { c with pc := 0x8003 }) []))
    (fun t => t.ram = [(0x1FC, 0x02), (0x1FD, 0x80)] ∧ t.cpu.sp = 0xFB ∧ t.cpu.pc = 0x9000) = true := by decide +kernel
theorem test_rts : ends (exec .rts (start id [(0x1FE, 0x02), (0x1FF, 0x80)]))
    (fun t => t.cpu.pc = 0x8003 ∧ t.cpu.sp = 0xFF ∧ t.cpu.cycles = 6) = true := by decide +kernel
theorem test_rti : ends (exec .rti (start (fun c => { c with sp := 0xFA }) [(0x1FB, 0xA3), (0x1FD, 0x90)]))
    (fun t => flags t.cpu = (true, false, true, true) ∧ ¬ t.cpu.i ∧ t.cpu.pc = 0x9000 ∧ t.cpu.sp = 0xFD) = true := by decide +kernel
theorem test_brk : ends (exec .brk (start (fun c => { c with pc := 0x8001, i := false, c := true }) []))
    (fun t => t.ram = [(0x1FB, 0x31), (0x1FC, 0x02), (0x1FD, 0x80)] ∧ t.cpu.sp = 0xFA ∧ t.cpu.i ∧ t.cpu.cycles = 7) = true := by
  decide +kernel
/-- L2.7 -/
theorem test_pha_wrap : ends (exec .pha (start (fun c => { c with a := 0x11, sp := 0 }) []))
    (fun t => t.ram = [(0x100, 0x11)] ∧ t.cpu.sp = 0xFF) = true := by decide +kernel
theorem test_php : ends (exec .php (start (fun c => { c with i := false }) [])) (fun t => t.ram = [(0x1FD, 0x30)]) = true := by decide +kernel
theorem test_pla_wrap : ends (exec .pla (start (fun c => { c with sp := 0xFF }) [(0x100, 0x99)]))
    (fun t => t.cpu.a = 0x99 ∧ t.cpu.n ∧ t.cpu.sp = 0) = true := by decide +kernel
theorem test_plp : ends (exec .plp (start id [(0x1FE, 0xFF)]))
    (fun t => flags t.cpu = (true, true, true, true) ∧ t.cpu.d ∧ t.cpu.i) = true := by decide +kernel
/-- L2.8: no data access, no penalty -/
theorem test_und1C : ends (exec (.und1C 0x02FF) (start (fun c => { c with a := 0x12, x := 0x34 }) []))
    (fun t => t.cpu.a = 0x12 ∧ t.cpu.x = 0x34 ∧ t.cpu.cycles = 4 ∧ t.ram = []) = true := by decide +kernel
theorem test_und02 : ends (exec .und02 (start id [])) (fun t => t.cpu.cycles = 2) = true := by decide +kernel
/-- L2.3: the status read clears VBLANK and the toggle and keeps HIT -/
theorem test_lda_status : ends (exec (.lda (.mem (.abs 0x2002))) (State.reset.withPpu { State.reset.ppu with vblank := true, hit := true, w := true }))
    (fun t => t.cpu.a = 0xC0 ∧ ¬ t.ppu.vblank ∧ t.ppu.hit ∧ ¬ t.ppu.w) = true := by decide +kernel
/-- L2.9: the address of a mirror, and the expansion space under the policy `zero` -/
theorem test_mirror : Memory.read (match memWrite 0x0801 0x77 State.reset with | .ok t => t.ram | .error _ => []) 1 = 0x77 ∧
    (memRead 0x5000 State.reset).1 = 0 := by decide +kernel
/-- L2.11: coarse Y 29 toggles, 31 wraps without a toggle -/
theorem test_incY : Loopy.incY 0x73A0 = 0x0800 ∧ Loopy.incY 0x73E0 = 0x0000 ∧ Loopy.incY 0x7FFF = 0x0C1F ∧ Loopy.incY 0x7000 = 0x0020 := by decide
/-- L1.1: the folds of $2C05 -/
theorem test_fold : fold Mirroring.horizontal.mask 0x2C05 = 0x2405 ∧ fold Mirroring.vertical.mask 0x2C05 = 0x2405 ∧
    fold Mirroring.single0.mask 0x2C05 = 0x2005 ∧ fold Mirroring.single1.mask 0x3C05 = 0x2405 ∧ fold 0 0x3F10 = 0x3F00 ∧
    fold 0 0x3FFF = 0x3F1F := by decide

/-! ## A step after withFetchWord -/

/-- A step of the state that holds `LDA #$7F` runs it. -/
theorem test_withFetchWord : ends (step (State.reset.withFetchWord 16 0x7FA9)) (fun t => t.cpu.a = 0x7F ∧ t.cpu.pc = 0x8002 ∧ t.ppu.dots = 6) = true := by
  decide +kernel

/-! ## Witnesses: concrete states that meet the hypotheses of the obligations -/

/-- A cartridge of four 16KB PRG units and eight 8KB CHR units, all of its bytes 0. -/
def cartOf (v : Variant) : Cart where
  variant := v
  headerMode := .vertical
  nPrg := 4
  nChr := 8
  prg := []
  chr := []

/-- The machine after reset with a cartridge installed. -/
def machine (c : Cart) : State := afterReset { State.reset with cart := c, console := ⟨true, none, none⟩ }

theorem test_noKeys : QueueKeys [] := ⟨.nil, by simp, by simp⟩

theorem test_machine_inv (v : Variant) : (machine (cartOf v)).Inv :=
  (systemReset_eq (s := { State.reset with cart := cartOf v, console := ⟨true, none, none⟩ })
    (exchanged_core test_noKeys (.nil _) (.nil _)
      ⟨fun _ => (by decide : 0 < 4), (by decide : 4 < 256), (by decide : 8 < 256), .inr rfl⟩ (by decide : Config.default.Legal))
    (by decide : 0 < 4)).2

/-- The NROM machine with one 16KB unit and CHR RAM whose program is `LDA #$7F`. -/
def small : State := machine (fetchCart 0xA9 0x7F 0xEA)

theorem test_small_inv : small.Inv := by
  refine (systemReset_eq (s := { State.reset with cart := fetchCart 0xA9 0x7F 0xEA, console := ⟨true, none, none⟩ })
    (exchanged_core test_noKeys ⟨?_, ?_⟩ (.nil _)
      ⟨fun _ => (by decide : 0 < 1), (by decide : 1 < 256), (by decide : 0 < 256), .inl rfl⟩ (by decide : Config.default.Legal))
    (by decide : 0 < 1)).2 <;>
    decide +kernel

/-- The small machine with other CPU registers. -/
def smallWith (f : Cpu → Cpu) : State := small.withCpu (f small.cpu)

theorem test_smallWith_inv (f : Cpu → Cpu) (h : (f small.cpu).irqLines.mapper = false) : (smallWith f).Inv :=
  test_small_inv.withCpu (h.trans (by decide +kernel))

/-- A machine at another dot. -/
def atDot (d : Nat) (s : State) : State := s.withPpu { s.ppu with dots := d, line := d / 341 % 262 }

theorem test_atDot_inv (d : Nat) (v : Variant) : (atDot d (machine (cartOf v))).Inv := by
  have h := test_machine_inv v
  have m := h.memories
  exact ⟨⟨m.ram, m.prgRam, m.apuReg, m.vram, m.oam, m.index, m.frameOut, m.prg, m.chr⟩,
    ⟨h.mapper.regs, h.mapper.prgOff, h.mapper.chrOff, h.mapper.chrCopy, h.mapper.mirrorCopy, h.mapper.mirrorMask, h.mapper.irqLine⟩,
    ⟨rfl, Nat.zero_le _, .nil _, .inl rfl⟩, ⟨h.cart.someP, h.cart.byteP, h.cart.byteC, h.cart.header⟩, h.config⟩

theorem test_witness_DecodeOfEncode : WellFormed (.lda (.mem (.indy 0xFF))) ∧ WellFormed (.jmp (.ind 0xFFFF)) ∧ WellFormed (.undFF 0xFFFF) := by decide
theorem test_witness_EncodeOfDecode : decode [0xFF, 0xFF, 0xFF, 0x00] = .ok (.undFF 0xFFFF, [0x00]) := by decide
theorem test_witness_DecoderIsTotal : opcodeLength 0x4C ≤ [0x00, 0x80].length + 1 ∧ [(0x00 : Byte)].length + 1 < opcodeLength 0x4C := by decide
theorem test_witness_StepRunsDecodedInstruction : small.console.loaded = true ∧ interruptDue small.cpu = none ∧
    decode (fetchBytes 2 small).1 = .ok (.lda (.imm 0x7F), []) := by decide +kernel
/-- PC = $FFFF and two bytes, the second at $0000 -/
theorem test_witness_FetchAdvancesPc : let s := smallWith fun c => { c with pc := 0xFFFF }
    ∀ k < 2, isMemory (s.cpu.pc + BitVec.ofNat 16 k) := by decide +kernel
theorem test_witness_EffectiveAddresses : isMemory (effAddr (.abs 0x1FFF) small).addr ∧ isMemory (effAddr (.abs 0x6000) small).addr ∧
    isMemory (effAddr (.abs 0xFFFF) small).addr := by decide +kernel
theorem test_witness_StoreResults : small.Inv ∧ (machine (cartOf .mmc3)).Inv := ⟨test_small_inv, test_machine_inv _⟩
theorem test_witness_IncDecMemoryResults : small.Inv ∧ (machine (cartOf .axrom)).Inv := ⟨test_small_inv, test_machine_inv _⟩
theorem test_witness_ShiftResults : small.Inv ∧ (machine (cartOf .uxrom)).Inv := ⟨test_small_inv, test_machine_inv _⟩
theorem test_witness_ReturnsRestore : Memory.wf small.ram = true ∧ Memory.wf ([(0x1FF, 0x90)] : Memory) = true := by decide +kernel
theorem test_witness_UndefinedOpcodesAreNoOps : small.cfg.undefinedOpcode = .nop := by decide
theorem test_witness_UndefinedOpcodesRefused : let s := { small with cfg := { small.cfg with undefinedOpcode := .refuse } }
    isUndefinedOpcode 0x02 ∧ isUndefinedOpcode 0xFF ∧ s.cfg.undefinedOpcode = .refuse :=
  ⟨List.mem_of_elem_eq_true (by decide), List.mem_of_elem_eq_true (by decide), rfl⟩
/-- an operand in memory, and one in a device window, for which the last clause asks nothing -/
theorem test_witness_ReadsLeaveTheRest : (∀ n, Src.mem (.abs 0x6000) = .mem n → isMemory (effAddr n small).addr) ∧
    ¬ isMemory (effAddr (.abs 0x2002) small).addr := by
  refine ⟨fun n h => ?_, by decide +kernel⟩
  cases h
  decide +kernel
/-- the clauses: a cell not stored to; an address below $8000; RAM at its two ends -/
theorem test_witness_StoresChangeOnlyTheirBytes : small.Inv ∧ isRam 0x0000 ∧ ¬ sameCell 0x0000 0x7FFF ∧ (0x7FFF : Addr).toNat < 0x8000 ∧
    isRam 0x7FFF ∧ (effAddr (.abs 0x7FFF) small).addr = 0x7FFF ∧ sameCell 0x0801 0x1801 :=
  ⟨test_small_inv, by decide +kernel⟩
theorem test_witness_StackInstructionsChangeOnlyTheStack : Memory.wf small.ram = true ∧ isMemory 0x0000 ∧
    ¬ sameCell 0x0000 (stackAddr small.cpu.sp) := by decide +kernel
/-- for each clause an instruction that changes what it speaks of -/
theorem test_witness_OnlyNamedInstructionsWrite :
    let s := smallWith fun c => { c with v := true, y := 1, x := 1 }
    s.Inv ∧ ends (exec .sed s) (fun t => t.cpu.d ≠ s.cpu.d) ∧ ends (exec .cli s) (fun t => t.cpu.i ≠ s.cpu.i) ∧
      ends (exec .clv s) (fun t => t.cpu.v ≠ s.cpu.v) ∧ ends (exec .sec s) (fun t => t.cpu.c ≠ s.cpu.c) ∧
      ends (exec (.lda (.imm 0x80)) s) (fun t => t.cpu.n ≠ s.cpu.n ∧ t.cpu.a ≠ s.cpu.a) ∧ ends (exec .inx s) (fun t => t.cpu.x ≠ s.cpu.x) ∧
      ends (exec .dey s) (fun t => t.cpu.y ≠ s.cpu.y ∧ t.cpu.z ≠ s.cpu.z) ∧ ends (exec .pha s) (fun t => t.cpu.sp ≠ s.cpu.sp) ∧
      ends (exec (.jmp (.abs 0)) s) (fun t => t.cpu.pc ≠ s.cpu.pc) :=
  ⟨test_smallWith_inv _ (by decide +kernel), by decide +kernel⟩
theorem test_witness_EveryInstructionCompletes : small.Inv ∧ small.cfg.undefinedOpcode = .nop := ⟨test_small_inv, by decide⟩
theorem test_witness_InterruptPriorityAndEntry :
    let nmi := smallWith fun c => { c with nmiPending := true, irqLines := ⟨false, true⟩ }
    let irq := smallWith fun c => { c with irqLines := ⟨false, true⟩, i := false }
    (nmi.console.loaded = true ∧ nmi.cpu.nmiPending = true) ∧
    (irq.console.loaded = true ∧ irq.cpu.nmiPending = false ∧ (irq.cpu.irqLines.mapper || irq.cpu.irqLines.external) = true ∧ irq.cpu.i = false) ∧
    (small.console.loaded = true ∧ small.cpu.nmiPending = false ∧ small.cpu.i = true) := by decide +kernel
/-- the ends of each row of the map, and the last 8KB window -/
theorem test_witness_ReadRouting : (0x1FFF : Addr).toNat ≤ 0x1FFF ∧ (0x2000 ≤ (0x3FFF : Addr).toNat ∧ (0x3FFF : Addr).toNat ≤ 0x3FFF) ∧
    (0x3FFF : Addr).toNat % 8 = (0x2007 : Addr).toNat % 8 ∧ (0x4014 : Addr).toNat ≤ 0x4014 ∧ (0x4016 : Addr).toNat = 0x4016 ∧
    (0x4018 ≤ (0x5FFF : Addr).toNat ∧ (0x5FFF : Addr).toNat ≤ 0x5FFF) ∧ (0x6000 ≤ (0x7FFF : Addr).toNat ∧ (0x7FFF : Addr).toNat ≤ 0x7FFF) ∧
    0x8000 ≤ (0xFFFF : Addr).toNat ∧ (3 : Fin 4).1 = ((0xFFFF : Addr).toNat - 0x8000) / 0x2000 := by decide
theorem test_witness_MemoryReadsBackLastWrite : small.Inv ∧ isRam 0x1FFF ∧ isRam 0x6000 ∧ isMemory 0xFFFF ∧ ¬ isRam 0x2000 ∧
    (0x4000 ≤ (0x4013 : Addr).toNat ∧ (0x4013 : Addr).toNat ≤ 0x4013) ∧ (0x4018 ≤ (0x5FFF : Addr).toNat ∧ (0x5FFF : Addr).toNat ≤ 0x5FFF) ∧
    (0x3FFA : Addr).toNat % 8 = 2 := ⟨test_small_inv, by decide⟩
/-- pages of memory, and a page of the PPU's registers, for which the last clause asks nothing -/
theorem test_witness_ObjectMemoryDma : Memory.wf small.ppu.oam = true ∧ isMemory (wordOf 0x1F 0) ∧ isMemory (wordOf 0x60 0) ∧
    ¬ isMemory (wordOf 0x20 0) := by decide +kernel
/-- a power of two of banks; CHR ROM; CHR RAM; the last slot -/
theorem test_witness_BankArithmetic : let s := machine (cartOf .mmc3)
    s.cart.prgSize / 0x4000 = 2 ^ 2 ∧ s.Inv ∧ 7 + 0x400 / 0x400 ≤ 8 ∧ 0 + 0x2000 / 0x400 ≤ 8 ∧ 0 < s.cart.nChr ∧ small.Inv ∧ small.cart.nChr = 0 :=
  ⟨(by decide : 4 * 16384 / 0x4000 = 2 ^ 2), test_machine_inv _, by decide, by decide, (by decide : 0 < 8), test_small_inv, rfl⟩
theorem test_witness_DiscreteMapperWrites : ∀ v ∈ [Variant.nrom, .uxrom, .cnrom, .axrom],
    (machine (cartOf v)).Inv ∧ (machine (cartOf v)).cart.variant = v ∧ 0 < (machine (cartOf v)).cart.nChr ∧ 0x8000 ≤ (0x8000 : Addr).toNat :=
  fun v _ => ⟨test_machine_inv v, rfl, by change 0 < 8; decide, by decide⟩
theorem test_witness_Mmc1SerialLoad : ((machine (cartOf .mmc1)).Inv ∧ 0 < (machine (cartOf .mmc1)).cart.nChr) ∧
    (machine (cartOf .mmc1)).mapper.regs = .mmc1 ⟨0x10, 0x0E, 0, 0, 0⟩ ∧
    (0x8000 ≤ (0x8000 : Addr).toNat ∧ 0x8000 ≤ (0xFFFF : Addr).toNat) ∧
    (0x80 : Byte).getLsbD 7 = true ∧ (0x7F : Byte).getLsbD 7 = false :=
  ⟨⟨test_machine_inv _, (by decide : 0 < 8)⟩, by decide +kernel, by decide⟩
/-- each of the eight rows -/
theorem test_witness_Mmc3Registers : let s := machine (cartOf .mmc3)
    s.Inv ∧ s.mapper.regs = .mmc3 ⟨0, #v[0, 2, 4, 5, 6, 7, 0, 1], 0, 0, false, false⟩ ∧ 0 < s.cart.nChr ∧
      (0x8000 : Addr) &&& 0xE001 = 0x8000 ∧ (0x9FFF : Addr) &&& 0xE001 = 0x8001 ∧ (0xBFFE : Addr) &&& 0xE001 = 0xA000 ∧
      (0xBFFF : Addr) &&& 0xE001 = 0xA001 ∧ (0xC000 : Addr) &&& 0xE001 = 0xC000 ∧ (0xDFFF : Addr) &&& 0xE001 = 0xC001 ∧
      (0xE000 : Addr) &&& 0xE001 = 0xE000 ∧ (0xFFFF : Addr) &&& 0xE001 = 0xE001 :=
  ⟨test_machine_inv _, by decide +kernel, (by decide : 0 < 8), by decide⟩
/-- a reload asked for, and one of a counter found at 0, each up to the clock that reaches 0; a counter that counts down; and a counter
that is disabled -/
theorem test_witness_Mmc3ScanlineCounter :
    let r (counter : Byte) (reload enable : Bool) : Mmc3 := ⟨0, #v[0, 2, 4, 5, 6, 7, 0, 1], 2, counter, reload, enable⟩
    let s (r : Mmc3) := setRegs (.mmc3 r) (machine (cartOf .mmc3))
    (∀ r, (s r).mapper.regs = .mmc3 r ∧ (s r).mapper.irq = false ∧ (s r).cpu.irqLines.mapper = false) ∧
      (r 5 true true).irqReload = true ∧ ((r 0 false true).irqReload = false ∧ (r 0 false true).irqCounter = 0) ∧
      0 ≤ (r 0 false true).irqLatch.toNat ∧ 2 ≤ (r 0 false true).irqLatch.toNat ∧
      ((r 1 false true).irqReload = false ∧ (r 1 false true).irqCounter ≠ 0) ∧ (r 1 false false).irqEnable = false ∧
      ∀ q, (machine (cartOf .nrom)).mapper.regs ≠ .mmc3 q :=
  ⟨fun _ => ⟨rfl, rfl, rfl⟩, rfl, ⟨rfl, rfl⟩, by decide, by decide, ⟨rfl, by decide⟩, rfl, fun q h => by cases h⟩
theorem test_witness_PpuAddressSpace : Memory.wf small.ppu.vram = true ∧ small.ppu.mirrorMask = Mirroring.horizontal.mask ∧
    0x2000 ≤ (0x3F10 : PAddr).toNat ∧ (0x1FFF : PAddr).toNat < 0x2000 ∧ (7 : Fin 8).1 = (0x1FFF : PAddr).toNat / 0x400 ∧
    (0x2000 ≤ (0x3F00 : PAddr).toNat ∧ fold Mirroring.horizontal.mask 0x3F00 = fold Mirroring.horizontal.mask 0x3F10) ∧
    fold Mirroring.horizontal.mask 0x2000 ≠ fold Mirroring.horizontal.mask 0x2800 := by decide +kernel
/-- the ends of the window; `v` just below the palette and in it -/
theorem test_witness_StatusObjectAndDataPorts :
    let low := small.withPpu { small.ppu with v := 0x3EFF }
    let high := small.withPpu { small.ppu with v := 0x3F00 }
    (0x2000 ≤ (0x2000 : Addr).toNat ∧ (0x3FFF : Addr).toNat ≤ 0x3FFF) ∧ (0x3FFF : Addr).toNat % 8 = 7 ∧ (0x2002 : Addr).toNat % 8 = 2 ∧
    ((catchUpIfVisible low.ppu).v.setWidth 14 : PAddr).toNat < 0x3F00 ∧ 0x3F00 ≤ ((catchUpIfVisible high.ppu).v.setWidth 14 : PAddr).toNat := by
  decide +kernel
theorem test_witness_ControlAndScrollWrites : small.Inv ∧ (0x2000 ≤ (0x3FF8 : Addr).toNat ∧ (0x3FF8 : Addr).toNat ≤ 0x3FFF) ∧
    (0x3FF8 : Addr).toNat % 8 = 0 ∧ (0x2001 : Addr).toNat % 8 = 1 ∧ (0x2005 : Addr).toNat % 8 = 5 ∧ (0x2006 : Addr).toNat % 8 = 6 ∧
    (catchUpIfVisible small.ppu).w = false ∧ (catchUpIfVisible { small.ppu with w := true }).w = true :=
  ⟨test_small_inv, by decide +kernel⟩
/-- the four rows of the increment; the last row of a screen and one below it; lines 0 and 240 -/
theorem test_witness_ScrollCatchUp :
    let fineY (u : Loopy) := u.toNat / 0x1000
    let coarseY (u : Loopy) := u.toNat / 32 % 32
    fineY 0x63A0 < 7 ∧ (fineY 0x73A0 = 7 ∧ coarseY 0x73A0 = 29) ∧ (fineY 0x73E0 = 7 ∧ coarseY 0x73E0 = 31) ∧
    (fineY 0x73C0 = 7 ∧ coarseY 0x73C0 ≠ 29 ∧ coarseY 0x73C0 ≠ 31) ∧ (coarseY 0x03A0 < 30 ∧ ¬ coarseY 0x03C0 < 30) ∧
    small.ppu.line ≤ 239 ∧ 240 ≤ (atDot (341 * 240) small).ppu.line ∧ small.ppu.liveLine ≤ small.ppu.line + 1 := by
  decide +kernel
/-- an empty queue at the smallest legal capacity, and a full arena -/
theorem test_witness_EventQueueRecording : (QueueOk 1 [] ∧ 2893 ≤ 2893) ∧ Change.mask 0x18 ≠ .stop ∧
    (1 ≤ ([] : List Event).length + 1 ∧ ∀ e ∈ ([] : List Event), e.hasKey 1 (.mask 0x18) = false) :=
  ⟨⟨.nil _, by decide⟩, by decide, by decide, by decide⟩
/-- a dot inside a line, and the dots before lines 240, 261, 241 and 239 -/
theorem test_witness_LineBoundaries : let m := machine (cartOf .mmc3)
    (m.Inv ∧ (m.ppu.dots + 1) % 341 ≠ 0) ∧
    ((atDot (341 * 240 - 1) m).Inv ∧ ((atDot (341 * 240 - 1) m).ppu.dots + 1) % 341 = 0 ∧ ((atDot (341 * 240 - 1) m).ppu.line + 1) % 262 = 240) ∧
    ((atDot (341 * 261 - 1) m).Inv ∧ ((atDot (341 * 261 - 1) m).ppu.dots + 1) % 341 = 0 ∧ ((atDot (341 * 261 - 1) m).ppu.line + 1) % 262 = 261) ∧
    ((atDot (341 * 241 - 1) m).Inv ∧ ((atDot (341 * 241 - 1) m).ppu.line + 1) % 262 = 241) ∧
    ((atDot (341 * 239 - 1) m).Inv ∧ ((atDot (341 * 239 - 1) m).ppu.line + 1) % 262 = 239) ∧ m.console.vblankCallback = none :=
  ⟨⟨test_machine_inv _, by decide +kernel⟩, ⟨test_atDot_inv _ _, by decide +kernel⟩, ⟨test_atDot_inv _ _, by decide +kernel⟩,
    ⟨test_atDot_inv _ _, by decide +kernel⟩, ⟨test_atDot_inv _ _, by decide +kernel⟩, rfl⟩
theorem test_witness_VblankOncePerFrame : (atDot (341 * 240 - 1) (machine (cartOf .mmc3))).Inv ∧ small.Inv := ⟨test_atDot_inv _ _, test_small_inv⟩
theorem test_witness_SpriteZeroHit : ((8 : Nat) = 8 ∧ 7 < 8) ∧ ((16 : Nat) = 16 ∧ 15 < 16) := by decide
/-- sprite 0 transparent and sprite 1 opaque at the pixel; both layers off, the sprites off, and their left columns hidden; and the ignored
bits -/
theorem test_witness_PixelIndexes :
    let c : Cart := { cartOf .nrom with nChr := 0 }
    let vram : Memory := [(16, 0xFF)]
    let oam : Memory := [(0, 9), (1, 2), (4, 9), (5, 1)]
    let w : Snapshot := { small.ppu.renderBase with mask := 0x1E }
    let colour := spriteColour c vram oam w 10 0
    (w.mask.getLsbD 4 = true ∧ w.mask.getLsbD 2 = true ∧ colour 0 = 0 ∧ colour 1 = 1) ∧ (∀ i < 64, spriteColour c vram [] w 0 0 i = 0) ∧
    (0x0E : Byte).getLsbD 4 = false ∧ ((0x1A : Byte).getLsbD 2 = false ∧ 7 < 8) ∧
    (0xE7 : Byte) &&& 0x18 = 0 ∧ (0xF7 : Byte) &&& 0x08 = 0 ∧ (0xEF : Byte) &&& 0x10 = 0 ∧
    (0xFF : Byte) &&& 0x1E = 0x1E &&& 0x1E ∧ (0xC7 : Byte) &&& 0x38 = 0 &&& 0x38 := by decide +kernel
/-- a queue with two events of one line and one of another, from the first line to the last; and a single event -/
theorem test_witness_RasterEffect :
    let several : List Event := [⟨0, .ctrl 0x10⟩, ⟨100, .mask 0x18⟩, ⟨100, .scroll 0x21⟩, ⟨240, .mirroring .vertical⟩]
    let p : Ppu := { small.ppu with curQ := several ++ [⟨240, .stop⟩] }
    QueueOk 240 several ∧ p.curQ = several ++ [⟨240, .stop⟩] ∧
    QueueOk 240 [⟨100, .chrBank 7 0x400⟩] ∧ 99 < 100 ∧ ¬ 100 < 100 ∧ 239 < 240 ∧ 255 < 256 :=
  ⟨⟨by decide, by decide, by decide, by decide⟩, rfl, ⟨by decide, by decide, by decide, by decide⟩, by decide⟩
theorem test_witness_RenderDeterminism : let p := { small.ppu with curQ := [⟨240, .stop⟩] }
    let q := { p with index := [(0, 1)], ctrl := 0xFF, v := 1 }
    QueueOk 240 [] ∧ p.curQ = [] ++ [⟨240, .stop⟩] ∧ q.curQ = p.curQ ∧ q.renderBase = p.renderBase ∧ q.vram = p.vram ∧ q.oam = p.oam :=
  ⟨.nil _, rfl, rfl, rfl, rfl, rfl⟩
theorem test_witness_SystemReset : let unloaded := { small with console := { small.console with loaded := false } }
    unloaded.Inv ∧ unloaded.console.loaded = false ∧
    (∀ v, (machine (cartOf v)).Inv ∧ (machine (cartOf v)).console.loaded = true ∧ 0 < (machine (cartOf v)).cart.nChr) := by
  have h := test_small_inv
  have m := h.memories
  exact ⟨⟨⟨m.ram, m.prgRam, m.apuReg, m.vram, m.oam, m.index, m.frameOut, m.prg, m.chr⟩,
    ⟨h.mapper.regs, fun k => (by cases k), h.mapper.chrOff, h.mapper.chrCopy, h.mapper.mirrorCopy, h.mapper.mirrorMask, h.mapper.irqLine⟩,
    h.timing, ⟨fun k => (by cases k), h.cart.byteP, h.cart.byteC, h.cart.header⟩, h.config⟩, rfl, fun v => ⟨test_machine_inv v, rfl, by change 0 < 8; decide⟩⟩

/-- A header with the given bytes 4 to 7. -/
def header (prg chr b6 b7 : Byte) : List Byte := [0x4E, 0x45, 0x53, 0x1A, prg, chr, b6, b7, 0, 0, 0, 0, 0, 0, 0, 0]

/-- no header; mapper 5; no PRG; a truncated image; and an image of one PRG unit with a trainer and nothing after it -/
theorem test_witness_RomLoading : small.Inv ∧ ([] : List Byte).length < 16 ∧
    (¬ (header 1 0 0x50 0).length < 16 ∧ (((header 1 0 0x50 0).getD 7 0 &&& 0xF0) ||| ((header 1 0 0x50 0).getD 6 0 >>> 4)).toNat = 5 ∧
      5 ∉ small.cfg.registeredMappers) ∧
    (0 ∈ small.cfg.registeredMappers ∧ ((header 0 0 0 0).getD 4 0).toNat = 0) ∧
    ((header 1 0 0 0).length < 16 + 16384 * ((header 1 0 0 0).getD 4 0).toNat) ∧
    (let image : List Byte := header 1 0 0x45 0 ++ List.replicate (512 + 16384) (0 : Byte)
     image.getD 0 0 = 0x4E ∧ image.getD 1 0 = 0x45 ∧ image.getD 2 0 = 0x53 ∧ image.getD 3 0 = 0x1A ∧
      ((image.getD 7 0 &&& 0xF0) ||| (image.getD 6 0 >>> 4)).toNat = 4 ∧ 4 ∈ small.cfg.registeredMappers ∧ 0 < (image.getD 4 0).toNat ∧
      16 + (if (image.getD 6 0).getLsbD 2 then 512 else 0) + 16384 * (image.getD 4 0).toNat + 8192 * (image.getD 5 0).toNat ≤ image.length) := by
  refine ⟨test_small_inv, by decide, by decide, by decide, by decide, by rfl, by rfl, by rfl, by rfl, by rfl, by decide, ?_, ?_⟩
  · exact (by decide : 0 < (0x01 : Byte).toNat)
  · rw [List.length_append, List.length_replicate]
    exact (by decide : 16 + (if (0x45 : Byte).getLsbD 2 then 512 else 0) + 16384 * (0x01 : Byte).toNat + 8192 * (0x00 : Byte).toNat ≤ 16 + (512 + 16384))
/-- CHR RAM, with other registers in the machine loaded into; and CHR ROM -/
theorem test_witness_SaveThenLoadRestores :
    (small.Inv ∧ (smallWith fun c => { c with a := 9 }).Inv ∧ small.console.loaded = true ∧ (smallWith fun c => { c with a := 9 }).cart = small.cart ∧
      small.cpu.cycles < 2 ^ 64 ∧ small.ppu.dots < 2 ^ 64 ∧ small.ppu.frame < 2 ^ 32 ∧ small.cart.nChr = 0) ∧
    (let m := machine (cartOf .mmc1)
     m.Inv ∧ m.console.loaded = true ∧ m.cpu.cycles < 2 ^ 64 ∧ m.ppu.dots < 2 ^ 64 ∧ m.ppu.frame < 2 ^ 32 ∧ 0 < m.cart.nChr) :=
  ⟨⟨test_small_inv, test_smallWith_inv _ (by decide +kernel), rfl, rfl, by decide +kernel, by decide +kernel, by decide +kernel, rfl⟩,
    test_machine_inv _, rfl, by decide +kernel, by decide +kernel, by decide +kernel, (by decide : 0 < 8)⟩
theorem test_witness_StepKeepsInvariant : small.Inv ∧ ends (step small) (fun t => t.cpu.a = 0x7F) = true := ⟨test_small_inv, by decide +kernel⟩
theorem test_witness_StepNeverStops : small.Inv ∧ small.cfg.undefinedOpcode = .nop ∧ small.console.loaded = true := ⟨test_small_inv, rfl, rfl⟩
/-- a run of three cycles; a paused machine; a callback that stops; and one that pauses and continues -/
theorem test_witness_BatchReachesItsCycles :
    let asking (answers : List BreakpointAnswer) : State :=
      { small with console := { small.console with breakpointCallback := some ⟨answers⟩ } }
    (small.Inv ∧ small.cfg.undefinedOpcode = .nop ∧ small.console.loaded = true ∧ small.cpu.paused = false ∧ (0 : Int) < 3 ∧
      small.console.breakpointCallback = none) ∧
    (smallWith fun c => { c with paused := true }).cpu.paused = true ∧
    (∀ answers, (asking answers).Inv ∧ (asking answers).cfg.undefinedOpcode = .nop ∧ (asking answers).console.loaded = true ∧
      (asking answers).cpu.paused = false ∧ (asking answers).console.breakpointCallback = some ⟨answers⟩) ∧
    (∀ answer ∈ [(⟨false, some true⟩ : BreakpointAnswer)], answer.stop = false) :=
  ⟨⟨test_small_inv, rfl, rfl, rfl, by decide, rfl⟩, rfl,
    fun answers => ⟨test_small_inv.withConsole (k := { small.console with breakpointCallback := some ⟨answers⟩ }) rfl, rfl, rfl, rfl, rfl⟩,
    by decide⟩

end Sys2Proof.Tests
end

/-! ## Who writes the flags and the registers (10_state.md R20-R25) -/

section
namespace Sys2Proof.Machine

/-! ### The rows of the table of R25 -/

/-- The instructions that may write D. -/
@[simp] def WritesD (i : Instr) : Prop := i ∈ [.cld, .sed, .plp, .rti]

/-- The instructions that may write I. -/
@[simp] def WritesI (i : Instr) : Prop := i ∈ [.cli, .sei, .plp, .rti, .brk]

/-- The instructions that may write V. -/
@[simp] def WritesV (i : Instr) : Prop :=
  i ∈ [.clv, .plp, .rti] ∨ (∃ src, i = .adc src ∨ i = .sbc src) ∨ ∃ m, i = .bit m

/-- The instructions that may write C. -/
@[simp] def WritesC (i : Instr) : Prop :=
  i ∈ [.clc, .sec, .plp, .rti] ∨
    (∃ src, i = .adc src ∨ i = .sbc src ∨ i = .cmp src ∨ i = .cpx src ∨ i = .cpy src) ∨
    ∃ dst, i = .asl dst ∨ i = .lsr dst ∨ i = .rol dst ∨ i = .ror dst

/-- The instructions that may write N and Z. -/
@[simp] def WritesNZ (i : Instr) : Prop :=
  i ∈ [.pla, .plp, .rti, .tax, .tay, .txa, .tya, .tsx, .inx, .iny, .dex, .dey] ∨
    (∃ src, i ∈ [.lda src, .ldx src, .ldy src, .adc src, .sbc src, .and src, .ora src, .eor src,
      .cmp src, .cpx src, .cpy src]) ∨
    (∃ m, i = .inc m ∨ i = .dec m ∨ i = .bit m) ∨
    ∃ dst, i = .asl dst ∨ i = .lsr dst ∨ i = .rol dst ∨ i = .ror dst

/-- The instructions that may write A. -/
@[simp] def WritesA (i : Instr) : Prop :=
  i ∈ [.pla, .txa, .tya, .asl .acc, .lsr .acc, .rol .acc, .ror .acc] ∨
    ∃ src, i ∈ [.lda src, .adc src, .sbc src, .and src, .ora src, .eor src]

/-- The instructions that may write X. -/
@[simp] def WritesX (i : Instr) : Prop := i ∈ [.tax, .tsx, .inx, .dex] ∨ ∃ src, i = .ldx src

/-- The instructions that may write Y. -/
@[simp] def WritesY (i : Instr) : Prop := i ∈ [.tay, .iny, .dey] ∨ ∃ src, i = .ldy src

/-- The instructions that may move the stack pointer. -/
@[simp] def WritesSp (i : Instr) : Prop :=
  i ∈ [.txs, .pha, .php, .pla, .plp, .rts, .rti, .brk] ∨ ∃ a, i = .jsr a

/-- The instructions that may set PC beside its advance past their own bytes. -/
@[simp] def WritesPc (i : Instr) : Prop :=
  i ∈ [.rts, .rti, .brk] ∨ (∃ target, i = .jmp target) ∨ (∃ a, i = .jsr a) ∨
    ∃ rel, i ∈ [.bcc rel, .bcs rel, .beq rel, .bne rel, .bmi rel, .bpl rel, .bvc rel, .bvs rel]

/-- From the registers `c` to the registers `c'`, every change is one that the rows above let `i` make; the pending NMI, the
EXTERNAL line and the pause bit are nobody's to write. -/
structure NamedWrites (i : Instr) (c c' : Cpu) : Prop where
  flagD      : c'.d ≠ c.d → WritesD i
  flagI      : c'.i ≠ c.i → WritesI i
  flagV      : c'.v ≠ c.v → WritesV i
  flagC      : c'.c ≠ c.c → WritesC i
  flagNZ     : c'.n ≠ c.n ∨ c'.z ≠ c.z → WritesNZ i
  regA       : c'.a ≠ c.a → WritesA i
  regX       : c'.x ≠ c.x → WritesX i
  regY       : c'.y ≠ c.y → WritesY i
  sp         : c'.sp ≠ c.sp → WritesSp i
  pc         : c'.pc ≠ c.pc → WritesPc i
  nmiPending : c'.nmiPending = c.nmiPending
  external   : c'.irqLines.external = c.irqLines.external
  paused     : c'.paused = c.paused

namespace NamedWrites

variable {i : Instr} {c c' c'' : Cpu}

theorem refl (i : Instr) (c : Cpu) : NamedWrites i c c where
  flagD h := absurd rfl h
  flagI h := absurd rfl h
  flagV h := absurd rfl h
  flagC h := absurd rfl h
  flagNZ h := h.elim (absurd rfl) (absurd rfl)
  regA h := absurd rfl h
  regX h := absurd rfl h
  regY h := absurd rfl h
  sp h := absurd rfl h
  pc h := absurd rfl h
  nmiPending := rfl
  external := rfl
  paused := rfl

/-- A value changed over two steps changed in one of them. -/
theorem changed_of_trans {α : Type} {x y z : α} {P : Prop} (h : y ≠ x → P) (k : z ≠ y → P) (hne : z ≠ x) : P := by
  by_cases hy : y = x
  · exact k (hy ▸ hne)
  · exact h hy

theorem trans (h : NamedWrites i c c') (k : NamedWrites i c' c'') : NamedWrites i c c'' where
  flagD := changed_of_trans h.flagD k.flagD
  flagI := changed_of_trans h.flagI k.flagI
  flagV := changed_of_trans h.flagV k.flagV
  flagC := changed_of_trans h.flagC k.flagC
  flagNZ hne := hne.elim (changed_of_trans (fun e => h.flagNZ (.inl e)) fun e => k.flagNZ (.inl e))
    (changed_of_trans (fun e => h.flagNZ (.inr e)) fun e => k.flagNZ (.inr e))
  regA := changed_of_trans h.regA k.regA
  regX := changed_of_trans h.regX k.regX
  regY := changed_of_trans h.regY k.regY
  sp := changed_of_trans h.sp k.sp
  pc := changed_of_trans h.pc k.pc
  nmiPending := k.nmiPending.trans h.nmiPending
  external := k.external.trans h.external
  paused := k.paused.trans h.paused

/-! ### The register operations -/

/-- The cycle counter and the MAPPER line are no registers of the table. -/
theorem unnamed (i : Instr) (c : Cpu) (l : Bool) (k : Nat) :
    NamedWrites i c { c with irqLines := ⟨l, c.irqLines.external⟩, cycles := k } := { refl i c with }

theorem cycles (h : NamedWrites i c c') (k : Nat) : NamedWrites i c { c' with cycles := k } := { h with }

theorem setNZ (hn : WritesNZ i) (r : Byte) : NamedWrites i c (setNZ r c) := { refl i c with flagNZ := fun _ => hn }

theorem loadA (hn : WritesNZ i) (ha : WritesA i) (r : Byte) : NamedWrites i c (loadA r c) :=
  { refl i c with flagNZ := fun _ => hn, regA := fun _ => ha }

theorem loadX (hn : WritesNZ i) (hx : WritesX i) (r : Byte) : NamedWrites i c (loadX r c) :=
  { refl i c with flagNZ := fun _ => hn, regX := fun _ => hx }

theorem loadY (hn : WritesNZ i) (hy : WritesY i) (r : Byte) : NamedWrites i c (loadY r c) :=
  { refl i c with flagNZ := fun _ => hn, regY := fun _ => hy }

theorem addWithCarry (hn : WritesNZ i) (hv : WritesV i) (hc : WritesC i) (ha : WritesA i) (m : Byte) :
    NamedWrites i c (addWithCarry m c) :=
  { refl i c with flagNZ := fun _ => hn, flagV := fun _ => hv, flagC := fun _ => hc, regA := fun _ => ha }

theorem compareWith (hn : WritesNZ i) (hc : WritesC i) (r m : Byte) : NamedWrites i c (compareWith r m c) :=
  { refl i c with flagNZ := fun _ => hn, flagC := fun _ => hc }

theorem bitTest (hn : WritesNZ i) (hv : WritesV i) (m : Byte) : NamedWrites i c (bitTest m c) :=
  { refl i c with flagNZ := fun _ => hn, flagV := fun _ => hv }

theorem shiftFlags (hn : WritesNZ i) (hc : WritesC i) (result : Byte → Bool → Byte) (out : Byte → Bool) (m : Byte) :
    NamedWrites i c (shiftFlags result out m c) := { refl i c with flagNZ := fun _ => hn, flagC := fun _ => hc }

theorem setStatus (hn : WritesNZ i) (hv : WritesV i) (hd : WritesD i) (hi : WritesI i) (hc : WritesC i) (m : Byte) :
    NamedWrites i c (setStatus m c) :=
  { refl i c with
    flagNZ := fun _ => hn, flagV := fun _ => hv, flagD := fun _ => hd, flagI := fun _ => hi, flagC := fun _ => hc }

theorem setD (hd : WritesD i) (b : Bool) : NamedWrites i c { c with d := b } := { refl i c with flagD := fun _ => hd }

theorem setI (hi : WritesI i) (b : Bool) : NamedWrites i c { c with i := b } := { refl i c with flagI := fun _ => hi }

theorem setV (hv : WritesV i) (b : Bool) : NamedWrites i c { c with v := b } := { refl i c with flagV := fun _ => hv }

theorem setC (hc : WritesC i) (b : Bool) : NamedWrites i c { c with c := b } := { refl i c with flagC := fun _ => hc }

theorem setSp (hsp : WritesSp i) (r : Byte) : NamedWrites i c { c with sp := r } := { refl i c with sp := fun _ => hsp }

theorem setPc (hp : WritesPc i) (a : Addr) : NamedWrites i c { c with pc := a } := { refl i c with pc := fun _ => hp }

/-! ### The shapes of instruction -/

variable {s t : State}

theorem of_readInstr {src : Src} {f : Byte → Cpu → Cpu} (h : readInstr src f s = .next t)
    (hf : ∀ v, NamedWrites i s.cpu (f v s.cpu)) : NamedWrites i s.cpu t.cpu := by
  obtain ⟨v, k, hk⟩ := readInstr_cpu h
  rw [hk]
  exact (hf v).cycles k

theorem of_storeInstr (hi : s.Inv) {m : Mem} {reg : Cpu → Byte} (h : storeInstr m reg s = .next t) :
    NamedWrites i s.cpu t.cpu := by
  obtain ⟨l, k, hk⟩ := storeInstr_cpu hi h
  rw [hk]
  exact unnamed i s.cpu l k

theorem of_modifyInstr (hi : s.Inv) {m : Mem} {result : Byte → Bool → Byte} {flags : Byte → Cpu → Cpu}
    (h : modifyInstr m result flags s = .next t) (hf : ∀ v c, NamedWrites i c (flags v c)) : NamedWrites i s.cpu t.cpu := by
  obtain ⟨v, l, n, k, hk⟩ := modifyInstr_cpu hi h
  rw [hk]
  exact ((unnamed i s.cpu l n).trans (hf v _)).cycles k

/-- A shift or rotate writes N, Z and C, and A in its accumulator form. -/
theorem of_shiftInstr (hi : s.Inv) {dst : Rmw} {result : Byte → Bool → Byte} {out : Byte → Bool}
    (h : shiftInstr dst result out s = .next t) (hn : WritesNZ i) (hc : WritesC i) (ha : dst = .acc → WritesA i) :
    NamedWrites i s.cpu t.cpu := by
  cases dst with
  | acc =>
    obtain ⟨r, k, hk⟩ := shiftInstr_acc_cpu h
    rw [hk]
    exact { refl i s.cpu with flagNZ := fun _ => hn, flagC := fun _ => hc, regA := fun _ => ha rfl }
  | mem m => exact of_modifyInstr hi h fun v _ => shiftFlags hn hc result out v

theorem of_impliedInstr {n : Nat} {f : Cpu → Cpu} (h : impliedInstr n f s = .next t) (hf : NamedWrites i s.cpu (f s.cpu)) :
    NamedWrites i s.cpu t.cpu := by
  obtain ⟨k, hk⟩ := impliedInstr_cpu h
  rw [hk]
  exact hf.cycles k

theorem of_branchInstr {cond : Bool} {rel : Byte} (h : branchInstr cond rel s = .next t) (hp : WritesPc i) :
    NamedWrites i s.cpu t.cpu := by
  obtain ⟨p, k, hk⟩ := branchInstr_cpu h
  rw [hk]
  exact (setPc hp p).cycles k

theorem of_undefinedInstr {op : Byte} {length cost : Nat} (h : undefinedInstr op length cost s = .next t) :
    NamedWrites i s.cpu t.cpu := by
  obtain ⟨k, hk⟩ := undefinedInstr_cpu h
  rw [hk]
  exact (refl i s.cpu).cycles k

theorem of_execJmp {target : JmpTarget} (h : execJmp target s = .next t) (hp : WritesPc i) : NamedWrites i s.cpu t.cpu := by
  obtain ⟨p, k, hk⟩ := execJmp_cpu h
  rw [hk]
  exact (setPc hp p).cycles k

/-! ### The stack -/

theorem of_push {v : Byte} {n : Nat} (h : complete ((push v s).map (charge n)) = .next t) (hsp : WritesSp i) :
    NamedWrites i s.cpu t.cpu := by
  rw [push_eq] at h
  cases h
  exact (setSp hsp _).cycles _

theorem of_pull {f : Byte → Cpu → Cpu} {n : Nat}
    (h : (.next (charge n ((pull s).2.withCpu (f (pull s).1 (pull s).2.cpu))) : Result) = .next t)
    (hsp : WritesSp i) (hf : ∀ v c, NamedWrites i c (f v c)) : NamedWrites i s.cpu t.cpu := by
  rw [pull_eq] at h
  cases h
  exact ((setSp hsp _).trans (hf _ _)).cycles _

theorem of_execJsr {a : Addr} (h : execJsr a s = .next t) (hsp : WritesSp i) (hp : WritesPc i) :
    NamedWrites i s.cpu t.cpu := by
  unfold execJsr at h
  rw [push16_eq] at h
  cases h
  exact { refl i s.cpu with sp := fun _ => hsp, pc := fun _ => hp }

theorem of_execRts (h : execRts s = .next t) (hsp : WritesSp i) (hp : WritesPc i) : NamedWrites i s.cpu t.cpu := by
  unfold execRts at h
  rw [pull16_eq] at h
  cases h
  exact { refl i s.cpu with sp := fun _ => hsp, pc := fun _ => hp }

/-- `RTI` is `PLP` followed by a pull of PC. -/
theorem of_execRti (h : execRti s = .next t) (hflags : ∀ m c, NamedWrites i c (Machine.setStatus m c)) (hsp : WritesSp i)
    (hp : WritesPc i) : NamedWrites i s.cpu t.cpu := by
  unfold execRti at h
  rw [returnFromInterrupt_eq] at h
  cases h
  exact { hflags (s.peek (stackAddr (s.cpu.sp + 1))) s.cpu with sp := fun _ => hsp, pc := fun _ => hp }

theorem of_execBrk (h : execBrk s = .next t) (hsp : WritesSp i) (hi : WritesI i) (hp : WritesPc i) :
    NamedWrites i s.cpu t.cpu := by
  unfold execBrk at h
  rw [enterVector_eq (by decide) (by decide)] at h
  cases h
  exact { refl i s.cpu with sp := fun _ => hsp, flagI := fun _ => hi, pc := fun _ => hp }

end NamedWrites

/-! ### Every instruction -/

/-- Each instruction writes the registers of its own rows: the shape of its arm of `exec` says which registers it writes, and
its place in the rows is looked up. The undefined opcodes write none. -/
theorem exec_namedWrites {i : Instr} {s t : State} (hi : s.Inv) (h : exec i s = .next t) : NamedWrites i s.cpu t.cpu := by
  cases i with
  | lda src => exact .of_readInstr h fun v => .loadA (by simp) (by simp) v
  | ldx src => exact .of_readInstr h fun v => .loadX (by simp) (by simp) v
  | ldy src => exact .of_readInstr h fun v => .loadY (by simp) (by simp) v
  | and src => exact .of_readInstr (f := fun m c => loadA (c.a &&& m) c) h fun v => .loadA (by simp) (by simp) (s.cpu.a &&& v)
  | ora src => exact .of_readInstr (f := fun m c => loadA (c.a ||| m) c) h fun v => .loadA (by simp) (by simp) (s.cpu.a ||| v)
  | eor src => exact .of_readInstr (f := fun m c => loadA (c.a ^^^ m) c) h fun v => .loadA (by simp) (by simp) (s.cpu.a ^^^ v)
  | adc src => exact .of_readInstr h fun v => .addWithCarry (by simp) (by simp) (by simp) (by simp) v
  | sbc src => exact .of_readInstr h fun v => .addWithCarry (by simp) (by simp) (by simp) (by simp) (v ^^^ 0xFF)
  | cmp src => exact .of_readInstr (f := fun m c => compareWith c.a m c) h fun v => .compareWith (by simp) (by simp) s.cpu.a v
  | cpx src => exact .of_readInstr (f := fun m c => compareWith c.x m c) h fun v => .compareWith (by simp) (by simp) s.cpu.x v
  | cpy src => exact .of_readInstr (f := fun m c => compareWith c.y m c) h fun v => .compareWith (by simp) (by simp) s.cpu.y v
  | bit m => exact .of_readInstr h fun v => .bitTest (by simp) (by simp) v
  | sta m => exact .of_storeInstr hi h
  | stx m => exact .of_storeInstr hi h
  | sty m => exact .of_storeInstr hi h
  | inc m =>
    exact .of_modifyInstr hi (result := fun b _ => b + 1) (flags := fun b => setNZ (b + 1)) h
      fun v _ => .setNZ (by simp) (v + 1)
  | dec m =>
    exact .of_modifyInstr hi (result := fun b _ => b - 1) (flags := fun b => setNZ (b - 1)) h
      fun v _ => .setNZ (by simp) (v - 1)
  | asl dst => exact .of_shiftInstr hi h (by simp) (by simp) (by simp)
  | lsr dst => exact .of_shiftInstr hi h (by simp) (by simp) (by simp)
  | rol dst => exact .of_shiftInstr hi h (by simp) (by simp) (by simp)
  | ror dst => exact .of_shiftInstr hi h (by simp) (by simp) (by simp)
  | tax => exact .of_impliedInstr h (.loadX (by simp) (by simp) s.cpu.a)
  | tay => exact .of_impliedInstr h (.loadY (by simp) (by simp) s.cpu.a)
  | txa => exact .of_impliedInstr h (.loadA (by simp) (by simp) s.cpu.x)
  | tya => exact .of_impliedInstr h (.loadA (by simp) (by simp) s.cpu.y)
  | tsx => exact .of_impliedInstr h (.loadX (by simp) (by simp) s.cpu.sp)
  | txs => exact .of_impliedInstr (f := fun c => { c with sp := c.x }) h (.setSp (by simp) s.cpu.x)
  | inx => exact .of_impliedInstr h (.loadX (by simp) (by simp) (s.cpu.x + 1))
  | iny => exact .of_impliedInstr h (.loadY (by simp) (by simp) (s.cpu.y + 1))
  | dex => exact .of_impliedInstr h (.loadX (by simp) (by simp) (s.cpu.x - 1))
  | dey => exact .of_impliedInstr h (.loadY (by simp) (by simp) (s.cpu.y - 1))
  | clc => exact .of_impliedInstr (f := fun c => { c with c := false }) h (.setC (by simp) false)
  | sec => exact .of_impliedInstr (f := fun c => { c with c := true }) h (.setC (by simp) true)
  | cld => exact .of_impliedInstr (f := fun c => { c with d := false }) h (.setD (by simp) false)
  | sed => exact .of_impliedInstr (f := fun c => { c with d := true }) h (.setD (by simp) true)
  | cli => exact .of_impliedInstr (f := fun c => { c with i := false }) h (.setI (by simp) false)
  | sei => exact .of_impliedInstr (f := fun c => { c with i := true }) h (.setI (by simp) true)
  | clv => exact .of_impliedInstr (f := fun c => { c with v := false }) h (.setV (by simp) false)
  | nop => exact .of_impliedInstr (f := id) h (.refl .nop s.cpu)
  | bcc rel => exact .of_branchInstr h (by simp)
  | bcs rel => exact .of_branchInstr h (by simp)
  | beq rel => exact .of_branchInstr h (by simp)
  | bne rel => exact .of_branchInstr h (by simp)
  | bmi rel => exact .of_branchInstr h (by simp)
  | bpl rel => exact .of_branchInstr h (by simp)
  | bvc rel => exact .of_branchInstr h (by simp)
  | bvs rel => exact .of_branchInstr h (by simp)
  | jmp target => exact .of_execJmp h (by simp)
  | jsr target => exact .of_execJsr h (by simp) (by simp)
  | rts => exact .of_execRts h (by simp) (by simp)
  | rti => exact .of_execRti h (fun m _ => .setStatus (by simp) (by simp) (by simp) (by simp) (by simp) m) (by simp) (by simp)
  | brk => exact .of_execBrk h (by simp) (by simp) (by simp)
  | pha => exact .of_push h (by simp)
  | php => exact .of_push h (by simp)
  | pla => exact .of_pull h (by simp) fun v _ => .loadA (by simp) (by simp) v
  | plp => exact .of_pull h (by simp) fun v _ => .setStatus (by simp) (by simp) (by simp) (by simp) (by simp) v
  | _ => exact .of_undefinedInstr h

/-- Settles O31: every arm of `exec` writes only the registers of its own rows. -/
theorem onlyNamedInstructionsWrite : Obligations.OnlyNamedInstructionsWrite := by
  unfold Obligations.OnlyNamedInstructionsWrite
  intro i s t hi h
  obtain ⟨hd, hI, hv, hc, hnz, ha, hx, hy, hsp, hpc, hnmi, hext, hpaused⟩ := exec_namedWrites hi h
  exact ⟨hd, hI, hv, hc, hnz, ha, hx, hy, hsp, hpc, hnmi, hext, hpaused⟩

end Sys2Proof.Machine
end

/-! ## Fetching at PC (10_state.md R22; 20_memory.md R73) -/

section
namespace Sys2Proof.Machine

/-- A fetch moves PC past the byte and changes no other register, wherever PC points. -/
theorem fetchByte_cpu (s : State) : (fetchByte s).2.cpu = { s.cpu with pc := s.cpu.pc + 1 } := by
  simp [fetchByte, setPc]

@[simp] theorem fetchByte_pc (s : State) : (fetchByte s).2.cpu.pc = s.cpu.pc + 1 := by rw [fetchByte_cpu]

/-- The address of a byte after the first, counted from the second. -/
theorem addr_add_succ (a : Addr) (k : Nat) : a + BitVec.ofNat 16 (k + 1) = a + 1 + BitVec.ofNat 16 k := by
  rw [BitVec.ofNat_add, BitVec.add_comm (BitVec.ofNat 16 k), ← BitVec.add_assoc]
  rfl

theorem fetchBytes_cpu (n : Nat) (s : State) :
    (fetchBytes n s).2.cpu = { s.cpu with pc := s.cpu.pc + BitVec.ofNat 16 n } := by
  induction n generalizing s with
  | zero => simp [fetchBytes]
  | succ n ih => rw [fetchBytes, ih, fetchByte_cpu, addr_add_succ]

/-- From memory, fetching `n` bytes reads what stands there: no fetch changes a byte that a later one reads. -/
theorem fetchBytes_memory (n : Nat) (s : State) (h : ∀ k < n, isMemory (s.cpu.pc + BitVec.ofNat 16 k)) :
    (fetchBytes n s).1 = (List.range n).map (fun k => s.peek (s.cpu.pc + BitVec.ofNat 16 k)) ∧
      ∃ b, (fetchBytes n s).2 = { s with cpu := { s.cpu with pc := s.cpu.pc + BitVec.ofNat 16 n }, bus := b } := by
  induction n generalizing s with
  | zero => exact ⟨rfl, s.bus, by simp [fetchBytes]⟩
  | succ n ih =>
    have h0 : isMemory s.cpu.pc := by simpa using h 0 n.succ_pos
    have hrest : ∀ k < n, isMemory (s.cpu.pc + 1 + BitVec.ofNat 16 k) := fun k hk => by
      rw [← addr_add_succ]
      exact h (k + 1) (Nat.succ_lt_succ hk)
    have hfetch := fetchByte_memory h0
    obtain ⟨hbytes, b, hstate⟩ := ih (fetchByte s).2 (by simpa using hrest)
    refine ⟨?_, b, ?_⟩
    · have hpeek : ∀ k < n, (fetchByte s).2.peek (s.cpu.pc + 1 + BitVec.ofNat 16 k) =
          s.peek (s.cpu.pc + BitVec.ofNat 16 (k + 1)) := fun k hk => by
        rw [hfetch, addr_add_succ]
        exact peek_mk s _ _ _ _ _ _ _ (hrest k hk)
      rw [List.range_succ_eq_map, List.map_cons, List.map_map, fetchBytes, hbytes]
      refine congrArg₂ _ (by simp) (List.map_congr_left fun k hk => ?_)
      rw [fetchByte_pc]
      exact hpeek k (List.mem_range.1 hk)
    · rw [fetchBytes, hstate, hfetch, addr_add_succ]

/-- Settles O6, by induction on the number of bytes. -/
theorem fetchAdvancesPc : Obligations.FetchAdvancesPc := by
  unfold Obligations.FetchAdvancesPc
  exact fun s n => ⟨fetchBytes_cpu n s, fetchBytes_memory n s⟩

end Sys2Proof.Machine
end

/-! ## The frame of the reading instructions (10_state.md R25; 20_memory.md R74, R75) -/

section
namespace Sys2Proof.Machine

/-- From `s` to `t` only what a read of the operand `src` may change has changed, the registers of the CPU apart: the latch, and,
when the operand is not in memory, what a read of a PPU register or a port changes. -/
structure ReadsOnly (src : Src) (s t : State) : Prop where
  ram     : t.ram = s.ram
  prgRam  : t.prgRam = s.prgRam
  apuReg  : t.apuReg = s.apuReg
  mapper  : t.mapper = s.mapper
  console : t.console = s.console
  cart    : t.cart = s.cart
  cfg     : t.cfg = s.cfg
  ppu     : t.ppu = { s.ppu with
    vblank := t.ppu.vblank, v := t.ppu.v, t := t.ppu.t, w := t.ppu.w
    readBuf := t.ppu.readBuf, liveLine := t.ppu.liveLine }
  pad     : t.pad = ⟨{ s.pad.port1 with shift := t.pad.port1.shift }, { s.pad.port2 with shift := t.pad.port2.shift },
    s.pad.strobe⟩
  inMemory : (∀ n, src = .mem n → isMemory (effAddr n s).addr) → t = { s with cpu := t.cpu, bus := t.bus }

theorem ReadsOnly.sameMemory {src : Src} {s t : State} (h : ReadsOnly src s t) : sameMemory s t :=
  fun _ ha => peek_eq_of h.ram h.prgRam h.cart h.mapper ha

theorem ReadsOnly.withCpu {src : Src} {s t : State} (h : ReadsOnly src s t) (c : Cpu) : ReadsOnly src s (t.withCpu c) where
  ram := h.ram
  prgRam := h.prgRam
  apuReg := h.apuReg
  mapper := h.mapper
  console := h.console
  cart := h.cart
  cfg := h.cfg
  ppu := h.ppu
  pad := h.pad
  inMemory hm := congrArg (·.withCpu c) (h.inMemory hm)

/-- Reading the operand: an immediate reads nothing, a memory form reads its pointer, which changes the latch alone, and then
its effective address. -/
theorem readSrc_readsOnly (src : Src) (s : State) : ReadsOnly src s (readSrc src s).state := by
  cases src with
  | imm o => exact ⟨rfl, rfl, rfl, rfl, rfl, rfl, rfl, rfl, rfl, fun _ => rfl⟩
  | mem m =>
    obtain ⟨b, hb⟩ := effAddr_state m s
    have hread : (readSrc (.mem m) s).state = (memRead (effAddr m s).addr { s with bus := b }).2 := by rw [← hb]; rfl
    obtain ⟨vb, v, t, w, rb, l, sh1, sh2, hframe, _⟩ := memRead_frame (effAddr m s).addr { s with bus := b }
    have hmem : isMemory (effAddr m s).addr →
        (readSrc (.mem m) s).state = { s with cpu := (readSrc (.mem m) s).state.cpu, bus := (readSrc (.mem m) s).state.bus } :=
      fun h => by rw [hread, memRead_memory h]
    rw [hread] at hmem ⊢
    refine ⟨?_, ?_, ?_, ?_, ?_, ?_, ?_, ?_, ?_, fun h => hmem (h m rfl)⟩ <;> rw [hframe]

/-- A reading instruction completes, changes of the CPU what `F` takes from the registers after it, and beside the CPU only
what the read changes. -/
theorem readInstr_readsOnly (src : Src) (s : State) {f : Byte → Cpu → Cpu} {F : Cpu → Cpu}
    (hF : ∀ v k, { f v s.cpu with cycles := k } = F { f v s.cpu with cycles := k }) :
    ∃ t, readInstr src f s = .next t ∧ t.cpu = F t.cpu ∧ ReadsOnly src s t := by
  refine ⟨_, rfl, ?_, (readSrc_readsOnly src s).withCpu _⟩
  obtain ⟨v, k, hcpu⟩ := readInstr_cpu (rfl : readInstr src f s = _)
  rw [hcpu]
  exact hF v k

/-- Settles O28: every reading instruction is a `readInstr`, and its registers are read off its register operation. -/
theorem readsLeaveTheRest : Obligations.ReadsLeaveTheRest := by
  unfold Obligations.ReadsLeaveTheRest
  intro src m s rest goes c
  have read : ∀ {src : Src} {i : Instr} {F : Cpu → Cpu} (f : Byte → Cpu → Cpu), exec i s = readInstr src f s →
      (∀ v k, { f v c with cycles := k } = F { f v c with cycles := k }) → goes src i F := by
    intro src i F f hexec hF
    obtain ⟨t, ht, hcpu, h⟩ := readInstr_readsOnly src s hF
    exact ⟨t, hexec.trans ht, hcpu, h.sameMemory, h.ram, h.prgRam, h.apuReg, h.mapper, h.console, h.cart, h.cfg, h.ppu, h.pad,
      h.inMemory⟩
  -- the statement's own abbreviation is used through `read` alone
  clear_value goes
  exact ⟨read loadA rfl fun _ _ => rfl,
    read loadX rfl fun _ _ => rfl,
    read loadY rfl fun _ _ => rfl,
    read addWithCarry rfl fun _ _ => rfl,
    read subWithBorrow rfl fun _ _ => rfl,
    read (fun m c => loadA (c.a &&& m) c) rfl fun _ _ => rfl,
    read (fun m c => loadA (c.a ||| m) c) rfl fun _ _ => rfl,
    read (fun m c => loadA (c.a ^^^ m) c) rfl fun _ _ => rfl,
    read (fun m c => compareWith c.a m c) rfl fun _ _ => rfl,
    read (fun m c => compareWith c.x m c) rfl fun _ _ => rfl,
    read (fun m c => compareWith c.y m c) rfl fun _ _ => rfl,
    read bitTest rfl fun _ _ => rfl⟩

end Sys2Proof.Machine
end

/-! ## The frame of the storing instructions (10_state.md R25; 50_bus_devices.md R302, R306, R307, R314) -/

section
namespace Sys2Proof.Machine

/-- From `s` to `t` a store of `value` at `ea` has been made, the registers of the CPU apart: of work and cartridge RAM only that
cell changes, below the mapper's window no other byte of memory and no request line, and a store to RAM changes nothing
else. -/
structure StoresAt (ea : Addr) (value : Byte) (s t : State) : Prop where
  console : t.console = s.console
  cart    : t.cart = s.cart
  cfg     : t.cfg = s.cfg
  ramCell : ∀ a, isRam a → ¬ sameCell a ea → t.peek a = s.peek a
  below   : ea.toNat < 0x8000 →
    (∀ a, isMemory a → ¬ sameCell a ea → t.peek a = s.peek a) ∧ t.cpu.irqLines = s.cpu.irqLines
  ram     : isRam ea → t.peek ea = value ∧ t = { s with cpu := t.cpu, bus := t.bus, ram := t.ram, prgRam := t.prgRam }

theorem isRam.isMemory {a : Addr} (h : isRam a) : isMemory a := by omega

/-- A bus write is a store at its address. -/
theorem memWrite_storesAt {s t : State} (hi : s.Inv) {ea : Addr} {d : Byte} (h : memWrite ea d s = .ok t) :
    StoresAt ea d s t := by
  obtain ⟨u, hu, _, hran, _⟩ := memWrite_spec hi ea d
  obtain rfl : u = t := Except.ok.inj (hu.symm.trans h)
  obtain ⟨hbelow, hram⟩ := memWrite_memory hi.memories.ram.canonical hi.memories.prgRam.canonical h
  refine ⟨hran.console, hran.cart, hran.cfg, memWrite_ramFrame hi h, hbelow, fun hea => ?_⟩
  obtain ⟨hvalue, hrest⟩ := hram hea
  refine ⟨hvalue ea (.inl rfl), ?_⟩
  rw [hrest]

/-- The flags set after the store, and its cycles, are no part of what it stores. -/
theorem StoresAt.withCpu {ea : Addr} {value : Byte} {s t : State} (h : StoresAt ea value s t) {c : Cpu}
    (hc : c.irqLines = t.cpu.irqLines) : StoresAt ea value s (t.withCpu c) where
  console := h.console
  cart := h.cart
  cfg := h.cfg
  ramCell a ha hne := (peek_withCpu t c ha.isMemory).trans (h.ramCell a ha hne)
  below hea := ⟨fun a ha hne => (peek_withCpu t c ha).trans ((h.below hea).1 a ha hne), hc.trans (h.below hea).2⟩
  ram hea := ⟨(peek_withCpu t c hea.isMemory).trans (h.ram hea).1, congrArg (·.withCpu c) (h.ram hea).2⟩

/-- The reads before a store leave every byte of memory and, when the address is in RAM, everything but the latch; so the store is
one from the state before them, of the value that it has when the address is in RAM. -/
theorem StoresAt.after_reads {ea : Addr} {value value' : Byte} {s p t : State} (h : StoresAt ea value' p t)
    (hcpu : p.cpu = s.cpu) (hconsole : p.console = s.console) (hcart : p.cart = s.cart) (hcfg : p.cfg = s.cfg)
    (hmem : sameMemory s p) (hram : isRam ea → value' = value ∧ p = { s with bus := p.bus }) : StoresAt ea value s t where
  console := h.console.trans hconsole
  cart := h.cart.trans hcart
  cfg := h.cfg.trans hcfg
  ramCell a ha hne := (h.ramCell a ha hne).trans (hmem a ha.isMemory)
  below hea := ⟨fun a ha hne => ((h.below hea).1 a ha hne).trans (hmem a ha), (h.below hea).2.trans (by rw [hcpu])⟩
  ram hea := by
    obtain ⟨rfl, hp⟩ := hram hea
    refine ⟨(h.ram hea).1, (h.ram hea).2.trans ?_⟩
    rw [hp]

/-- A store instruction: the register at the effective address, and no register or flag changes. -/
theorem storeInstr_storesAt {s : State} (hi : s.Inv) (m : Mem) (reg : Cpu → Byte) : ∃ t, storeInstr m reg s = .next t ∧
    t.cpu = { s.cpu with irqLines := ⟨t.cpu.irqLines.mapper, s.cpu.irqLines.external⟩, cycles := t.cpu.cycles } ∧
    StoresAt (effAddr m s).addr (reg s.cpu) s t := by
  obtain ⟨u, hu, _, _, _, _, ht⟩ := storeInstr_spec hi m reg
  refine ⟨_, ht, ?_, ?_⟩
  · obtain ⟨l, k, hcpu⟩ := storeInstr_cpu hi ht
    rw [hcpu]
  · have hstore := memWrite_storesAt (hi.effAddr m) hu
    obtain ⟨b, hb⟩ := effAddr_state m s
    rw [hb] at hstore
    have hmem : sameMemory s { s with bus := b } := fun a ha => peek_mk s _ _ _ _ _ _ _ ha
    exact (hstore.after_reads (s := s) rfl rfl rfl rfl hmem fun _ => ⟨rfl, rfl⟩).withCpu rfl

/-- A read-modify-write of memory: the result at the effective address; of the CPU it changes what `F` takes from the registers
after it. -/
theorem modifyInstr_storesAt {s : State} (hi : s.Inv) (m : Mem) (result : Byte → Bool → Byte) {flags : Byte → Cpu → Cpu}
    {F : Cpu → Cpu} (hflags : ∀ b c, (flags b c).irqLines = c.irqLines)
    (hF : ∀ b l n k,
      let c := flags b { s.cpu with irqLines := ⟨l, s.cpu.irqLines.external⟩, cycles := n }
      { c with cycles := k } = F { c with cycles := k }) :
    ∃ t, modifyInstr m result flags s = .next t ∧ t.cpu = F t.cpu ∧
      StoresAt (effAddr m s).addr (result (s.peek (effAddr m s).addr) s.cpu.c) s t := by
  obtain ⟨u, hu, _, _, _, _, ht⟩ := modifyInstr_spec hi m result flags
  refine ⟨_, ht, ?_, ?_⟩
  · obtain ⟨b, l, n, k, hcpu⟩ := modifyInstr_cpu hi ht
    rw [hcpu]
    exact hF b l n k
  · have hstore := memWrite_storesAt ((hi.effAddr m).memRead _) hu
    have hread := readSrc_readsOnly (.mem m) s
    have hvalue : isRam (effAddr m s).addr →
        (memRead (effAddr m s).addr (effAddr m s).state).1 = s.peek (effAddr m s).addr := fun hea => by
      obtain ⟨b, hb⟩ := effAddr_state m s
      rw [hb]
      exact peek_mk s _ _ _ _ _ _ _ hea.isMemory
    refine (hstore.after_reads (readSrc_cpu (.mem m) s) hread.console hread.cart hread.cfg hread.sameMemory
      fun hea => ⟨by rw [hvalue hea], ?_⟩).withCpu (hflags _ _)
    have hlatch := hread.inMemory fun n hn => Src.mem.inj hn ▸ hea.isMemory
    rw [readSrc_cpu] at hlatch
    exact hlatch

/-- The carry that `ROR` moves in and the bits it moves right lie apart, in either order (43_shift_rotate.md R213). -/
theorem rorResult_comm (m : Byte) (c : Bool) : rorResult m c = (m >>> 1) ||| (bitByte c <<< 7) := BitVec.or_comm _ _

/-- Settles O29: every storing instruction is a `storeInstr` or a `modifyInstr`, and both are one bus write at the effective
address. -/
theorem storesChangeOnlyTheirBytes : Obligations.StoresChangeOnlyTheirBytes := by
  unfold Obligations.StoresChangeOnlyTheirBytes
  intro m s hi ea stores c none nz nzc
  have of_storesAt : ∀ {i : Instr} {value : Byte} {f : Cpu → Cpu},
      (∃ t, exec i s = .next t ∧ t.cpu = f t.cpu ∧ StoresAt ea value s t) → stores i value f := by
    rintro i value f ⟨t, ht, hcpu, h⟩
    exact ⟨t, ht, hcpu, h.console, h.cart, h.cfg, h.ramCell, h.below, h.ram⟩
  have shift : ∀ (result : Byte → Bool → Byte) (out : Byte → Bool), ∃ t, shiftInstr (.mem m) result out s = .next t ∧
      t.cpu = nzc t.cpu ∧ StoresAt ea (result (s.peek ea) s.cpu.c) s t := fun result out =>
    modifyInstr_storesAt hi m result (fun _ _ => rfl) fun _ _ _ _ => rfl
  -- the statement's own abbreviation is used through `of_storesAt` alone
  clear_value stores
  refine ⟨of_storesAt (storeInstr_storesAt hi m Cpu.a), of_storesAt (storeInstr_storesAt hi m Cpu.x),
    of_storesAt (storeInstr_storesAt hi m Cpu.y), of_storesAt ?_, of_storesAt ?_, of_storesAt (shift aslResult bit7),
    of_storesAt (shift lsrResult bit0), of_storesAt (shift rolResult bit7), of_storesAt ?_⟩
  · exact modifyInstr_storesAt hi m (F := nz) (fun b _ => b + 1) (flags := fun b => setNZ (b + 1)) (fun _ _ => rfl)
      fun _ _ _ _ => rfl
  · exact modifyInstr_storesAt hi m (F := nz) (fun b _ => b - 1) (flags := fun b => setNZ (b - 1)) (fun _ _ => rfl)
      fun _ _ _ _ => rfl
  · rw [← rorResult_comm]
    exact shift rorResult bit0

end Sys2Proof.Machine
end

/-! ## The frame of the stack instructions (10_state.md R23; 44_control_transfer.md R230-R233; 60_exceptions.md R507) -/

section
namespace Sys2Proof.Machine

/-- From `s` to `t` the only byte of memory that changed lies in one of `cells`, and beside work RAM only the CPU and the latch
did; work RAM is still in canonical form. -/
structure StackOnly (cells : List Addr) (s t : State) : Prop where
  rest      : t = { s with cpu := t.cpu, bus := t.bus, ram := t.ram }
  canonical : Memory.wf t.ram = true
  bytes     : ∀ a, isMemory a → (∀ c ∈ cells, ¬ sameCell a c) → t.peek a = s.peek a

namespace StackOnly

variable {cells : List Addr} {s t : State}

theorem refl (cells : List Addr) (h : Memory.wf s.ram = true) : StackOnly cells s s := ⟨rfl, h, fun _ _ _ => rfl⟩

/-- A push to one of the cells. -/
theorem pushed (h : StackOnly cells s t) (hmem : stackAddr t.cpu.sp ∈ cells) (v : Byte) :
    StackOnly cells s (pushed v t) where
  rest := by
    rw [h.rest]
    rfl
  canonical := wf_pushed v h.canonical
  bytes a ha hne := (peek_pushed v h.canonical ha (hne _ hmem)).trans (h.bytes a ha hne)

/-- Whatever happens to the registers and the latch, as in a pull. -/
theorem withCpuBus (h : StackOnly cells s t) (c : Cpu) (b : Bus) : StackOnly cells s { t with cpu := c, bus := b } where
  rest := by
    rw [h.rest]
  canonical := h.canonical
  bytes a ha hne := (peek_mk t c b _ _ _ _ _ ha).trans (h.bytes a ha hne)

end StackOnly

/-! ### The instructions -/

section
variable {s : State} (h : Memory.wf s.ram = true)
include h

/-- `PHA` and `PHP`. -/
theorem push_stackOnly (v : Byte) (n : Nat) : ∃ t, complete ((push v s).map (charge n)) = .next t ∧
    StackOnly [stackAddr s.cpu.sp] s t := by
  rw [push_eq]
  exact ⟨_, rfl, ((StackOnly.refl _ h).pushed (by simp) v).withCpuBus _ _⟩

/-- `PLA` and `PLP`. -/
theorem pull_stackOnly (f : Byte → Cpu → Cpu) (n : Nat) :
    StackOnly [] s (charge n ((pull s).2.withCpu (f (pull s).1 (pull s).2.cpu))) := by
  rw [pull_eq]
  exact (StackOnly.refl _ h).withCpuBus _ _

theorem execRts_stackOnly : ∃ t, execRts s = .next t ∧ StackOnly [] s t := by
  unfold execRts
  rw [pull16_eq]
  exact ⟨_, rfl, (StackOnly.refl _ h).withCpuBus _ _⟩

theorem execRti_stackOnly : ∃ t, execRti s = .next t ∧ StackOnly [] s t := by
  unfold execRti
  rw [returnFromInterrupt_eq]
  exact ⟨_, rfl, (StackOnly.refl _ h).withCpuBus _ _⟩

theorem execJsr_stackOnly (target : Addr) : ∃ t, execJsr target s = .next t ∧
    StackOnly [stackAddr s.cpu.sp, stackAddr (s.cpu.sp - 1)] s t := by
  unfold execJsr
  rw [push16_eq]
  exact ⟨_, rfl, (((StackOnly.refl _ h).pushed (by simp) _).pushed (by simp [Machine.pushed]) _).withCpuBus _ _⟩

/-- `BRK` and the interrupt entries, which may clear a request first: three pushes, from the stack pointer down. -/
theorem enterVector_stackOnly {vec : Addr} (h1 : isMemory vec) (h2 : isMemory (vec + 1)) (ret : Addr) (b : Bool) {c : Cpu}
    (hc : c.sp = s.cpu.sp) (n : Nat) : ∃ t, complete ((enterVector vec ret b (s.withCpu c)).map (charge n)) = .next t ∧
      StackOnly [stackAddr s.cpu.sp, stackAddr (s.cpu.sp - 1), stackAddr (s.cpu.sp - 1 - 1)] s t := by
  rw [enterVector_eq h1 h2, ← hc]
  have cleared : StackOnly [stackAddr c.sp, stackAddr (c.sp - 1), stackAddr (c.sp - 1 - 1)] s (s.withCpu c) :=
    (StackOnly.refl _ h).withCpuBus c s.bus
  have pushes := ((cleared.pushed (by simp) (hiByte ret)).pushed (by simp [Machine.pushed]) (loByte ret)).pushed
    (by simp [Machine.pushed]) (statusByte b c)
  exact ⟨_, rfl, pushes.withCpuBus _ _⟩

end

/-- Settles O30: pushes go to the slots from the stack pointer down, and pulls change the registers and the latch alone. -/
theorem stackInstructionsChangeOnlyTheStack : Obligations.StackInstructionsChangeOnlyTheStack := by
  unfold Obligations.StackInstructionsChangeOnlyTheStack
  intro s target h slot only
  have of_stackOnly : ∀ {r : Result} {cells : List Addr}, (∃ t, r = .next t ∧ StackOnly cells s t) → only r cells :=
    fun ⟨t, hr, ht⟩ => ⟨t, hr, ht.rest, ht.bytes⟩
  have slot0 : slot 0 = stackAddr s.cpu.sp := congrArg stackAddr (BitVec.sub_zero _)
  have slot1 : slot 1 = stackAddr (s.cpu.sp - 1) := rfl
  have slot2 : slot 2 = stackAddr (s.cpu.sp - 1 - 1) := congrArg stackAddr (by bv_omega)
  rw [slot0, slot1, slot2]
  -- the statement's own abbreviation is used through `of_stackOnly` alone
  clear_value only
  have entry (vec ret : Addr) (b : Bool) {c : Cpu} (hc : c.sp = s.cpu.sp) (h1 : isMemory vec) (h2 : isMemory (vec + 1)) :=
    of_stackOnly (enterVector_stackOnly h h1 h2 ret b hc 7)
  exact ⟨of_stackOnly (push_stackOnly h _ 3), of_stackOnly (push_stackOnly h _ 3),
    of_stackOnly ⟨_, rfl, pull_stackOnly h loadA 4⟩, of_stackOnly ⟨_, rfl, pull_stackOnly h setStatus 4⟩,
    of_stackOnly (execRts_stackOnly h), of_stackOnly (execRti_stackOnly h), of_stackOnly (execJsr_stackOnly h target),
    entry irqVector (s.cpu.pc + 1) true (c := s.cpu) rfl (by decide) (by decide),
    entry nmiVector s.cpu.pc false (c := { s.cpu with nmiPending := false }) rfl (by decide) (by decide),
    entry irqVector s.cpu.pc false (c := s.cpu) rfl (by decide) (by decide)⟩

end Sys2Proof.Machine
end

/-! ## The PPU's address space (20_memory.md R90-R94) -/

section
namespace Sys2Proof.Machine

/-- The cell of video RAM that a PPU address names under a nametable mask: none for a pattern address of CHR ROM
(20_memory.md R91, R92). -/
def vramCell (cart : Cart) (mirrorMask : Byte) (a : PAddr) : Option Nat :=
  if a.toNat < 0x2000 then (if cart.nChr = 0 then some a.toNat else none) else some (fold mirrorMask a)

section
variable {cart : Cart} {mask : Byte} {p : Ppu} {a b : PAddr} {k : Nat}

theorem Cart.hasChrRom_iff : cart.hasChrRom = true ↔ cart.nChr ≠ 0 := by simp [Cart.hasChrRom, Nat.pos_iff_ne_zero]

theorem vramCell_eq_none : vramCell cart mask a = none ↔ a.toNat < 0x2000 ∧ cart.nChr ≠ 0 := by
  by_cases h : a.toNat < 0x2000 <;> simp [vramCell, h]

theorem vramCell_eq_some : vramCell cart mask a = some k ↔
    a.toNat < 0x2000 ∧ cart.nChr = 0 ∧ a.toNat = k ∨ 0x2000 ≤ a.toNat ∧ fold mask a = k := by
  by_cases h : a.toNat < 0x2000
  · simp [vramCell, h, Nat.not_le_of_lt h]
  · simp [vramCell, h, Nat.le_of_not_lt h]

/-! ### Reads and writes by region -/

/-- A pattern address reads its 1KB bank of CHR ROM, or video RAM (20_memory.md R92). -/
theorem Ppu.read_pattern (h : a.toNat < 0x2000) {j : Fin 8} (hj : j.1 = a.toNat / 0x400) : p.read cart a =
    if cart.nChr = 0 then Memory.read p.vram a.toNat else Memory.read cart.chr (p.chrOff.get j + a.toNat % 0x400) := by
  have hcell : (a.setWidth 13 : BitVec 13).toNat = a.toNat := by
    rw [BitVec.toNat_setWidth]
    omega
  have hslot : ((a.setWidth 13 : BitVec 13).extractLsb' 10 3).toFin = j := by
    apply Fin.ext
    rw [BitVec.val_toFin, toNat_extract_eq, hcell, hj]
    omega
  unfold Ppu.read patRead
  rw [if_pos h, hcell, hslot, BitVec.toNat_setWidth, hcell]
  simp only [Cart.hasChrRom_iff, ne_eq, ite_not]

theorem Ppu.read_fold (h : 0x2000 ≤ a.toNat) : p.read cart a = Memory.read p.vram (fold p.mirrorMask a) :=
  if_neg (by omega)

/-- An address with a cell reads that cell. -/
theorem Ppu.read_of_cell (h : vramCell cart p.mirrorMask a = some k) : p.read cart a = Memory.read p.vram k := by
  obtain ⟨ha, hc, rfl⟩ | ⟨ha, rfl⟩ := vramCell_eq_some.1 h
  · rw [Ppu.read_pattern ha (j := ⟨a.toNat / 0x400, by omega⟩) rfl, if_pos hc]
  · exact Ppu.read_fold ha

/-- An address of CHR ROM reads the same whatever video RAM holds. -/
theorem Ppu.read_of_rom (h : vramCell cart p.mirrorMask a = none) (m : Memory) :
    Ppu.read cart { p with vram := m } a = p.read cart a := by
  obtain ⟨ha, hc⟩ := vramCell_eq_none.1 h
  have hj : (⟨a.toNat / 0x400, by omega⟩ : Fin 8).1 = a.toNat / 0x400 := rfl
  rw [Ppu.read_pattern ha hj, Ppu.read_pattern ha hj, if_neg hc, if_neg hc]

/-- A write to an address with a cell writes that cell. -/
theorem Ppu.write_of_cell (h : vramCell cart p.mirrorMask a = some k) (d : Byte) :
    p.write cart a d = { p with vram := Memory.write p.vram k d } := by
  unfold Ppu.write
  obtain ⟨ha, hc, rfl⟩ | ⟨ha, rfl⟩ := vramCell_eq_some.1 h
  · rw [if_pos ha, if_neg (by simpa [Cart.hasChrRom_iff] using hc)]
  · exact if_neg (by omega)

/-- CHR ROM ignores a write. -/
theorem Ppu.write_of_rom (h : vramCell cart p.mirrorMask a = none) (d : Byte) : p.write cart a d = p := by
  obtain ⟨ha, hc⟩ := vramCell_eq_none.1 h
  unfold Ppu.write
  rw [if_pos ha, if_pos (Cart.hasChrRom_iff.2 hc)]

/-! ### Read after write -/

/-- The two addresses name one cell of video RAM. -/
def sameVramCell (cart : Cart) (mask : Byte) (a b : PAddr) : Prop :=
  ∃ k, vramCell cart mask a = some k ∧ vramCell cart mask b = some k

/-- A byte written comes back through every address of its cell. -/
theorem Ppu.read_write_same (hwf : Memory.wf p.vram = true) (d : Byte) (h : sameVramCell cart p.mirrorMask a b) :
    (p.write cart a d).read cart b = d := by
  obtain ⟨k, ha, hb⟩ := h
  rw [Ppu.write_of_cell ha]
  exact Eq.trans (Ppu.read_of_cell hb) (Memory.read_write_self hwf k d)

/-- No other address sees the write. -/
theorem Ppu.read_write_other (hwf : Memory.wf p.vram = true) (d : Byte) (h : ¬ sameVramCell cart p.mirrorMask a b) :
    (p.write cart a d).read cart b = p.read cart b := by
  cases ha : vramCell cart p.mirrorMask a with
  | none => rw [Ppu.write_of_rom ha]
  | some k =>
    rw [Ppu.write_of_cell ha]
    cases hb : vramCell cart p.mirrorMask b with
    | none => exact Ppu.read_of_rom hb _
    | some l =>
      have hne : l ≠ k := fun e => h ⟨k, ha, e ▸ hb⟩
      rw [Ppu.read_of_cell hb]
      exact Eq.trans (Ppu.read_of_cell hb) (Memory.read_write_ne hwf hne d)

/-- A pattern address of CHR RAM shares its cell with no other address, and one of CHR ROM has none; from $2000 on the fold decides. -/
theorem sameVramCell_iff : sameVramCell cart mask a b ↔
    if a.toNat < 0x2000 then b = a ∧ cart.nChr = 0 else 0x2000 ≤ b.toNat ∧ fold mask b = fold mask a := by
  have hfa := fold_ge mask a
  have hfb := fold_ge mask b
  unfold sameVramCell
  simp only [vramCell_eq_some]
  split
  case isTrue ha =>
    constructor
    · rintro ⟨k, ⟨-, hc, rfl⟩ | ⟨ha', -⟩, ⟨-, -, hb⟩ | ⟨-, hb⟩⟩
      · exact ⟨BitVec.eq_of_toNat_eq hb, hc⟩
      all_goals omega
    · rintro ⟨rfl, hc⟩
      exact ⟨_, .inl ⟨ha, hc, rfl⟩, .inl ⟨ha, hc, rfl⟩⟩
  case isFalse ha =>
    constructor
    · rintro ⟨k, ⟨ha', -⟩ | ⟨-, rfl⟩, ⟨hb', -, hb⟩ | hb⟩
      all_goals omega
    · exact fun hb => ⟨_, .inr ⟨Nat.le_of_not_lt ha, rfl⟩, .inr hb⟩

end

/-- Settles O43: the fold and the pattern reads in numbers, and read after write by the cells the two addresses name. -/
theorem ppuAddressSpace : Obligations.PpuAddressSpace := by
  unfold Obligations.PpuAddressSpace
  intro cart p m a b d hwf hm
  rw [← hm]
  have hframe : p.write cart a d = { p with vram := (p.write cart a d).vram } := by
    obtain ⟨v, hv, -⟩ := Ppu.write_kept cart p a d
    rw [hv]
  refine ⟨fun _ => ?_, fun h j hj => Ppu.read_pattern h hj, Ppu.read_fold, hframe,
    fun h => Ppu.read_write_same hwf d (sameVramCell_iff.2 h),
    fun h => Ppu.read_write_other hwf d (mt sameVramCell_iff.1 h)⟩
  rw [hm]
  refine (fold_eq m a).trans ?_
  cases m <;> rfl

end Sys2Proof.Machine
end

/-! ## Decoding and encoding (30_encoding.md R110-R115) -/

section
namespace Sys2Proof.Laws.Encoded

/-- The encoding law of every instruction, each by its own lemma. -/
theorem statement_instr : ∀ i : Instr, Statement i
  | .lda src => lda src | .ldx src => ldx src | .ldy src => ldy src | .sta m => sta m | .stx m => stx m
  | .sty m => sty m | .tax => tax | .tay => tay | .txa => txa | .tya => tya | .tsx => tsx | .txs => txs
  | .adc src => adc src | .sbc src => sbc src | .and src => and src | .ora src => ora src | .eor src => eor src
  | .bit m => bit m | .cmp src => cmp src | .cpx src => cpx src | .cpy src => cpy src | .inc m => inc m
  | .dec m => dec m | .inx => inx | .iny => iny | .dex => dex | .dey => dey | .asl dst => asl dst
  | .lsr dst => lsr dst | .rol dst => rol dst | .ror dst => ror dst | .bcc rel => bcc rel | .bcs rel => bcs rel
  | .beq rel => beq rel | .bne rel => bne rel | .bmi rel => bmi rel | .bpl rel => bpl rel | .bvc rel => bvc rel
  | .bvs rel => bvs rel | .jmp target => jmp target | .jsr target => jsr target | .rts => rts | .rti => rti
  | .brk => brk | .pha => pha | .php => php | .pla => pla | .plp => plp | .clc => clc | .cld => cld | .cli => cli
  | .clv => clv | .sec => sec | .sed => sed | .sei => sei | .nop => nop | .und02 => und02 | .und03 o => und03 o
  | .und04 o => und04 o | .und07 o => und07 o | .und0B o => und0B o | .und0C o => und0C o | .und0F o => und0F o
  | .und12 => und12 | .und13 o => und13 o | .und14 o => und14 o | .und17 o => und17 o | .und1A => und1A
  | .und1B o => und1B o | .und1C o => und1C o | .und1F o => und1F o | .und22 => und22 | .und23 o => und23 o
  | .und27 o => und27 o | .und2B o => und2B o | .und2F o => und2F o | .und32 => und32 | .und33 o => und33 o
  | .und34 o => und34 o | .und37 o => und37 o | .und3A => und3A | .und3B o => und3B o | .und3C o => und3C o
  | .und3F o => und3F o | .und42 => und42 | .und43 o => und43 o | .und44 o => und44 o | .und47 o => und47 o
  | .und4B o => und4B o | .und4F o => und4F o | .und52 => und52 | .und53 o => und53 o | .und54 o => und54 o
  | .und57 o => und57 o | .und5A => und5A | .und5B o => und5B o | .und5C o => und5C o | .und5F o => und5F o
  | .und62 => und62 | .und63 o => und63 o | .und64 o => und64 o | .und67 o => und67 o | .und6B o => und6B o
  | .und6F o => und6F o | .und72 => und72 | .und73 o => und73 o | .und74 o => und74 o | .und77 o => und77 o
  | .und7A => und7A | .und7B o => und7B o | .und7C o => und7C o | .und7F o => und7F o | .und80 o => und80 o
  | .und82 o => und82 o | .und83 o => und83 o | .und87 o => und87 o | .und89 o => und89 o | .und8B o => und8B o
  | .und8F o => und8F o | .und92 => und92 | .und93 o => und93 o | .und97 o => und97 o | .und9B o => und9B o
  | .und9C o => und9C o | .und9E o => und9E o | .und9F o => und9F o | .undA3 o => undA3 o | .undA7 o => undA7 o
  | .undAB o => undAB o | .undAF o => undAF o | .undB2 => undB2 | .undB3 o => undB3 o | .undB7 o => undB7 o
  | .undBB o => undBB o | .undBF o => undBF o | .undC2 o => undC2 o | .undC3 o => undC3 o | .undC7 o => undC7 o
  | .undCB o => undCB o | .undCF o => undCF o | .undD2 => undD2 | .undD3 o => undD3 o | .undD4 o => undD4 o
  | .undD7 o => undD7 o | .undDA => undDA | .undDB o => undDB o | .undDC o => undDC o | .undDF o => undDF o
  | .undE2 o => undE2 o | .undE3 o => undE3 o | .undE7 o => undE7 o | .undEB o => undEB o | .undEF o => undEF o
  | .undF2 => undF2 | .undF3 o => undF3 o | .undF4 o => undF4 o | .undF7 o => undF7 o | .undFA => undFA
  | .undFB o => undFB o | .undFC o => undFC o | .undFF o => undFF o

end Sys2Proof.Laws.Encoded

namespace Sys2Proof.Machine

/-! ### What an opcode byte says -/

theorem opcodeLength_cases (op : Byte) : opcodeLength op = 1 ∨ opcodeLength op = 2 ∨ opcodeLength op = 3 := by
  unfold opcodeLength
  split <;> simp

/-- At every opcode byte the map has one well-formed instruction, of that opcode (R114, R115). -/
theorem decodeOpcode_wellFormed_opcode (op l h : Byte) :
    WellFormed (decodeOpcode op l h) ∧ (decodeOpcode op l h).opcode = some op := by
  obtain ⟨⟨n, hn⟩⟩ := op
  change n < 256 at hn
  interval_cases n <;> exact ⟨rfl, rfl⟩

/-- Its operand bytes are those after the opcode that the length counts (R113). -/
theorem decodeOpcode_operandBytes (op l h : Byte) :
    (decodeOpcode op l h).operandBytes = [l, h].take (opcodeLength op - 1) := by
  -- by evaluation at each opcode, with a two-byte operand still packed in its word
  have packed : (decodeOpcode op l h).operandBytes =
      if opcodeLength op = 3 then [loByte (wordOf h l), hiByte (wordOf h l)] else [l].take (opcodeLength op - 1) := by
    obtain ⟨⟨n, hn⟩⟩ := op
    change n < 256 at hn
    interval_cases n <;> rfl
  rw [packed]
  obtain hlen | hlen | hlen := opcodeLength_cases op <;> simp [hlen]

/-- The words of the instruction read at an opcode byte. -/
theorem encode_decodeOpcode (op l h : Byte) :
    encode (decodeOpcode op l h) = some (op :: [l, h].take (opcodeLength op - 1)) := by
  rw [encode, (decodeOpcode_wellFormed_opcode op l h).2, decodeOpcode_operandBytes, Option.map_some]

/-! ### What the decoder answers -/

section
variable {op : Byte} {bytes rest : List Byte} {i : Instr}

/-- With enough bytes after the opcode, the decoder reads those that the length counts and leaves the rest (R110, R111). -/
theorem decode_of_complete (h : opcodeLength op ≤ rest.length + 1) :
    ∃ b c, decode (op :: rest) = .ok (decodeOpcode op b c, rest.drop (opcodeLength op - 1)) ∧
      [b, c].take (opcodeLength op - 1) = rest.take (opcodeLength op - 1) := by
  obtain hlen | hlen | hlen := opcodeLength_cases op
  · exact ⟨0, 0, by simp [decode, hlen]⟩
  · match rest with
    | [] => simp [hlen] at h
    | b :: rest => exact ⟨b, 0, by simp [decode, hlen]⟩
  · match rest with
    | [] | [_] => simp [hlen] at h
    | b :: c :: rest => exact ⟨b, c, by simp [decode, hlen]⟩

theorem decode_of_truncated (h : rest.length + 1 < opcodeLength op) : decode (op :: rest) = .error (.truncated op) := by
  obtain hlen | hlen | hlen := opcodeLength_cases op
  · omega
  · match rest with
    | [] => simp [decode, hlen]
    | _ :: _ => simp [hlen] at h
  · match rest with
    | [] | [_] => simp [decode, hlen]
    | _ :: _ :: tail =>
      rw [List.length_cons, List.length_cons, hlen] at h
      omega

/-- Whatever is decoded was read at an opcode byte with all its operand bytes behind it. -/
theorem decode_eq_ok (h : decode bytes = .ok (i, rest)) : ∃ op b c, i = decodeOpcode op b c ∧
    bytes = op :: [b, c].take (opcodeLength op - 1) ++ rest := by
  match bytes with
  | [] => cases h
  | op :: tail =>
    by_cases hlen : opcodeLength op ≤ tail.length + 1
    · obtain ⟨b, c, hdec, htake⟩ := decode_of_complete hlen
      obtain ⟨rfl, rfl⟩ := Prod.mk.inj (Except.ok.inj (hdec.symm.trans h))
      exact ⟨op, b, c, rfl, by rw [htake, List.cons_append, List.take_append_drop]⟩
    · cases (decode_of_truncated (Nat.lt_of_not_le hlen)).symm.trans h

/-- Bytes that are the words of one instruction are as many as the opcode says (R111). -/
theorem opcodeLength_of_decode (h : decode (op :: rest) = .ok (i, [])) : opcodeLength op = rest.length + 1 := by
  obtain ⟨op', b, c, -, hbytes⟩ := decode_eq_ok h
  obtain ⟨rfl, rfl⟩ := List.cons.inj hbytes
  obtain hlen | hlen | hlen := opcodeLength_cases op <;> simp [hlen]

end

/-! ### The fetch -/

theorem length_fetchBytes (n : Nat) (s : State) : (fetchBytes n s).1.length = n := by
  induction n generalizing s with
  | zero => rfl
  | succ n ih => rw [fetchBytes, List.length_cons, ih]

/-- `fetchInstr` is the decoder on as many bytes at PC as the opcode there asks for (R111, R114). -/
theorem fetchInstr_decodes {s : State} {n : Nat} (hn : opcodeLength (fetchByte s).1 = n) :
    decode (fetchBytes n s).1 = .ok ((fetchInstr s).1, []) ∧ (fetchBytes n s).2 = (fetchInstr s).2 := by
  subst hn
  obtain hlen | hlen | hlen := opcodeLength_cases (fetchByte s).1 <;>
    simp only [hlen, fetchBytes, decode, fetchInstr, and_self]

/-- When the bytes at PC are the words of one instruction, that is the instruction fetched. -/
theorem fetchInstr_of_decode {s : State} {n : Nat} {i : Instr} (h : decode (fetchBytes n s).1 = .ok (i, [])) :
    fetchInstr s = (i, (fetchBytes n s).2) := by
  have hn : opcodeLength (fetchByte s).1 = n := by
    cases n with
    | zero => cases h
    | succ n => rw [opcodeLength_of_decode h, length_fetchBytes]
  obtain ⟨hdec, hstate⟩ := fetchInstr_decodes hn
  obtain ⟨rfl, -⟩ := Prod.mk.inj (Except.ok.inj (hdec.symm.trans h))
  rw [hstate]

/-! ### The obligations -/

/-- Settles O2: each instruction by its encoding law. -/
theorem decodeOfEncode : Obligations.DecodeOfEncode := Laws.Encoded.statement_instr

/-- Settles O3: what is decoded is the row of its opcode, whose words are the bytes read. -/
theorem encodeOfDecode : Obligations.EncodeOfDecode := by
  unfold Obligations.EncodeOfDecode
  intro bytes rest i h
  obtain ⟨op, b, c, rfl, hbytes⟩ := decode_eq_ok h
  exact ⟨(decodeOpcode_wellFormed_opcode op b c).1, _, encode_decodeOpcode op b c, hbytes⟩

/-- Settles O4: by the three lengths, and the opcode of the row. -/
theorem decoderIsTotal : Obligations.DecoderIsTotal := by
  unfold Obligations.DecoderIsTotal
  refine fun op rest => ⟨opcodeLength_cases op, fun h => ?_, decode_of_truncated⟩
  obtain ⟨b, c, hdec, -⟩ := decode_of_complete h
  exact ⟨_, hdec, (decodeOpcode_wellFormed_opcode op b c).2⟩

/-- Settles O1, by evaluation of the ten words. -/
theorem specWordsDecode : Obligations.SpecWordsDecode := by
  unfold Obligations.SpecWordsDecode
  decide

/-- Settles O5: no interrupt is due, so the CPU step is `exec` of the instruction fetched. -/
theorem stepRunsDecodedInstruction : Obligations.StepRunsDecodedInstruction := by
  unfold Obligations.StepRunsDecodedInstruction
  intro s n i hloaded hdue h
  have hcpu : cpuStep s = exec i (fetchBytes n s).2 := by
    rw [cpuStep, hdue, fetchInstr_of_decode h]
  rw [step, if_pos hloaded, hcpu]

end Sys2Proof.Machine
end

/-! ## Effective addresses and operands (40_addressing.md R143-R150) -/

section
namespace Sys2Proof.Machine

/-- The pointer of `(zp,X)` stands in page zero at the indexed byte (R147). -/
theorem effAddr_indx (o : Byte) (s : State) : effAddr (.indx o) s =
    ⟨wordOf (s.peek (zext16 (o + s.cpu.x + 1))) (s.peek (zext16 (o + s.cpu.x))), false,
      { s with bus := ⟨s.peek (zext16 (o + s.cpu.x + 1))⟩ }⟩ := by
  rw [effAddr, readPointer_eq]

/-- The pointer of `(zp),Y` stands in page zero at the operand, and is indexed after it is read (R148). -/
theorem effAddr_indy (o : Byte) (s : State) : effAddr (.indy o) s =
    indexed (wordOf (s.peek (zext16 (o + 1))) (s.peek (zext16 o))) s.cpu.y
      { s with bus := ⟨s.peek (zext16 (o + 1))⟩ } := by
  rw [effAddr, readPointer_eq]

/-- An operand in memory is the byte at its effective address: its read changes the latch alone, and so did the pointer reads
before it (R150). -/
theorem readSrc_memory {m : Mem} {s : State} (h : isMemory (effAddr m s).addr) : readSrc (.mem m) s =
    ⟨s.peek (effAddr m s).addr, (effAddr m s).crossed, { s with bus := ⟨s.peek (effAddr m s).addr⟩ }⟩ := by
  obtain ⟨b, hb⟩ := effAddr_state m s
  have hpeek : (effAddr m s).state.peek (effAddr m s).addr = s.peek (effAddr m s).addr := by
    rw [hb]
    exact peek_mk s _ _ _ _ _ _ _ h
  rw [readSrc, memRead_memory h, hpeek, hb]

/-- Settles O7: the direct forms by definition, the pointers by their two reads of work RAM, and an operand by its one read. -/
theorem effectiveAddresses : Obligations.EffectiveAddresses := by
  unfold Obligations.EffectiveAddresses
  intro s o a m pointer after
  have hmemory : isMemory (effAddr m s).addr →
      (readSrc (.mem m) s).value = s.peek (effAddr m s).addr ∧
      (readSrc (.mem m) s).state = { s with bus := ⟨s.peek (effAddr m s).addr⟩ } := fun h => by
    rw [readSrc_memory h]
    exact ⟨rfl, rfl⟩
  exact ⟨rfl, rfl, rfl, rfl, rfl, rfl, effAddr_indx o s, effAddr_indy o s, rfl, rfl, rfl, rfl, hmemory⟩

end Sys2Proof.Machine
end

/-! ## Loads, stores and transfers (41_load_store_transfer.md R160-R171; 42_arith_logic.md R192-R195) -/

section
namespace Sys2Proof.Machine

/-! ### From the shapes of instruction to the terms of the statements -/

/-- The cost of a read is that of its mode, and one more for a crossed page: a mode without the penalty never crosses (R153). -/
theorem readCycles_readSrc (src : Src) (s : State) : readCycles src (readSrc src s).crossed =
    readCycles src false + if (readSrc src s).crossed then 1 else 0 := by
  cases src with
  | imm o => rfl
  | mem m =>
    -- the indexed modes pay the penalty, and in the others `crossed` is `false`
    cases m <;> rfl

section
variable {i : Instr} {op : Byte} (hop : i.opcode = some op)
include hop

/-- An instruction that runs as a read instruction has its reads, its result and the cost of its mode. -/
theorem reads_of_readInstr {src : Src} {base : Nat} {f : Byte → Cpu → Cpu} (hbase : readCycles src false = base)
    (hexec : ∀ s, exec i s = readInstr src f s) : Reads i op src base f := by
  refine ⟨hop, fun s => ?_⟩
  rw [hexec, readInstr, readCycles_readSrc, hbase]

/-- An instruction that runs as a write instruction has its one write and the cost of its mode. -/
theorem stores_of_storeInstr {m : Mem} {cycles : Nat} {reg : Cpu → Byte} (hcycles : storeCycles m = cycles)
    (hexec : ∀ s, exec i s = storeInstr m reg s) : Stores i op m cycles reg := by
  refine ⟨hop, fun s hi => ?_⟩
  obtain ⟨t, hwrite, hregs, -, -, -, hstore⟩ := storeInstr_spec hi m reg
  exact ⟨t, hwrite, hregs, by rw [hexec, hstore, hcycles]⟩

/-- An instruction that runs as an implied instruction changes the CPU as that says. -/
theorem implied_of_impliedInstr {cycles : Nat} {f : Cpu → Cpu} (hexec : ∀ s, exec i s = impliedInstr cycles f s) :
    Implied i op cycles f :=
  ⟨hop, hexec⟩

end

/-! ### The mnemonics, in whatever form -/

section
variable {op : Byte} {src : Src} {m : Mem} {n : Nat}

theorem lda_reads (hop : (Instr.lda src).opcode = some op) (hn : readCycles src false = n) :
    Reads (.lda src) op src n loadA := reads_of_readInstr hop hn fun _ => rfl

theorem ldx_reads (hop : (Instr.ldx src).opcode = some op) (hn : readCycles src false = n) :
    Reads (.ldx src) op src n loadX := reads_of_readInstr hop hn fun _ => rfl

theorem ldy_reads (hop : (Instr.ldy src).opcode = some op) (hn : readCycles src false = n) :
    Reads (.ldy src) op src n loadY := reads_of_readInstr hop hn fun _ => rfl

theorem sta_stores (hop : (Instr.sta m).opcode = some op) (hn : storeCycles m = n) :
    Stores (.sta m) op m n Cpu.a := stores_of_storeInstr hop hn fun _ => rfl

theorem stx_stores (hop : (Instr.stx m).opcode = some op) (hn : storeCycles m = n) :
    Stores (.stx m) op m n Cpu.x := stores_of_storeInstr hop hn fun _ => rfl

theorem sty_stores (hop : (Instr.sty m).opcode = some op) (hn : storeCycles m = n) :
    Stores (.sty m) op m n Cpu.y := stores_of_storeInstr hop hn fun _ => rfl

end

/-! ### The obligations -/

/-- Settles O9: each form is a `storeInstr`, with the opcode and the cost of its mode. -/
theorem storeResults : Obligations.StoreResults := by
  unfold Obligations.StoreResults
  exact fun o a =>
    ⟨sta_stores rfl rfl, sta_stores rfl rfl, sta_stores rfl rfl, sta_stores rfl rfl, sta_stores rfl rfl, sta_stores rfl rfl,
      sta_stores rfl rfl, stx_stores rfl rfl, stx_stores rfl rfl, stx_stores rfl rfl, sty_stores rfl rfl, sty_stores rfl rfl,
      sty_stores rfl rfl⟩

/-- Settles O8: each form is a `readInstr` of a load, with the opcode and the cost of its mode. -/
theorem loadResults : Obligations.LoadResults := by
  unfold Obligations.LoadResults
  exact fun o a =>
    ⟨lda_reads rfl rfl, lda_reads rfl rfl, lda_reads rfl rfl, lda_reads rfl rfl, lda_reads rfl rfl, lda_reads rfl rfl,
      lda_reads rfl rfl, lda_reads rfl rfl, ldx_reads rfl rfl, ldx_reads rfl rfl, ldx_reads rfl rfl, ldx_reads rfl rfl,
      ldx_reads rfl rfl, ldy_reads rfl rfl, ldy_reads rfl rfl, ldy_reads rfl rfl, ldy_reads rfl rfl, ldy_reads rfl rfl⟩

/-- Settles O10: each is an `impliedInstr` of 2 cycles: a load of A, X or Y with its flags, or for `TXS` of SP without. -/
theorem registerResults : Obligations.RegisterResults := by
  unfold Obligations.RegisterResults
  exact
    ⟨implied_of_impliedInstr (f := fun c => loadX c.a c) rfl fun _ => rfl,
      implied_of_impliedInstr (f := fun c => loadY c.a c) rfl fun _ => rfl,
      implied_of_impliedInstr (f := fun c => loadA c.x c) rfl fun _ => rfl,
      implied_of_impliedInstr (f := fun c => loadA c.y c) rfl fun _ => rfl,
      implied_of_impliedInstr (f := fun c => loadX c.sp c) rfl fun _ => rfl,
      implied_of_impliedInstr (f := fun c => { c with sp := c.x }) rfl fun _ => rfl,
      implied_of_impliedInstr (f := fun c => loadX (c.x + 1) c) rfl fun _ => rfl,
      implied_of_impliedInstr (f := fun c => loadY (c.y + 1) c) rfl fun _ => rfl,
      implied_of_impliedInstr (f := fun c => loadX (c.x - 1) c) rfl fun _ => rfl,
      implied_of_impliedInstr (f := fun c => loadY (c.y - 1) c) rfl fun _ => rfl⟩

end Sys2Proof.Machine
end

/-! ## Arithmetic and logic (42_arith_logic.md R180-R191, R196) -/

section
namespace Sys2Proof.Machine

/-! ### The complemented operand (42_arith_logic.md R182) -/

theorem xor_ff (m : Byte) : m ^^^ 0xFF = ~~~m := BitVec.xor_allOnes

theorem toInt_complement (m : Byte) : (~~~m).toInt = -1 - m.toInt := by
  have := m.isLt
  rw [toInt_byte, toInt_byte, BitVec.toNat_not]
  split <;> split <;> omega

/-! ### Addition and subtraction with the carry (42_arith_logic.md R181, R182) -/

/-- The rule's formula for V: bit 7 of the result differs from bit 7 of both operands exactly when the signed sum does not fit
a byte. -/
theorem overflow_iff (a m : Byte) (k : Bool) :
    (a ^^^ BitVec.ofNat 8 (carrySum a m k)) &&& (m ^^^ BitVec.ofNat 8 (carrySum a m k)) &&& 0x80 ≠ 0 ↔
      a.toInt + m.toInt + k.toNat < -128 ∨ 127 < a.toInt + m.toInt + k.toNat := by
  have hr : (BitVec.ofNat 8 (carrySum a m k)).toNat = (a.toNat + m.toNat + k.toNat) % 256 := BitVec.toNat_ofNat _ _
  have := a.isLt
  have := m.isLt
  have := k.toNat_le
  rw [bit7_iff, bit7_and, bit7_xor, bit7_xor, hr, toInt_byte, toInt_byte]
  split <;> split <;> omega

section
variable (m : Byte) (c : Cpu)

theorem addWithCarry_a : (addWithCarry m c).a.toNat = (c.a.toNat + m.toNat + c.c.toNat) % 256 := BitVec.toNat_ofNat _ _

theorem addWithCarry_v : (addWithCarry m c).v = true ↔
    c.a.toInt + m.toInt + c.c.toNat < -128 ∨ 127 < c.a.toInt + m.toInt + c.c.toNat :=
  decide_eq_true_iff.trans (overflow_iff c.a m c.c)

theorem addWithCarry_c : (addWithCarry m c).c = true ↔ 256 ≤ c.a.toNat + m.toNat + c.c.toNat := decide_eq_true_iff

theorem subWithBorrow_a :
    ((subWithBorrow m c).a.toNat : Int) = (c.a.toNat - m.toNat - (1 - c.c.toNat)) % 256 := by
  have := m.isLt
  rw [subWithBorrow, addWithCarry_a, xor_ff, BitVec.toNat_not]
  omega

theorem subWithBorrow_v : (subWithBorrow m c).v = true ↔
    c.a.toInt - m.toInt - (1 - c.c.toNat) < -128 ∨ 127 < c.a.toInt - m.toInt - (1 - c.c.toNat) := by
  rw [subWithBorrow, addWithCarry_v, xor_ff, toInt_complement]
  omega

theorem subWithBorrow_c :
    (subWithBorrow m c).c = true ↔ (0 : Int) ≤ c.a.toNat - m.toNat - (1 - c.c.toNat) := by
  have := m.isLt
  rw [subWithBorrow, addWithCarry_c, xor_ff, BitVec.toNat_not]
  omega

end

/-- The equivalent form of R182: the difference, with C for no borrow, and V that of the addition of the complement. -/
def borrowForm (m : Byte) (c : Cpu) : Cpu :=
  let r := c.a - m - (if c.c then 0 else 1)
  setNZ r { c with
    a := r
    c := m.toNat + (1 - c.c.toNat) ≤ c.a.toNat
    v := (c.a ^^^ r) &&& (~~~m ^^^ r) &&& 0x80 ≠ 0 }

theorem subWithBorrow_eq_borrowForm : subWithBorrow = borrowForm := by
  funext m c
  obtain ⟨hresult, hcarry⟩ := carrySum_complement c.a m c.c
  rw [xor_ff] at hresult hcarry
  simp only [subWithBorrow, addWithCarry, borrowForm, xor_ff, hresult, hcarry]

/-! ### From the shapes of instruction to the terms of the statements -/

/-- A read instruction completes, having changed the registers as `f` says of the operand byte. -/
theorem readInstr_registers (src : Src) (f : Byte → Cpu → Cpu) (s : State) :
    ∃ t k, readInstr src f s = .next t ∧ t.cpu = { f (readSrc src s).value s.cpu with cycles := k } :=
  ⟨_, _, rfl, by rw [charge, withCpu_cpu, readSrc_cpu]⟩

/-- An instruction that runs as a read-modify-write has its one read, its one write and the cost of its mode. -/
theorem modifies_of_modifyInstr {i : Instr} {op : Byte} (hop : i.opcode = some op) {m : Mem} {cycles : Nat}
    {result : Byte → Bool → Byte} {flags : Byte → Cpu → Cpu} {f : Byte → Bool → Cpu → Cpu} (hcycles : modifyCycles m = cycles)
    (hexec : ∀ s, exec i s = modifyInstr m result flags s) (hflags : ∀ b c, flags b c = f b c.c c) :
    Modifies i op m cycles result f := by
  refine ⟨hop, fun s hi => ?_⟩
  obtain ⟨t, hwrite, hregs, -, -, -, hmodify⟩ := modifyInstr_spec hi m result flags
  have hc : t.cpu.c = s.cpu.c := by rw [hregs]
  exact ⟨t, hwrite, hregs, by rw [hexec, hmodify, hcycles, hflags, hc]⟩

/-! ### The mnemonics, in whatever form -/

section
variable {op : Byte} {src : Src} {m : Mem} {n : Nat}

theorem adc_reads (hop : (Instr.adc src).opcode = some op) (hn : readCycles src false = n) :
    Reads (.adc src) op src n addWithCarry := reads_of_readInstr hop hn fun _ => rfl

theorem sbc_reads (hop : (Instr.sbc src).opcode = some op) (hn : readCycles src false = n) :
    Reads (.sbc src) op src n borrowForm :=
  reads_of_readInstr hop hn fun _ => by rw [← subWithBorrow_eq_borrowForm]; rfl

theorem and_reads (hop : (Instr.and src).opcode = some op) (hn : readCycles src false = n) :
    Reads (.and src) op src n fun m c => loadA (c.a &&& m) c := reads_of_readInstr hop hn fun _ => rfl

theorem ora_reads (hop : (Instr.ora src).opcode = some op) (hn : readCycles src false = n) :
    Reads (.ora src) op src n fun m c => loadA (c.a ||| m) c := reads_of_readInstr hop hn fun _ => rfl

theorem eor_reads (hop : (Instr.eor src).opcode = some op) (hn : readCycles src false = n) :
    Reads (.eor src) op src n fun m c => loadA (c.a ^^^ m) c := reads_of_readInstr hop hn fun _ => rfl

theorem bit_reads (hop : (Instr.bit m).opcode = some op) (hn : readCycles (.mem m) false = n) :
    Reads (.bit m) op (.mem m) n bitTest := reads_of_readInstr hop hn fun _ => rfl

theorem cmp_reads (hop : (Instr.cmp src).opcode = some op) (hn : readCycles src false = n) :
    Reads (.cmp src) op src n fun m c => compareWith c.a m c := reads_of_readInstr hop hn fun _ => rfl

theorem cpx_reads (hop : (Instr.cpx src).opcode = some op) (hn : readCycles src false = n) :
    Reads (.cpx src) op src n fun m c => compareWith c.x m c := reads_of_readInstr hop hn fun _ => rfl

theorem cpy_reads (hop : (Instr.cpy src).opcode = some op) (hn : readCycles src false = n) :
    Reads (.cpy src) op src n fun m c => compareWith c.y m c := reads_of_readInstr hop hn fun _ => rfl

theorem inc_modifies (hop : (Instr.inc m).opcode = some op) (hn : modifyCycles m = n) :
    Modifies (.inc m) op m n (fun b _ => b + 1) fun b _ => setNZ (b + 1) :=
  modifies_of_modifyInstr hop hn (fun _ => rfl) fun _ _ => rfl

theorem dec_modifies (hop : (Instr.dec m).opcode = some op) (hn : modifyCycles m = n) :
    Modifies (.dec m) op m n (fun b _ => b - 1) fun b _ => setNZ (b - 1) :=
  modifies_of_modifyInstr hop hn (fun _ => rfl) fun _ _ => rfl

end

/-! ### The obligations -/

/-- Settles O12: each form is a `readInstr` of `subWithBorrow`, which is the rule's equivalent form. -/
theorem sbcResults : Obligations.SbcResults := by
  unfold Obligations.SbcResults
  exact fun o a =>
    ⟨sbc_reads rfl rfl, sbc_reads rfl rfl, sbc_reads rfl rfl, sbc_reads rfl rfl, sbc_reads rfl rfl, sbc_reads rfl rfl,
      sbc_reads rfl rfl, sbc_reads rfl rfl⟩

/-- Settles O13: the registers after the read are those of `addWithCarry` and `subWithBorrow`, neither of which reads D. -/
theorem overflowIsSigned : Obligations.OverflowIsSigned := by
  unfold Obligations.OverflowIsSigned
  intro src s o signed difference
  obtain ⟨t, _, hadc, ht⟩ := readInstr_registers src addWithCarry s
  obtain ⟨u, _, hsbc, hu⟩ := readInstr_registers src subWithBorrow s
  refine ⟨⟨t, hadc, ?_⟩, u, hsbc, ?_⟩
  · rw [ht]
    exact ⟨addWithCarry_a o.value s.cpu, addWithCarry_v o.value s.cpu, addWithCarry_c o.value s.cpu⟩
  · rw [hu]
    exact ⟨subWithBorrow_a o.value s.cpu, subWithBorrow_v o.value s.cpu, subWithBorrow_c o.value s.cpu⟩

/-- Settles O16: each form is a `modifyInstr` that sets N and Z alone, with the opcode and the cost of its mode. -/
theorem incDecMemoryResults : Obligations.IncDecMemoryResults := by
  unfold Obligations.IncDecMemoryResults
  exact fun o a =>
    ⟨inc_modifies rfl rfl, inc_modifies rfl rfl, inc_modifies rfl rfl, inc_modifies rfl rfl, dec_modifies rfl rfl,
      dec_modifies rfl rfl, dec_modifies rfl rfl, dec_modifies rfl rfl⟩

/-- Settles O11: each form is a `readInstr` of `addWithCarry`, with the opcode and the cost of its mode. -/
theorem adcResults : Obligations.AdcResults := by
  unfold Obligations.AdcResults
  exact fun o a =>
    ⟨adc_reads rfl rfl, adc_reads rfl rfl, adc_reads rfl rfl, adc_reads rfl rfl, adc_reads rfl rfl, adc_reads rfl rfl,
      adc_reads rfl rfl, adc_reads rfl rfl⟩

/-- Settles O14: `AND`, `ORA` and `EOR` load A with the result, and `BIT` is `bitTest`, which writes three flags. -/
theorem logicResults : Obligations.LogicResults := by
  unfold Obligations.LogicResults
  exact fun o a =>
    ⟨and_reads rfl rfl, and_reads rfl rfl, and_reads rfl rfl, and_reads rfl rfl, and_reads rfl rfl, and_reads rfl rfl,
      and_reads rfl rfl, and_reads rfl rfl, ora_reads rfl rfl, ora_reads rfl rfl, ora_reads rfl rfl, ora_reads rfl rfl,
      ora_reads rfl rfl, ora_reads rfl rfl, ora_reads rfl rfl, ora_reads rfl rfl, eor_reads rfl rfl, eor_reads rfl rfl,
      eor_reads rfl rfl, eor_reads rfl rfl, eor_reads rfl rfl, eor_reads rfl rfl, eor_reads rfl rfl, eor_reads rfl rfl,
      bit_reads rfl rfl, bit_reads rfl rfl⟩

/-- Settles O15: each form is a `readInstr` of `compareWith` on its register, which writes C, Z and N alone. -/
theorem compareResults : Obligations.CompareResults := by
  unfold Obligations.CompareResults
  exact fun o a =>
    ⟨cmp_reads rfl rfl, cmp_reads rfl rfl, cmp_reads rfl rfl, cmp_reads rfl rfl, cmp_reads rfl rfl, cmp_reads rfl rfl,
      cmp_reads rfl rfl, cmp_reads rfl rfl, cpx_reads rfl rfl, cpx_reads rfl rfl, cpx_reads rfl rfl, cpy_reads rfl rfl,
      cpy_reads rfl rfl, cpy_reads rfl rfl⟩

end Sys2Proof.Machine
end

/-! ## Shifts and rotates (43_shift_rotate.md R210-R213) -/

section
namespace Sys2Proof.Machine

/-- The carry that `ROR` moves in is bit 7 of the result (R213). -/
theorem rorResult_eq (m : Byte) (k : Bool) : rorResult m k = (if k then 0x80 else 0x00) ||| (m >>> 1) := by
  cases k <;> rfl

/-! ### From the shape of instruction to the terms of the statement -/

section
variable {i : Instr} {op : Byte} (hop : i.opcode = some op) {result : Byte → Bool → Byte} {out : Byte → Bool}
include hop

/-- A shift of A leaves the result there, C holding the bit moved out and N and Z of the result, for 2 cycles and no bus access. -/
theorem implied_of_shiftInstr (hexec : ∀ s, exec i s = shiftInstr .acc result out s) :
    Implied i op 2 fun c => { shiftFlags result out c.a c with a := result c.a c.c } :=
  ⟨hop, hexec⟩

/-- A shift of memory is a read-modify-write with the flags of `shiftFlags`: the old carry may enter the result, and C holds the
bit moved out. -/
theorem modifies_of_shiftInstr {m : Mem} {cycles : Nat} (hcycles : modifyCycles m = cycles)
    (hexec : ∀ s, exec i s = shiftInstr (.mem m) result out s) :
    Modifies i op m cycles result fun b k c =>
      { c with c := out b, n := (result b k).getLsbD 7, z := result b k = 0 } :=
  modifies_of_modifyInstr hop hcycles hexec fun _ _ => rfl

end

/-! ### The mnemonics, on memory -/

section
variable {op : Byte} {m : Mem} {n : Nat}

theorem asl_modifies (hop : (Instr.asl (.mem m)).opcode = some op) (hn : modifyCycles m = n) :
    Modifies (.asl (.mem m)) op m n aslResult fun b k c =>
      { c with c := bit7 b, n := (aslResult b k).getLsbD 7, z := aslResult b k = 0 } :=
  modifies_of_shiftInstr hop hn fun _ => rfl

theorem lsr_modifies (hop : (Instr.lsr (.mem m)).opcode = some op) (hn : modifyCycles m = n) :
    Modifies (.lsr (.mem m)) op m n lsrResult fun b k c =>
      { c with c := bit0 b, n := (lsrResult b k).getLsbD 7, z := lsrResult b k = 0 } :=
  modifies_of_shiftInstr hop hn fun _ => rfl

theorem rol_modifies (hop : (Instr.rol (.mem m)).opcode = some op) (hn : modifyCycles m = n) :
    Modifies (.rol (.mem m)) op m n rolResult fun b k c =>
      { c with c := bit7 b, n := (rolResult b k).getLsbD 7, z := rolResult b k = 0 } :=
  modifies_of_shiftInstr hop hn fun _ => rfl

theorem ror_modifies (hop : (Instr.ror (.mem m)).opcode = some op) (hn : modifyCycles m = n) :
    Modifies (.ror (.mem m)) op m n rorResult fun b k c =>
      { c with c := bit0 b, n := (rorResult b k).getLsbD 7, z := rorResult b k = 0 } :=
  modifies_of_shiftInstr hop hn fun _ => rfl

end

/-! ### The obligation -/

/-- Settles O17: each form is a `shiftInstr` with the opcode and the cost of its mode; only `ROR` writes its result otherwise than
the statement does. -/
theorem shiftResults : Obligations.ShiftResults := by
  unfold Obligations.ShiftResults
  intro o a flags asl lsr rol ror
  have hror : ror = rorResult := funext₂ fun m k => (rorResult_eq m k).symm
  clear_value ror
  subst hror
  exact
    ⟨implied_of_shiftInstr (result := aslResult) (out := bit7) rfl fun _ => rfl,
      asl_modifies rfl rfl, asl_modifies rfl rfl, asl_modifies rfl rfl, asl_modifies rfl rfl,
      implied_of_shiftInstr (result := lsrResult) (out := bit0) rfl fun _ => rfl,
      lsr_modifies rfl rfl, lsr_modifies rfl rfl, lsr_modifies rfl rfl, lsr_modifies rfl rfl,
      implied_of_shiftInstr (result := rolResult) (out := bit7) rfl fun _ => rfl,
      rol_modifies rfl rfl, rol_modifies rfl rfl, rol_modifies rfl rfl, rol_modifies rfl rfl,
      implied_of_shiftInstr (result := rorResult) (out := bit0) rfl fun _ => rfl,
      ror_modifies rfl rfl, ror_modifies rfl rfl, ror_modifies rfl rfl, ror_modifies rfl rfl⟩

end Sys2Proof.Machine
end

/-! ## Control transfer (44_control_transfer.md R220-R234; 60_exceptions.md R507-R509) -/

section
namespace Sys2Proof.Machine

/-! ### Branches -/

/-- A branch costs 3 cycles taken within the page of the next instruction, 4 taken into another page, and 2 not taken. -/
theorem branchInstr_eq (cond : Bool) (rel : Byte) (s : State) : branchInstr cond rel s = .next (if cond then
    charge (if hiByte s.cpu.pc = hiByte (branchTarget s.cpu.pc rel) then 3 else 4) (setPc (branchTarget s.cpu.pc rel) s)
    else charge 2 s) := by
  have hcost : 3 + pagePenalty (pageCrossed s.cpu.pc (branchTarget s.cpu.pc rel)) =
      if hiByte s.cpu.pc = hiByte (branchTarget s.cpu.pc rel) then 3 else 4 := by
    by_cases h : hiByte s.cpu.pc = hiByte (branchTarget s.cpu.pc rel) <;> simp [pagePenalty, pageCrossed, h]
  cases cond with
  | false => rfl
  | true => simp [branchInstr, hcost]

/-! ### The stack, counted from the stack pointer of the start (10_state.md R23) -/

theorem sp_sub_two (sp : Byte) : sp - 1 - 1 = sp - 2 := by bv_omega

theorem sp_sub_three (sp : Byte) : sp - 2 - 1 = sp - 3 := by bv_omega

theorem sp_add_two (sp : Byte) : sp + 1 + 1 = sp + 2 := by bv_omega

theorem sp_add_three (sp : Byte) : sp + 2 + 1 = sp + 3 := by bv_omega

/-- Two pushes hold their bytes, wherever the stack pointer stands. -/
theorem read_two_pushes {m : Memory} (h : Memory.wf m = true) (sp x y : Byte) :
    let r := Memory.write (Memory.write m (0x100 + sp.toNat) x) (0x100 + (sp - 1).toNat) y
    Memory.read r (0x100 + sp.toNat) = x ∧ Memory.read r (0x100 + (sp - 1).toNat) = y := by
  have hne : sp.toNat ≠ (sp - 1).toNat := by bv_omega
  have hwf := Memory.wf_write h (0x100 + sp.toNat) x
  refine ⟨?_, ?_⟩
  · rw [Memory.read_write_ne hwf (by omega), Memory.read_write_self h]
  · rw [Memory.read_write_self hwf]

/-! ### Calls and returns by their results -/

theorem execJsr_eq (target : Addr) (s : State) : execJsr target s = .next { s with
    ram := Memory.write (Memory.write s.ram (0x100 + s.cpu.sp.toNat) (hiByte (s.cpu.pc - 1)))
      (0x100 + (s.cpu.sp - 1).toNat) (loByte (s.cpu.pc - 1))
    cpu := { s.cpu with sp := s.cpu.sp - 2, pc := target, cycles := s.cpu.cycles + 6 } } := by
  rw [execJsr, push16_eq, ← sp_sub_two]
  rfl

theorem execRts_eq (s : State) : execRts s = .next { s with
    cpu := { s.cpu with
      sp := s.cpu.sp + 2
      pc := wordOf (Memory.read s.ram (0x100 + (s.cpu.sp + 2).toNat)) (Memory.read s.ram (0x100 + (s.cpu.sp + 1).toNat)) + 1
      cycles := s.cpu.cycles + 6 }
    bus := ⟨Memory.read s.ram (0x100 + (s.cpu.sp + 2).toNat)⟩ } := by
  simp only [execRts, pull16_eq, peek_stackAddr, sp_add_two]
  rfl

theorem execRti_eq (s : State) : execRti s = .next { s with
    cpu := { setStatus (Memory.read s.ram (0x100 + (s.cpu.sp + 1).toNat)) s.cpu with
      sp := s.cpu.sp + 3
      pc := wordOf (Memory.read s.ram (0x100 + (s.cpu.sp + 3).toNat)) (Memory.read s.ram (0x100 + (s.cpu.sp + 2).toNat))
      cycles := s.cpu.cycles + 6 }
    bus := ⟨Memory.read s.ram (0x100 + (s.cpu.sp + 3).toNat)⟩ } := by
  simp only [execRti, returnFromInterrupt_eq, peek_stackAddr, sp_add_two, sp_add_three]
  rfl

/-! ### Entering a handler by its result -/

/-- Work RAM after the pushes of an entry: the return address, high byte first, and then the status. -/
def entryRam (ret : Addr) (b : Bool) (s : State) : Memory :=
  Memory.write (Memory.write (Memory.write s.ram
    (0x100 + s.cpu.sp.toNat) (hiByte ret)) (0x100 + (s.cpu.sp - 1).toNat) (loByte ret))
    (0x100 + (s.cpu.sp - 2).toNat) (statusByte b s.cpu)

section
variable {vec : Addr} (h1 : 0x6000 ≤ vec.toNat) (h2 : 0x6000 ≤ (vec + 1).toNat) (ret : Addr) (b : Bool) (s : State)
include h1 h2

/-- No push can change a vector, so PC is the word that stood there before the entry. -/
theorem entered_eq : entered vec ret b s = { s with
    ram := entryRam ret b s
    cpu := { s.cpu with sp := s.cpu.sp - 3, i := true, pc := wordOf (s.peek (vec + 1)) (s.peek vec) }
    bus := ⟨s.peek (vec + 1)⟩ } := by
  simp only [entered, peek_afterPushes ret b s h1, peek_afterPushes ret b s h2]
  simp only [pushed, entryRam, sp_sub_two, sp_sub_three]

/-- What `BRK`, an NMI and an IRQ share: the entry completes, for 7 cycles. -/
theorem complete_enterVector : complete ((enterVector vec ret b s).map (charge 7)) = .next { s with
    ram := entryRam ret b s
    cpu := { s.cpu with
      sp := s.cpu.sp - 3
      i := true
      pc := wordOf (s.peek (vec + 1)) (s.peek vec)
      cycles := s.cpu.cycles + 7 }
    bus := ⟨s.peek (vec + 1)⟩ } := by
  rw [enterVector_eq (isMemory_of_ge h1) (isMemory_of_ge h2), entered_eq h1 h2]
  rfl

end

/-! ### A return undoes its call or its entry -/

/-- A pushed status gives back every flag, I among them, whatever was done to the flags since. -/
theorem setStatus_statusByte (b : Bool) (saved c : Cpu) : setStatus (statusByte b saved) c =
    { c with n := saved.n, v := saved.v, d := saved.d, i := saved.i, z := saved.z, c := saved.c } := by
  obtain ⟨hn, hv, hd, hi, hz, hc⟩ := statusByte_bits b saved
  rw [setStatus, hn, hv, hd, hi, hz, hc]

/-- The two bytes that `RTS` pulls are the ones that `JSR` pushed. -/
theorem execJsr_execRts (target : Addr) {s : State} (h : Memory.wf s.ram = true) : ∃ t u, execJsr target s = .next t ∧
    t.cpu.pc = target ∧ execRts t = .next u ∧ u.cpu = { s.cpu with cycles := s.cpu.cycles + 12 } := by
  refine ⟨_, _, execJsr_eq target s, rfl, execRts_eq _, ?_⟩
  have hsp : s.cpu.sp - 2 + 1 = s.cpu.sp - 1 := by bv_omega
  obtain ⟨hhi, hlo⟩ := read_two_pushes h s.cpu.sp (hiByte (s.cpu.pc - 1)) (loByte (s.cpu.pc - 1))
  simp only [hsp, BitVec.sub_add_cancel, hhi, hlo, wordOf_hiByte_loByte]

/-- The three bytes that `RTI` pulls are the ones that an entry pushed. -/
theorem enterVector_execRti {vec : Addr} (h1 : 0x6000 ≤ vec.toNat) (h2 : 0x6000 ≤ (vec + 1).toNat) (ret : Addr) (b : Bool)
    {s : State} (h : Memory.wf s.ram = true) :
    ∃ t u, complete ((enterVector vec ret b s).map (charge 7)) = .next t ∧ execRti t = .next u ∧
      u.cpu = { s.cpu with pc := ret, cycles := s.cpu.cycles + 13 } := by
  refine ⟨_, _, complete_enterVector h1 h2 ret b s, execRti_eq _, ?_⟩
  have hsp2 : s.cpu.sp - 3 + 2 = s.cpu.sp - 1 := by bv_omega
  have hsp1 : s.cpu.sp - 3 + 1 = s.cpu.sp - 2 := by bv_omega
  obtain ⟨hhi, hlo, hstatus⟩ := read_three_pushes h s.cpu.sp (hiByte ret) (loByte ret) (statusByte b s.cpu)
  simp only [hsp1, hsp2, BitVec.sub_add_cancel, entryRam, hhi, hlo, hstatus, setStatus_statusByte, wordOf_hiByte_loByte]

/-! ### The obligations -/

/-- Settles O20: the pushes and pulls of page 1, counted from SP before the instruction. -/
theorem callAndReturnResults : Obligations.CallAndReturnResults := by
  unfold Obligations.CallAndReturnResults
  exact fun target s => ⟨rfl, execJsr_eq target s, rfl, execRts_eq s⟩

/-- Settles O21: the three pulls of `RTI`, and `setStatus` field by field. -/
theorem rtiResult : Obligations.RtiResult := by
  unfold Obligations.RtiResult
  exact fun s => ⟨rfl, execRti_eq s⟩

/-- Settles O22: `BRK` is the entry through the IRQ vector with B = 1. -/
theorem brkEntersHandler : Obligations.BrkEntersHandler := by
  unfold Obligations.BrkEntersHandler
  intro s
  obtain ⟨hbreak, hbit5⟩ := statusByte_b true s.cpu
  exact ⟨rfl, hbreak, hbit5, complete_enterVector (vec := irqVector) (by decide) (by decide) (s.cpu.pc + 1) true s⟩

/-- Settles O23: the pulls read back the bytes of the pushes; the NMI's request is cleared before its entry. -/
theorem returnsRestore : Obligations.ReturnsRestore := by
  unfold Obligations.ReturnsRestore
  exact fun target s h =>
    ⟨execJsr_execRts target h,
      enterVector_execRti (vec := irqVector) (by decide) (by decide) (s.cpu.pc + 1) true h,
      enterVector_execRti (vec := irqVector) (by decide) (by decide) s.cpu.pc false h,
      enterVector_execRti (vec := nmiVector) (by decide) (by decide) s.cpu.pc false
        (s := s.withCpu { s.cpu with nmiPending := false }) h⟩

/-- Settles O18: each is a `branchInstr` on its own flag. -/
theorem branchResults : Obligations.BranchResults := by
  unfold Obligations.BranchResults
  intro rel s
  have branches (cond : Bool) := branchInstr_eq cond rel s
  exact ⟨⟨rfl, branches _⟩, ⟨rfl, branches _⟩, ⟨rfl, branches _⟩, ⟨rfl, branches _⟩,
    ⟨rfl, branches _⟩, ⟨rfl, branches _⟩, ⟨rfl, branches _⟩, ⟨rfl, branches _⟩⟩

/-- Settles O19: both forms by definition, the indirect one through `readIndirect`. -/
theorem jumpResults : Obligations.JumpResults := by
  unfold Obligations.JumpResults
  exact fun a s => ⟨rfl, rfl, rfl, rfl⟩

end Sys2Proof.Machine
end

/-! ## Stack, flags and no operation (45_stack_flags_misc.md R240-R251) -/

section
namespace Sys2Proof.Machine

/-! ### The shapes of the four stack instructions -/

/-- What `PHA` and `PHP` share: one byte to the slot at SP, for 3 cycles. -/
theorem complete_push (v : Byte) (s : State) : complete ((push v s).map (charge 3)) = .next { s with
    ram := Memory.write s.ram (0x100 + s.cpu.sp.toNat) v
    cpu := { s.cpu with sp := s.cpu.sp - 1, cycles := s.cpu.cycles + 3 } } := by
  rw [push_eq]
  rfl

/-- What `PLA` and `PLP` share: the byte of the slot above SP goes to the latch and, as `f` says, to the registers, for 4 cycles. -/
theorem charge_pull (f : Byte → Cpu → Cpu) (s : State) :
    let b := Memory.read s.ram (0x100 + (s.cpu.sp + 1).toNat)
    let c := f b { s.cpu with sp := s.cpu.sp + 1 }
    charge 4 ((pull s).2.withCpu (f (pull s).1 (pull s).2.cpu)) =
      { s with cpu := { c with cycles := c.cycles + 4 }, bus := ⟨b⟩ } := by
  simp only [pull_eq, peek_stackAddr]
  rfl

theorem execPla_eq (s : State) :
    let b := Memory.read s.ram (0x100 + (s.cpu.sp + 1).toNat)
    execPla s = .next { s with
      cpu := { s.cpu with a := b, n := b.getLsbD 7, z := b = 0, sp := s.cpu.sp + 1, cycles := s.cpu.cycles + 4 }
      bus := ⟨b⟩ } := by
  simp only [execPla, charge_pull]
  rfl

theorem execPlp_eq (s : State) :
    let b := Memory.read s.ram (0x100 + (s.cpu.sp + 1).toNat)
    execPlp s = .next { s with
      cpu := { setStatus b s.cpu with sp := s.cpu.sp + 1, cycles := s.cpu.cycles + 4 }
      bus := ⟨b⟩ } := by
  simp only [execPlp, charge_pull]
  rfl

/-- The status byte with B = 1, each flag as its own mask: bits 5 and 4 are `0x30` (10_state.md R24). -/
theorem statusByte_true (c : Cpu) : statusByte true c =
    0x30 ||| (if c.n then 0x80 else 0) ||| (if c.v then 0x40 else 0) ||| (if c.d then 0x08 else 0) |||
      (if c.i then 0x04 else 0) ||| (if c.z then 0x02 else 0) ||| (if c.c then 0x01 else 0) := by
  unfold statusByte bitByte
  generalize c.n = n; generalize c.v = v; generalize c.d = d; generalize c.i = i; generalize c.z = z; generalize c.c = k
  revert n v d i z k; decide

/-! ### The obligations -/

/-- Settles O24: the pushes are `complete_push`, of A and of the status byte with B = 1; the pulls load A or the six flags. -/
theorem stackInstructionResults : Obligations.StackInstructionResults := by
  unfold Obligations.StackInstructionResults
  intro s sp b pushed bitOf
  have hphp : exec .php s = .next (pushed (statusByte true s.cpu)) := complete_push _ s
  rw [statusByte_true] at hphp
  exact ⟨rfl, complete_push s.cpu.a s, rfl, hphp, rfl, execPla_eq s, rfl, execPlp_eq s⟩

/-- Settles O25: each is an `impliedInstr` of 2 cycles that writes one flag, or for `NOP` none. -/
theorem flagInstructionResults : Obligations.FlagInstructionResults := by
  unfold Obligations.FlagInstructionResults
  exact
    ⟨implied_of_impliedInstr rfl fun _ => rfl, implied_of_impliedInstr rfl fun _ => rfl,
      implied_of_impliedInstr rfl fun _ => rfl, implied_of_impliedInstr rfl fun _ => rfl,
      implied_of_impliedInstr rfl fun _ => rfl, implied_of_impliedInstr rfl fun _ => rfl,
      implied_of_impliedInstr rfl fun _ => rfl, implied_of_impliedInstr rfl fun _ => rfl⟩

end Sys2Proof.Machine
end

/-! ## Undefined opcodes (46_undefined_opcodes.md R260-R263) -/

section
namespace Sys2Proof.Machine

/-! ### The two policies (46_undefined_opcodes.md R260, R261) -/

section
variable {i : Instr} {op : Byte} {length cost : Nat} {s : State}

theorem undefinedInstr_of_nop (h : s.cfg.undefinedOpcode = .nop) :
    undefinedInstr op length cost s = .next (charge cost s) := by
  rw [undefinedInstr, h]

theorem undefinedInstr_of_refuse (h : s.cfg.undefinedOpcode = .refuse) :
    undefinedInstr op length cost s = .refused (.undefinedOpcode op (s.cpu.pc - BitVec.ofNat 16 length)) := by
  rw [undefinedInstr, h]

/-- An instruction whose meaning is `undefinedInstr` with the opcode and the length of its row. -/
theorem undefined_of_undefinedInstr (hop : i.opcode = some op) (hlen : opcodeLength op = length)
    (h : ∀ s, exec i s = undefinedInstr op length cost s) : Undefined i op length cost :=
  ⟨hop, hlen, fun s hnop => (h s).trans (undefinedInstr_of_nop hnop)⟩

end

/-- What an undefined opcode byte decodes to means `undefinedInstr` of that very byte and of its length, row by row of R263. -/
theorem exec_decodeOpcode_of_isUndefinedOpcode {op : Byte} (l h : Byte) (s : State) (hop : isUndefinedOpcode op) :
    ∃ cost, exec (decodeOpcode op l h) s = undefinedInstr op (opcodeLength op) cost s := by
  revert op
  simp only [isUndefinedOpcode, List.forall_mem_map, List.forall_mem_cons, List.not_mem_nil, false_imp_iff, implies_true,
    and_true]
  constructorm* _ ∧ _ <;> exact ⟨_, rfl⟩

/-! ### The obligations -/

/-- Settles O26: each row is an `undefinedInstr` of its own opcode, length and cost, which is a charge of cycles under `nop`. -/
theorem undefinedOpcodesAreNoOps : Obligations.UndefinedOpcodesAreNoOps := by
  unfold Obligations.UndefinedOpcodesAreNoOps
  intro o a
  constructorm* _ ∧ _ <;> exact undefined_of_undefinedInstr rfl rfl fun _ => rfl

/-- Settles O27: whatever its cost, an `undefinedInstr` under `refuse` reports its opcode and the address it was fetched from. -/
theorem undefinedOpcodesRefused : Obligations.UndefinedOpcodesRefused := by
  unfold Obligations.UndefinedOpcodesRefused
  intro op l h s hop hrefuse
  obtain ⟨cost, hexec⟩ := exec_decodeOpcode_of_isUndefinedOpcode l h s hop
  rw [hexec, undefinedInstr_of_refuse hrefuse]

end Sys2Proof.Machine
end

/-! ## The bus and its devices (50_bus_devices.md R300-R316) -/

section
namespace Sys2Proof.Machine

/-! ### Reads (50_bus_devices.md R300-R305, R313) -/

/-- The PRG window in numbers: the offset of the 8KB slot, and the place in it (50_bus_devices.md R313). -/
theorem prgIndex_eq (m : Mapper) {a : Addr} (h : 0x8000 ≤ a.toNat) {j : Fin 4} (hj : j.1 = (a.toNat - 0x8000) / 0x2000) :
    prgIndex m a = m.prgOff.get j + a.toNat % 0x2000 := by
  have hslot : (a.extractLsb' 13 2).toFin = j := by
    apply Fin.ext
    rw [BitVec.val_toFin, toNat_extract_eq, hj]
    omega
  rw [prgIndex, hslot, BitVec.toNat_setWidth]

/-- An address of the PPU window reads the register its low three bits name, so its mirrors read alike (50_bus_devices.md R303). -/
theorem memRead_ppu_mirror {a b : Addr} (ha1 : 0x2000 ≤ a.toNat) (ha2 : a.toNat < 0x4000) (hb1 : 0x2000 ≤ b.toNat)
    (hb2 : b.toNat < 0x4000) (h : a.toNat % 8 = b.toNat % 8) (s : State) : memRead b s = memRead a s := by
  have hreg : (b.setWidth 3 : BitVec 3) = a.setWidth 3 := by
    apply BitVec.eq_of_toNat_eq
    rw [BitVec.toNat_setWidth, BitVec.toNat_setWidth]
    exact h.symm
  rw [memRead_ppu hb1 hb2, memRead_ppu ha1 ha2, hreg]

/-! ### Writes (50_bus_devices.md R300, R308, R309, R314) -/

/-- The audio registers hold what is written (50_bus_devices.md R308). -/
theorem memWrite_apu {a : Addr} (h : (0x4000 ≤ a.toNat ∧ a.toNat ≤ 0x4013) ∨ a.toNat = 0x4015 ∨ a.toNat = 0x4017) (d : Byte)
    (s : State) : memWrite a d s = .ok { s with apuReg := Memory.write s.apuReg (a.toNat - 0x4000) d } := by
  obtain ⟨h1, h2⟩ | h | h := h
  · rw [memWrite, if_neg (by omega), if_neg (by omega), if_pos (by omega)]
  · simp only [memWrite, h]
    rfl
  · simp only [memWrite, h]
    rfl

/-- The expansion space ignores a write (50_bus_devices.md R309). -/
theorem memWrite_expansion {a : Addr} (h1 : 0x4018 ≤ a.toNat) (h2 : a.toNat ≤ 0x5FFF) (d : Byte) (s : State) :
    memWrite a d s = .ok s := by
  rw [memWrite, if_neg (by omega), if_neg (by omega), if_neg (by omega), if_neg (by omega), if_neg (by omega),
    if_neg (by omega), if_neg (by omega), if_pos (by omega)]

/-- The PPU's status ignores a write, through every mirror (52_ppu_registers.md R373). -/
theorem memWrite_status {a : Addr} (h1 : 0x2000 ≤ a.toNat) (h2 : a.toNat < 0x4000) (h : a.toNat % 8 = 2) (d : Byte) (s : State) :
    memWrite a d s = .ok s := by
  have hreg : (a.setWidth 3 : BitVec 3) = 2 := by
    apply BitVec.eq_of_toNat_eq
    rw [BitVec.toNat_setWidth]
    exact h
  rw [memWrite_ppu h1 h2, hreg]
  rfl

/-- A write outside work and cartridge RAM leaves both (50_bus_devices.md R300, R314). -/
theorem memWrite_keeps_ram {s t : State} (hi : s.Inv) {a : Addr} (ha : ¬ isRam a) {d : Byte} (h : memWrite a d s = .ok t) :
    t.ram = s.ram ∧ t.prgRam = s.prgRam := by
  by_cases hppu : a.toNat < 0x4000
  · obtain ⟨p, hp, -⟩ := writeReg_written (cart := s.cart) hi.config.1 (a.setWidth 3) d hi.timing
    rw [memWrite_ppu (by omega) hppu, hp] at h
    cases h
    exact ⟨rfl, rfl⟩
  by_cases hdma : a.toNat = 0x4014
  · rw [memWrite_dma hdma] at h
    obtain rfl := Except.ok.inj h
    obtain ⟨hram, hprgRam, -⟩ := dmaFold_frame d (List.range 256) s
    exact ⟨hram, hprgRam⟩
  by_cases hio : a.toNat < 0x6000
  · obtain ⟨r, p, hw⟩ := memWrite_io (by omega) hio hdma d s
    rw [hw] at h
    cases h
    exact ⟨rfl, rfl⟩
  · obtain ⟨u, hu, -, hout⟩ := mapperWrite_spec hi a d
    rw [memWrite_mapper (by omega), hu] at h
    cases h
    exact ⟨hout.ram, hout.prgRam⟩

/-! ### The controller ports (50_bus_devices.md R310, R311) -/

/-- The port after `k` reads. -/
def Port.afterReads (strobe : Bool) (k : Nat) (p : Port) : Port := (fun p => (p.read strobe).2)^[k] p

theorem Port.afterReads_succ (strobe : Bool) (k : Nat) (p : Port) :
    p.afterReads strobe (k + 1) = ((p.afterReads strobe k).read strobe).2 := Function.iterate_succ_apply' _ _ _

/-- A byte's lowest bit, as a port returns it. -/
theorem and_one_eq_bitByte (b : Byte) : b &&& 1 = bitByte (b.getLsbD 0) := by revert b; decide

/-- A port under the strobe loads its mask at each read, so it returns button A (50_bus_devices.md R311). -/
theorem Port.read_true (p : Port) : p.read true = (bitByte (p.buttons.getLsbD 0), { p with shift := p.buttons }) :=
  congrArg (·, { p with shift := p.buttons }) (and_one_eq_bitByte p.buttons)

/-- A port without the strobe returns the lowest bit of its register and shifts a 1 into the top (50_bus_devices.md R311). -/
theorem Port.read_false (p : Port) :
    p.read false = (bitByte (p.shift.getLsbD 0), { p with shift := (p.shift >>> 1) ||| 0x80 }) :=
  congrArg (·, { p with shift := (p.shift >>> 1) ||| 0x80 }) (and_one_eq_bitByte p.shift)

theorem getLsbD_shiftIn (b : Byte) {i : Nat} (hi : i < 8) :
    ((b >>> 1) ||| 0x80).getLsbD i = (b.getLsbD (i + 1) || decide (i = 7)) := by
  have htop : ∀ i : Fin 8, (0x80 : Byte).getLsbD i = decide (i.1 = 7) := by decide
  rw [BitVec.getLsbD_or, BitVec.getLsbD_ushiftRight, Nat.add_comm, htop ⟨i, hi⟩]

theorem Port.afterReads_buttons (strobe : Bool) (k : Nat) (p : Port) : (p.afterReads strobe k).buttons = p.buttons := by
  induction k with
  | zero => rfl
  | succ k ih => rw [Port.afterReads_succ, Port.read_snd]; exact ih

/-- After `k` reads without the strobe, bit `i` of the register is its old bit `i + k`, or one of the 1s shifted in
(50_bus_devices.md R311). -/
theorem Port.afterReads_shift (k : Nat) (p : Port) {i : Nat} (hi : i < 8) :
    (p.afterReads false k).shift.getLsbD i = if i + k < 8 then p.shift.getLsbD (i + k) else true := by
  induction k generalizing i with
  | zero => exact (if_pos hi).symm
  | succ k ih =>
    rw [Port.afterReads_succ, Port.read_false, getLsbD_shiftIn _ hi]
    by_cases h7 : i = 7
    · rw [if_neg (by omega), decide_eq_true h7, Bool.or_true]
    · rw [ih (by omega), decide_eq_false h7, Bool.or_false, Nat.add_right_comm]
      rfl

/-- The read after `k` reads without the strobe returns bit `k` of the register, and 1 past its end. -/
theorem Port.read_afterReads (k : Nat) (p : Port) :
    ((p.afterReads false k).read false).1 = if k < 8 then bitByte (p.shift.getLsbD k) else 1 := by
  rw [Port.read_false, Port.afterReads_shift k p (by omega), Nat.zero_add, apply_ite bitByte]
  rfl

/-- Under the strobe every read returns button A. -/
theorem Port.read_afterReads_of_strobe (k : Nat) (p : Port) :
    ((p.afterReads true k).read true).1 = bitByte (p.buttons.getLsbD 0) := by
  rw [Port.read_true, Port.afterReads_buttons]

/-- Writing 1 to the strobe loads both ports (50_bus_devices.md R310). -/
theorem Pad.write_one (pad : Pad) : pad.write 1 =
    ⟨{ pad.port1 with shift := pad.port1.buttons }, { pad.port2 with shift := pad.port2.buttons }, true⟩ := rfl

/-- Writing 0 to the strobe leaves both ports as they are (50_bus_devices.md R310). -/
theorem Pad.write_zero (pad : Pad) : pad.write 0 = { pad with strobe := false } := rfl

theorem memWrite_strobe (d : Byte) (s : State) : memWrite 0x4016 d s = .ok { s with pad := s.pad.write d } := rfl

theorem memRead_port1_fst (s : State) : (memRead 0x4016 s).1 = (s.pad.port1.read s.pad.strobe).1 := by
  rw [memRead_port1 rfl]

theorem memRead_port2_fst (s : State) : (memRead 0x4017 s).1 = (s.pad.port2.read s.pad.strobe).1 := by
  rw [memRead_port2 rfl]

/-- Reads of the first port move its register and leave the second port. -/
theorem pad_iterate_read_port1 (k : Nat) (s : State) : ((fun s => (memRead 0x4016 s).2)^[k] s).pad =
    { s.pad with port1 := s.pad.port1.afterReads s.pad.strobe k } := by
  induction k with
  | zero => rfl
  | succ k ih => rw [Function.iterate_succ_apply', memRead_port1 rfl, Port.afterReads_succ, ih]

/-- Reads of the second port move its register and leave the first port. -/
theorem pad_iterate_read_port2 (k : Nat) (s : State) : ((fun s => (memRead 0x4017 s).2)^[k] s).pad =
    { s.pad with port2 := s.pad.port2.afterReads s.pad.strobe k } := by
  induction k with
  | zero => rfl
  | succ k ih => rw [Function.iterate_succ_apply', memRead_port2 rfl, Port.afterReads_succ, ih]

/-! ### Object-memory DMA (50_bus_devices.md R315, R316) -/

/-- The state after the DMA's first `n` bytes. -/
def dmaAfter (page : Byte) (s : State) (n : Nat) : State := (List.range n).foldl (dmaByte page) s

theorem dmaAfter_succ (page : Byte) (s : State) (n : Nat) : dmaAfter page s (n + 1) = dmaByte page (dmaAfter page s n) n := by
  rw [dmaAfter, List.range_succ, List.foldl_append]
  rfl

theorem oamDma_eq (page : Byte) (s : State) : oamDma page s =
    { dmaAfter page s 256 with cpu := { s.cpu with cycles := s.cpu.cycles + 513 } } := by
  obtain ⟨-, -, -, -, hcpu, -⟩ := dmaFold_frame page (List.range 256) s
  rw [oamDma, charge, hcpu]
  rfl

theorem dmaAfter_oamAddr (page : Byte) (s : State) (n : Nat) : (dmaAfter page s n).ppu.oamAddr = s.ppu.oamAddr := by
  obtain ⟨-, -, -, -, -, -, h⟩ := dmaFold_frame page (List.range n) s
  exact h

/-- One byte, with the object-memory address the DMA began with (50_bus_devices.md R315). -/
theorem dmaAfter_succ_eq (page : Byte) (s : State) (n : Nat) :
    let r := memRead (wordOf page (BitVec.ofNat 8 n)) (dmaAfter page s n)
    dmaAfter page s (n + 1) = { r.2 with ppu := { r.2.ppu with
      oam := Memory.write r.2.ppu.oam (s.ppu.oamAddr + BitVec.ofNat 8 n).toNat r.1 } } := by
  intro r
  have haddr : r.2.ppu.oamAddr = s.ppu.oamAddr := (memRead_oamAddr _ _).trans (dmaAfter_oamAddr page s n)
  rw [dmaAfter_succ, ← haddr]
  rfl

/-- `t` is `s` with the first `n` bytes of the page copied to object memory, the last of them in the latch. -/
structure DmaCopied (page : Byte) (s : State) (n : Nat) (t : State) : Prop where
  frame     : t = { s with bus := t.bus, ppu := { s.ppu with oam := t.ppu.oam } }
  latch     : ∀ m, n = m + 1 → t.bus = ⟨s.peek (wordOf page (BitVec.ofNat 8 m))⟩
  canonical : Memory.wf t.ppu.oam = true
  copied    : ∀ i : Byte, i.toNat < n → Memory.read t.ppu.oam (s.ppu.oamAddr + i).toNat = s.peek (wordOf page i)

/-- A page is memory as a whole: the regions of the map begin at page bounds. -/
theorem isMemory_wordOf {page : Byte} (h : isMemory (wordOf page 0)) (i : Byte) : isMemory (wordOf page i) := by
  have h0 : (wordOf page 0).toNat = 256 * page.toNat := toNat_wordOf page 0
  have hi := toNat_wordOf page i
  omega

/-- From a page of memory the DMA copies its bytes as they stood (50_bus_devices.md R315). -/
theorem dmaAfter_copied {page : Byte} (hpage : isMemory (wordOf page 0)) {s : State} (hwf : Memory.wf s.ppu.oam = true) (n : Nat)
    (hn : n ≤ 256) : DmaCopied page s n (dmaAfter page s n) := by
  induction n with
  | zero => exact ⟨rfl, fun _ h => by omega, hwf, fun _ h => by omega⟩
  | succ n ih =>
    obtain ⟨hframe, -, hcanon, hcopied⟩ := ih (by omega)
    have hmem := isMemory_wordOf hpage (BitVec.ofNat 8 n)
    have hpeek : (dmaAfter page s n).peek (wordOf page (BitVec.ofNat 8 n)) = s.peek (wordOf page (BitVec.ofNat 8 n)) := by
      rw [hframe]
      exact peek_mk s _ _ _ _ _ _ _ hmem
    rw [dmaAfter_succ_eq, memRead_memory hmem, hpeek]
    refine ⟨?_, fun m hm => ?_, Memory.wf_write hcanon _ _, fun i hi => ?_⟩
    · rw [hframe]
    · obtain rfl : n = m := by omega
      rfl
    · rw [Memory.read_write hcanon]
      by_cases hin : i = BitVec.ofNat 8 n
      · rw [hin, if_pos rfl]
      · have hne : i.toNat ≠ n := fun h => hin (BitVec.eq_of_toNat_eq (by rw [BitVec.toNat_ofNat]; omega))
        have haddr : (s.ppu.oamAddr + i).toNat ≠ (s.ppu.oamAddr + BitVec.ofNat 8 n).toNat :=
          fun h => hin (add_left_cancel (BitVec.eq_of_toNat_eq h))
        rw [if_neg haddr]
        exact hcopied i (by omega)

/-! ### The obligations -/

/-- Settles O34: each row of the map is the read lemma of its region, and outside the device windows only the latch changes. -/
theorem readRouting : Obligations.ReadRouting := by
  unfold Obligations.ReadRouting
  intro s a b n r after openByte
  have latchOnly {v : Byte} (h : memRead a s = (v, { s with bus := ⟨v⟩ })) : r = (v, after) := by simp only [after, r, h]
  refine ⟨fun h => latchOnly (memRead_ram (Nat.lt_succ_of_le h) s), fun h1 h2 => ?_,
    fun h1 h2 hb1 hb2 h => memRead_ppu_mirror h1 (Nat.lt_succ_of_le h2) hb1 (Nat.lt_succ_of_le hb2) h s,
    fun h1 h2 => latchOnly (memRead_open (.inl ⟨h1, Nat.lt_succ_of_le h2⟩) s), fun h => latchOnly (memRead_4015 h s),
    fun h => ?_, fun h => ?_, fun h1 h2 => latchOnly (memRead_open (.inr ⟨h1, Nat.lt_succ_of_le h2⟩) s),
    fun h1 h2 => latchOnly (memRead_prgRam h1 (Nat.lt_succ_of_le h2) s), fun h j hj => latchOnly ?_, rfl⟩
  · simp only [after, r, memRead_ppu h1 (Nat.lt_succ_of_le h2)]
  · simp only [after, r, memRead_port1 h]
  · simp only [after, r, memRead_port2 h]
  · rw [memRead_prg h, prgIndex_eq s.mapper h hj]

/-- Settles O35: a write of RAM changes its cell alone, the registers and the ignored addresses are the write lemmas of their
regions, and no write of any region touches the cartridge. -/
theorem memoryReadsBackLastWrite : Obligations.MemoryReadsBackLastWrite := by
  unfold Obligations.MemoryReadsBackLastWrite
  intro s a d hi n
  obtain ⟨t, ht, -, hran, -⟩ := memWrite_spec hi a d
  have of_eq {u : State} (h : memWrite a d s = .ok u) : t = u := Except.ok.inj (ht.symm.trans h)
  obtain ⟨hother, hcell⟩ := memWrite_memory hi.memories.ram.canonical hi.memories.prgRam.canonical ht
  refine ⟨t, ht, hran.cart, fun ha => ⟨(hcell ha).2, fun b hb => ?_⟩, fun ha => memWrite_keeps_ram hi ha ht,
    fun ha => ?_, fun h1 h2 => of_eq (memWrite_expansion h1 h2 d s),
    fun h1 h2 h => of_eq (memWrite_status h1 (Nat.lt_succ_of_le h2) h d s)⟩
  · split
    · next h => exact (hcell ha).1 b h
    · next h => exact (hother (by omega)).1 b hb h
  · obtain rfl := of_eq (memWrite_apu ha d s)
    exact ⟨rfl, Memory.read_write hi.memories.apuReg.canonical _ d⟩

/-- Settles O36: the strobe loads both masks, and then each port runs on its own, its register shifting only once the strobe is 0. -/
theorem controllerSerialReads : Obligations.ControllerSerialReads := by
  unfold Obligations.ControllerSerialReads
  intro s k after button
  refine ⟨_, _, memWrite_strobe 1 s, memWrite_strobe 0 _, ?_⟩
  simp only [after, memRead_port1_fst, memRead_port2_fst, pad_iterate_read_port1, pad_iterate_read_port2, Pad.write_one,
    Pad.write_zero]
  exact ⟨Port.read_afterReads k _, Port.read_afterReads k _,
    congrArg Prod.fst (Port.read_false _), congrArg Prod.fst (Port.read_false _),
    Port.read_afterReads_of_strobe k _, Port.read_afterReads_of_strobe k _⟩

/-- Settles O37: the DMA is its 256 bytes, whose frame is `dmaFold_frame` and from a page of memory `DmaCopied`. -/
theorem objectMemoryDma : Obligations.ObjectMemoryDma := by
  unfold Obligations.ObjectMemoryDma
  intro s page hwf
  obtain ⟨hram, hprgRam, hmapper, hcart, -, hapu, hoamAddr⟩ := dmaFold_frame page (List.range 256) s
  refine ⟨_, dmaAfter page s, memWrite_dma rfl page s, rfl, fun i _ => dmaAfter_succ_eq page s i, oamDma_eq page s, hoamAddr,
    hram, hprgRam, hapu, hmapper, hcart, fun hpage => ?_⟩
  obtain ⟨hframe, hlatch, -, hcopied⟩ := dmaAfter_copied hpage hwf 256 (Nat.le_refl _)
  refine ⟨fun i => hcopied i i.isLt, ?_⟩
  rw [oamDma_eq]
  generalize dmaAfter page s 256 = t at hframe hlatch ⊢
  rw [hframe, hlatch 255 rfl]
  rfl

end Sys2Proof.Machine
end

/-! ## Every instruction and every step completes (60_exceptions.md R500-R505; 55_console_host.md R471) -/

section
namespace Sys2Proof.Machine

/-! ### Every instruction -/

/-- The stop that only the policy `refuse` of 46_undefined_opcodes.md R261 makes. -/
def State.Refuses (s : State) (r : Result) : Prop := s.cfg.undefinedOpcode = .refuse ∧ ∃ e, r = .refused e

theorem State.Refuses.policy {s : State} {r : Result} (h : State.Refuses s r) : s.cfg.undefinedOpcode ≠ .nop := by
  simp [h.1]

theorem undefinedInstr_goes_or_refuses {s : State} (h : s.Inv) (op : Byte) (length : Nat) {cost : Nat} (hc : 2 ≤ cost) :
    State.Goes 2 s (undefinedInstr op length cost s) ∨ State.Refuses s (undefinedInstr op length cost s) := by
  cases hp : s.cfg.undefinedOpcode with
  | nop => exact .inl (undefinedInstr_goes h hp op length hc)
  | refuse => exact .inr ⟨hp, _, undefinedInstr_of_refuse hp⟩

/-- Each instruction completes by the shape of its arm of `exec`; an undefined opcode may be refused instead. -/
theorem exec_goes_or_refuses {s : State} (h : s.Inv) (i : Instr) : State.Goes 2 s (exec i s) ∨ State.Refuses s (exec i s) := by
  cases i with
  | lda src => exact .inl (readInstr_goes h src fun _ _ => ⟨rfl, rfl⟩)
  | ldx src => exact .inl (readInstr_goes h src fun _ _ => ⟨rfl, rfl⟩)
  | ldy src => exact .inl (readInstr_goes h src fun _ _ => ⟨rfl, rfl⟩)
  | adc src => exact .inl (readInstr_goes h src fun _ _ => ⟨rfl, rfl⟩)
  | sbc src => exact .inl (readInstr_goes h src fun _ _ => ⟨rfl, rfl⟩)
  | and src => exact .inl (readInstr_goes (f := fun m c => loadA (c.a &&& m) c) h src fun _ _ => ⟨rfl, rfl⟩)
  | ora src => exact .inl (readInstr_goes (f := fun m c => loadA (c.a ||| m) c) h src fun _ _ => ⟨rfl, rfl⟩)
  | eor src => exact .inl (readInstr_goes (f := fun m c => loadA (c.a ^^^ m) c) h src fun _ _ => ⟨rfl, rfl⟩)
  | cmp src => exact .inl (readInstr_goes (f := fun m c => compareWith c.a m c) h src fun _ _ => ⟨rfl, rfl⟩)
  | cpx src => exact .inl (readInstr_goes (f := fun m c => compareWith c.x m c) h src fun _ _ => ⟨rfl, rfl⟩)
  | cpy src => exact .inl (readInstr_goes (f := fun m c => compareWith c.y m c) h src fun _ _ => ⟨rfl, rfl⟩)
  | bit m => exact .inl (readInstr_goes h (.mem m) fun _ _ => ⟨rfl, rfl⟩)
  | sta m => exact .inl (storeInstr_goes h m Cpu.a)
  | stx m => exact .inl (storeInstr_goes h m Cpu.x)
  | sty m => exact .inl (storeInstr_goes h m Cpu.y)
  | inc m => exact .inl (modifyInstr_goes (flags := fun b => setNZ (b + 1)) h m (fun b _ => b + 1) fun _ _ => ⟨rfl, rfl⟩)
  | dec m => exact .inl (modifyInstr_goes (flags := fun b => setNZ (b - 1)) h m (fun b _ => b - 1) fun _ _ => ⟨rfl, rfl⟩)
  | asl dst => exact .inl (shiftInstr_goes h dst aslResult bit7)
  | lsr dst => exact .inl (shiftInstr_goes h dst lsrResult bit0)
  | rol dst => exact .inl (shiftInstr_goes h dst rolResult bit7)
  | ror dst => exact .inl (shiftInstr_goes h dst rorResult bit0)
  | tax => exact .inl (impliedInstr_goes (f := fun c => loadX c.a c) h (Nat.le_refl 2) fun _ => ⟨rfl, rfl⟩)
  | tay => exact .inl (impliedInstr_goes (f := fun c => loadY c.a c) h (Nat.le_refl 2) fun _ => ⟨rfl, rfl⟩)
  | txa => exact .inl (impliedInstr_goes (f := fun c => loadA c.x c) h (Nat.le_refl 2) fun _ => ⟨rfl, rfl⟩)
  | tya => exact .inl (impliedInstr_goes (f := fun c => loadA c.y c) h (Nat.le_refl 2) fun _ => ⟨rfl, rfl⟩)
  | tsx => exact .inl (impliedInstr_goes (f := fun c => loadX c.sp c) h (Nat.le_refl 2) fun _ => ⟨rfl, rfl⟩)
  | txs => exact .inl (impliedInstr_goes (f := fun c => { c with sp := c.x }) h (Nat.le_refl 2) fun _ => ⟨rfl, rfl⟩)
  | inx => exact .inl (impliedInstr_goes (f := fun c => loadX (c.x + 1) c) h (Nat.le_refl 2) fun _ => ⟨rfl, rfl⟩)
  | iny => exact .inl (impliedInstr_goes (f := fun c => loadY (c.y + 1) c) h (Nat.le_refl 2) fun _ => ⟨rfl, rfl⟩)
  | dex => exact .inl (impliedInstr_goes (f := fun c => loadX (c.x - 1) c) h (Nat.le_refl 2) fun _ => ⟨rfl, rfl⟩)
  | dey => exact .inl (impliedInstr_goes (f := fun c => loadY (c.y - 1) c) h (Nat.le_refl 2) fun _ => ⟨rfl, rfl⟩)
  | clc => exact .inl (impliedInstr_goes (f := fun c => { c with c := false }) h (Nat.le_refl 2) fun _ => ⟨rfl, rfl⟩)
  | sec => exact .inl (impliedInstr_goes (f := fun c => { c with c := true }) h (Nat.le_refl 2) fun _ => ⟨rfl, rfl⟩)
  | cld => exact .inl (impliedInstr_goes (f := fun c => { c with d := false }) h (Nat.le_refl 2) fun _ => ⟨rfl, rfl⟩)
  | sed => exact .inl (impliedInstr_goes (f := fun c => { c with d := true }) h (Nat.le_refl 2) fun _ => ⟨rfl, rfl⟩)
  | cli => exact .inl (impliedInstr_goes (f := fun c => { c with i := false }) h (Nat.le_refl 2) fun _ => ⟨rfl, rfl⟩)
  | sei => exact .inl (impliedInstr_goes (f := fun c => { c with i := true }) h (Nat.le_refl 2) fun _ => ⟨rfl, rfl⟩)
  | clv => exact .inl (impliedInstr_goes (f := fun c => { c with v := false }) h (Nat.le_refl 2) fun _ => ⟨rfl, rfl⟩)
  | nop => exact .inl (impliedInstr_goes (f := id) h (Nat.le_refl 2) fun _ => ⟨rfl, rfl⟩)
  | bcc rel => exact .inl (branchInstr_goes h (!s.cpu.c) rel)
  | bcs rel => exact .inl (branchInstr_goes h s.cpu.c rel)
  | beq rel => exact .inl (branchInstr_goes h s.cpu.z rel)
  | bne rel => exact .inl (branchInstr_goes h (!s.cpu.z) rel)
  | bmi rel => exact .inl (branchInstr_goes h s.cpu.n rel)
  | bpl rel => exact .inl (branchInstr_goes h (!s.cpu.n) rel)
  | bvc rel => exact .inl (branchInstr_goes h (!s.cpu.v) rel)
  | bvs rel => exact .inl (branchInstr_goes h s.cpu.v rel)
  | jmp target => exact .inl (execJmp_goes h target)
  | jsr target => exact .inl (execJsr_goes h target)
  | rts => exact .inl (execRts_goes h)
  | rti => exact .inl (execRti_goes h)
  | brk => exact .inl (execBrk_goes h)
  | pha => exact .inl (push_goes h s.cpu.a)
  | php => exact .inl (push_goes h (statusByte true s.cpu))
  | pla => exact .inl (pull_goes (f := loadA) h fun _ _ => ⟨rfl, rfl⟩)
  | plp => exact .inl (pull_goes (f := setStatus) h fun _ _ => ⟨rfl, rfl⟩)
  | _ => exact undefinedInstr_goes_or_refuses h _ _ (by decide)

/-! ### Every step -/

theorem State.Goes.of_eq {k : Nat} {s t : State} {r : Result} (h : State.Goes k t r) (hk : t.console = s.console)
    (hc : t.cart = s.cart) (hg : t.cfg = s.cfg) (hd : t.ppu.dots = s.ppu.dots) (hy : t.cpu.cycles = s.cpu.cycles) :
    State.Goes k s r := by
  simpa only [State.Goes, hk, hc, hg, hd, hy] using h

/-- The CPU step is an interrupt entry, or the instruction at PC run after its fetch. -/
theorem cpuStep_goes_or_refuses {s : State} (h : s.Inv) : State.Goes 2 s (cpuStep s) ∨ State.Refuses s (cpuStep s) := by
  unfold cpuStep
  cases interruptDue s.cpu with
  | some i => exact .inl (takeInterrupt_goes h i)
  | none =>
    obtain ⟨hinv, hconsole, hcart, hcfg, hcycles⟩ := h.fetchInstr
    obtain hgoes | ⟨hpolicy, hrefused⟩ := exec_goes_or_refuses hinv (fetchInstr s).1
    · exact .inl (hgoes.of_eq hconsole hcart hcfg (fetchInstr_dots s) hcycles)
    · exact .inr ⟨hcfg ▸ hpolicy, hrefused⟩

/-- What a step of a loaded machine leaves: the invariant, the cartridge, the parameters and the breakpoint callback kept, at least 2
cycles, and three dots for each of them. -/
structure State.Stepped (s t : State) : Prop where
  inv        : t.Inv
  cart       : t.cart = s.cart
  cfg        : t.cfg = s.cfg
  loaded     : t.console.loaded = s.console.loaded
  breakpoint : t.console.breakpointCallback = s.console.breakpointCallback
  cycles     : s.cpu.cycles + 2 ≤ t.cpu.cycles
  dots       : t.ppu.dots = s.ppu.dots + 3 * (t.cpu.cycles - s.cpu.cycles)

/-- A step of a loaded machine is the CPU step and the advance by its cycles; only the CPU step can be refused. -/
theorem step_stepped_or_refuses {s : State} (h : s.Inv) (hl : s.console.loaded = true) :
    (∃ t, step s = .next t ∧ State.Stepped s t) ∨ State.Refuses s (step s) := by
  rw [step, if_pos hl]
  obtain ⟨u, hu, hinv, hconsole, hcart, hcfg, hdots, hcycles⟩ | ⟨hpolicy, e, he⟩ := cpuStep_goes_or_refuses h
  · obtain ⟨t, ht, htinv, htcart, htcfg, htloaded, htcycles, htdots, htbp⟩ :=
      advanceAfter_goes hinv (Nat.le_of_add_right_le hcycles) hconsole
    refine .inl ⟨t, by rw [hu]; exact ht, htinv, htcart.trans hcart, htcfg.trans hcfg, htloaded.trans (hconsole ▸ rfl),
      htbp.trans (hconsole ▸ rfl), htcycles ▸ hcycles, ?_⟩
    rw [htdots, hdots, htcycles]
  · exact .inr ⟨hpolicy, e, by rw [he]; rfl⟩

theorem step_stepped {s : State} (h : s.Inv) (hp : s.cfg.undefinedOpcode = .nop) (hl : s.console.loaded = true) :
    ∃ t, step s = .next t ∧ State.Stepped s t :=
  (step_stepped_or_refuses h hl).resolve_right fun hr => hr.policy hp

/-! ### The obligations -/

/-- Settles O58: a loaded machine's step is `State.Stepped`, and an unloaded one's changes nothing. -/
theorem stepKeepsInvariant : Obligations.StepKeepsInvariant := by
  unfold Obligations.StepKeepsInvariant
  intro s t h ht
  by_cases hl : s.console.loaded = true
  · obtain ⟨u, hu, hstep⟩ | ⟨-, e, he⟩ := step_stepped_or_refuses h hl
    · obtain rfl : u = t := Host.Outcome.next.inj (hu.symm.trans ht)
      exact ⟨hstep.inv, hstep.cart, hstep.cfg, hstep.loaded⟩
    · exact absurd (he.symm.trans ht) nofun
  · rw [step, if_neg hl] at ht
    obtain rfl : s = t := Host.Outcome.next.inj ht
    exact ⟨h, rfl, rfl, rfl⟩

/-- Settles O59: under the policy `nop` no CPU step is refused. -/
theorem stepNeverStops : Obligations.StepNeverStops := by
  unfold Obligations.StepNeverStops
  intro s h hp hl
  obtain ⟨t, ht, hstep⟩ := step_stepped h hp hl
  exact ⟨t, ht, hstep.inv, hstep.loaded.trans hl, hstep.cycles, hstep.dots⟩

/-- Settles O32: every arm of `exec` completes by its shape, and under `nop` none is refused. -/
theorem everyInstructionCompletes : Obligations.EveryInstructionCompletes := by
  unfold Obligations.EveryInstructionCompletes
  intro i s h hp
  obtain ⟨t, ht, hinv, hconsole, hcart, hcfg, -, hcycles⟩ :=
    (exec_goes_or_refuses h i).resolve_right fun hr => hr.policy hp
  exact ⟨t, ht, hinv, hcycles, hcart, hcfg, hconsole⟩

end Sys2Proof.Machine
end

/-! ## Batches (55_console_host.md R470, R473, R474) -/

section
namespace Sys2Proof.Machine

/-! ### The breakpoint callback (R473) -/

/-- The state in which the callback has given an answer: the pause bit it set, and the answers that are left. -/
def answered (pause : Option Bool) (rest : List BreakpointAnswer) (s : State) : State := { s with
  cpu := { s.cpu with paused := pause.getD s.cpu.paused }
  console := { s.console with breakpointCallback := some ⟨rest⟩ } }

theorem askBreakpoint_of_answer {s : State} {stop : Bool} {pause : Option Bool} {rest : List BreakpointAnswer}
    (h : s.console.breakpointCallback = some ⟨⟨stop, pause⟩ :: rest⟩) : askBreakpoint s = (stop, answered pause rest s) := by
  simp only [askBreakpoint, h]
  cases pause <;> rfl

theorem askBreakpoint_of_none {s : State} (h : ∀ a rest, s.console.breakpointCallback ≠ some ⟨a :: rest⟩) :
    askBreakpoint s = (false, s) := by
  unfold askBreakpoint
  split
  · next a rest ha => exact absurd ha (h a rest)
  · rfl

/-- Whether the callback has an answer to give. -/
theorem answer_cases (s : State) : (∃ stop pause rest, s.console.breakpointCallback = some ⟨⟨stop, pause⟩ :: rest⟩) ∨
    ∀ a rest, s.console.breakpointCallback ≠ some ⟨a :: rest⟩ := by
  rcases hb : s.console.breakpointCallback with _ | ⟨_ | ⟨⟨stop, pause⟩, rest⟩⟩
  · exact .inr nofun
  · exact .inr nofun
  · exact .inl ⟨stop, pause, rest, rfl⟩

/-- What a check of the callback leaves as it was. -/
structure State.Asked (s t : State) : Prop where
  inv    : t.Inv
  cfg    : t.cfg = s.cfg
  loaded : t.console.loaded = s.console.loaded
  cycles : t.cpu.cycles = s.cpu.cycles

theorem State.Inv.answered {s : State} (h : s.Inv) (pause : Option Bool) (rest : List BreakpointAnswer) :
    (Machine.answered pause rest s).Inv :=
  (h.withCpu (c := { s.cpu with paused := pause.getD s.cpu.paused }) rfl).withConsole rfl

theorem askBreakpoint_asked {s : State} (h : s.Inv) : State.Asked s (askBreakpoint s).2 := by
  obtain ⟨stop, pause, rest, hb⟩ | hb := answer_cases s
  · rw [askBreakpoint_of_answer hb]
    exact ⟨h.answered pause rest, rfl, rfl, rfl⟩
  · rw [askBreakpoint_of_none hb]
    exact ⟨h, rfl, rfl, rfl⟩

/-- No answer of the callback's script stops the batch. -/
def State.NeverStops (s : State) : Prop :=
  ∀ script, s.console.breakpointCallback = some script → ∀ answer ∈ script.answers, answer.stop = false

theorem askBreakpoint_of_neverStops {s : State} (h : s.NeverStops) :
    (askBreakpoint s).1 = false ∧ (askBreakpoint s).2.NeverStops := by
  obtain ⟨stop, pause, rest, hb⟩ | hb := answer_cases s
  · rw [askBreakpoint_of_answer hb]
    refine ⟨h _ hb _ List.mem_cons_self, fun script hs answer ha => h _ hb _ (List.mem_cons_of_mem _ ?_)⟩
    obtain rfl : ⟨rest⟩ = script := Option.some.inj hs
    exact ha
  · rw [askBreakpoint_of_none hb]
    exact ⟨rfl, h⟩

/-! ### The loop -/

section
variable {start n : Nat} {s : State}

theorem batchLoop_done (h : n ≤ s.cpu.cycles - start) (fuel : Nat) : batchLoop start n fuel s = .next s := by
  cases fuel with
  | zero => rfl
  | succ fuel => rw [batchLoop, if_pos h]

theorem batchLoop_stop (h : s.cpu.cycles - start < n) (hb : (askBreakpoint s).1 = true) (fuel : Nat) :
    batchLoop start n (fuel + 1) s = .next (askBreakpoint s).2 := by
  rw [batchLoop, if_neg (Nat.not_le.2 h)]
  exact if_pos hb

theorem batchLoop_step (h : s.cpu.cycles - start < n) (hb : (askBreakpoint s).1 = false) {t : State}
    (ht : step (askBreakpoint s).2 = .next t) (fuel : Nat) :
    batchLoop start n (fuel + 1) s = batchLoop start n fuel t := by
  rw [batchLoop, if_neg (Nat.not_le.2 h)]
  simp only [hb, ht, andThen, Bool.false_eq_true, if_false]

end

/-- The step after a check that did not stop the batch. -/
theorem step_askBreakpoint {s : State} (h : s.Inv) (hp : s.cfg.undefinedOpcode = .nop) (hl : s.console.loaded = true) :
    ∃ t, step (askBreakpoint s).2 = .next t ∧ State.Stepped (askBreakpoint s).2 t ∧ t.cfg.undefinedOpcode = .nop ∧
      t.console.loaded = true ∧ s.cpu.cycles + 2 ≤ t.cpu.cycles := by
  obtain ⟨hinv, hcfg, hloaded, hcycles⟩ := askBreakpoint_asked h
  obtain ⟨t, ht, hstep⟩ := step_stepped hinv (hcfg ▸ hp) (hloaded.trans hl)
  exact ⟨t, ht, hstep, by rw [hstep.cfg, hcfg, hp], hstep.loaded.trans (hloaded.trans hl), hcycles ▸ hstep.cycles⟩

/-- With a callback that never stops, and fuel for the cycles that are left, the loop ends with the step that reaches them. -/
theorem batchLoop_reaches {start n : Nat} (fuel : Nat) {s : State} (h : s.Inv) (hp : s.cfg.undefinedOpcode = .nop)
    (hl : s.console.loaded = true) (hb : s.NeverStops) (hs : start ≤ s.cpu.cycles) (hn : s.cpu.cycles - start < n)
    (hf : start + n ≤ s.cpu.cycles + fuel) :
    ∃ r t : State, batchLoop start n fuel s = .next t ∧ t.Inv ∧ step r = .next t ∧ r.Inv ∧ start ≤ r.cpu.cycles ∧
      r.cpu.cycles - start < n ∧ n ≤ t.cpu.cycles - start := by
  induction fuel generalizing s with
  | zero => omega
  | succ fuel ih =>
    obtain ⟨hgo, hb'⟩ := askBreakpoint_of_neverStops hb
    obtain ⟨t, ht, hstep, htp, htl, hcycles⟩ := step_askBreakpoint h hp hl
    have hasked := askBreakpoint_asked h
    rw [batchLoop_step hn hgo ht]
    by_cases hdone : n ≤ t.cpu.cycles - start
    · exact ⟨(askBreakpoint s).2, t, batchLoop_done hdone fuel, hstep.inv, ht, hasked.inv, hasked.cycles ▸ hs,
        hasked.cycles ▸ hn, hdone⟩
    · exact ih hstep.inv htp htl (fun script hscript => hb' script (hstep.breakpoint ▸ hscript)) (by omega) (by omega) (by omega)

/-- With enough fuel the loop depends on the cycle count it must reach, and not on where it began or on the fuel. -/
theorem batchLoop_congr {start n start' n' : Nat} (hsum : start + n = start' + n') (hn : 0 < n) (hn' : 0 < n') (fuel fuel' : Nat)
    {s : State} (h : s.Inv) (hp : s.cfg.undefinedOpcode = .nop) (hl : s.console.loaded = true)
    (hf : start + n ≤ s.cpu.cycles + fuel) (hf' : start + n ≤ s.cpu.cycles + fuel') :
    batchLoop start n fuel s = batchLoop start' n' fuel' s := by
  induction fuel generalizing fuel' s with
  | zero => rw [batchLoop_done (by omega), batchLoop_done (by omega)]
  | succ fuel ih =>
    by_cases hdone : n ≤ s.cpu.cycles - start
    · rw [batchLoop_done hdone, batchLoop_done (by omega)]
    · obtain ⟨fuel', rfl⟩ : ∃ k, fuel' = k + 1 := ⟨fuel' - 1, by omega⟩
      cases hb : (askBreakpoint s).1 with
      | true => rw [batchLoop_stop (by omega) hb, batchLoop_stop (by omega) hb]
      | false =>
        obtain ⟨t, ht, hstep, htp, htl, hcycles⟩ := step_askBreakpoint h hp hl
        rw [batchLoop_step (by omega) hb ht, batchLoop_step (by omega) hb ht]
        exact ih fuel' hstep.inv htp htl (by omega) (by omega)

/-! ### The batch -/

theorem runCycles_still {n : Int} {s : State} (h : s.console.loaded = false ∨ s.cpu.paused = true ∨ n ≤ 0) :
    runCycles n s = .next s := by
  unfold runCycles
  split
  · next hrun =>
    have hn : n.toNat = 0 := by simp_all
    rw [hn, batchLoop]
  · rfl

theorem runCycles_runs {n : Int} {s : State} (hl : s.console.loaded = true) (hp : s.cpu.paused = false) :
    runCycles n s = batchLoop s.cpu.cycles n.toNat n.toNat s := by
  simp [runCycles, hl, hp]

/-- Settles O60: the loop by induction on its fuel, which the cycles that are left bound. -/
theorem batchReachesItsCycles : Obligations.BatchReachesItsCycles := by
  unfold Obligations.BatchReachesItsCycles
  intro s n h hp asked
  refine ⟨runCycles_still, fun hl hpaused hn hb => ?_, fun pause rest hl hpaused hn hb => ?_,
    fun pause rest hl hpaused hn hb => ?_⟩
  · obtain ⟨r, t, ht, hinv, hstep, hrinv, hr0, hr1, hr2⟩ :=
      batchLoop_reaches (start := s.cpu.cycles) (n := n.toNat) n.toNat h hp hl hb (Nat.le_refl _) (by omega) (by omega)
    exact ⟨r, t, (runCycles_runs hl hpaused).trans ht, hinv, hstep, hrinv, hr0, by omega, by omega⟩
  · obtain ⟨fuel, hfuel⟩ : ∃ k, n.toNat = k + 1 := ⟨n.toNat - 1, by omega⟩
    have hasked := askBreakpoint_of_answer hb
    rw [runCycles_runs hl hpaused, hfuel, batchLoop_stop (by omega) (by rw [hasked]), hasked]
    rfl
  · obtain ⟨fuel, hfuel⟩ : ∃ k, n.toNat = k + 1 := ⟨n.toNat - 1, by omega⟩
    have hasked := askBreakpoint_of_answer hb
    obtain ⟨t, ht, hstep, htp, htl, hcycles⟩ := step_askBreakpoint h hp hl
    have hrun : runCycles n s = batchLoop s.cpu.cycles n.toNat fuel t := by
      rw [runCycles_runs hl hpaused, hfuel, batchLoop_step (by omega) (by rw [hasked]) ht]
    refine ⟨t, ?_, fun hdone => ?_, fun hleft hpaused' => ?_⟩
    · rw [hasked] at ht
      exact ht
    · rw [hrun, batchLoop_done (by omega)]
    · rw [hrun, runCycles_runs htl hpaused']
      exact batchLoop_congr (by omega) (by omega) (by omega) _ _ hstep.inv htp htl (by omega) (by omega)

end Sys2Proof.Machine
end

/-! ## The frame counter (53_ppu_timing_events.md R400-R402, R405) -/

section
namespace Sys2Proof.Machine

/-- The dots of a frame at which vertical blank is entered are those 7,502 before a multiple of 89,342. -/
theorem vblankDot_count (d : Nat) : (d + 1 + 7502) / 89342 =
    (d + 7502) / 89342 + if (d + 1) % 341 = 0 ∧ (d + 1) / 341 % 262 = 240 then 1 else 0 := by
  split <;> omega

theorem advanceDots_succ {n : Nat} {s t : State} (h : tickDot s = .ok t) : advanceDots (n + 1) s = advanceDots n t := by
  rw [advanceDots, h]
  rfl

theorem advanceDots_frame (n : Nat) {s : State} (h : s.Inv) : ∃ t, advanceDots n s = .ok t ∧ t.Inv ∧
    t.ppu.dots = s.ppu.dots + n ∧
    t.ppu.frame + (s.ppu.dots + 7502) / 89342 = s.ppu.frame + (s.ppu.dots + n + 7502) / 89342 := by
  induction n generalizing s with
  | zero => exact ⟨s, rfl, h, rfl, rfl⟩
  | succ n ih =>
    obtain ⟨u, hu, huinv, -, -, -, -, hudots, huframe⟩ := tickDot_spec h
    obtain ⟨t, ht, htinv, htdots, htframe⟩ := ih huinv
    have hcount := vblankDot_count s.ppu.dots
    rw [hudots] at htdots htframe
    have hshift : s.ppu.dots + 1 + n = s.ppu.dots + (n + 1) := by omega
    rw [hshift] at htdots htframe
    exact ⟨t, (advanceDots_succ hu).trans ht, htinv, htdots, by omega⟩

/-- Settles O49: the frame counter by induction on the dots, and the line from the invariant. -/
theorem vblankOncePerFrame : Obligations.VblankOncePerFrame := by
  unfold Obligations.VblankOncePerFrame
  intro s n h
  obtain ⟨t, ht, htinv, htdots, htframe⟩ := advanceDots_frame n h
  obtain ⟨u, hu, huinv, hudots, huframe⟩ := advanceDots_frame (262 * 341) h
  have htline := htinv.timing.position
  have huline := huinv.timing.position
  have hsline := h.timing.position
  simp only [Config.dotsPerLine, Config.linesPerFrame, htdots, hudots] at htline huline hsline
  exact ⟨t, u, ht, htinv, htdots, htline, htframe, hu, by omega, by omega⟩

end Sys2Proof.Machine
end

/-! ## Save states (55_console_host.md R488-R490) -/

section
namespace Sys2Proof.Machine

/-- The saved part of video RAM. -/
def savedVram (s : State) : List Byte := Memory.toList s.ppu.vram (vramStart s.cart) (Config.vramSize - vramStart s.cart)

theorem length_savedVram (s : State) : (savedVram s).length = Config.vramSize - vramStart s.cart :=
  Memory.length_toList _ _ _

/-- The blob of a state whose counters fit (R488). -/
def savedBlob (s : State) : Blob where
  cpu := some (base64Encode (cpuBytes s.cpu))
  ppu := some (base64Encode (ppuBytes s.ppu))
  oam := some (base64Encode (Memory.toList s.ppu.oam 0 Config.oamSize))
  vram := some (base64Encode (savedVram s))
  mirroring := some s.ppu.mirroring.value
  ram := some (base64Encode (Memory.toList s.ram 0 Config.ramSize))
  prgRam := some (base64Encode (Memory.toList s.prgRam 0 Config.prgRamSize))
  mapper := some (base64Encode (mapperBytes s.mapper))
  io := some (base64Encode (ioBytes s))

theorem save_eq {s : State} (hc : s.cpu.cycles < 2 ^ 64) (hd : s.ppu.dots < 2 ^ 64) (hf : s.ppu.frame < 2 ^ 32) :
    save s = .ok (savedBlob s) := by
  have hfit : countersFit s = true := by simp only [countersFit, hc, hd, hf, decide_true, Bool.and_true]
  exact if_pos hfit

/-- Video RAM after the load: the part that the blob does not hold is that of the machine loaded into (log entry 9). -/
def restoredVram (s u : State) : Memory :=
  (u.ppu.vram.filter fun c => c.1 < vramStart s.cart) ++ Memory.ofList (vramStart s.cart) (savedVram s)

/-- The machine `u` after the load of the blob of `s` (R489, R490). -/
def restored (s u : State) : State := { s with
  console := u.console
  cfg := u.cfg
  ppu := { s.ppu with
    vram := restoredVram s u
    nextQ := []
    curQ := []
    frameBase := s.ppu.snapshot
    renderBase := s.ppu.snapshot
    index := u.ppu.index
    frameOut := u.ppu.frameOut } }

theorem length_ppuBytes (p : Ppu) : (ppuBytes p).length = 24 := by
  simp [ppuBytes, length_leBytes]

theorem length_cpuBytes (c : Cpu) : (cpuBytes c).length = 20 := by
  simp [cpuBytes, length_leBytes]

/-- Every check of the load passes on the blob of a state that meets the invariant, and every field reads back. -/
theorem loadState_savedBlob {s u : State} (h : s.Inv) (hu : u.Inv) (hl : s.console.loaded = true) (hcart : u.cart = s.cart)
    (hc : s.cpu.cycles < 2 ^ 64) (hd : s.ppu.dots < 2 ^ 64) (hf : s.ppu.frame < 2 ^ 32) :
    loadState (savedBlob s) u = some (restored s u) := by
  have hlive : s.ppu.liveLine ≤ 240 := h.timing.live.trans (targetLine_le _)
  obtain ⟨hmapperLength, hmapper⟩ := mapper_round s.cart s.mapper u.mapper s.ppu.mirroring h.mapper.regs
    (hcart ▸ hu.mapper.regs) (h.mapper.prgOff hl) h.mapper.chrOff h.cart.byteP h.mapper.mirrorCopy.symm
  obtain ⟨hioLength, hio0, hio1, hio2, hio3, hio4, hio5, hio6⟩ := io_round s
  simp only [loadState, savedBlob, hcart, Option.bind_eq_bind, Option.bind_some,
    blobField_round _ _ (length_cpuBytes s.cpu), blobField_round _ _ (length_ppuBytes s.ppu),
    blobField_round _ _ (Memory.length_toList s.ppu.oam 0 Config.oamSize),
    blobField_round _ _ (length_savedVram s),
    blobField_round _ _ (Memory.length_toList s.ram 0 Config.ramSize),
    blobField_round _ _ (Memory.length_toList s.prgRam 0 Config.prgRamSize),
    blobField_round _ _ hmapperLength, blobField_round _ _ hioLength, ofValue_value, cpu_round s.cpu hc,
    ppu_round s.ppu u.ppu hlive hd hf, hmapper, hio0, hio1, hio2, hio3, hio4, hio5, hio6, bitOfByte_bitByte,
    Memory.ofList_toList h.memories.ram, Memory.ofList_toList h.memories.prgRam, Memory.ofList_toList h.memories.oam,
    Memory.ofList_toList h.memories.apuReg]
  simp only [restored, Ppu.reconstruct, Ppu.snapshot, ← h.timing.position, ← h.mapper.mirrorMask, ← h.mapper.chrCopy]
  rfl

theorem read_restoredVram {s u : State} (h : s.Inv) (k : Nat) : Memory.read (restoredVram s u) k =
    if k < vramStart s.cart then Memory.read u.ppu.vram k else Memory.read s.ppu.vram k := by
  rw [restoredVram, Memory.read_kept]
  by_cases hk : k < vramStart s.cart
  · rw [if_pos hk, if_pos hk]
  · rw [if_neg hk, if_neg hk]
    have hsum : vramStart s.cart + (k - vramStart s.cart) = k := by omega
    by_cases hin : k < Config.vramSize
    · have hin' : k - vramStart s.cart < Config.vramSize - vramStart s.cart := by omega
      simp [savedVram, Memory.toList, hin', hsum]
    · have hout : Config.vramSize - vramStart s.cart ≤ k - vramStart s.cart := by omega
      rw [Memory.read_outside h.memories.vram (Nat.le_of_not_lt hin)]
      simp [savedVram, hout]

/-- With CHR RAM the blob holds the whole of video RAM. -/
theorem restoredVram_of_chrRam {s u : State} (h : s.Inv) (hr : s.cart.nChr = 0) : restoredVram s u = s.ppu.vram := by
  have hstart : vramStart s.cart = 0 := by simp [vramStart, Cart.hasChrRom, hr]
  rw [restoredVram, savedVram, hstart]
  simp only [Nat.not_lt_zero, decide_false, List.filter_false, List.nil_append, Nat.sub_zero]
  exact Memory.ofList_toList h.memories.vram

/-- Settles O56: the blob of `save` is `savedBlob`, whose load is `restored`. -/
theorem saveThenLoadRestores : Obligations.SaveThenLoadRestores := by
  unfold Obligations.SaveThenLoadRestores
  intro s u h hu hl hcart hc hd hf base
  refine ⟨savedBlob s, restored s u, save_eq hc hd hf, loadState_savedBlob h hu hl hcart hc hd hf, rfl,
    restoredVram_of_chrRam h, fun hrom k => ?_⟩
  have hstart : vramStart s.cart = 0x2000 := by simp [vramStart, Cart.hasChrRom, hrom]
  exact hstart ▸ read_restoredVram h k

end Sys2Proof.Machine
end

/-! ## Mappers (51_mappers.md R330-R362) -/

section
namespace Sys2Proof.Machine

/-! ### Banks (R332, R334) -/

/-- A count that is a power of two makes the mask a remainder, and the bank's base lies inside the data (R332). -/
theorem prgBase_of_two_pow (c : Cart) {size b k : Nat} (hsize : 0 < size) (h : c.prgSize / size = 2 ^ k) :
    c.prgBase size b = b % 2 ^ k * size ∧ c.prgBase size b < c.prgSize := by
  have hpos : 0 < 2 ^ k := Nat.two_pow_pos k
  have hbase : c.prgBase size b = b % 2 ^ k * size := by
    rw [Cart.prgBase, Cart.countP, h, Nat.max_eq_right hpos, Nat.and_two_pow_sub_one_eq_mod]
  refine ⟨hbase, ?_⟩
  calc c.prgBase size b = b % 2 ^ k * size := hbase
    _ < 2 ^ k * size := Nat.mul_lt_mul_of_pos_right (Nat.mod_lt _ hpos) hsize
    _ ≤ c.prgSize := h ▸ Nat.div_mul_le_self _ _

/-- The first slot of a mapped window holds the bank's base, when the count is a power of two (R332). -/
theorem mapPrg_first (s : State) {size j0 b k : Nat} (hsize : 0x2000 ≤ size) (h : s.cart.prgSize / size = 2 ^ k)
    {j : Fin 4} (hj : j.1 = j0) : (mapPrg size j0 b s).mapper.prgOff.get j = b % 2 ^ k * size := by
  obtain ⟨hbase, hlt⟩ := prgBase_of_two_pow s.cart (b := b) (by omega) h
  have hwindow : 0 < size / 0x2000 := Nat.div_pos hsize (by omega)
  rw [mapPrg_mapper_prgOff, mapPrgOff_get, if_pos ⟨hj.ge, by omega⟩, hj, Nat.sub_self, Nat.zero_mul, Nat.add_zero,
    Nat.mod_eq_of_lt hlt, hbase]

/-- Settles O38: the slots by `mapPrgOff_get` and `mapChrOff_get`, and the publication by `mapChr_published`. -/
theorem bankArithmetic : Obligations.BankArithmetic := by
  unfold Obligations.BankArithmetic
  intro s b
  constructor
  · intro size hsize j0 count
    have hmin : 0x2000 ≤ size := by
      simp only [List.mem_cons, List.not_mem_nil, or_false] at hsize
      omega
    exact ⟨rfl, mapPrgOff_get s.cart size j0 b _, fun k hk _ j hj => mapPrg_first s hmin hk hj⟩
  · intro h size hsize j0 hj count
    have hunit : size % 0x400 = 0 ∧ 0x400 ≤ size := by
      simp only [List.mem_cons, List.not_mem_nil, or_false] at hsize
      omega
    obtain ⟨t, ht, hset, hmapper⟩ := mapChr_mapper h.core hunit.1 hj b
    refine ⟨t, ht, hset.core.chrCopy, by rw [hmapper], fun hram => ?_, fun hrom => ⟨by rw [hmapper],
      mapChr_published h.core hrom hunit.1 hunit.2 hj ht, fun j => ?_⟩⟩
    · exact (Except.ok.inj ((mapChr_ram hram size j0 b).symm.trans ht)).symm
    · rw [hmapper]
      simp only [if_pos hrom]
      exact mapChrOff_get s.cart size j0 b _ j

/-! ### The registers of each variant (R330) -/

section
variable {s : State} (h : s.mapper.regs.okFor s.cart.variant)
include h

theorem regs_of_nrom (hv : s.cart.variant = .nrom) : s.mapper.regs = .nrom := by
  cases hr : s.mapper.regs <;> simp [hr, hv, MapperRegs.okFor] at h ⊢

theorem regs_of_uxrom (hv : s.cart.variant = .uxrom) : ∃ bank, s.mapper.regs = .uxrom bank := by
  cases hr : s.mapper.regs <;> simp [hr, hv, MapperRegs.okFor] at h ⊢

theorem regs_of_cnrom (hv : s.cart.variant = .cnrom) : ∃ bank, s.mapper.regs = .cnrom bank := by
  cases hr : s.mapper.regs <;> simp [hr, hv, MapperRegs.okFor] at h ⊢

theorem regs_of_axrom (hv : s.cart.variant = .axrom) : s.mapper.regs = .axrom := by
  cases hr : s.mapper.regs <;> simp [hr, hv, MapperRegs.okFor] at h ⊢

theorem variant_of_mmc1 {r : Mmc1} (hr : s.mapper.regs = .mmc1 r) : s.cart.variant = .mmc1 ∧ r.shift ≠ 0 := by
  cases hv : s.cart.variant <;> simp [hr, hv, MapperRegs.okFor] at h ⊢
  exact h

theorem variant_of_mmc3 {r : Mmc3} (hr : s.mapper.regs = .mmc3 r) : s.cart.variant = .mmc3 := by
  cases hv : s.cart.variant <;> simp [hr, hv, MapperRegs.okFor] at h ⊢

end

/-! ### NROM, UxROM, CNROM and AxROM (R340, R345, R350, R351) -/

section
variable {s : State} {a : Addr} (ha : 0x8000 ≤ a.toNat) (d : Byte)
include ha

theorem memWrite_nrom (hr : s.mapper.regs = .nrom) : memWrite a d s = .ok s := by
  rw [memWrite_mapper ha, mapperWrite, hr]

theorem memWrite_uxrom {bank : Byte} (hr : s.mapper.regs = .uxrom bank) : memWrite a d s = .ok { s with mapper := { s.mapper with
    regs := .uxrom d
    prgOff := #v[prgSlot s.cart 0x4000 d.toNat 0, prgSlot s.cart 0x4000 d.toNat 1, s.mapper.prgOff[2], s.mapper.prgOff[3]] } } := by
  rw [memWrite_mapper ha, mapperWrite, hr, ← mapPrgOff_16_low]
  rfl

theorem memWrite_cnrom {bank : Byte} (h : s.Inv) (hv : s.cart.variant = .cnrom) (hr : s.mapper.regs = .cnrom bank) :
    ∃ t, memWrite a d s = .ok t ∧ t.mapper = { s.mapper with
      regs := .cnrom d
      chrOff := if 0 < s.cart.nChr then mapChrOff s.cart 0x2000 0 d.toNat s.mapper.chrOff else s.mapper.chrOff } ∧
      (0 < s.cart.nChr → Published (bankChanges 0 8 t.mapper.chrOff) s t) ∧
      (s.cart.nChr = 0 → t = { s with mapper := t.mapper }) := by
  have hcore : (setRegs (.cnrom d) s).Core := h.core.setRegs (by rw [hv]; trivial)
  obtain ⟨t, ht, -, hmapper⟩ := mapChr_mapper hcore (size := 0x2000) rfl (j0 := 0) (by decide) d.toNat
  refine ⟨t, ?_, hmapper, fun hrom => (mapChr_published hcore hrom rfl (by decide) (by decide) ht).before, fun hram => ?_⟩
  · rw [memWrite_mapper ha, mapperWrite, hr]
    exact ht
  · obtain rfl := Except.ok.inj ((mapChr_ram (s := setRegs (.cnrom d) s) hram 0x2000 0 d.toNat).symm.trans ht)
    rfl

theorem memWrite_axrom (h : s.Inv) (hr : s.mapper.regs = .axrom) :
    ∃ t, memWrite a d s = .ok t ∧ t.mapper = { s.mapper with
      prgOff := mapPrgOff s.cart 0x8000 0 d.toNat s.mapper.prgOff
      mirroring := if d.getLsbD 4 then .single1 else .single0 } ∧
      Published [.mirroring (if d.getLsbD 4 then .single1 else .single0)] s t := by
  have hcore := (mapPrg_set h.core (size := 0x8000) rfl 0 d.toNat).core
  obtain ⟨t, ht, -, hmapper⟩ := setMirror_spec hcore (if d.getLsbD 4 then .single1 else .single0)
  refine ⟨t, ?_, hmapper, (setMirror_published hcore ht).before⟩
  rw [memWrite_mapper ha, mapperWrite, hr]
  exact ht

end

/-- Settles O39: the write of each variant, with its slots as vectors. -/
theorem discreteMapperWrites : Obligations.DiscreteMapperWrites := by
  unfold Obligations.DiscreteMapperWrites
  intro s a d h ha c prg chr
  have hregs := h.mapper.regs
  refine ⟨fun hv => memWrite_nrom ha d (regs_of_nrom hregs hv), fun hv => ?_, fun hv => ?_, fun hv => ?_⟩
  · obtain ⟨bank, hr⟩ := regs_of_uxrom hregs hv
    exact memWrite_uxrom ha d hr
  · obtain ⟨bank, hr⟩ := regs_of_cnrom hregs hv
    obtain ⟨t, ht, hmapper, hrest⟩ := memWrite_cnrom ha d h hv hr
    rw [mapChrOff_8] at hmapper
    exact ⟨t, ht, hmapper, hrest⟩
  · obtain ⟨t, ht, hmapper, hpub⟩ := memWrite_axrom ha d h (regs_of_axrom hregs hv)
    have hmode : t.mapper.mirroring = if d.getLsbD 4 then .single1 else .single0 := by rw [hmapper]
    have hmask : t.ppu.mirrorMask = t.mapper.mirroring.mask := by rw [hpub.1]
    rw [mapPrgOff_32] at hmapper
    refine ⟨t, ht, hmapper, hmode ▸ hpub, ?_⟩
    rw [hmask, hmode]
    cases d.getLsbD 4 <;> rfl

/-! ### MMC1 (R352, R353) -/

/-- A load of MMC1's registers leaves `t`: the mapping of the new registers, published (R353). -/
structure Mmc1Applied (r : Mmc1) (s t : State) : Prop where
  mapper : t.mapper = { s.mapper with
    regs := .mmc1 r
    mirroring := mmc1Mirroring r.control
    prgOff := mmc1PrgOff s.cart r
    chrOff := if 0 < s.cart.nChr then mmc1ChrOff s.cart r else s.mapper.chrOff }
  published : Published (.mirroring t.mapper.mirroring :: if 0 < s.cart.nChr then bankChanges 0 8 t.mapper.chrOff else []) s t

theorem mmc1Apply_applied {s : State} (h : s.Core) (hv : s.cart.variant = .mmc1) {r : Mmc1} (hr : r.shift ≠ 0) :
    ∃ t, mmc1Apply r s = .ok t ∧ Mmc1Applied r s t := by
  obtain ⟨t, ht, -, -, hmapper⟩ := mmc1Apply_off h hv hr
  exact ⟨t, ht, hmapper, mmc1Apply_published h hv hr ht⟩

section
variable {s : State} {r : Mmc1} (hq : s.mapper.regs = .mmc1 r) {a : Addr} (ha : 0x8000 ≤ a.toNat) {d : Byte}
include hq ha

theorem memWrite_mmc1_reset (hd : d.getLsbD 7 = true) :
    memWrite a d s = mmc1Apply { r with shift := 0x10, control := r.control ||| 0x0C } s := by
  rw [memWrite_mapper ha]
  simp only [mapperWrite, hq, mmc1Write, hd, if_true]

theorem memWrite_mmc1_load (hd : d.getLsbD 7 = false) (h0 : r.shift.getLsbD 0 = true) : memWrite a d s =
    mmc1Apply { mmc1Load r a (mmc1Shift (BitVec.ofBool (d.getLsbD 0)) r.shift) with shift := 0x10 } s := by
  rw [memWrite_mapper ha]
  simp only [mapperWrite, hq, mmc1Write, hd, h0, extract_bit0, if_true]
  rfl

end

/-- The banking replaces the registers, whatever they were. -/
theorem mmc1Apply_setRegs (r : Mmc1) (q : MapperRegs) (s : State) : mmc1Apply r (setRegs q s) = mmc1Apply r s := rfl

/-- The loaded registers, with the serial register at its marker again. -/
theorem mmc1Load_marker (r : Mmc1) (x : BitVec 5) (a : Addr) (v : BitVec 5) :
    { mmc1Load { r with shift := x } a v with shift := 0x10 } = mmc1Load { r with shift := 0x10 } a v := by
  simp only [mmc1Load]
  split <;> rfl

/-- Settles O40: four shifts of the marker and a load, and the mapping of the loaded registers is `Mmc1Applied`. -/
theorem mmc1SerialLoad : Obligations.Mmc1SerialLoad := by
  unfold Obligations.Mmc1SerialLoad
  intro s r a1 a2 a3 a4 a5 d1 d2 d3 d4 d5 h hr ha c prg chr applied
  obtain ⟨ha1, ha2, ha3, ha4, ha5⟩ : 0x8000 ≤ a1.toNat ∧ 0x8000 ≤ a2.toNat ∧ 0x8000 ≤ a3.toNat ∧ 0x8000 ≤ a4.toNat ∧
      0x8000 ≤ a5.toNat := by simpa using ha
  have hv := (variant_of_mmc1 h.mapper.regs hr).1
  have happlied {q : Mmc1} {t : State} (ht : Mmc1Applied q s t) : applied q t := by
    obtain ⟨hmapper, hpub⟩ := ht
    refine ⟨by rw [hmapper], by rw [hmapper], hpub, fun hram => ?_, ?_, ?_, fun hrom => ?_⟩
    · rw [hmapper]
      exact if_neg (Nat.not_lt.2 (Nat.le_of_eq hram))
    · rw [hmapper]
      exact mmc1Mirroring_val q.control
    · rw [hmapper]
      rfl
    · rw [hmapper]
      exact if_pos hrom
  constructor
  · intro hd
    obtain ⟨t, ht, happ⟩ := mmc1Apply_applied h.core hv (r := { r with shift := 0x10, control := r.control ||| 0x0C }) nofun
    exact ⟨t, (memWrite_mmc1_reset hr ha1 hd).trans ht, happlied happ⟩
  · intro hshift hd bit value
    obtain ⟨hd1, hd2, hd3, hd4, hd5⟩ : d1.getLsbD 7 = false ∧ d2.getLsbD 7 = false ∧ d3.getLsbD 7 = false ∧
        d4.getLsbD 7 = false ∧ d5.getLsbD 7 = false := by simpa using hd
    obtain ⟨h0, h1, h2, h3, h4, h5⟩ := mmc1Shift_five (bit d1) (bit d2) (bit d3) (bit d4) (bit d5)
    rw [← hshift] at h0 h1 h2 h3 h4 h5
    have hrs : { r with shift := 0x10 } = r := by rw [← hshift]
    have hload : (mmc1Load r a5 value).shift ≠ 0 := by
      rw [mmc1Load_shift, hshift]
      decide
    obtain ⟨x, hx, happ⟩ := mmc1Apply_applied h.core hv hload
    refine ⟨_, _, _, _, x, mmc1_shiftWrite hr ha1 hd1 h0, mmc1_shiftWrite rfl ha2 hd2 h1, mmc1_shiftWrite rfl ha3 hd3 h2,
      mmc1_shiftWrite rfl ha4 hd4 h3, rfl, ?_, ?_⟩
    · rw [memWrite_mmc1_load rfl ha5 hd5 h4, h5, mmc1Load_marker, hrs]
      exact hx
    · rw [mmc1Load_eq] at happ
      exact happlied happ

/-! ### MMC3 (R355, R356, R361) -/

/-- The dispatch reads only the bits of `a & $E001` (R355). -/
theorem mmc3Write_row (r : Mmc3) {a row : Addr} (h : a &&& 0xE001 = row) (d : Byte) (s : State) :
    mmc3Write r a d s = mmc3Write r row d s := by
  have hk : (row.extractLsb' 13 2 : BitVec 2) = a.extractLsb' 13 2 := by
    rw [← h, BitVec.extractLsb'_and]
    exact BitVec.and_allOnes
  have hb : row.getLsbD 0 = a.getLsbD 0 := by
    rw [← h, BitVec.getLsbD_and]
    exact Bool.and_true _
  unfold mmc3Write
  rw [hk, hb]

theorem prgSlot_zero (c : Cart) (size b : Nat) : prgSlot c size b 0 = c.prgBase size b % c.prgSize := by
  rw [prgSlot, Nat.zero_mul, Nat.add_zero]

theorem mmc3Bank_eq (c : Cart) (b : Byte) : mmc3Bank c b = c.chrBase 0x400 b.toNat % c.chrSize := by
  rw [mmc3Bank, chrSlot, Nat.zero_mul, Nat.add_zero]

/-- The slots of a bank write, halves exchanged or not, as the two halves put together (R356). -/
theorem mmc3ChrOff_halves (c : Cart) (r : Mmc3) :
    let pairs := #v[mmc3Bank c (r.r[0] &&& 0xFE), mmc3Bank c (r.r[0] ||| 1), mmc3Bank c (r.r[1] &&& 0xFE), mmc3Bank c (r.r[1] ||| 1)]
    let singles := #v[mmc3Bank c r.r[2], mmc3Bank c r.r[3], mmc3Bank c r.r[4], mmc3Bank c r.r[5]]
    mmc3ChrOff c r = if r.bankSelect.getLsbD 7 then singles ++ pairs else pairs ++ singles := by
  unfold mmc3ChrOff
  split <;> rfl

/-- Settles O41: the write's row fixes what `mmc3Write` is, and a bank write is `mmc3Apply`. -/
theorem mmc3Registers : Obligations.Mmc3Registers := by
  unfold Obligations.Mmc3Registers
  intro s r a d h hr ha c row kept prg chr banked
  have hv := variant_of_mmc3 h.mapper.regs hr
  obtain ⟨t, ht, -⟩ := memWrite_spec h a d
  have of_row {q : Addr} (hrow : row = q) : mmc3Write r q d s = .ok t := by
    rw [← mmc3Write_row r hrow, ← ht, memWrite_mapper ha, mapperWrite, hr]
  have of_eq {u : State} (hu : (.ok u : Except Fault State) = .ok t) : t = u := (Except.ok.inj hu).symm
  have of_apply {q : Mmc3} (hq : mmc3Apply q s = .ok t) : banked q t := by
    obtain ⟨u, hu, -, -, hmapper⟩ := mmc3Apply_off h.core hv q
    obtain rfl := Except.ok.inj (hu.symm.trans hq)
    simp only [mmc3ChrOff_halves, mmc3PrgOff, mmc3Bank_eq, prgSlot_zero] at hmapper
    exact ⟨hmapper, mmc3Apply_published h.core hv q hq⟩
  refine ⟨t, ht, fun hrow => of_apply (of_row hrow), fun hrow => ?_, fun hrow => ?_, fun hrow => of_eq (of_row hrow),
    fun hrow => of_eq (of_row hrow), fun hrow => of_eq (of_row hrow), fun hrow => of_eq (of_row hrow),
    fun hrow => of_eq (of_row hrow)⟩
  · rw [← set_bankReg]
    exact of_apply (of_row hrow)
  · have hset : setMirror (if d.getLsbD 0 then .horizontal else .vertical) s = .ok t := of_row hrow
    obtain ⟨u, hu, -, hmapper⟩ := setMirror_spec h.core (if d.getLsbD 0 then .horizontal else .vertical)
    obtain rfl := Except.ok.inj (hu.symm.trans hset)
    have hpub := setMirror_published h.core hset
    exact ⟨hmapper, by rw [hmapper]; exact hpub⟩

/-! ### The MMC3 scanline counter (R360) -/

/-- A clock reloads a counter that is at 0 or asked to reload, and counts any other down. -/
theorem Mmc3.clocked_eq (r : Mmc3) : r.clocked = { r with
    irqCounter := if r.irqReload = true ∨ r.irqCounter = 0 then r.irqLatch else r.irqCounter - 1
    irqReload := if r.irqReload = true ∨ r.irqCounter = 0 then false else r.irqReload } := by
  rw [Mmc3.clocked]
  by_cases hreload : r.irqReload = true ∨ r.irqCounter = 0
  · have hcond : (decide (r.irqCounter = 0) || r.irqReload) = true := by simpa [or_comm] using hreload
    rw [if_pos hcond, if_pos hreload, if_pos hreload]
  · have hcond : ¬ (decide (r.irqCounter = 0) || r.irqReload) = true := by simpa [or_comm] using hreload
    rw [if_neg hcond, if_neg hreload, if_neg hreload]

theorem mmc3Clock_of_not_mmc3 {s : State} (h : ∀ q, s.mapper.regs ≠ .mmc3 q) : mmc3Clock s = s := by
  unfold mmc3Clock
  split
  · next q hq => exact absurd hq (h q)
  · rfl

/-- The machine `k` clocks after a reload of its counter: the request is up when the counter has come down to 0. -/
def countedDown (r : Mmc3) (k : Nat) (s : State) : State :=
  let fired := r.irqEnable && decide (k = r.irqLatch.toNat)
  { s with
    mapper := { s.mapper with
      regs := .mmc3 { r with irqCounter := r.irqLatch - BitVec.ofNat 8 k, irqReload := false }
      irq := fired }
    cpu := { s.cpu with irqLines := { s.cpu.irqLines with mapper := fired } } }

theorem latch_sub_eq_zero {latch : Byte} {k : Nat} (hk : k ≤ latch.toNat) : latch - BitVec.ofNat 8 k = 0 ↔ k = latch.toNat := by
  have hlt := latch.isLt
  have hzero : (0 : Byte).toNat = 0 := rfl
  rw [← BitVec.toNat_inj, BitVec.toNat_sub, BitVec.toNat_ofNat, hzero]
  omega

theorem mmc3Clock_reload {s : State} {r : Mmc3} (hr : s.mapper.regs = .mmc3 r) (hreload : r.irqReload = true ∨ r.irqCounter = 0)
    (hirq : s.mapper.irq = false) (hline : s.cpu.irqLines.mapper = false) : mmc3Clock s = countedDown r 0 s := by
  have hzero := latch_sub_eq_zero (Nat.zero_le r.irqLatch.toNat)
  have hlatch : r.irqLatch - BitVec.ofNat 8 0 = r.irqLatch := BitVec.sub_zero _
  rw [hlatch] at hzero
  rw [mmc3Clock_eq hr, Mmc3.clocked_eq]
  rw [if_pos hreload, if_pos hreload, hirq, hline, countedDown, hlatch]
  simp only [Bool.false_or, hzero]

theorem mmc3Clock_countedDown (r : Mmc3) {k : Nat} (s : State) (hk : k < r.irqLatch.toNat) :
    mmc3Clock (countedDown r k s) = countedDown r (k + 1) s := by
  have hne : r.irqLatch - BitVec.ofNat 8 k ≠ 0 := fun h => hk.ne ((latch_sub_eq_zero hk.le).1 h)
  have hsub : r.irqLatch - BitVec.ofNat 8 k - 1 = r.irqLatch - BitVec.ofNat 8 (k + 1) := by
    rw [BitVec.ofNat_add, BitVec.sub_sub]
    rfl
  have hreload : ¬ (false = true ∨ r.irqLatch - BitVec.ofNat 8 k = 0) := fun h => h.elim nofun hne
  rw [mmc3Clock_eq (u := countedDown r k s) rfl, Mmc3.clocked_eq]
  simp only [countedDown, if_neg hreload, hsub, latch_sub_eq_zero (Nat.succ_le_of_lt hk), hk.ne, decide_false, Bool.and_false,
    Bool.false_or]

theorem mmc3Clock_iterate {s : State} {r : Mmc3} (hr : s.mapper.regs = .mmc3 r) (hreload : r.irqReload = true ∨ r.irqCounter = 0)
    (hirq : s.mapper.irq = false) (hline : s.cpu.irqLines.mapper = false) {k : Nat} (hk : k ≤ r.irqLatch.toNat) :
    mmc3Clock^[k + 1] s = countedDown r k s := by
  induction k with
  | zero => exact mmc3Clock_reload hr hreload hirq hline
  | succ k ih => rw [Function.iterate_succ_apply', ih (Nat.le_of_succ_le hk), mmc3Clock_countedDown r s hk]

/-- With the counter disabled a clock changes the registers alone. -/
theorem mmc3Clock_iterate_disabled {s : State} {r : Mmc3} (hr : s.mapper.regs = .mmc3 r) (hd : r.irqEnable = false) (n : Nat) :
    ∃ q : Mmc3, q.irqEnable = false ∧ mmc3Clock^[n] s = setRegs (.mmc3 q) s := by
  induction n with
  | zero => exact ⟨r, hd, by rw [← hr]; rfl⟩
  | succ n ih =>
    obtain ⟨q, hq, hn⟩ := ih
    have hclocked : q.clocked.irqEnable = false := by rw [Mmc3.clocked_eq, hq]
    refine ⟨q.clocked, hclocked, ?_⟩
    rw [Function.iterate_succ_apply', hn, mmc3Clock_eq (u := setRegs (.mmc3 q) s) rfl]
    simp only [hclocked, Bool.false_and, Bool.or_false]
    rfl

/-- Settles O42: one clock by `Mmc3.clocked_eq`, and the count down from a reload by induction on the clocks. -/
theorem mmc3ScanlineCounter : Obligations.Mmc3ScanlineCounter := by
  unfold Obligations.Mmc3ScanlineCounter
  intro s r k reloads counted fires t
  refine ⟨fun hr => ?_, fun hr hreload hk hirq hline => ?_, fun hr hd => ?_,
    fun h => Function.iterate_fixed (mmc3Clock_of_not_mmc3 h) _⟩
  · rw [mmc3Clock_eq hr, Mmc3.clocked_eq]
  · have ht : t = countedDown r k s := mmc3Clock_iterate hr hreload hirq hline hk
    rw [ht]
    exact ⟨rfl, rfl, rfl, rfl⟩
  · obtain ⟨q, -, hq⟩ := mmc3Clock_iterate_disabled hr hd (k + 1)
    have ht : t = setRegs (.mmc3 q) s := hq
    rw [ht]
    rfl

end Sys2Proof.Machine
end

/-! ## The PPU's registers and its scroll (52_ppu_registers.md; 53_ppu_timing_events.md R413) -/

section
namespace Sys2Proof.Machine

/-! ### The register an address names (52_ppu_registers.md R370) -/

/-- The register of an address of the PPU window is the remainder of the address. -/
theorem setWidth_register {a : Addr} {k : Nat} (h : a.toNat % 8 = k) : (a.setWidth 3 : BitVec 3) = BitVec.ofNat 3 k := by
  apply BitVec.eq_of_toNat_eq
  rw [BitVec.toNat_setWidth, BitVec.toNat_ofNat, ← h]
  exact (Nat.mod_mod _ _).symm

section
variable {a : Addr} (h1 : 0x2000 ≤ a.toNat) (h2 : a.toNat ≤ 0x3FFF) (s : State) {k : Nat} (h : a.toNat % 8 = k)
include h1 h2 h

theorem memRead_register {v : Byte} {q : Ppu} (hq : s.ppu.readReg s.cart (BitVec.ofNat 3 k) = (v, q)) :
    memRead a s = (v, { s with ppu := q, bus := ⟨v⟩ }) := by
  rw [memRead_ppu h1 (Nat.lt_succ_of_le h2), setWidth_register h, hq]

theorem memWrite_register (d : Byte) {q : Ppu} (hq : s.ppu.writeReg s.cart s.cfg.eventCapacity (BitVec.ofNat 3 k) d = .ok q) :
    memWrite a d s = .ok { s with ppu := q } := by
  rw [memWrite_ppu h1 (Nat.lt_succ_of_le h2), setWidth_register h, hq]
  rfl

end

/-! ### The ports beside the control and scroll registers (R373-R377, R380-R382, R385) -/

@[simp] theorem catchUpIfVisible_ctrl (p : Ppu) : (catchUpIfVisible p).ctrl = p.ctrl := by
  obtain ⟨v, t, l, h, -⟩ := catchUpIfVisible_eq p
  rw [h]

@[simp] theorem catchUpIfVisible_mirrorMask (p : Ppu) : (catchUpIfVisible p).mirrorMask = p.mirrorMask :=
  (catchUpIfVisible_kept p).mirrorMask

@[simp] theorem catchUpIfVisible_chrOff (p : Ppu) : (catchUpIfVisible p).chrOff = p.chrOff := (catchUpIfVisible_kept p).chrOff

@[simp] theorem catchUpIfVisible_readBuf (p : Ppu) : (catchUpIfVisible p).readBuf = p.readBuf := by
  obtain ⟨v, t, l, h, -⟩ := catchUpIfVisible_eq p
  rw [h]

/-- The PPU's address space does not depend on what a catch-up moves. -/
@[simp] theorem catchUpIfVisible_read (cart : Cart) (p : Ppu) (a : PAddr) : (catchUpIfVisible p).read cart a = p.read cart a := by
  simp only [Ppu.read, catchUpIfVisible_vram, catchUpIfVisible_chrOff, catchUpIfVisible_mirrorMask]

/-- A write into the PPU's address space changes video RAM alone (20_memory.md R93). -/
theorem Ppu.write_eq (cart : Cart) (p : Ppu) (a : PAddr) (d : Byte) : p.write cart a d = { p with vram := (p.write cart a d).vram } := by
  obtain ⟨m, h, -⟩ := Ppu.write_kept cart p a d
  rw [h]

theorem catchUpIfVisible_write_vram (cart : Cart) (p : Ppu) (a : PAddr) (d : Byte) :
    ((catchUpIfVisible p).write cart a d).vram = (p.write cart a d).vram := by
  simp only [Ppu.write]
  split
  · split
    · exact catchUpIfVisible_vram p
    · rw [catchUpIfVisible_vram]
  · rw [catchUpIfVisible_vram, catchUpIfVisible_mirrorMask]

theorem Ppu.statusByte_eq (p : Ppu) : p.statusByte = (if p.vblank then 0x80 else 0) ||| (if p.hit then 0x40 else 0) := by
  rw [Ppu.statusByte]
  cases p.vblank <;> cases p.hit <;> rfl

section
variable (cart : Cart) (p : Ppu)

/-- The address of the data port after its increment, by the caught-up PPU (R380, R381). -/
def Ppu.nextAddress : Loopy := (catchUpIfVisible p).v + (if p.ctrl.getLsbD 2 then 32 else 1)

theorem Ppu.nextAddress_eq : (catchUpIfVisible p).v + (catchUpIfVisible p).dataIncrement = p.nextAddress := by
  rw [Ppu.dataIncrement, catchUpIfVisible_ctrl, Ppu.nextAddress]

theorem readReg_data_buffered (h : (Loopy.address (catchUpIfVisible p).v).toNat < 0x3F00) : p.readReg cart 7 = (p.readBuf,
    { catchUpIfVisible p with readBuf := p.read cart (Loopy.address (catchUpIfVisible p).v), v := p.nextAddress }) := by
  change (catchUpIfVisible p).readData cart = _
  rw [Ppu.readData, if_pos h, Ppu.nextAddress_eq, catchUpIfVisible_readBuf, catchUpIfVisible_read]

theorem readReg_data_palette (h : 0x3F00 ≤ (Loopy.address (catchUpIfVisible p).v).toNat) : p.readReg cart 7 =
    (p.read cart (Loopy.address (catchUpIfVisible p).v), { catchUpIfVisible p with
      readBuf := p.read cart (Loopy.address (catchUpIfVisible p).v - 0x1000), v := p.nextAddress }) := by
  change (catchUpIfVisible p).readData cart = _
  rw [Ppu.readData, if_neg (Nat.not_lt.2 h), Ppu.nextAddress_eq, catchUpIfVisible_read, catchUpIfVisible_read]

theorem writeReg_data (capacity : Nat) (d : Byte) : p.writeReg cart capacity 7 d = .ok { catchUpIfVisible p with
    vram := (p.write cart (Loopy.address (catchUpIfVisible p).v) d).vram, v := p.nextAddress } := by
  rw [← Ppu.nextAddress_eq, ← catchUpIfVisible_write_vram]
  exact congrArg (fun q : Ppu => Except.ok { q with v := q.v + q.dataIncrement }) (Ppu.write_eq cart (catchUpIfVisible p) _ d)

end

/-- Settles O44: each register by its arm of `readReg` and `writeReg`; the data port runs on the caught-up PPU. -/
theorem statusObjectAndDataPorts : Obligations.StatusObjectAndDataPorts := by
  unfold Obligations.StatusObjectAndDataPorts
  intro s a d h1 h2 r p caught address next got left
  have reads {k : Nat} (hk : r = k) {v : Byte} {q : Ppu} (hq : p.readReg s.cart (BitVec.ofNat 3 k) = (v, q)) : got = (v, left q) := by
    have hread : got = (v, { s with ppu := q, bus := ⟨v⟩ }) := memRead_register h1 h2 s hk hq
    simp only [left, hread]
  refine ⟨fun hr => reads hr ?_, fun hr => reads hr rfl, fun hr hlow => reads hr (readReg_data_buffered s.cart p hlow),
    fun hr hhigh => reads hr (readReg_data_palette s.cart p hhigh), fun hr => ?_,
    fun hr => memWrite_register h1 h2 s hr d rfl, fun hr => memWrite_register h1 h2 s hr d rfl,
    fun hr => memWrite_register h1 h2 s hr d rfl,
    fun hr => memWrite_register h1 h2 s hr d (writeReg_data s.cart p s.cfg.eventCapacity d)⟩
  · rw [← Ppu.statusByte_eq]
    rfl
  · rcases hr with hr | hr | hr | hr | hr <;> exact reads hr rfl

/-! ### The control, mask, scroll and address registers (R371, R372, R378, R379, R383, R386) -/

/-- The PPU draws a line of a frame (R383). -/
abbrev Ppu.InRenderedFrame (p : Ppu) : Prop := (p.mask.getLsbD 3 ∨ p.mask.getLsbD 4) ∧ (p.line ≤ 239 ∨ p.line = 261)

theorem inFrame_eq_true (p : Ppu) : p.inFrame = true ↔ p.InRenderedFrame := inFrame_iff p

/-- An event and then the SCROLL event of the live scroll, which the first leaves as it is. -/
theorem record_then_scroll {capacity : Nat} {c : Change} (hk : c.key = 0) {p q : Ppu}
    (h : (record capacity c p >>= fun u => record capacity u.scrollChange u) = .ok q) :
    q = { p with nextQ := q.nextQ } ∧ Recorded (targetLine p.line) [c, q.scrollChange] p.nextQ q.nextQ := by
  cases hu : record capacity c p with
  | error e =>
    rw [hu] at h
    exact absurd h nofun
  | ok u =>
    rw [hu] at h
    obtain ⟨hueq, hurec⟩ := record_ok hu
    obtain ⟨hqeq, hqrec⟩ := record_ok (p := u) h
    have hline : u.line = p.line := by rw [hueq]
    have hscroll : q.scrollChange = u.scrollChange := by rw [hqeq]; rfl
    rw [hline] at hqrec
    refine ⟨by rw [hqeq, hueq], ?_⟩
    rw [hscroll]
    exact hurec.two (hk ▸ Nat.succ_ne_zero 1) hqrec

/-- The SCROLL event of the live scroll. -/
theorem record_scroll {capacity : Nat} {p q : Ppu} (h : record capacity p.scrollChange p = .ok q) :
    q = { p with nextQ := q.nextQ } ∧ Recorded (targetLine p.line) [q.scrollChange] p.nextQ q.nextQ := by
  obtain ⟨hqeq, hqrec⟩ := record_ok h
  have hscroll : q.scrollChange = p.scrollChange := by rw [hqeq]; rfl
  exact ⟨hqeq, hscroll ▸ hqrec⟩

section
variable {capacity : Nat} {d : Byte} {p q : Ppu}

theorem writeCtrl_spec (h : p.writeCtrl capacity d = .ok q) :
    q = { p with
      ctrl := d
      t := Loopy.setNametable p.t (d.setWidth 2)
      v := if p.InRenderedFrame then Loopy.setNametable p.v (d.setWidth 2) else p.v
      nextQ := q.nextQ } ∧
    Recorded (targetLine p.line) [.ctrl d, q.scrollChange] p.nextQ q.nextQ := by
  by_cases hin : p.InRenderedFrame
  · have hframe : ({ p with ctrl := d, t := Loopy.setNametable p.t (d.setWidth 2) } : Ppu).inFrame = true := (inFrame_eq_true p).2 hin
    rw [Ppu.writeCtrl] at h
    simp only [hframe, if_true] at h
    rw [if_pos hin]
    exact record_then_scroll (c := .ctrl d) rfl h
  · have hframe : ¬ ({ p with ctrl := d, t := Loopy.setNametable p.t (d.setWidth 2) } : Ppu).inFrame = true :=
      fun h => hin ((inFrame_eq_true p).1 h)
    rw [Ppu.writeCtrl] at h
    simp only [hframe] at h
    rw [if_neg hin]
    exact record_then_scroll (c := .ctrl d) rfl h

theorem writeMask_spec (h : p.writeMask capacity d = .ok q) :
    q = { p with mask := d, nextQ := q.nextQ } ∧ Recorded (targetLine p.line) [.mask d] p.nextQ q.nextQ := record_ok h

theorem writeScroll_first (hw : p.w = false) (h : p.writeScroll capacity d = .ok q) :
    q = { p with
      t := Loopy.setCx p.t (d.extractLsb' 3 5)
      x := d.setWidth 3
      v := if p.InRenderedFrame then Loopy.copyHorizontal p.v (Loopy.setCx p.t (d.extractLsb' 3 5)) else p.v
      w := true
      nextQ := q.nextQ } ∧
    Recorded (targetLine p.line) [q.scrollChange] p.nextQ q.nextQ := by
  by_cases hin : p.InRenderedFrame
  · have hframe : ({ p with t := Loopy.setCx p.t (d.extractLsb' 3 5), x := d.setWidth 3, w := true } : Ppu).inFrame = true :=
      (inFrame_eq_true p).2 hin
    simp only [Ppu.writeScroll, hw, hframe, Bool.false_eq_true, if_true, if_false] at h
    rw [if_pos hin]
    exact record_scroll h
  · have hframe : ¬ ({ p with t := Loopy.setCx p.t (d.extractLsb' 3 5), x := d.setWidth 3, w := true } : Ppu).inFrame = true :=
      fun h => hin ((inFrame_eq_true p).1 h)
    simp only [Ppu.writeScroll, hw, hframe, Bool.false_eq_true, if_false] at h
    rw [if_neg hin]
    exact record_scroll h

theorem writeScroll_second (hw : p.w = true) (h : p.writeScroll capacity d = .ok q) :
    q = { p with t := Loopy.setCy (Loopy.setFy p.t (d.setWidth 3)) (d.extractLsb' 3 5), w := false, nextQ := q.nextQ } ∧
    Recorded (targetLine p.line) [q.scrollChange] p.nextQ q.nextQ := by
  simp only [Ppu.writeScroll, hw, if_true] at h
  exact record_scroll h

theorem writeAddr_first (hw : p.w = false) (h : p.writeAddr capacity d = .ok q) :
    q = { p with t := Loopy.setHigh p.t (d.setWidth 6), w := true } := by
  rw [Ppu.writeAddr, if_neg (by simp [hw])] at h
  exact (Except.ok.inj h).symm

theorem writeAddr_second (hw : p.w = true) (h : p.writeAddr capacity d = .ok q) :
    q = { p with t := Loopy.setLow p.t d, v := Loopy.setLow p.t d, w := false, nextQ := q.nextQ } ∧
    Recorded (targetLine p.line) [q.scrollChange] p.nextQ q.nextQ := by
  rw [Ppu.writeAddr, if_pos hw] at h
  exact record_scroll h

end

theorem scrollChange_eq (p : Ppu) : p.scrollChange = .scroll (p.v.setWidth 18 ||| p.x.setWidth 18 <<< 15) :=
  congrArg Change.scroll (scrollValue_eq p.v p.x)

/-- Settles O45: the write answers by the invariant, and each register's arm says what it left, in masks by the laws of `Loopy`. -/
theorem controlAndScrollWrites : Obligations.ControlAndScrollWrites := by
  unfold Obligations.ControlAndScrollWrites
  intro s a d h h1 h2 r p inFrame line d15 nt first second high low scroll
  obtain ⟨q, hq, -⟩ := writeReg_written (cart := s.cart) h.config.1 (a.setWidth 3) d h.timing
  have hscroll : scroll q = q.scrollChange := (scrollChange_eq q).symm
  have writes {k : Nat} (hk : r = k) : s.ppu.writeReg s.cart s.cfg.eventCapacity (BitVec.ofNat 3 k) d = .ok q := by
    rw [← setWidth_register hk]
    exact hq
  refine ⟨q, ?_, fun hr => ?_, fun hr => writeMask_spec (writes hr), fun hr hw => ?_, fun hr hw => ?_, fun hr hw => ?_,
    fun hr hw => ?_⟩
  · exact memWrite_register h1 h2 s rfl d (writes rfl)
  · have hspec := writeCtrl_spec (writes hr)
    simp only [Loopy.setNametable_eq] at hspec
    rw [hscroll]
    exact hspec
  · have hspec := writeScroll_first hw (writes hr)
    simp only [Loopy.copyHorizontal_eq, Loopy.setCx_eq] at hspec
    rw [hscroll]
    exact hspec
  · have hspec := writeScroll_second hw (writes hr)
    rw [Loopy.setFyCy_eq] at hspec
    rw [hscroll]
    exact hspec
  · have hspec := writeAddr_first hw (writes hr)
    rw [Loopy.setHigh_eq] at hspec
    exact hspec
  · have hspec := writeAddr_second hw (writes hr)
    rw [Loopy.setLow_eq] at hspec
    rw [hscroll]
    exact hspec

/-! ### The vertical increment and the catch-up (R384; 53_ppu_timing_events.md R413) -/

/-- The horizontal bits as fields. -/
theorem Loopy.horizontal_eq (u : Loopy) : u &&& 0x041F#15 = Loopy.ofFields 0 0 (Loopy.nx u) 0 (Loopy.cx u) := by
  apply BitVec.eq_of_getLsbD_eq
  intro i hi
  simp only [Loopy.ofFields, Loopy.cx, Loopy.nx, BitVec.getLsbD_append, BitVec.getLsbD_extractLsb', BitVec.getLsbD_and]
  interval_cases i <;> simp

theorem Loopy.incY_horizontal (u : Loopy) : Loopy.incY u &&& 0x041F#15 = u &&& 0x041F#15 := by
  rw [Loopy.horizontal_eq, Loopy.horizontal_eq, Loopy.nx_incY, Loopy.cx_incY]

/-- The vertical nametable bit as a field. -/
theorem Loopy.ofFields_toggle (f : BitVec 3) (n m : BitVec 1) (c d : BitVec 5) :
    Loopy.ofFields f (n ^^^ 1) m c d = Loopy.ofFields f n m c d ^^^ 0x0800 := by
  apply BitVec.eq_of_getLsbD_eq
  intro i hi
  simp only [Loopy.ofFields, BitVec.getLsbD_append, BitVec.getLsbD_xor]
  interval_cases i <;> simp

/-- A scroll value whose coarse Y is one of the 30 rows of tiles stands at its row of the 240. -/
theorem Loopy.eq_atRow (u : Loopy) : u = Loopy.atRow (Loopy.row u) (Loopy.ny u) (Loopy.nx u) (Loopy.cx u) := by
  have hf := (Loopy.fy u).isLt
  have hfine : BitVec.ofNat 3 (Loopy.row u % 8) = Loopy.fy u := by
    apply BitVec.eq_of_toNat_eq
    rw [BitVec.toNat_ofNat, Loopy.row]
    omega
  have hcoarse : BitVec.ofNat 5 (Loopy.row u / 8) = Loopy.cy u := by
    have hc := (Loopy.cy u).isLt
    apply BitVec.eq_of_toNat_eq
    rw [BitVec.toNat_ofNat, Loopy.row]
    omega
  rw [Loopy.atRow, hfine, hcoarse]
  exact (Sys2Proof.Loopy.ofFields_fields u).symm

/-- 240 rows down from a row is the same row of the other table: to the last row, over the edge, and down again. -/
theorem Loopy.incY_cycle {u : Loopy} (h : u.toNat / 32 % 32 < 30) : Loopy.incY^[240] u = u ^^^ 0x0800 := by
  have hrow : Loopy.row u < 240 := by
    have hf := (Loopy.fy u).isLt
    rw [← Loopy.toNat_cy] at h
    rw [Loopy.row]
    omega
  have hsplit : 240 = Loopy.row u + (1 + (239 - Loopy.row u)) := by omega
  rw [hsplit]
  generalize hk : Loopy.row u = k at hrow ⊢
  have hlast : k + (239 - k) = 239 := by omega
  have hu := Loopy.eq_atRow u
  rw [hk] at hu
  generalize Loopy.ny u = n, Loopy.nx u = m, Loopy.cx u = d at hu
  rw [hu, Function.iterate_add_apply, Function.iterate_add_apply, Loopy.incY_iter_atRow _ _ (by omega), hlast,
    Function.iterate_one, Loopy.incY_atRow _ (by decide), if_pos rfl, Loopy.incY_iter_atRow _ _ (by omega), Nat.zero_add]
  exact Loopy.ofFields_toggle _ n m _ d

theorem rendering_eq_true (p : Ppu) : p.rendering = true ↔ p.mask.getLsbD 3 ∨ p.mask.getLsbD 4 := by
  simp [Ppu.rendering, maskRendering]

/-- How many rows a catch-up during a visible line moves down: the lines since the last one, while rendering. -/
def Ppu.rowsBehind (p : Ppu) : Nat := if p.mask.getLsbD 3 ∨ p.mask.getLsbD 4 then p.line + 1 - p.liveLine else 0

theorem catchUpIfVisible_of_visible {p : Ppu} (h : p.line ≤ 239) : catchUpIfVisible p =
    { p with v := Loopy.incY^[p.rowsBehind] p.v, t := Loopy.incY^[p.rowsBehind] p.t, liveLine := p.line + 1 } := by
  have hvisible : p.visible = true := decide_eq_true h
  have hrows : (if p.rendering = true then p.line + 1 - p.liveLine else 0) = p.rowsBehind := by
    simp only [rendering_eq_true, Ppu.rowsBehind]
  rw [catchUpIfVisible, if_pos hvisible, catchUp]
  simp only [hrows]

theorem catchUpIfVisible_of_blank {p : Ppu} (h : 240 ≤ p.line) : catchUpIfVisible p = p :=
  if_neg fun hv => absurd (of_decide_eq_true hv) (by omega)

/-- A catch-up moves down the rows it is asked for since the one before. -/
theorem catchUpIfVisible_later {p : Ppu} {later : Nat} (hlive : p.liveLine ≤ p.line + 1) (h : p.line ≤ later) (hlater : later ≤ 239) :
    catchUpIfVisible { catchUpIfVisible p with line := later } = catchUpIfVisible { p with line := later } := by
  have hsum : ({ catchUpIfVisible p with line := later } : Ppu).rowsBehind + p.rowsBehind =
      ({ p with line := later } : Ppu).rowsBehind := by
    rw [catchUpIfVisible_of_visible (h.trans hlater)]
    simp only [Ppu.rowsBehind]
    split <;> omega
  rw [catchUpIfVisible_of_visible (p := { p with line := later }) hlater, ← hsum,
    catchUpIfVisible_of_visible (p := { catchUpIfVisible p with line := later }) hlater]
  generalize ({ catchUpIfVisible p with line := later } : Ppu).rowsBehind = k
  simp only [Function.iterate_add_apply, catchUpIfVisible_of_visible (h.trans hlater)]

/-- Settles O46: the increment by its rows, and the catch-up by how many rows it moves. -/
theorem scrollCatchUp : Obligations.ScrollCatchUp := by
  unfold Obligations.ScrollCatchUp
  exact ⟨Loopy.incY_rows, Loopy.incY_horizontal, fun _ => Loopy.incY_cycle, fun _ => catchUpIfVisible_of_visible,
    fun _ => catchUpIfVisible_of_blank, fun _ _ => catchUpIfVisible_later⟩

end Sys2Proof.Machine
end

/-! ## The PPU's events and line boundaries (53_ppu_timing_events.md R400-R418) -/

section
namespace Sys2Proof.Machine

/-! ### Recording (R411, R414, R418) -/

theorem record_full {capacity : Nat} {c : Change} {p : Ppu} (hfull : capacity ≤ p.nextQ.length + 1)
    (hnew : ∀ e ∈ p.nextQ, e.hasKey (targetLine p.line) c = false) : record capacity c p = .error .eventQueueOverflow := by
  have hany : p.nextQ.any (Event.hasKey (targetLine p.line) c) = false := List.any_eq_false.2 fun e he => by simp [hnew e he]
  have hroom : capacity - 1 ≤ p.nextQ.length := by omega
  simp only [record, hany, Bool.false_eq_true, if_false, if_pos hroom]

/-- Settles O47: `record_recorded` with the bound of `QueueOk.length_le`, and `record_full`. -/
theorem eventQueueRecording : Obligations.EventQueueRecording := by
  unfold Obligations.EventQueueRecording
  intro p c capacity hc line
  refine ⟨fun hq hcap => ?_, fun hfull hnew => record_full hfull hnew⟩
  obtain ⟨es, hes, hqueue, hrec⟩ := record_recorded hcap hc hq
  exact ⟨es, hes, hrec, hqueue, hqueue.length_le (targetLine_le p.line)⟩

/-! ### One dot (R400, R401) -/

theorem tickDot_inside {s : State} (h : (s.ppu.dots + 1) % 341 ≠ 0) :
    tickDot s = .ok { s with ppu := { s.ppu with dots := s.ppu.dots + 1 } } := if_neg h

/-- The machine as the PPU leaves the line it is on: the MMC3 counter is clocked on a rendered one (R401). -/
def leaveLine (s : State) : State :=
  if (s.ppu.mask.getLsbD 3 ∨ s.ppu.mask.getLsbD 4) ∧ (s.ppu.line ≤ 239 ∨ s.ppu.line = 261) then mmc3Clock s else s

theorem clocksMapper_eq_true (p : Ppu) :
    clocksMapper p = true ↔ (p.mask.getLsbD 3 ∨ p.mask.getLsbD 4) ∧ (p.line ≤ 239 ∨ p.line = 261) := by
  rw [clocksMapper, Bool.and_eq_true, rendering_eq_true, and_comm]
  simp

theorem leaveLine_eq (s : State) : (if clocksMapper s.ppu then mmc3Clock s else s) = leaveLine s := by
  simp only [leaveLine, clocksMapper_eq_true]

theorem leaveLine_withPpu (s : State) (dots : Nat) : leaveLine (s.withPpu { s.ppu with dots := dots }) =
    (leaveLine s).withPpu { s.ppu with dots := dots } := by
  have hclocks : clocksMapper (s.withPpu { s.ppu with dots := dots }).ppu = clocksMapper s.ppu := rfl
  rw [← leaveLine_eq, ← leaveLine_eq, hclocks]
  cases clocksMapper s.ppu
  · rfl
  · exact mmc3Clock_withPpu s _

/-- What leaving a line can change. -/
theorem leaveLine_shape (s : State) : ∃ r irq line, leaveLine s = { s with
    mapper := { s.mapper with regs := r, irq := irq }, cpu := { s.cpu with irqLines := ⟨line, s.cpu.irqLines.external⟩ } } := by
  unfold leaveLine
  split
  · exact mmc3Clock_shape s
  · exact ⟨s.mapper.regs, s.mapper.irq, s.cpu.irqLines.mapper, rfl⟩

/-- At a boundary the line left may clock the counter, and then the next line starts. -/
theorem tickDot_boundary {s : State} (h : s.Inv) (hb : (s.ppu.dots + 1) % 341 = 0) : tickDot s =
    setHcount ((s.ppu.line + 1) % 262) ((leaveLine s).withPpu { s.ppu with dots := s.ppu.dots + 1 }) := by
  have hpos := h.timing.position
  simp only [Config.dotsPerLine, Config.linesPerFrame] at hpos
  have hline : (s.ppu.dots + 1) / 341 % 262 = (s.ppu.line + 1) % 262 := by omega
  rw [← leaveLine_withPpu, ← leaveLine_eq, ← hline]
  exact if_pos hb

/-! ### The start of a line (R402, R403, R425) -/

theorem setVblank_eq (s : State) : setVblank s = callVblank { s with
    cpu := { s.cpu with nmiPending := s.cpu.nmiPending || s.ppu.ctrl.getLsbD 7 }
    ppu := render s.cart s.ppu.enterVblank } := by
  have hctrl : s.ppu.enterVblank.ctrl = s.ppu.ctrl := rfl
  simp only [setVblank, withPpu_ppu, hctrl]
  cases s.ppu.ctrl.getLsbD 7
  · simp only [Bool.or_false]
    rfl
  · simp only [Bool.or_true]
    rfl

theorem clearVblank_spec {capacity : Nat} {p q : Ppu} (h : p.clearVblank capacity = .ok q) :
    q = { p with
      vblank := false
      hit := false
      v := if p.mask.getLsbD 3 ∨ p.mask.getLsbD 4 then p.t else p.v
      liveLine := 0
      nextQ := q.nextQ } ∧
    Recorded (targetLine p.line) [.scroll (q.v.setWidth 18 ||| p.x.setWidth 18 <<< 15)] p.nextQ q.nextQ := by
  obtain ⟨hq, hrec⟩ := record_scroll h
  have hx : q.x = p.x := by rw [hq]
  rw [scrollChange_eq, hx] at hrec
  simp only [rendering_eq_true] at hq
  exact ⟨hq, hrec⟩

/-- Settles O48: inside a line by `tickDot_inside`; at a boundary the start of the line it reaches, row by row of R401. -/
theorem lineBoundaries : Obligations.LineBoundaries := by
  unfold Obligations.LineBoundaries
  intro s h p line rendering clocked called
  obtain ⟨t, ht, -⟩ := tickDot_spec h
  have of_eq {u : State} (hu : tickDot s = .ok u) : t = u := Except.ok.inj (ht.symm.trans hu)
  obtain ⟨hcalled0, hcalled⟩ := callVblank_shape s
  refine ⟨t, ht, fun hin => of_eq (tickDot_inside hin), fun hb => ?_, hcalled0, hcalled⟩
  have hstart {l : Nat} (hl : line = l) : tickDot s = setHcount l ((leaveLine s).withPpu { p with dots := p.dots + 1 }) := by
    rw [← hl]
    exact tickDot_boundary h hb
  have hclocked : clocked = leaveLine s := rfl
  obtain ⟨r, irq, irqLine, hleave⟩ := leaveLine_shape s
  rw [hclocked]
  refine ⟨fun hl => of_eq ?_, fun hl => ?_, fun hl1 hl2 => of_eq ?_, fun hl => of_eq ?_⟩
  · rw [hstart hl, setHcount_240, setVblank_eq, hleave]
    rfl
  · rw [hstart hl, setHcount_261] at ht
    cases hq : Ppu.clearVblank (leaveLine s).cfg.eventCapacity { p with dots := p.dots + 1, line := 261 } with
    | error e => exact absurd ((congrArg (Except.map _) hq).symm.trans ht) nofun
    | ok q =>
      obtain ⟨hqeq, hrec⟩ := clearVblank_spec hq
      obtain rfl : (leaveLine s).withPpu q = t := Except.ok.inj ((congrArg (Except.map _) hq).symm.trans ht)
      refine ⟨?_, hrec⟩
      rw [hqeq, hleave]
      rfl
  · rw [hstart rfl, setHcount_blank hl1 hl2]
    rfl
  · rw [hstart rfl, setHcount_visible hl, hleave]
    rfl

end Sys2Proof.Machine
end

/-! ## Sprites and pixels (53_ppu_timing_events.md R425-R428; 54_ppu_renderer.md R442-R450) -/

section
namespace Sys2Proof.Machine

/-! ### The sprite-zero hit (R425, R426) -/

/-- A row of a sprite has an opaque pixel. -/
def opaqueRow (cart : Cart) (p : Ppu) (tile attr : Byte) (h r : Nat) : Bool :=
  let row := spriteRow cart p.vram p.chrOff p.ctrl tile attr h r
  row.1 ||| row.2 ≠ 0

theorem opaqueRow_iff (cart : Cart) (p : Ppu) (tile attr : Byte) (h r : Nat) : opaqueRow cart p tile attr h r = true ↔
    (spriteRow cart p.vram p.chrOff p.ctrl tile attr h r).1 ≠ 0 ∨ (spriteRow cart p.vram p.chrOff p.ctrl tile attr h r).2 ≠ 0 :=
  decide_eq_true_iff.trans ((not_congr BitVec.or_eq_zero_iff).trans not_and_or)

/-- The first opaque row is at or above a row of the sprite when one of the rows up to it is opaque. -/
theorem firstOpaqueRow_le_iff (cart : Cart) (p : Ppu) (tile attr : Byte) {h k : Nat} (hk : k < h) :
    firstOpaqueRow cart p tile attr h ≤ k ↔ ∃ r ≤ k, opaqueRow cart p tile attr h r = true := by
  have hfirst : firstOpaqueRow cart p tile attr h = ((List.range h).find? (opaqueRow cart p tile attr h)).getD h := rfl
  rw [hfirst]
  cases hf : (List.range h).find? (opaqueRow cart p tile attr h) with
  | none =>
    refine ⟨fun hle => absurd hle (Nat.not_le.2 hk), fun ⟨r, hr, hopaque⟩ => ?_⟩
    exact absurd hopaque (List.find?_eq_none.1 hf r (List.mem_range.2 (by omega)))
  | some i =>
    obtain ⟨hi, -, hbefore⟩ := List.find?_range_eq_some.1 hf
    refine ⟨fun hle => ⟨i, hle, hi⟩, fun ⟨r, hr, hopaque⟩ => Nat.le_trans (Nat.not_lt.1 fun hlt => ?_) hr⟩
    simpa [hopaque] using hbefore r hlt

theorem spriteZeroHits_iff (cart : Cart) (p : Ppu) (line : Nat) :
    let y := (Memory.read p.oam 0).toNat
    let h := spriteHeight p.ctrl
    let row (r : Nat) := spriteRow cart p.vram p.chrOff p.ctrl (Memory.read p.oam 1) (Memory.read p.oam 2) h r
    spriteZeroHits cart line p = true ↔ p.mask.getLsbD 3 = true ∧ p.mask.getLsbD 4 = true ∧ y + 1 ≤ line ∧ line < y + 1 + h ∧
      (Memory.read p.oam 3).toNat ≤ 254 ∧ ∃ r ≤ line - (y + 1), (row r).1 ≠ 0 ∨ (row r).2 ≠ 0 := by
  intro y h row
  simp only [spriteZeroHits, Bool.and_eq_true, decide_eq_true_eq, and_assoc]
  refine and_congr_right fun _ => and_congr_right fun _ => and_congr_right fun htop => and_congr_right fun hbottom =>
    and_congr_right fun _ => ?_
  rw [firstOpaqueRow_le_iff cart p _ _ (by omega)]
  exact exists_congr fun r => and_congr_right fun _ => opaqueRow_iff cart p _ _ _ r

theorem memRead_hit (a : Addr) (s : State) : (memRead a s).2.ppu.hit = s.ppu.hit := by
  obtain ⟨vb, v, t, w, rb, l, sh1, sh2, h, -⟩ := memRead_frame a s
  rw [h]

/-! ### The pattern rows of a sprite (R426) -/

theorem spriteRow_8 (cart : Cart) (vram : Memory) (chrOff : Vector Nat 8) (ctrl tile attr : Byte) {r : Nat} (hr : r < 8) :
    let pr := if attr.getLsbD 7 then 8 - 1 - r else r
    let address := (if ctrl.getLsbD 3 then 0x1000 else 0) + 16 * tile.toNat + pr
    spriteRow cart vram chrOff ctrl tile attr 8 r =
      (patRead cart vram chrOff (BitVec.ofNat 13 address), patRead cart vram chrOff (BitVec.ofNat 13 (address + 8))) := by
  intro pr address
  have hpr : (BitVec.ofNat 3 pr).toNat = pr := by
    have hlt : pr < 8 := by simp only [pr]; split <;> omega
    exact Nat.mod_eq_of_lt hlt
  obtain ⟨hlo, hhi⟩ := patternAddr_eq (ctrl.extractLsb' 3 1) tile (BitVec.ofNat 3 pr)
  rw [table_toNat, hpr] at hlo hhi
  simp only [spriteRow, if_true]
  rw [hlo, hhi]

theorem toNat_and_fe (tile : Byte) : (tile &&& 0xFE).toNat = tile.toNat / 2 * 2 := by
  revert tile
  decide

theorem spriteRow_16 (cart : Cart) (vram : Memory) (chrOff : Vector Nat 8) (ctrl tile attr : Byte) {r : Nat} (hr : r < 16) :
    let pr := if attr.getLsbD 7 then 16 - 1 - r else r
    let address := 0x1000 * (tile.toNat % 2) + 16 * (tile.toNat / 2 * 2 + pr / 8) + pr % 8
    spriteRow cart vram chrOff ctrl tile attr 16 r =
      (patRead cart vram chrOff (BitVec.ofNat 13 address), patRead cart vram chrOff (BitVec.ofNat 13 (address + 8))) := by
  intro pr address
  have hlt : pr < 16 := by simp only [pr]; split <;> omega
  have hpr : (BitVec.ofNat 3 pr).toNat = pr % 8 := BitVec.toNat_ofNat pr 3
  have htable : (tile.extractLsb' 0 1 : BitVec 1).toNat = tile.toNat % 2 := by rw [toNat_extract_eq]; simp
  have htile : ((tile &&& 0xFE) + (if 8 ≤ pr then 1 else 0) : Byte).toNat = tile.toNat / 2 * 2 + pr / 8 := by
    have htl := tile.isLt
    rw [BitVec.toNat_add, toNat_and_fe]
    split
    · rw [show (1 : Byte).toNat = 1 from rfl]
      omega
    · rw [show (0 : Byte).toNat = 0 from rfl]
      omega
  obtain ⟨hlo, hhi⟩ := patternAddr_eq (tile.extractLsb' 0 1) ((tile &&& 0xFE) + (if 8 ≤ pr then 1 else 0)) (BitVec.ofNat 3 pr)
  rw [htable, htile, hpr] at hlo hhi
  simp only [spriteRow, show ¬ (16 = 8) by decide, if_false]
  rw [hlo, hhi]

/-- Settles O50: the condition by `spriteZeroHits_iff`, and the rows of the two heights. -/
theorem spriteZeroHit : Obligations.SpriteZeroHit := by
  unfold Obligations.SpriteZeroHit
  refine ⟨fun cart p line => ⟨?_, rfl⟩, fun s a => memRead_hit a s, fun cart vram chrOff ctrl tile attr h r hh hr => ?_⟩
  · rw [spriteZeroCheck, Bool.or_eq_true]
    exact or_congr_right (spriteZeroHits_iff cart p line)
  · rcases hh with rfl | rfl
    · exact spriteRow_8 cart vram chrOff ctrl tile attr hr
    · exact spriteRow_16 cart vram chrOff ctrl tile attr hr

end Sys2Proof.Machine
end

/-! ## The pixels of a line (54_ppu_renderer.md R442-R450) -/

section
namespace Sys2Proof.Machine

/-! ### The sprite candidate of a pixel (R446, R448) -/

section
variable (cart : Cart) (vram oam : Memory) (w : Snapshot) (line px : Nat)

/-- The mask shows sprites at this column. -/
abbrev showsSprites : Prop := w.mask.getLsbD 4 = true ∧ (8 ≤ px ∨ w.mask.getLsbD 2 = true)

theorem spriteCandidate_of_hidden (h : ¬ showsSprites w px) : spriteCandidate cart vram oam w line px = none := by
  rw [spriteCandidate]
  by_cases h4 : w.mask.getLsbD 4 = true
  · have h2 : w.mask.getLsbD 2 = false := Bool.eq_false_iff.2 fun h2 => h ⟨h4, .inr h2⟩
    have hlt : px < 8 := Nat.lt_of_not_le fun hle => h ⟨h4, .inl hle⟩
    rw [h4, h2, if_neg (by decide), if_pos (by simpa using hlt)]
  · rw [Bool.eq_false_iff.2 h4, if_pos (by decide)]

theorem spriteCandidate_of_shown (h : showsSprites w px) :
    spriteCandidate cart vram oam w line px = (List.range 64).findSome? (spritePixel cart vram oam w line px) := by
  obtain ⟨h4, hleft⟩ := h
  have hcond : ¬ ((decide (px < 8) && !w.mask.getLsbD 2) = true) := by
    rw [Bool.and_eq_true, decide_eq_true_eq, Bool.not_eq_true']
    rintro ⟨hlt, h2⟩
    exact hleft.elim (Nat.not_le.2 hlt) (Bool.eq_false_iff.1 h2)
  rw [spriteCandidate, h4, if_neg (by decide), if_neg hcond]

variable {cart vram oam w line px}

theorem spriteCandidate_of_transparent (h : ∀ i < 64, spriteColour cart vram oam w line px i = 0) :
    spriteCandidate cart vram oam w line px = none := by
  by_cases hs : showsSprites w px
  · rw [spriteCandidate_of_shown cart vram oam w line px hs, List.findSome?_eq_none_iff]
    intro i hi
    rw [spritePixel_eq, if_pos (h i (List.mem_range.1 hi))]
  · exact spriteCandidate_of_hidden cart vram oam w line px hs

/-- The lowest-numbered opaque sprite is the candidate (R446). -/
theorem spriteCandidate_of_first {i : Nat} (hi : i < 64) (hs : showsSprites w px)
    (hopaque : spriteColour cart vram oam w line px i ≠ 0) (hfirst : ∀ j < i, spriteColour cart vram oam w line px j = 0) :
    spriteCandidate cart vram oam w line px = some ((1 : BitVec 1) ++ ((Memory.read oam (4 * i + 2)).setWidth 2 : BitVec 2) ++
      BitVec.ofNat 2 (spriteColour cart vram oam w line px i), (Memory.read oam (4 * i + 2)).getLsbD 5) := by
  obtain ⟨k, hk⟩ : ∃ k, 64 = i + (k + 1) := ⟨63 - i, by omega⟩
  rw [spriteCandidate_of_shown cart vram oam w line px hs, hk, List.range_add, List.range_succ_eq_map, List.map_cons,
    Nat.add_zero, List.findSome?_eq_some_iff]
  refine ⟨_, i, _, rfl, by rw [spritePixel_eq, if_neg hopaque], fun j hj => ?_⟩
  rw [spritePixel_eq, if_pos (hfirst j (List.mem_range.1 hj))]

theorem spriteColour_lt (i : Nat) : spriteColour cart vram oam w line px i < 4 := by
  have hcolour (lo hi : Byte) (b : Nat) : colourOf lo hi b < 4 := by
    rw [← planeColour_toNat]
    exact BitVec.isLt _
  have hcovered {P : Prop} [Decidable P] {x : Nat} (hx : x < 4) : (if P then x else 0) < 4 := by split <;> omega
  exact hcovered (hcolour _ _ _)

theorem spriteIndex_toNat (attr : Byte) (i : Nat) :
    ((1 : BitVec 1) ++ (attr.setWidth 2 : BitVec 2) ++ BitVec.ofNat 2 (spriteColour cart vram oam w line px i)).toNat =
      16 + 4 * (attr.toNat % 4) + spriteColour cart vram oam w line px i := by
  have hlt := spriteColour_lt (cart := cart) (vram := vram) (oam := oam) (w := w) (line := line) (px := px) i
  rw [toNat_append_eq, toNat_append_eq, BitVec.toNat_ofNat, BitVec.toNat_setWidth, show (1 : BitVec 1).toNat = 1 from rfl]
  omega

end

/-! ### The pixel (R447) -/

section
variable {cart : Cart} {vram oam : Memory} {w : Snapshot} {line px : Nat}

theorem pixel_of_none (h : spriteCandidate cart vram oam w line px = none) :
    pixel cart vram oam w line px = background cart vram w px := by rw [pixel, h, compose]

theorem pixel_of_some {index : BitVec 5} {behind : Bool} (h : spriteCandidate cart vram oam w line px = some (index, behind)) :
    pixel cart vram oam w line px =
      if (background cart vram w px).toNat = 0 ∨ behind = false then index else background cart vram w px := by
  have hfront : (decide (background cart vram w px = 0) || !behind) = true ↔
      (background cart vram w px).toNat = 0 ∨ behind = false := by
    rw [Bool.or_eq_true, decide_eq_true_eq, Bool.not_eq_true', ← BitVec.toNat_inj]
    rfl
  rw [pixel, h, compose]
  exact if_congr hfront rfl rfl

/-- A pixel is the background's, or an opaque sprite's where the mask has sprites. -/
theorem pixel_cases : pixel cart vram oam w line px = background cart vram w px ∨
    (w.mask.getLsbD 4 = true ∧ 17 ≤ (pixel cart vram oam w line px).toNat ∧ (pixel cart vram oam w line px).toNat % 4 ≠ 0) := by
  cases hc : spriteCandidate cart vram oam w line px with
  | none => exact .inl (pixel_of_none hc)
  | some r =>
    rw [pixel_of_some hc]
    split
    · exact .inr (spriteCandidate_range hc)
    · exact .inl rfl

theorem pixel_range (h : (pixel cart vram oam w line px).toNat % 4 = 0) : (pixel cart vram oam w line px).toNat = 0 := by
  rcases pixel_cases (cart := cart) (vram := vram) (oam := oam) (w := w) (line := line) (px := px) with hp | ⟨-, -, hp⟩
  · rw [hp] at h ⊢
    exact (background_range cart vram w px).2 h
  · exact absurd h hp

/-- Without the sprites a pixel is the background's. -/
theorem pixel_of_spritesOff (h : w.mask.getLsbD 4 = false) : pixel cart vram oam w line px = background cart vram w px :=
  pixel_cases.resolve_right fun hp => Bool.eq_false_iff.1 h hp.1

theorem background_of_off (h : w.mask.getLsbD 3 = false) : background cart vram w px = 0 :=
  if_pos (by rw [h]; rfl)

/-- Without the background a pixel is the backdrop or a sprite's. -/
theorem pixel_of_backgroundOff (h : w.mask.getLsbD 3 = false) :
    (pixel cart vram oam w line px).toNat = 0 ∨ 17 ≤ (pixel cart vram oam w line px).toNat := by
  rcases pixel_cases (cart := cart) (vram := vram) (oam := oam) (w := w) (line := line) (px := px) with hp | ⟨-, hp, -⟩
  · rw [hp, background_of_off h]
    exact .inl rfl
  · exact .inr hp

end

/-! ### The bits that matter (R448, R450) -/

theorem getLsbD_of_and_eq {a b m : Byte} (h : a &&& m = b &&& m) {i : Nat} (hi : m.getLsbD i = true) : a.getLsbD i = b.getLsbD i := by
  have hbit := congrArg (·.getLsbD i) h
  simpa only [BitVec.getLsbD_and, hi, Bool.and_true] using hbit

theorem extractLsb'_one_congr {a b : Byte} {i : Nat} (h : a.getLsbD i = b.getLsbD i) :
    (a.extractLsb' i 1 : BitVec 1) = b.extractLsb' i 1 := by
  apply BitVec.eq_of_getLsbD_eq
  intro j hj
  obtain rfl : j = 0 := by omega
  simpa [BitVec.getLsbD_extractLsb'] using h

section
variable (cart : Cart) (vram oam : Memory) (w : Snapshot) (line px : Nat) {mask ctrl : Byte}
  (hmask : mask &&& 0x1E = w.mask &&& 0x1E) (hctrl : ctrl &&& 0x38 = w.ctrl &&& 0x38)

include hctrl in
theorem spritePixel_congr (i : Nat) : spritePixel cart vram oam { w with mask := mask, ctrl := ctrl } line px i =
    spritePixel cart vram oam w line px i := by
  have hheight : spriteHeight ctrl = spriteHeight w.ctrl := by
    rw [spriteHeight, spriteHeight, getLsbD_of_and_eq hctrl (i := 5) rfl]
  have htable : (ctrl.extractLsb' 3 1 : BitVec 1) = w.ctrl.extractLsb' 3 1 :=
    extractLsb'_one_congr (getLsbD_of_and_eq hctrl rfl)
  have hrow (tile attr : Byte) (h r : Nat) :
      spriteRow cart vram w.chrOff ctrl tile attr h r = spriteRow cart vram w.chrOff w.ctrl tile attr h r := by
    simp only [spriteRow, htable]
  simp only [spritePixel, hheight, hrow]

include hmask hctrl

theorem background_congr : background cart vram { w with mask := mask, ctrl := ctrl } px = background cart vram w px := by
  have h1 : mask.getLsbD 1 = w.mask.getLsbD 1 := getLsbD_of_and_eq hmask rfl
  have h3 : mask.getLsbD 3 = w.mask.getLsbD 3 := getLsbD_of_and_eq hmask rfl
  have htable : (ctrl.extractLsb' 4 1 : BitVec 1) = w.ctrl.extractLsb' 4 1 :=
    extractLsb'_one_congr (getLsbD_of_and_eq hctrl rfl)
  simp only [background, h1, h3, htable]

theorem pixel_congr : pixel cart vram oam { w with mask := mask, ctrl := ctrl } line px = pixel cart vram oam w line px := by
  have h2 : mask.getLsbD 2 = w.mask.getLsbD 2 := getLsbD_of_and_eq hmask rfl
  have h4 : mask.getLsbD 4 = w.mask.getLsbD 4 := getLsbD_of_and_eq hmask rfl
  have hpixels : spritePixel cart vram oam { w with mask := mask, ctrl := ctrl } line px = spritePixel cart vram oam w line px :=
    funext (spritePixel_congr cart vram oam w line px hctrl)
  rw [pixel, pixel, background_congr cart vram w px hmask hctrl]
  simp only [spriteCandidate, h2, h4, hpixels]

end

theorem getLsbD_of_and_eq_zero {a m : Byte} (h : a &&& m = 0) {i : Nat} (hi : m.getLsbD i = true) : a.getLsbD i = false := by
  rw [getLsbD_of_and_eq (b := 0) (h.trans (BitVec.zero_and).symm) hi]
  exact BitVec.getLsbD_zero

/-- Settles O51: the background by `background_toNat`, the sprites by their candidate, and the ranges by `pixel_cases`. -/
theorem pixelIndexes : Obligations.PixelIndexes := by
  unfold Obligations.PixelIndexes
  intro cart vram oam w line px mask ctrl n v column cx nx cy ny fy cell tile attrByte palette pattern base colour c background
    height attr top left colourAt sprites
  have hbg : (Machine.background cart vram w px).toNat = background := by
    rw [background_toNat]
    simp only [bgColour, bgPattern, bgTile, bgPalette, bgTable, ← Nat.add_assoc]
    rfl
  refine ⟨fun hs => ?_, fun hz => ?_, fun i hi hs hopaque hfirst => ?_, ⟨(pixel cart vram oam w line px).isLt, pixel_range⟩,
    fun hm => ?_, fun hm => pixel_of_backgroundOff (getLsbD_of_and_eq_zero hm rfl), fun hm => ?_,
    fun hm hc => pixel_congr cart vram oam w line px hm hc⟩
  · rw [← hbg]
    exact congrArg BitVec.toNat (pixel_of_none (spriteCandidate_of_hidden cart vram oam w line px hs))
  · rw [← hbg]
    exact congrArg BitVec.toNat (pixel_of_none (spriteCandidate_of_transparent hz))
  · have hpixel := pixel_of_some (spriteCandidate_of_first hi hs hopaque hfirst)
    simp only [n, hpixel, hbg]
    split
    · exact spriteIndex_toNat _ i
    · exact hbg
  · have hpixel : pixel cart vram oam w line px = 0 := by
      rw [pixel_of_spritesOff (getLsbD_of_and_eq_zero hm rfl), background_of_off (getLsbD_of_and_eq_zero hm rfl)]
    exact congrArg BitVec.toNat hpixel
  · have hpixel := congrArg BitVec.toNat (pixel_of_spritesOff (cart := cart) (vram := vram) (oam := oam) (line := line) (px := px)
      (getLsbD_of_and_eq_zero hm rfl : w.mask.getLsbD 4 = false))
    exact hpixel.trans_lt (background_range cart vram w px).1

end Sys2Proof.Machine
end

/-! ## The replay of a frame (54_ppu_renderer.md R440-R443, R449, R452) -/

section
namespace Sys2Proof.Machine

/-! ### The working copy of each line (R441) -/

/-- The working copy a line is drawn with: the events of its line, in order, on the copy of the line above moved down. -/
def workingCopy (queue : List Event) (base : Snapshot) : Nat → Snapshot
  | 0 => applyAt queue 0 base
  | l + 1 => applyAt queue (l + 1) (workingCopy queue base l).nextLine

theorem drawnWith_replay {queue : List Event} (h : QueueOk 240 queue) (base : Snapshot) {l : Nat} (hl : l < 240) :
    drawnWith (replay 0 base (queue ++ [⟨240, .stop⟩])) l = some (workingCopy queue base l) :=
  replay_drawn queue 0 base (workingCopy queue base) h.sorted h.noStop (fun e he => ⟨Nat.zero_le _, h.targets e he⟩) rfl
    (fun _ _ => rfl) l (Nat.zero_le _) hl

/-- A single event: the baseline moves down to its line, and the changed copy from there on. -/
theorem workingCopy_single (e : Event) (base : Snapshot) (l : Nat) : workingCopy [e] base l =
    if l < e.line then Snapshot.nextLine^[l] base
    else Snapshot.nextLine^[l - e.line] ((Snapshot.nextLine^[e.line] base).apply e.change) := by
  have happly (l : Nat) (w : Snapshot) : applyAt [e] l w = if e.line = l then w.apply e.change else w := applyAt_cons e [] l w
  induction l with
  | zero =>
    rw [workingCopy, happly]
    by_cases h0 : e.line = 0
    · rw [if_pos h0, if_neg (by omega), h0]
      rfl
    · rw [if_neg h0, if_pos (by omega)]
      rfl
  | succ l ih =>
    rw [workingCopy, happly, ih]
    rcases Nat.lt_trichotomy (l + 1) e.line with hlt | heq | hgt
    · rw [if_neg (by omega), if_pos (by omega), if_pos hlt, Function.iterate_succ_apply']
    · rw [if_pos heq.symm, if_pos (by omega), if_neg (by omega), ← heq, Nat.sub_self, Function.iterate_succ_apply']
      rfl
    · have hsub : l + 1 - e.line = l - e.line + 1 := by omega
      rw [if_neg (by omega), if_neg (by omega), if_neg (by omega), hsub, Function.iterate_succ_apply']

/-! ### What each line shows (R443, R449) -/

/-- The palette pass folds into palette RAM under every mirroring. -/
theorem fold_palette (mask : Byte) (index : BitVec 5) : fold mask (0x3F00 + index.setWidth 14) =
    0x3F00 + if index.toNat % 4 = 0 then index.toNat % 16 else index.toNat := by
  have hlt := index.isLt
  have haddr : (0x3F00 + index.setWidth 14 : PAddr).toNat = 0x3F00 + index.toNat := by
    rw [BitVec.toNat_add, BitVec.toNat_setWidth, show (0x3F00 : PAddr).toNat = 0x3F00 from rfl]
    omega
  have hlow : (0x3F00 + index.toNat) % 0x20 = index.toNat := by omega
  rw [fold, haddr, if_pos (by omega), paletteEntry_toNat, haddr, hlow]

theorem render_index_read {cart : Cart} {p : Ppu} {l px : Nat} {w : Snapshot} (hl : l < 240) (hpx : px < 256)
    (h : drawnWith (replay 0 p.renderBase p.curQ) l = some w) :
    Memory.read (render cart p).index (256 * l + px) = pixel cart p.vram p.oam w l px := by
  have hrow : (256 * l + px) / 256 = l := by omega
  have hcolumn : (256 * l + px) % 256 = px := by omega
  rw [render_index, drawLines_read, if_pos (by omega), hrow, hcolumn, h]

theorem render_frameOut_read (cart : Cart) (p : Ppu) {l px : Nat} (hl : l < 240) (hpx : px < 256) :
    let index := (Memory.read (render cart p).index (256 * l + px)).toNat
    Memory.read (render cart p).frameOut (256 * l + px) =
      (Memory.read p.vram (0x3F00 + if index % 4 = 0 then index % 16 else index)).setWidth 6 := by
  intro index
  rw [render_frameOut, palettePass_read, if_pos (by omega), fold_palette]

theorem scrollX_eq (value : BitVec 18) : scrollX value = (value >>> 15).setWidth 3 := by
  apply BitVec.eq_of_toNat_eq
  rw [scrollX, toNat_extract_eq, BitVec.toNat_setWidth, BitVec.toNat_ushiftRight, Nat.shiftRight_eq_div_pow]

theorem set_slot (v : Vector Nat 8) (i : Fin 8) (off : Nat) : v.set i.1 off i.2 = v.setIfInBounds i.1 off := by
  apply Vector.ext
  intro k hk
  rw [Vector.getElem_set, Vector.getElem_setIfInBounds]

/-- Settles O52: the lines drawn are those of `workingCopy`, whose steps are the events of a line and the move down. -/
theorem rasterEffect : Obligations.RasterEffect := by
  unfold Obligations.RasterEffect
  intro cart p queue line px hq hcur hline hpx change applied down drawn
  have hchange (w : Snapshot) (e : Event) : change w e = w.apply e.change := by
    simp only [change, Snapshot.apply, scrollV, scrollX_eq]
    cases e.change with
    | chrBank i off => simp only [set_slot]
    | _ => rfl
  have hdown (n : Nat) (w : Snapshot) : down n w = Snapshot.nextLine^[n] w := (nextLine_iter n w).symm
  have happlied (l : Nat) (w : Snapshot) : applied l w = applyAt queue l w := by
    simp only [applied, applyAt, ← hchange]
  have hdrawn : drawn line (workingCopy queue p.renderBase line) := by
    have hindex := render_index_read (cart := cart) (p := p) hline hpx (hcur ▸ drawnWith_replay hq p.renderBase hline)
    have hframe := render_frameOut_read cart p hline hpx
    rw [hindex] at hframe
    exact ⟨hindex, hframe⟩
  refine ⟨⟨workingCopy queue p.renderBase, (happlied 0 _).symm, fun l => ?_, hdrawn⟩, fun e he => ?_⟩
  · rw [happlied, hdown]
    rfl
  · subst he
    rw [workingCopy_single] at hdrawn
    simp only [hdown, hchange]
    exact hdrawn

/-! ### Determinism (R440, R452) -/

/-- Every cell of the index buffer is drawn. -/
theorem render_index_congr (cart : Cart) {p q : Ppu} {queue : List Event} (h : QueueOk 240 queue) (hcur : p.curQ = queue ++ [⟨240, .stop⟩])
    (hqueue : q.curQ = p.curQ) (hbase : q.renderBase = p.renderBase) (hvram : q.vram = p.vram) (hoam : q.oam = p.oam) :
    (render cart q).index = (render cart p).index := by
  refine Memory.ext (render_index_ok cart q).canonical (render_index_ok cart p).canonical fun k => ?_
  rw [render_index, render_index, drawLines_read, drawLines_read, hqueue, hbase, hvram, hoam, hcur]
  split
  · rw [drawnWith_replay h p.renderBase (by omega)]
  · rfl

theorem palettePass_congr (vram : Memory) (m m' : Byte) (index : Cells 5) : palettePass vram m index = palettePass vram m' index := by
  simp only [palettePass, fold_palette]

/-- Settles O53: no cell of the index buffer is left over, and the palette pass reads palette RAM only. -/
theorem renderDeterminism : Obligations.RenderDeterminism := by
  unfold Obligations.RenderDeterminism
  intro cart p q queue h hcur hqueue hbase hvram hoam
  have hindex := render_index_congr cart h hcur hqueue hbase hvram hoam
  have hframe : (render cart q).frameOut = (render cart p).frameOut := by
    rw [render_frameOut, render_frameOut, hindex, hvram, palettePass_congr]
  refine ⟨hindex, hframe, ?_⟩
  rw [← hindex, ← hframe]
  exact render_rest cart q

end Sys2Proof.Machine
end

/-! ## Interrupts, reset and loading (60_exceptions.md, 70_reset_and_hazards.md, 55_console_host.md) -/

section
namespace Sys2Proof.Machine

/-! ### What a step does first (R502-R507) -/

/-- The poll finds an NMI whatever I holds, and an IRQ only where I is clear (R504). -/
theorem interruptDue_nmi {c : Cpu} (h : c.nmiPending = true) : interruptDue c = some .nmi := if_pos h

theorem interruptDue_irq {c : Cpu} (h : c.nmiPending = false) (hreq : c.irqLines.requested = true) (hi : c.i = false) :
    interruptDue c = some .irq := by
  simp [interruptDue, h, hreq, hi]

theorem interruptDue_none {c : Cpu} (h : c.nmiPending = false) (hno : c.irqLines.requested = false ∨ c.i = true) :
    interruptDue c = none := by
  rcases hno with hreq | hi
  · simp [interruptDue, h, hreq]
  · simp [interruptDue, h, hi]

theorem cpuStep_of_some {s : State} {i : Interrupt} (h : interruptDue s.cpu = some i) : cpuStep s = takeInterrupt i s := by
  rw [cpuStep, h]

theorem cpuStep_of_none {s : State} (h : interruptDue s.cpu = none) : cpuStep s = exec (fetchInstr s).1 (fetchInstr s).2 := by
  rw [cpuStep, h]

/-- Settles O33: the poll's three outcomes, and the entry by its result. -/
theorem interruptPriorityAndEntry : Obligations.InterruptPriorityAndEntry := by
  unfold Obligations.InterruptPriorityAndEntry
  intro s hl runs requested sp entered
  have hruns {r : Result} (h : cpuStep s = r) : runs r := (if_pos hl).trans (by rw [h])
  obtain ⟨hbreak, hbit5⟩ := statusByte_b false s.cpu
  refine ⟨fun hnmi => hruns ?_, fun hnmi hreq hi => hruns ?_, fun hnmi hno => hruns ?_, hbreak, hbit5⟩
  · have hentry := complete_enterVector (vec := nmiVector) (by decide) (by decide) s.cpu.pc false
      (s.withCpu { s.cpu with nmiPending := false })
    rw [peek_withCpu s _ (isMemory_of_ge (by decide)), peek_withCpu s _ (isMemory_of_ge (by decide))] at hentry
    exact (cpuStep_of_some (interruptDue_nmi hnmi)).trans hentry
  · exact (cpuStep_of_some (interruptDue_irq hnmi hreq hi)).trans
      (complete_enterVector (vec := irqVector) (by decide) (by decide) s.cpu.pc false s)
  · exact cpuStep_of_none (interruptDue_none hnmi hno)

/-! ### Reset (R530-R532) -/

/-- Settles O57: nothing is listed, nothing is loaded, and the parameters are the defaults. -/
theorem resetInvariant : Obligations.ResetInvariant := by
  unfold Obligations.ResetInvariant
  exact {
    memories := ⟨.nil _, .nil _, .nil _, .nil _, .nil _, .nil _, .nil _, .nil _, .nil _⟩
    mapper := ⟨trivial, nofun, by decide, rfl, rfl, rfl, rfl⟩
    timing := ⟨rfl, Nat.zero_le _, QueueOk.nil _, .inl rfl⟩
    cart := ⟨nofun, by decide, by decide, .inl rfl⟩
    config := by decide }

theorem consoleReset_unloaded {s : State} (h : s.console.loaded = false) : consoleReset s = .next s := by
  rw [consoleReset, if_neg (by simp [h])]

theorem consoleReset_loaded {s t : State} (h : s.console.loaded = true) (ht : systemReset s = .ok t) : consoleReset s = .next t := by
  rw [consoleReset, if_pos h, ht]
  rfl

/-- MMC1's control register starts in PRG mode 3 with the header's mirroring in its low bits (R354). -/
theorem powerOnRegs_eq (v : Variant) (header : Mirroring) : powerOnRegs v header = (match v with
    | .nrom => .nrom
    | .mmc1 => .mmc1 ⟨0x10, if header = .vertical then 0x0E else 0x0F, 0, 0, 0⟩
    | .uxrom => .uxrom 0
    | .cnrom => .cnrom 0
    | .mmc3 => .mmc3 ⟨0, #v[0, 2, 4, 5, 6, 7, 0, 1], 0, 0, false, false⟩
    | .axrom => .axrom) := by
  cases v with
  | mmc1 => cases header <;> rfl
  | nrom | uxrom | cnrom | mmc3 | axrom => rfl

/-- Settles O54: the state after the reset is written out in `afterReset`, and its mapper in `powered`. -/
theorem systemReset_result : Obligations.SystemReset := by
  unfold Obligations.SystemReset
  intro s h c last
  refine ⟨consoleReset_unloaded, fun hl => ?_⟩
  obtain ⟨hok, hinv⟩ := systemReset_eq (clearForReset_core h.core) (h.cart.someP hl)
  obtain ⟨hhi, _⟩ := peek_rom (s := { s with mapper := powered s.cart }) (t := afterReset s) rfl rfl
  refine ⟨afterReset s, consoleReset_loaded hl hok, hinv, ?_, rfl, powerOnRegs_eq _ _, rfl, rfl, fun hchr => if_pos hchr⟩
  rw [← afterReset_pc s, hhi]
  rfl

/-! ### Loading a ROM image (R480-R483) -/

/-- The four bytes of the magic number, one by one. -/
theorem take_four_eq_iff {image : List Byte} (h : 16 ≤ image.length) (b0 b1 b2 b3 : Byte) : image.take 4 = [b0, b1, b2, b3] ↔
    image.getD 0 0 = b0 ∧ image.getD 1 0 = b1 ∧ image.getD 2 0 = b2 ∧ image.getD 3 0 = b3 := by
  rcases image with _ | ⟨a0, _ | ⟨a1, _ | ⟨a2, _ | ⟨a3, rest⟩⟩⟩⟩
  · simp at h
  · simp at h
  · simp at h
  · simp at h
  · simp

/-- A legal machine registers supported numbers only, so a registered number has a variant. -/
theorem registeredVariant_of_mem {cfg : Config} (hcfg : cfg.Legal) {n : Nat} (h : n ∈ cfg.registeredMappers) :
    ∃ v, registeredVariant cfg n = some v ∧
      (n, v) ∈ [(0, Variant.nrom), (1, .mmc1), (2, .uxrom), (3, .cnrom), (4, .mmc3), (7, .axrom)] := by
  obtain ⟨_, _, _, hsub⟩ := hcfg
  rw [registeredVariant, if_pos h]
  have hn := hsub n h
  simp only [List.mem_cons, List.not_mem_nil, or_false] at hn
  rcases hn with rfl | rfl | rfl | rfl | rfl | rfl
  · exact ⟨.nrom, rfl, by decide⟩
  · exact ⟨.mmc1, rfl, by decide⟩
  · exact ⟨.uxrom, rfl, by decide⟩
  · exact ⟨.cnrom, rfl, by decide⟩
  · exact ⟨.mmc3, rfl, by decide⟩
  · exact ⟨.axrom, rfl, by decide⟩

/-- Where the PRG data of an image begins: after the header, and after the trainer where there is one (R482). -/
def dataStart (image : List Byte) : Nat := 16 + (if (image.getD 6 0).getLsbD 2 then 512 else 0)

/-- The cartridge of an image, with its data at the given places (R481, R482). -/
def imageCart (image : List Byte) (v : Variant) : Cart where
  variant := v
  headerMode := if (image.getD 6 0).getLsbD 0 then .vertical else .horizontal
  nPrg := (image.getD 4 0).toNat
  nChr := (image.getD 5 0).toNat
  prg := Memory.ofList 0 ((image.drop (dataStart image)).take (16384 * (image.getD 4 0).toNat))
  chr := Memory.ofList 0 ((image.drop (dataStart image + 16384 * (image.getD 4 0).toNat)).take (8192 * (image.getD 5 0).toNat))

/-- Every cell of a section of an image; a cell beyond the data is 0 (log entry 13). -/
theorem read_ofList_section {image : List Byte} (start size k : Nat) :
    Memory.read (Memory.ofList 0 ((image.drop start).take size)) k = if k < size then image.getD (start + k) 0 else 0 := by
  rw [Memory.read_ofList, if_pos (Nat.zero_le k), Nat.sub_zero, List.getD_eq_getElem?_getD, List.getElem?_take]
  split
  · rw [List.getElem?_drop, List.getD_eq_getElem?_getD]
  · rfl

theorem ok_ofList_section (image : List Byte) (start size : Nat) :
    Memory.Ok size (Memory.ofList 0 ((image.drop start).take size)) :=
  Memory.ok_ofList (by rw [Nat.zero_add]; exact List.length_take_le _ _)

section
variable {cfg : Config} {image : List Byte}

theorem parseImage_badMagic (h : image.length < 16 ∨ image.take 4 ≠ [0x4E, 0x45, 0x53, 0x1A]) :
    parseImage cfg image = .error .badMagic := if_pos h

variable (hmagic : ¬ (image.length < 16 ∨ image.take 4 ≠ [0x4E, 0x45, 0x53, 0x1A]))
include hmagic

theorem parseImage_unsupported (h : mapperNumber (image.getD 6 0) (image.getD 7 0) ∉ cfg.registeredMappers) :
    parseImage cfg image = .error (.unsupportedMapper (mapperNumber (image.getD 6 0) (image.getD 7 0))) := by
  rw [parseImage, if_neg hmagic, registeredVariant, if_neg h]

variable {v : Variant} (hv : registeredVariant cfg (mapperNumber (image.getD 6 0) (image.getD 7 0)) = some v)
include hv

theorem parseImage_noPrg (h : (image.getD 4 0).toNat = 0) : parseImage cfg image = .error .noPrg := by
  rw [parseImage, if_neg hmagic, hv]
  exact if_pos h

variable (hp : 0 < (image.getD 4 0).toNat)
include hp

theorem parseImage_truncated
    (h : image.length < dataStart image + 16384 * (image.getD 4 0).toNat + 8192 * (image.getD 5 0).toNat) :
    parseImage cfg image = .error .truncated := by
  rw [parseImage, if_neg hmagic, hv]
  exact (if_neg hp.ne').trans (if_pos h)

theorem parseImage_ok
    (h : dataStart image + 16384 * (image.getD 4 0).toNat + 8192 * (image.getD 5 0).toNat ≤ image.length) :
    parseImage cfg image = .ok (imageCart image v) := by
  rw [parseImage, if_neg hmagic, hv]
  exact (if_neg hp.ne').trans (if_neg (Nat.not_lt.2 h))

end

theorem loadRom_error {image : List Byte} {s : State} {e : LoadError} (h : parseImage s.cfg image = .error e) :
    loadRom image s = .error e := by
  rw [loadRom, h]

theorem loadRom_ok {image : List Byte} {s t : State} {c : Cart} (h : parseImage s.cfg image = .ok c)
    (ht : installCart c s = .ok t) : loadRom image s = .ok (.next t) := by
  rw [loadRom, h]
  exact congrArg (fun r => Except.ok (complete r)) ht

/-- Settles O55: the checks of `parseImage` one by one, and the machine that `installCart` leaves. -/
theorem romLoading : Obligations.RomLoading := by
  unfold Obligations.RomLoading
  intro image s h byte number nPrg nChr prgStart chrStart badMagic variants
  have hmagic : badMagic ↔ image.length < 16 ∨ image.take 4 ≠ [0x4E, 0x45, 0x53, 0x1A] := by
    by_cases hlen : image.length < 16
    · exact ⟨fun _ => .inl hlen, fun _ => .inl hlen⟩
    · exact or_congr Iff.rfl (not_congr (take_four_eq_iff (Nat.not_lt.1 hlen) _ _ _ _).symm)
  simp only [hmagic]
  refine ⟨fun hbad => loadRom_error (parseImage_badMagic hbad),
    fun hgood hnum => loadRom_error (parseImage_unsupported hgood hnum), fun hgood hnum hp => ?_,
    fun hgood hnum hp hlen => ?_, fun hgood hnum hp hlen => ?_⟩
  all_goals obtain ⟨v, hv, hmem⟩ := registeredVariant_of_mem h.config hnum
  · exact loadRom_error (parseImage_noPrg hgood hv hp)
  · exact loadRom_error (parseImage_truncated hgood hv hp hlen)
  · obtain ⟨t, ht, hinv, hcart, hconsole, hpaused, hcfg, hpad, hpc, hreset⟩ := installCart_eq h
      (c := imageCart image v) (ok_ofList_section _ _ _) (ok_ofList_section _ _ _) hp (byte 4).isLt (byte 5).isLt
      (by unfold imageCart; split <;> simp)
    have hloaded : t.console.loaded = true := by rw [hconsole]
    refine ⟨t, loadRom_ok (parseImage_ok hgood hv hp hlen) ht, hinv, ?_, ?_, ?_, ?_, ?_, ?_, hconsole, hpaused, hcfg, hpad,
      hpc, consoleReset_loaded hloaded hreset⟩
    all_goals rw [hcart]
    · exact hmem
    · rfl
    · rfl
    · rfl
    · exact read_ofList_section prgStart (16384 * nPrg)
    · exact read_ofList_section chrStart (8192 * nChr)

end Sys2Proof.Machine
end
